-- ==== Sys2Proof/Word.lean ====
section
/-! DEFINITION. Word types of the Etolo architecture (R4, R5, R32, R49). -/

namespace Sys2Proof

/-- A word is 64 bits unless a chapter names another width (R4). -/
abbrev Word := BitVec 64
abbrev Byte := BitVec 8
/-- One 32-bit lane of a vector register (R148). -/
abbrev Lane := BitVec 32
/-- An instruction word: 80 bits (R32). -/
abbrev IWord := BitVec 80
/-- A signature of 1,024 bits (R225). -/
abbrev Sig := BitVec 1024
/-- The five sticky flags of FPSTAT (R118): INEXACT, UNDERFLOW, OVERFLOW, DIVZERO, INVALID from bit 4 down. -/
abbrev Flags := BitVec 5

end Sys2Proof
end

