-- ==== Sys2Proof/Syntax.lean ====
section
/-! DEFINITION. The syntax of the machine's steps: one constructor of `Instr` for each row of the
spec's table of operations and events. An instruction constructor carries its common header and its
decoded operands (R38, R47, R49). What an event names (the agent that steps, and what comes from outside
the module) is an `EvArg` of the state. -/

namespace Sys2Proof

/-! ## Operands -/

/-- A g register, g0 to g63 (R49). -/
abbrev GReg := Fin 64
/-- A vector register, v0 to v31 (R49). -/
abbrev VReg := Fin 32
/-- A stream register, q0 to q7 (R49). -/
abbrev QReg := Fin 8
/-- A predicate, p0 to p7 (R49). -/
abbrev PReg := Fin 8
/-- A vector mask, m0 to m7 (R49). -/
abbrev MReg := Fin 8
/-- An accumulator tile, a0 to a63 (R49, R184). -/
abbrev ATile := Fin 64

/-- The common header, bits [69:50] (R38): producer distance, tag to allocate, two tags to consume,
and the guard (negate, predicate). -/
structure Hdr where
  pd : Fin 16
  ta : Fin 16
  tw0 : Fin 16
  tw1 : Fin 16
  neg : Bool
  pg : PReg
  deriving DecidableEq, Repr

/-- TYPE of R68. -/
inductive IntTy where
  | n64 | n32 | n16 | n8 | s64 | s32 | s16 | s8
  deriving DecidableEq, Repr

/-- Conditions of `cmp` and `cmpi` (R75). -/
inductive Cond where
  | eq | ne | lt | le | gt | ge | ltn | len | gtn | gen | tst | ntst
  deriving DecidableEq, Repr

/-- Widths of `cmp` (R75). -/
inductive CmpW where
  | w64 | w32 | w16 | w8
  deriving DecidableEq, Repr

/-- SIZE of R78. -/
inductive Size where
  | n8 | n16 | n32 | n64 | s8 | s16 | s32
  deriving DecidableEq, Repr

/-- The operand pairs of `mov` that touch no stream (R74). -/
inductive MovArg where
  | gg (d a : GReg)
  | gp (d : GReg) (a : PReg)
  | pg (d : PReg) (a : GReg)
  | pp (d a : PReg)
  deriving DecidableEq, Repr

/-- A memory operand of format M (R47). -/
structure MemOp where
  a : GReg
  b : GReg
  s : Fin 8
  disp : BitVec 21
  deriving DecidableEq, Repr

/-- Rounding modes of R115. -/
inductive Rm where
  | rne | rtz | rup | rdn | rna
  deriving DecidableEq, Repr

/-- FMT of R137. -/
inductive FFmt where
  | f64 | f32 | h16 | b16
  deriving DecidableEq, Repr

/-- `fsgn` operations (R138). -/
inductive SgnOp where
  | cp | neg | xor
  deriving DecidableEq, Repr

/-- Floating conditions (R140). -/
inductive FCond where
  | eq | ne | lt | le | gt | ge | uo | or
  deriving DecidableEq, Repr

/-- DST and SRC of `fcvt` (R141). -/
inductive CvtTy where
  | f64 | f32 | h16 | b16 | s64 | s32 | n64 | n32
  deriving DecidableEq, Repr

/-- VT of R149. -/
inductive VTy where
  | f32 | f64 | s32 | n32
  deriving DecidableEq, Repr

/-- OP of a vector arithmetic instruction: a rounding mode for a floating VT, saturation for an integer
VT (R149). -/
inductive VOp where
  | fp (rm : Rm)
  | int (sat : Bool)
  deriving DecidableEq, Repr

/-- A vector operand, or a g register read by every element (R150). -/
inductive VG where
  | v (r : VReg)
  | g (r : GReg)
  deriving DecidableEq, Repr

/-- Conditions of `vcmp` for either kind of VT (R153). -/
abbrev VCond := FCond

/-- `vlog` operations (R154). -/
inductive LogOp where
  | and | or | xor | andn | not
  deriving DecidableEq, Repr

/-- Operands of `vlog`: lanes (with MASK) or masks (R154). -/
inductive LogArg where
  | lanes (d a : VReg) (b : VG) (mask : MReg)
  | masks (d a b : MReg)
  deriving DecidableEq, Repr

/-- `vsh` operations (R154). -/
inductive ShOp where
  | shl | shr | sra | rol
  deriving DecidableEq, Repr

/-- DST and SRC of `vcvt` (R155). -/
inductive VCvtTy where
  | f32 | f64 | s32 | n32 | h16 | b16
  deriving DecidableEq, Repr

/-- `vred` and `vscan` operations (R158). -/
inductive RedOp where
  | add | min | max
  deriving DecidableEq, Repr

/-- `vsfu` functions (R161). -/
inductive SfuOp where
  | rcp | rsqrt | exp2 | log2 | sinpi | cospi | tanh | sigm
  deriving DecidableEq, Repr

/-- W of group 7 (R162). -/
inductive VW where
  | w32 | w64 | w16
  deriving DecidableEq, Repr

/-- ORD of R249. -/
inductive Ord where
  | relaxed | acq | rel | ar
  deriving DecidableEq, Repr

/-- OP of `amo`, `red`, `ramo` (R250). -/
inductive AmoOp where
  | add | and | or | xor | min | max | minn | maxn | swap | fadd | fmin | fmax
  deriving DecidableEq, Repr

/-- Operand formats of group 8 (R53). -/
inductive MFmt where
  | c8 | c4 | b16 | h16
  deriving DecidableEq, Repr

/-- SIZE of the gang code (R171). -/
inductive GangN where
  | g4 | g8 | g16 | g32 | g64
  deriving DecidableEq, Repr

/-- Output of `accq` (R187): a table code, or a 16-bit format with its rounding mode. -/
inductive AccqOut where
  | c8 (tab : Fin 2)
  | c4 (tab : Fin 2)
  | b16 (rm : Rm)
  | h16 (rm : Rm)
  deriving DecidableEq, Repr

/-- A mailbox side (R346). -/
inductive Side where
  | n | e | s | w
  deriving DecidableEq, Repr

/-- Operands shared by the gang instructions (R179, R182). -/
structure GangArg where
  t : ATile
  a : GReg
  b : GReg
  c : GReg
  n : GangN
  east : Bool
  deriving DecidableEq, Repr

/-! ## Packets and frames -/

/-- A Causeway packet (R279): header fields and data. -/
structure Packet where
  kind : Nat
  dstMod : Nat
  srcMod : Nat
  dy : Nat
  dx : Nat
  sy : Nat
  sx : Nat
  owner : Nat
  world : Nat
  xid : Nat
  seq : Nat
  addr : Word
  len : Nat
  op : Nat
  w32 : Bool
  size : Nat
  sub : Nat
  val : Word
  req : Word
  remain : Nat
  group : Option (List Word)
  data : List Byte
  /-- Not on the wire: the die whose edge takes the packet (R26, R390), and a record that no order binds (R277). -/
  die : Nat := 0
  loose : Bool := false
  deriving DecidableEq, Repr

/-- A link frame of 88 bytes (R280), as its fields. -/
structure Frame where
  flit : List Byte
  gtag : List Byte
  fseq : BitVec 16
  ack : BitVec 16
  fcrc : BitVec 32
  deriving DecidableEq, Repr

/-- What an error event names (R419): the bank that logs it, its code, the address, the consuming core
and the unit within the bank, the syndrome. -/
structure ErrInfo where
  bank : Nat
  code : Nat
  addr : Option Nat
  core : Option Nat
  unit : Nat
  synd : Word
  misc0 : Word
  misc1 : Word
  deriving DecidableEq, Repr

/-- What an event names: the core, the die or other unit, the operation, line, channel or slot, an address
or offset, a value, and what comes from outside. An event reads the fields that its constructor names. -/
structure EvArg where
  core : Nat
  unit : Nat
  id : Nat
  off : Nat
  v : Word
  list : List Nat
  data : List Byte
  frame : Option Frame
  pkt : Option Packet
  err : Option ErrInfo
  deriving DecidableEq, Repr

def EvArg.none : EvArg :=
  { core := 0, unit := 0, id := 0, off := 0, v := 0, list := [], data := [], frame := .none, pkt := .none,
    err := .none }

/-! ## The steps -/

/-- One constructor for each row of the table of operations and events. -/
inductive Instr where
  -- group 0
  | nop (h : Hdr)
  | br (h : Hdr) (off : BitVec 32)
  | brx (h : Hdr) (a : GReg)
  | call (h : Hdr) (d : GReg) (off : BitVec 32)
  | ret (h : Hdr) (a : GReg)
  | loop (h : Hdr) (d : GReg) (off : BitVec 32)
  | loopGt (h : Hdr) (a : GReg) (off : BitVec 32)
  | loopNz (h : Hdr) (a : GReg) (off : BitVec 32)
  | fin (h : Hdr)
  | trapi (h : Hdr) (imm : BitVec 32)
  | sysrd (h : Hdr) (d : GReg) (n : BitVec 12)
  | syswr (h : Hdr) (a : GReg) (n : BitVec 12)
  | syswrOwner (h : Hdr) (a : GReg)
  | syswrFpstat (h : Hdr) (a : GReg)
  | syswrStlscope (h : Hdr) (a : GReg)
  -- group 1
  | add (h : Hdr) (d a b : GReg) (ty : IntTy) (sat : Bool)
  | sub (h : Hdr) (d a b : GReg) (ty : IntTy) (sat : Bool)
  | mul (h : Hdr) (d a b : GReg) (ty : IntTy) (sat : Bool)
  | mulh (h : Hdr) (d a b : GReg) (ty : IntTy)
  | mulhn (h : Hdr) (d a b : GReg) (ty : IntTy)
  | div (h : Hdr) (d a b : GReg) (ty : IntTy)
  | divn (h : Hdr) (d a b : GReg) (ty : IntTy)
  | rem (h : Hdr) (d a b : GReg) (ty : IntTy)
  | remn (h : Hdr) (d a b : GReg) (ty : IntTy)
  | and (h : Hdr) (d a b : GReg)
  | or (h : Hdr) (d a b : GReg)
  | xor (h : Hdr) (d a b : GReg)
  | andn (h : Hdr) (d a b : GReg)
  | orn (h : Hdr) (d a b : GReg)
  | shl (h : Hdr) (d a b : GReg)
  | shr (h : Hdr) (d a b : GReg)
  | sra (h : Hdr) (d a b : GReg)
  | rol (h : Hdr) (d a b : GReg)
  | clz (h : Hdr) (d a : GReg)
  | ctz (h : Hdr) (d a : GReg)
  | popc (h : Hdr) (d a : GReg)
  | min (h : Hdr) (d a b : GReg) (ty : IntTy)
  | max (h : Hdr) (d a b : GReg) (ty : IntTy)
  | minn (h : Hdr) (d a b : GReg) (ty : IntTy)
  | maxn (h : Hdr) (d a b : GReg) (ty : IntTy)
  | abs (h : Hdr) (d a : GReg) (ty : IntTy) (sat : Bool)
  | sext (h : Hdr) (d a : GReg) (n1 : Fin 64)
  | zext (h : Hdr) (d a : GReg) (n1 : Fin 64)
  | bfx (h : Hdr) (d a b : GReg) (sign : Bool)
  | bfi (h : Hdr) (d a b c : GReg)
  | mov (h : Hdr) (x : MovArg)
  | movFromStream (h : Hdr) (d : GReg) (q : QReg)
  | movToStream (h : Hdr) (q : QReg) (a : GReg)
  | cmp (h : Hdr) (d : PReg) (a b : GReg) (c : Cond) (w : CmpW)
  | sel (h : Hdr) (d a b : GReg) (c : PReg)
  | plog (h : Hdr) (d a b : PReg) (tt : BitVec 4)
  -- group 2
  | addi (h : Hdr) (d a : GReg) (ty : IntTy) (sat : Bool) (imm : BitVec 32)
  | movi (h : Hdr) (d : GReg) (imm : BitVec 32)
  | moviN (h : Hdr) (d : GReg) (imm : BitVec 32)
  | movh (h : Hdr) (d a : GReg) (imm : BitVec 32)
  | lea (h : Hdr) (d : GReg) (x : MemOp)
  | cmpi (h : Hdr) (d : PReg) (a : GReg) (c : Cond) (imm : BitVec 32)
  | andImm (h : Hdr) (d a : GReg) (imm : BitVec 32)
  | orImm (h : Hdr) (d a : GReg) (imm : BitVec 32)
  | xorImm (h : Hdr) (d a : GReg) (imm : BitVec 32)
  | shlImm (h : Hdr) (d a : GReg) (n : Fin 64)
  | shrImm (h : Hdr) (d a : GReg) (n : Fin 64)
  | sraImm (h : Hdr) (d a : GReg) (n : Fin 64)
  | mulImm (h : Hdr) (d a : GReg) (ty : IntTy) (sat : Bool) (imm : BitVec 32)
  -- group 3
  | ld (h : Hdr) (d : GReg) (x : MemOp) (sz : Size) (na : Bool)
  | st (h : Hdr) (d : GReg) (x : MemOp) (sz : Size)
  | ldp (h : Hdr) (d : GReg) (x : MemOp) (na : Bool)
  | stp (h : Hdr) (d : GReg) (x : MemOp)
  | pfhL1 (h : Hdr) (x : MemOp)
  | pfhHome (h : Hdr) (x : MemOp)
  | cinvD (h : Hdr) (x : MemOp)
  | cinvI (h : Hdr) (x : MemOp)
  | cinvDa (h : Hdr)
  | cinvIa (h : Hdr)
  -- group 4
  | lda (h : Hdr) (d a b : GReg) (w32 : Bool) (disp : BitVec 21)
  | strl (h : Hdr) (d a b : GReg) (w32 : Bool) (disp : BitVec 21)
  | fence (h : Hdr) (c : GReg) (later : BitVec 4) (earlier : BitVec 3)
  | acq (h : Hdr) (d a c : GReg)
  | rel (h : Hdr) (a b c : GReg)
  | sigclr (h : Hdr) (a : GReg)
  | sigrd (h : Hdr) (d a : GReg) (j : Fin 32)
  | amo (h : Hdr) (d a b c : GReg) (op : AmoOp) (w32 : Bool) (ord : Ord)
  | red (h : Hdr) (a b : GReg) (op : AmoOp) (w32 : Bool)
  | cas (h : Hdr) (d a b c : GReg) (w32 : Bool) (ord : Ord)
  | bar (h : Hdr) (d a b c : GReg) (id : Fin 64) (ch : Fin 32)
  -- group 5
  | fadd (h : Hdr) (d a b : GReg) (f : FFmt) (rm : Rm)
  | fsub (h : Hdr) (d a b : GReg) (f : FFmt) (rm : Rm)
  | fmul (h : Hdr) (d a b : GReg) (f : FFmt) (rm : Rm)
  | fma (h : Hdr) (d a b c : GReg) (f : FFmt) (rm : Rm)
  | fms (h : Hdr) (d a b c : GReg) (f : FFmt) (rm : Rm)
  | fnma (h : Hdr) (d a b c : GReg) (f : FFmt) (rm : Rm)
  | fdiv (h : Hdr) (d a b : GReg) (f : FFmt) (rm : Rm)
  | fsqrt (h : Hdr) (d a : GReg) (f : FFmt) (rm : Rm)
  | fmin (h : Hdr) (d a b : GReg) (f : FFmt)
  | fmax (h : Hdr) (d a b : GReg) (f : FFmt)
  | fsgn (h : Hdr) (d a b : GReg) (f : FFmt) (op : SgnOp)
  | fcmp (h : Hdr) (d : PReg) (a b : GReg) (f : FFmt) (c : FCond)
  | fclass (h : Hdr) (d a : GReg) (f : FFmt)
  | fcvt (h : Hdr) (d a : GReg) (dst src : CvtTy) (rm : Rm)
  | frnd (h : Hdr) (d a : GReg) (f : FFmt) (rm : Rm)
  | fscale (h : Hdr) (d a b : GReg) (f : FFmt) (rm : Rm)
  -- group 6
  | vclaim (h : Hdr) (d : GReg) (try_ : Bool) (min max : Fin 16)
  | vrelease (h : Hdr)
  | vreleaseSp (h : Hdr) (d : GReg)
  | vadd (h : Hdr) (d a : VReg) (b : VG) (mask : MReg) (vt : VTy) (op : VOp)
  | vsub (h : Hdr) (d a : VReg) (b : VG) (mask : MReg) (vt : VTy) (op : VOp)
  | vmul (h : Hdr) (d a : VReg) (b : VG) (mask : MReg) (vt : VTy) (op : VOp)
  | vfma (h : Hdr) (d a : VReg) (b : VG) (c : VReg) (mask : MReg) (vt : VTy) (op : VOp)
  | vmin (h : Hdr) (d a : VReg) (b : VG) (mask : MReg) (vt : VTy)
  | vmax (h : Hdr) (d a : VReg) (b : VG) (mask : MReg) (vt : VTy)
  | vsgn (h : Hdr) (d a : VReg) (b : VG) (mask : MReg) (vt : VTy) (op : SgnOp)
  | vcmp (h : Hdr) (d : MReg) (a : VReg) (b : VG) (mask : MReg) (vt : VTy) (c : VCond)
  | vsel (h : Hdr) (d a : VReg) (b : VG) (c : MReg) (vt : VTy)
  | vlog (h : Hdr) (x : LogArg) (op : LogOp)
  | vsh (h : Hdr) (d a : VReg) (b : VG) (mask : MReg) (vt : VTy) (op : ShOp)
  | vcvt (h : Hdr) (d a : VReg) (flush : Bool) (dst src : VCvtTy) (rm : Rm)
  | vdec (h : Hdr) (d a : VReg) (part : Fin 8) (c4 : Bool) (tab : Fin 2)
  | venc (h : Hdr) (d a : VReg) (part : Fin 8) (c4 : Bool) (tab : Fin 2)
  | vpack (h : Hdr) (d a b : VReg) (bf : Bool) (rm : Rm)
  | vunpk (h : Hdr) (d a : VReg) (part : Fin 2) (bf : Bool)
  | vred (h : Hdr) (d : GReg) (a : VReg) (mask : MReg) (vt : VTy) (op : RedOp)
  | vscan (h : Hdr) (d a : VReg) (mask : MReg) (vt : VTy) (op : RedOp)
  | vperm (h : Hdr) (d a b : VReg) (mask : MReg) (vt : VTy)
  | vbcast (h : Hdr) (d : VReg) (a : GReg) (mask : MReg) (vt : VTy)
  | vidx (h : Hdr) (d : VReg) (a b : GReg) (mask : MReg)
  | vsfu (h : Hdr) (d a : VReg) (mask : MReg) (op : SfuOp)
  | vext (h : Hdr) (d : GReg) (a : VReg) (b : GReg) (vt : VTy)
  | vins (h : Hdr) (d : VReg) (a b : GReg) (vt : VTy)
  -- group 7
  | vld (h : Hdr) (d : VReg) (x : MemOp) (mask : MReg) (w : VW)
  | vst (h : Hdr) (d : VReg) (x : MemOp) (mask : MReg) (w : VW)
  | vlds (h : Hdr) (d : VReg) (x : MemOp) (mask : MReg) (w : VW)
  | vsts (h : Hdr) (d : VReg) (x : MemOp) (mask : MReg) (w : VW)
  | vgath (h : Hdr) (d : VReg) (a : GReg) (b : VReg) (mask : MReg) (w : VW)
  | vscat (h : Hdr) (d : VReg) (a : GReg) (b : VReg) (mask : MReg) (w : VW)
  | sbind (h : Hdr) (d : QReg) (a b : GReg) (wr : Bool)
  | sunbind (h : Hdr) (d : QReg)
  -- group 8
  | mma (h : Hdr) (x y : MFmt) (g : GangArg)
  | snz (h : Hdr) (x y : MFmt) (g : GangArg)
  | dtload (h : Hdr) (d a : GReg) (k : Fin 2)
  | accz (h : Hdr) (t : ATile) (logN : Fin 8)
  | accld (h : Hdr) (t : ATile) (a b : GReg)
  | accst (h : Hdr) (t : ATile) (a b : GReg)
  | accq (h : Hdr) (t : ATile) (a b c : GReg) (out : AccqOut)
  | accvRd (h : Hdr) (t : ATile) (v : VReg) (part : Fin 16)
  | accvWr (h : Hdr) (t : ATile) (v : VReg) (part : Fin 16)
  -- group 9
  | cpyq (h : Hdr) (d a : GReg)
  | wmrd (h : Hdr) (d : GReg) (k : Fin 16)
  | lkrd (h : Hdr) (d a : GReg)
  | halo (h : Hdr) (d a : GReg)
  | rld (h : Hdr) (d a b : GReg) (sz : Size)
  | rst (h : Hdr) (a b c : GReg) (sz : Size)
  | ramo (h : Hdr) (d a b c : GReg) (op : AmoOp) (w32 : Bool)
  | rdx (h : Hdr) (d a : GReg)
  | mcgset (h : Hdr) (d a b : GReg)
  | lodeq (h : Hdr) (d a b : GReg) (ch : Fin 32)
  -- group 10
  | send (h : Hdr) (d a b : GReg)
  | spawn (h : Hdr) (d : PReg) (a : GReg)
  | actbind (h : Hdr) (d a : GReg)
  | actfree (h : Hdr) (d a : GReg)
  | chbind (h : Hdr) (d a : GReg) (data : Bool)
  | chcfgFree (h : Hdr) (d a : GReg)
  | chcfgPause (h : Hdr) (d a : GReg)
  | chcfgResume (h : Hdr) (d a : GReg)
  | chcfgSched (h : Hdr) (d a b : GReg)
  | chcfgMbox (h : Hdr) (d a b c : GReg) (side : Side)
  | splice (h : Hdr) (d a : GReg)
  | splst (h : Hdr) (d a : GReg)
  | stlcfg (h : Hdr) (d a : GReg) (nosteal novictim setscope : Bool)
  -- group 11
  | grant (h : Hdr) (d a b c : GReg) (rights : BitVec 5)
  | revoke (h : Hdr) (d a b c : GReg) (rights : BitVec 5)
  | rtwr (h : Hdr) (d a b : GReg) (clear nozero : Bool)
  | plbinv (h : Hdr) (d a : GReg) (mod : Bool)
  | rgnnew (h : Hdr) (d a b c : GReg) (rights : BitVec 5)
  | rgnfree (h : Hdr) (d a : GReg)
  | waymSet (h : Hdr) (d a b : GReg) (dies : BitVec 9)
  | waymRd (h : Hdr) (d a b : GReg)
  -- group 12
  | tret (h : Hdr) (next replay : Bool)
  | tabort (h : Hdr)
  | cring (h : Hdr) (d a : GReg) (store : Bool) (k : Fin 4)
  | preq (h : Hdr) (d a b c : GReg)
  | ctxsv (h : Hdr) (d a b : GReg) (tables tiles firing clear : Bool)
  | ctxrs (h : Hdr) (d a : GReg) (tables tiles firing : Bool)
  | mcrd (h : Hdr) (d a : GReg) (k : Fin 8)
  | mcclr (h : Hdr) (d a : GReg) (cnt : Bool)
  | stest (h : Hdr) (d a : GReg) (preempt : Bool)
  | wdset (h : Hdr) (d a : GReg)
  -- EVENTS
  -- starting, reset and the host
  | powerOn
  | moduleReset
  /-- Names: data. -/
  | bootImageFetched
  /-- Names: v. -/
  | bootokWrite
  | bootTimeout
  /-- Names: v. -/
  | vsecClearWrite
  | statusPost
  /-- Names: v. -/
  | modnumWrite
  /-- Names: off (physical address), v. -/
  | reeveRegisterWrite
  -- fetch, caches, write-back and homes
  /-- Names: core. -/
  | fetchLineReturn
  /-- Names: core, id (line address). -/
  | icacheLeaseExpiry
  /-- Names: core, id (line address). -/
  | l1LeaseExpiry
  /-- Names: core. -/
  | fixedLatencyWrite
  /-- Names: core, id. -/
  | loadDataReturn
  /-- Names: core. -/
  | writeBufferSend
  /-- Names: core, id (sequence number). -/
  | storeAtHome
  /-- Names: core, id (sequence number). -/
  | homeAtomic
  /-- Names: core, id. -/
  | syncRecordAtHome
  /-- Names: core. -/
  | lateFaultArrival
  /-- Names: core. -/
  | trapEntry
  -- walker, zero-pending, shootdown, migration
  /-- Names: unit (die), id (walk). -/
  | walkStep
  /-- Names: id (line address). -/
  | zpBackgroundZero
  /-- Names: unit (die), v. -/
  | shootdownPages
  /-- Names: unit (die), v. -/
  | shootdownAll
  /-- Names: unit (die), v. -/
  | shootdownSwitch
  /-- Names: unit (die), core. -/
  | shootdownAck
  /-- Names: unit (die). -/
  | shootdownComplete
  /-- Names: id (page). -/
  | migrationForward
  -- vector pool, streams, gangs
  /-- Names: unit (tussock). -/
  | vclaimGrant
  /-- Names: core, id (q register). -/
  | streamReadaheadReturn
  /-- Names: core. -/
  | rowBarrierArrival
  /-- Names: core. -/
  | gangWithdrawal
  /-- Names: unit (row), core (x0), id (gang size). -/
  | mmaStepEnd
  /-- Names: core. -/
  | dtloadIndexBuilt
  -- sluices, lodes, packets
  /-- Names: unit (die), id (sluice), core. -/
  | sluiceTakeCommand
  /-- Names: id (copy). -/
  | copySegment
  /-- Names: id (copy). -/
  | copyComplete
  /-- Names: core, id. -/
  | watermarkReadRelease
  /-- Names: core, id (channel). -/
  | notifyRecordPlace
  /-- Names: core, id (side code). -/
  | mailboxCounterArrival
  /-- Names: core, id (channel). -/
  | mailboxRecordPlace
  /-- Names: unit (die), id (engine). -/
  | lodeEntryProcess
  /-- Names: id. -/
  | lodeAnswer
  /-- Names: core, id (channel). -/
  | lodeReturnPlace
  /-- Names: id. -/
  | rldq
  /-- Names: id. -/
  | rldp
  /-- Names: id. -/
  | wrq
  /-- Names: id. -/
  | wrp
  /-- Names: id. -/
  | amq
  /-- Names: id. -/
  | amp
  /-- Names: id. -/
  | recq
  /-- Names: id. -/
  | recp
  /-- Names: id. -/
  | xrq
  /-- Names: id. -/
  | xdt
  /-- Names: id. -/
  | xak
  /-- Names: id. -/
  | xsf
  /-- Names: unit (port), frame. -/
  | mgmtTraining
  /-- Names: unit (port), frame. -/
  | mgmtSpdm
  /-- Names: unit (port), pkt. -/
  | badpkt
  /-- Names: unit (port), frame. -/
  | frameReceive
  /-- Names: unit (port). -/
  | replayTimeout
  /-- Names: unit (port), v. -/
  | portctlDown
  /-- Names: unit (port), v. -/
  | portctlTrain
  /-- Names: unit (port), v. -/
  | portctlAuth
  /-- Names: unit (port), v. -/
  | portctlActive
  /-- Names: unit (port), v. -/
  | rekey
  /-- Names: unit (port), off, v. -/
  | keyBlockWrite
  /-- Names: unit (port). -/
  | frameCountLimit
  /-- Names: core, id. -/
  | remoteTimeout
  -- launch, scheduling, aborts
  /-- Names: off, data. -/
  | hostWindowWrite
  /-- Names: core, off (register), v. -/
  | reeveWindowWrite
  /-- Names: core. -/
  | launchEnqueue
  /-- Names: off, v. -/
  | hostStatusWrite
  /-- Names: core. -/
  | firingSelect
  /-- Names: core, list (victims). -/
  | stealAttempt
  /-- Names: core. -/
  | idleRetry
  /-- Names: core. -/
  | idleGate
  /-- Names: core. -/
  | coreWake
  /-- Names: core, id (item). -/
  | agingTick
  /-- Names: core. -/
  | budgetExpiry
  /-- Names: core. -/
  | firingAbort
  /-- Names: unit (die). -/
  | tokenPeriodStart
  /-- Names: unit (die), off (queue kind), id (unit), list (classes queued). -/
  | queueServe
  /-- Names: core, id. -/
  | barArrivalAtWeir
  /-- Names: core, id (channel). -/
  | tokenDelivery
  /-- Names: core, id (channel). -/
  | markerEnterInput
  /-- Names: core, id (slot). -/
  | markerForward
  /-- Names: core, id (slot). -/
  | markerPerform
  /-- Names: core, id (channel). -/
  | spliceStatusPlace
  /-- Names: core. -/
  | preemptRequestArrival
  -- errors, banks, self-test, owners, keys, power
  /-- Names: err. -/
  | correctedError
  /-- Names: err, list (copies that have read the data, or lines of a mere that cannot be read). -/
  | containedError
  /-- Names: err. -/
  | fatalError
  /-- Names: unit (bank), v. -/
  | mcstatReeveWrite
  /-- Names: unit (bank), v. -/
  | mccountReeveWrite
  /-- Names: v. -/
  | fqbaseWrite
  /-- Names: v. -/
  | fqlostWrite
  /-- Names: unit (die), v. -/
  | stbufWrite
  /-- Names: unit (die). -/
  | stestQuiesced
  /-- Names: unit (die), off (slices), id (blocks), v (non-zero: memory failed). -/
  | stestPatternEnd
  /-- Names: unit (die). -/
  | stestRestoreDone
  /-- Names: v. -/
  | otearWrite
  | teardownComplete
  /-- Names: v. -/
  | pinvWrite
  /-- Names: v. -/
  | mgenWrite
  /-- Names: id (world). -/
  | measuredRangeWrite
  /-- Names: id (slot), off (register), v. -/
  | keySlotWrite
  /-- Names: id. -/
  | plbDrop
  /-- Names: id (watts), list (rows). -/
  | powerWindow
  /-- Names: id (degrees), list (rows). -/
  | thermalThrottleOn
  /-- Names: id (degrees). -/
  | thermalThrottleOff
  /-- Names: id (degrees), unit (the bank that logs it). -/
  | thermalFatal
  /-- Names: core. -/
  | debugStop
  /-- Names: core. -/
  | debugResume
  -- further events
  /-- Names: core, id. -/
  | coprocessorCompletion
  /-- Names: core, id. -/
  | prefetchFill
  /-- Names: off, v. -/
  | rightsAreaWrite
  | bootFetchFailure
  /-- Names: v (non-zero: HBM). -/
  | bringupFailure
  /-- Names: unit (port), id (non-zero: the frames not acknowledged are replayed). -/
  | frameSend
  /-- Names: unit (port). -/
  | peerLinkDown
  deriving DecidableEq, Repr

end Sys2Proof
end

