-- ==== Sys2Proof/WellFormed.lean ====
section
/-! DEFINITION. The operand ranges that the types of `Syntax.lean` do not carry: what a decoded instruction
always meets (R9, R54). An event is no instruction word and is always well-formed. -/

namespace Sys2Proof

def IntTy.signed : IntTy → Bool
  | .s64 | .s32 | .s16 | .s8 => true
  | _ => false

def VTy.float : VTy → Bool
  | .f32 | .f64 => true
  | _ => false

/-- OP belongs to VT (R149). -/
def VOp.fits (vt : VTy) : VOp → Bool
  | .fp _ => vt.float
  | .int _ => !vt.float

def CvtTy.float : CvtTy → Bool
  | .f64 | .f32 | .h16 | .b16 => true
  | _ => false

def VCvtTy.int : VCvtTy → Bool
  | .s32 | .n32 => true
  | _ => false

def Size.store : Size → Bool
  | .n8 | .n16 | .n32 | .n64 => true
  | _ => false

def GangN.toNat : GangN → Nat
  | .g4 => 4 | .g8 => 8 | .g16 => 16 | .g32 => 32 | .g64 => 64

/-- Operands of a gang instruction (R176, R179). -/
def GangArg.wf (g : GangArg) : Bool := g.c.val % 4 == 0 && g.t.val + g.n.toNat ≤ 64

/-- The guard "never" is no guard (R38, R46). -/
def Hdr.wf (h : Hdr) : Bool := !(h.neg && h.pg == 0)

/-- Well-formed operands, the header apart. -/
def Instr.operandsWf : Instr → Bool
  | .loop _ d _ => d != 0
  | .syswr _ _ n => n != 0x1 && n != 0x5 && n != 0xE
  | .mulh _ _ _ _ ty | .div _ _ _ _ ty | .rem _ _ _ _ ty | .min _ _ _ _ ty | .max _ _ _ _ ty => ty.signed
  | .mulhn _ _ _ _ ty | .divn _ _ _ _ ty | .remn _ _ _ _ ty | .minn _ _ _ _ ty | .maxn _ _ _ _ ty => !ty.signed
  | .abs _ _ _ ty _ => ty.signed
  | .st _ _ _ sz => sz.store
  | .ldp _ d _ _ => d.val % 2 == 0
  | .stp _ d _ => d.val % 2 == 0
  | .fence _ _ later earlier => later != 0 && earlier != 0
  | .sigrd _ _ _ j => j.val ≤ 16
  | .amo _ _ _ _ c _ _ ord => ord != .relaxed || c == 0
  | .red _ _ _ op _ => op != .swap
  | .cas _ _ _ _ c _ ord => ord != .relaxed || c == 0
  | .fcvt _ _ _ dst src _ => dst != src && (dst.float || src.float)
  | .vclaim _ _ _ mn mx => 1 ≤ mn.val && mn.val ≤ mx.val && mx.val ≤ 8
  | .vadd _ _ _ _ _ vt op | .vsub _ _ _ _ _ vt op | .vmul _ _ _ _ _ vt op => op.fits vt
  | .vfma _ _ _ _ _ _ vt op => op.fits vt
  | .vsgn _ _ _ _ _ vt _ => vt.float
  | .vcmp _ _ _ _ _ vt c => vt.float || (c != .uo && c != .or)
  | .vsel _ _ _ _ _ vt => vt.float
  | .vlog _ (.lanes _ _ b _) op => op != .not || b == .g 0
  | .vlog _ (.masks _ _ b) op => op != .not || b == 0
  | .vsh _ _ _ _ _ vt _ => !vt.float
  | .vcvt _ _ _ fl dst src _ => dst != src && !(dst.int && src.int) && (!fl || dst == .b16)
  | .vdec _ _ _ part c4 _ | .venc _ _ _ part c4 _ => c4 || part.val < 4
  | .mma _ _ _ g => g.wf
  | .snz _ x y g => g.wf && !(x == .c4 && y == .c4)
  | .accz _ t n => n.val ≤ 6 && t.val + 2 ^ n.val ≤ 64
  | .cpyq _ _ a => 4 ≤ a.val && a.val % 4 == 0
  | .rst _ _ _ _ sz => sz.store
  | .send _ _ a _ => 8 ≤ a.val && a.val % 8 == 0
  | .spawn _ _ a => 8 ≤ a.val && a.val % 8 == 0
  | .stlcfg _ _ a _ _ sc => sc || a == 0
  | .grant _ _ _ _ _ r | .revoke _ _ _ _ _ r => r != 0
  | .rtwr _ _ a _ cl _ => !cl || a == 0
  | _ => true

/-- The header of an instruction word; an event has none (R38). -/
def Instr.hdr : Instr → Option Hdr
  | .nop h | .br h _ | .brx h _ | .call h _ _ | .ret h _ | .loop h _ _ | .loopGt h _ _ | .loopNz h _ _
  | .fin h | .trapi h _ | .sysrd h _ _ | .syswr h _ _ | .syswrOwner h _ | .syswrFpstat h _
  | .syswrStlscope h _ | .add h _ _ _ _ _ | .sub h _ _ _ _ _ | .mul h _ _ _ _ _ | .mulh h _ _ _ _
  | .mulhn h _ _ _ _ | .div h _ _ _ _ | .divn h _ _ _ _ | .rem h _ _ _ _ | .remn h _ _ _ _ | .and h _ _ _
  | .or h _ _ _ | .xor h _ _ _ | .andn h _ _ _ | .orn h _ _ _ | .shl h _ _ _ | .shr h _ _ _ | .sra h _ _ _
  | .rol h _ _ _ | .clz h _ _ | .ctz h _ _ | .popc h _ _ | .min h _ _ _ _ | .max h _ _ _ _
  | .minn h _ _ _ _ | .maxn h _ _ _ _ | .abs h _ _ _ _ | .sext h _ _ _ | .zext h _ _ _ | .bfx h _ _ _ _
  | .bfi h _ _ _ _ | .mov h _ | .movFromStream h _ _ | .movToStream h _ _ | .cmp h _ _ _ _ _
  | .sel h _ _ _ _ | .plog h _ _ _ _ | .addi h _ _ _ _ _ | .movi h _ _ | .moviN h _ _ | .movh h _ _ _
  | .lea h _ _ | .cmpi h _ _ _ _ | .andImm h _ _ _ | .orImm h _ _ _ | .xorImm h _ _ _ | .shlImm h _ _ _
  | .shrImm h _ _ _ | .sraImm h _ _ _ | .mulImm h _ _ _ _ _ | .ld h _ _ _ _ | .st h _ _ _ | .ldp h _ _ _
  | .stp h _ _ | .pfhL1 h _ | .pfhHome h _ | .cinvD h _ | .cinvI h _ | .cinvDa h | .cinvIa h
  | .lda h _ _ _ _ _ | .strl h _ _ _ _ _ | .fence h _ _ _ | .acq h _ _ _ | .rel h _ _ _ | .sigclr h _
  | .sigrd h _ _ _ | .amo h _ _ _ _ _ _ _ | .red h _ _ _ _ | .cas h _ _ _ _ _ _ | .bar h _ _ _ _ _ _
  | .fadd h _ _ _ _ _ | .fsub h _ _ _ _ _ | .fmul h _ _ _ _ _ | .fma h _ _ _ _ _ _ | .fms h _ _ _ _ _ _
  | .fnma h _ _ _ _ _ _ | .fdiv h _ _ _ _ _ | .fsqrt h _ _ _ _ | .fmin h _ _ _ _ | .fmax h _ _ _ _
  | .fsgn h _ _ _ _ _ | .fcmp h _ _ _ _ _ | .fclass h _ _ _ | .fcvt h _ _ _ _ _ | .frnd h _ _ _ _
  | .fscale h _ _ _ _ _ | .vclaim h _ _ _ _ | .vrelease h | .vreleaseSp h _ | .vadd h _ _ _ _ _ _
  | .vsub h _ _ _ _ _ _ | .vmul h _ _ _ _ _ _ | .vfma h _ _ _ _ _ _ _ | .vmin h _ _ _ _ _
  | .vmax h _ _ _ _ _ | .vsgn h _ _ _ _ _ _ | .vcmp h _ _ _ _ _ _ | .vsel h _ _ _ _ _ | .vlog h _ _
  | .vsh h _ _ _ _ _ _ | .vcvt h _ _ _ _ _ _ | .vdec h _ _ _ _ _ | .venc h _ _ _ _ _ | .vpack h _ _ _ _ _
  | .vunpk h _ _ _ _ | .vred h _ _ _ _ _ | .vscan h _ _ _ _ _ | .vperm h _ _ _ _ _ | .vbcast h _ _ _ _
  | .vidx h _ _ _ _ | .vsfu h _ _ _ _ | .vext h _ _ _ _ | .vins h _ _ _ _ | .vld h _ _ _ _ | .vst h _ _ _ _
  | .vlds h _ _ _ _ | .vsts h _ _ _ _ | .vgath h _ _ _ _ _ | .vscat h _ _ _ _ _ | .sbind h _ _ _ _
  | .sunbind h _ | .mma h _ _ _ | .snz h _ _ _ | .dtload h _ _ _ | .accz h _ _ | .accld h _ _ _
  | .accst h _ _ _ | .accq h _ _ _ _ _ | .accvRd h _ _ _ | .accvWr h _ _ _ | .cpyq h _ _ | .wmrd h _ _
  | .lkrd h _ _ | .halo h _ _ | .rld h _ _ _ _ | .rst h _ _ _ _ | .ramo h _ _ _ _ _ _ | .rdx h _ _
  | .mcgset h _ _ _ | .lodeq h _ _ _ _ | .send h _ _ _ | .spawn h _ _ | .actbind h _ _ | .actfree h _ _
  | .chbind h _ _ _ | .chcfgFree h _ _ | .chcfgPause h _ _ | .chcfgResume h _ _ | .chcfgSched h _ _ _
  | .chcfgMbox h _ _ _ _ _ | .splice h _ _ | .splst h _ _ | .stlcfg h _ _ _ _ _ | .grant h _ _ _ _ _
  | .revoke h _ _ _ _ _ | .rtwr h _ _ _ _ _ | .plbinv h _ _ _ | .rgnnew h _ _ _ _ _ | .rgnfree h _ _
  | .waymSet h _ _ _ _ | .waymRd h _ _ _ | .tret h _ _ | .tabort h | .cring h _ _ _ _ | .preq h _ _ _ _
  | .ctxsv h _ _ _ _ _ _ _ | .ctxrs h _ _ _ _ _ | .mcrd h _ _ _ | .mcclr h _ _ _ | .stest h _ _ _
  | .wdset h _ _ => some h
  | _ => none

/-- What decoding answers: operands in their ranges, and a guard other than never (R54). -/
def Instr.wf (i : Instr) : Bool := i.operandsWf && match i.hdr with | some h => h.wf | none => true

end Sys2Proof
end

