-- ==== Sys2Proof/Decode.lean ====
section
/-! DEFINITION. Decoding of the 80-bit instruction word (R38, R47 to R49, R52 to R55): total, with the
first failing field of R54 for every word that is no instruction; then the encoder, written from the
same tables. -/

namespace Sys2Proof

/-! ## Fields and checks -/

/-- The first failing field of R54, as R55 names it. -/
structure Ill where
  lo : Nat
  width : Nat
  value : Nat
  deriving DecidableEq, Repr

/-- Bits `lo + width - 1` down to `lo`. -/
def fld (w lo width : Nat) : Nat := w / 2 ^ lo % 2 ^ width

/-- One check of R54: a field, and whether it passes. -/
structure Chk where
  lo : Nat
  width : Nat
  ok : Bool
  deriving DecidableEq, Repr

/-- TRAPVAL of ILLOP (R55). -/
def Ill.trapval (i : Ill) : Word := BitVec.ofNat 64 (i.lo * 2 ^ 48 + i.width * 2 ^ 40 + i.value)

def firstIll (w : Nat) : List Chk → Option Ill
  | [] => none
  | c :: cs => if c.ok then firstIll w cs else some ⟨c.lo, c.width, fld w c.lo c.width⟩

def isG (n : Nat) : Bool := n < 64
def isV (n : Nat) : Bool := 64 ≤ n && n < 96
def isQ (n : Nat) : Bool := 96 ≤ n && n < 104
def isP (n : Nat) : Bool := 104 ≤ n && n < 112
def isM (n : Nat) : Bool := 112 ≤ n && n < 120
def isZ (n : Nat) : Bool := n == 0
def isVG (n : Nat) : Bool := isV n || isG n
/-- g4, g8, … g60 (R260). -/
def isG4 (n : Nat) : Bool := 4 ≤ n && n ≤ 60 && n % 4 == 0
/-- g0 or g4, g8, … g60 (R176). -/
def isG4z (n : Nat) : Bool := n == 0 || isG4 n
/-- g8, g16, … g56 (R335). -/
def isG8 (n : Nat) : Bool := 8 ≤ n && n ≤ 56 && n % 8 == 0
/-- Even g registers (R78). -/
def isGe (n : Nat) : Bool := isG n && n % 2 == 0

/-- A 7-bit register field at `lo`. -/
def reg (w lo : Nat) (p : Nat → Bool) : Chk := ⟨lo, 7, p (fld w lo 7)⟩
/-- A payload field. -/
def pay (w lo width : Nat) (p : Nat → Bool) : Chk := ⟨lo, width, p (fld w lo width)⟩

/-- Register fields of formats R and E (R47). -/
def regs4 (w : Nat) (d a b c : Nat → Bool) : List Chk :=
  [reg w 43 d, reg w 36 a, reg w 29 b, reg w 22 c]
def regs3 (w : Nat) (d a b : Nat → Bool) : List Chk := [reg w 43 d, reg w 36 a, reg w 29 b]
def regs2 (w : Nat) (d a : Nat → Bool) : List Chk := [reg w 43 d, reg w 36 a]
/-- Register fields of format X: T takes every value. -/
def regsX (w : Nat) (a b c : Nat → Bool) : List Chk := [reg w 37 a, reg w 30 b, reg w 23 c]

def gr (w lo : Nat) : GReg := Fin.ofNat 64 (fld w lo 7)
def vr (w lo : Nat) : VReg := Fin.ofNat 32 (fld w lo 7)
def qr (w lo : Nat) : QReg := Fin.ofNat 8 (fld w lo 7)
def pr (w lo : Nat) : PReg := Fin.ofNat 8 (fld w lo 7)
def mr (w lo : Nat) : MReg := Fin.ofNat 8 (fld w lo 7)
def vgr (w lo : Nat) : VG := if isV (fld w lo 7) then .v (vr w lo) else .g (gr w lo)
def tile (w : Nat) : ATile := Fin.ofNat 64 (fld w 44 6)
def flag (w lo : Nat) : Bool := fld w lo 1 == 1
def fin (n w lo width : Nat) [NeZero n] : Fin n := Fin.ofNat n (fld w lo width)
def imm32 (w : Nat) : BitVec 32 := BitVec.ofNat 32 (fld w 0 32)

def hdr (w : Nat) : Hdr :=
  { pd := fin 16 w 66 4, ta := fin 16 w 62 4, tw0 := fin 16 w 58 4, tw1 := fin 16 w 54 4,
    neg := flag w 53, pg := fin 8 w 50 3 }

/-! ## Codes of the fields -/

def IntTy.code : IntTy → Nat
  | .n64 => 0 | .n32 => 1 | .n16 => 2 | .n8 => 3 | .s64 => 4 | .s32 => 5 | .s16 => 6 | .s8 => 7
def IntTy.dec (n : Nat) : IntTy :=
  match n with
  | 0 => .n64 | 1 => .n32 | 2 => .n16 | 3 => .n8 | 4 => .s64 | 5 => .s32 | 6 => .s16 | _ => .s8

def Cond.code : Cond → Nat
  | .eq => 0 | .ne => 1 | .lt => 2 | .le => 3 | .gt => 4 | .ge => 5 | .ltn => 6 | .len => 7
  | .gtn => 8 | .gen => 9 | .tst => 10 | .ntst => 11
def Cond.dec (n : Nat) : Cond :=
  match n with
  | 0 => .eq | 1 => .ne | 2 => .lt | 3 => .le | 4 => .gt | 5 => .ge | 6 => .ltn | 7 => .len
  | 8 => .gtn | 9 => .gen | 10 => .tst | _ => .ntst

def CmpW.code : CmpW → Nat
  | .w64 => 0 | .w32 => 1 | .w16 => 2 | .w8 => 3
def CmpW.dec (n : Nat) : CmpW :=
  match n with | 0 => .w64 | 1 => .w32 | 2 => .w16 | _ => .w8

def Size.code : Size → Nat
  | .n8 => 0 | .n16 => 1 | .n32 => 2 | .n64 => 3 | .s8 => 4 | .s16 => 5 | .s32 => 6
def Size.dec (n : Nat) : Size :=
  match n with
  | 0 => .n8 | 1 => .n16 | 2 => .n32 | 3 => .n64 | 4 => .s8 | 5 => .s16 | _ => .s32

def Rm.code : Rm → Nat
  | .rne => 0 | .rtz => 1 | .rup => 2 | .rdn => 3 | .rna => 4
def Rm.dec (n : Nat) : Rm :=
  match n with | 0 => .rne | 1 => .rtz | 2 => .rup | 3 => .rdn | _ => .rna

def FFmt.code : FFmt → Nat
  | .f64 => 0 | .f32 => 1 | .h16 => 2 | .b16 => 3
def FFmt.dec (n : Nat) : FFmt :=
  match n with | 0 => .f64 | 1 => .f32 | 2 => .h16 | _ => .b16

def SgnOp.code : SgnOp → Nat
  | .cp => 0 | .neg => 1 | .xor => 2
def SgnOp.dec (n : Nat) : SgnOp :=
  match n with | 0 => .cp | 1 => .neg | _ => .xor

def FCond.code : FCond → Nat
  | .eq => 0 | .ne => 1 | .lt => 2 | .le => 3 | .gt => 4 | .ge => 5 | .uo => 6 | .or => 7
def FCond.dec (n : Nat) : FCond :=
  match n with
  | 0 => .eq | 1 => .ne | 2 => .lt | 3 => .le | 4 => .gt | 5 => .ge | 6 => .uo | _ => .or

def CvtTy.code : CvtTy → Nat
  | .f64 => 0 | .f32 => 1 | .h16 => 2 | .b16 => 3 | .s64 => 4 | .s32 => 5 | .n64 => 6 | .n32 => 7
def CvtTy.dec (n : Nat) : CvtTy :=
  match n with
  | 0 => .f64 | 1 => .f32 | 2 => .h16 | 3 => .b16 | 4 => .s64 | 5 => .s32 | 6 => .n64 | _ => .n32

def VTy.code : VTy → Nat
  | .f32 => 0 | .f64 => 1 | .s32 => 2 | .n32 => 3
def VTy.dec (n : Nat) : VTy :=
  match n with | 0 => .f32 | 1 => .f64 | 2 => .s32 | _ => .n32

def VOp.code : VOp → Nat
  | .fp rm => rm.code
  | .int sat => sat.toNat
def VOp.dec (vt n : Nat) : VOp := if vt < 2 then .fp (Rm.dec n) else .int (n == 1)

def LogOp.code : LogOp → Nat
  | .and => 0 | .or => 1 | .xor => 2 | .andn => 3 | .not => 4
def LogOp.dec (n : Nat) : LogOp :=
  match n with | 0 => .and | 1 => .or | 2 => .xor | 3 => .andn | _ => .not

def ShOp.code : ShOp → Nat
  | .shl => 0 | .shr => 1 | .sra => 2 | .rol => 3
def ShOp.dec (n : Nat) : ShOp :=
  match n with | 0 => .shl | 1 => .shr | 2 => .sra | _ => .rol

def VCvtTy.code : VCvtTy → Nat
  | .f32 => 0 | .f64 => 1 | .s32 => 2 | .n32 => 3 | .h16 => 4 | .b16 => 5
def VCvtTy.dec (n : Nat) : VCvtTy :=
  match n with | 0 => .f32 | 1 => .f64 | 2 => .s32 | 3 => .n32 | 4 => .h16 | _ => .b16

def RedOp.code : RedOp → Nat
  | .add => 0 | .min => 1 | .max => 2
def RedOp.dec (n : Nat) : RedOp :=
  match n with | 0 => .add | 1 => .min | _ => .max

def SfuOp.code : SfuOp → Nat
  | .rcp => 0 | .rsqrt => 1 | .exp2 => 2 | .log2 => 3 | .sinpi => 4 | .cospi => 5 | .tanh => 6 | .sigm => 7
def SfuOp.dec (n : Nat) : SfuOp :=
  match n with
  | 0 => .rcp | 1 => .rsqrt | 2 => .exp2 | 3 => .log2 | 4 => .sinpi | 5 => .cospi | 6 => .tanh | _ => .sigm

def VW.code : VW → Nat
  | .w32 => 0 | .w64 => 1 | .w16 => 2
def VW.dec (n : Nat) : VW :=
  match n with | 0 => .w32 | 1 => .w64 | _ => .w16

def Ord.code : Ord → Nat
  | .relaxed => 0 | .acq => 1 | .rel => 2 | .ar => 3
def Ord.dec (n : Nat) : Ord :=
  match n with | 0 => .relaxed | 1 => .acq | 2 => .rel | _ => .ar

def AmoOp.code : AmoOp → Nat
  | .add => 0 | .and => 1 | .or => 2 | .xor => 3 | .min => 4 | .max => 5 | .minn => 6 | .maxn => 7
  | .swap => 8 | .fadd => 9 | .fmin => 10 | .fmax => 11
def AmoOp.dec (n : Nat) : AmoOp :=
  match n with
  | 0 => .add | 1 => .and | 2 => .or | 3 => .xor | 4 => .min | 5 => .max | 6 => .minn | 7 => .maxn
  | 8 => .swap | 9 => .fadd | 10 => .fmin | _ => .fmax

def MFmt.code : MFmt → Nat
  | .c8 => 0 | .c4 => 1 | .b16 => 2 | .h16 => 3
def MFmt.dec (n : Nat) : MFmt :=
  match n with | 0 => .c8 | 1 => .c4 | 2 => .b16 | _ => .h16

def GangN.code : GangN → Nat
  | .g4 => 0 | .g8 => 1 | .g16 => 2 | .g32 => 3 | .g64 => 4
def GangN.dec (n : Nat) : GangN :=
  match n with | 0 => .g4 | 1 => .g8 | 2 => .g16 | 3 => .g32 | _ => .g64

def AccqOut.code : AccqOut → Nat
  | .c8 t => 4 * t.val
  | .c4 t => 1 + 4 * t.val
  | .b16 rm => 2 + 4 * rm.code
  | .h16 rm => 3 + 4 * rm.code
def AccqOut.dec (n : Nat) : AccqOut :=
  match n % 4 with
  | 0 => .c8 (Fin.ofNat 2 (n / 4))
  | 1 => .c4 (Fin.ofNat 2 (n / 4))
  | 2 => .b16 (Rm.dec (n / 4))
  | _ => .h16 (Rm.dec (n / 4))

def Side.code : Side → Nat
  | .n => 0 | .e => 1 | .s => 2 | .w => 3
def Side.dec (n : Nat) : Side :=
  match n with | 0 => .n | 1 => .e | 2 => .s | _ => .w

/-! ## Checks shared by several instructions -/

/-- M of format R must be zero. -/
def m0 (w : Nat) : List Chk := [pay w 12 10 isZ]
/-- M of formats I and J must be zero. -/
def mi0 (w : Nat) : List Chk := [pay w 32 4 isZ]
/-- IMM22 must be zero. -/
def imm0 (w : Nat) : List Chk := [pay w 0 22 isZ]
/-- TYPE and SAT of format R (R68, R70). -/
def tyR (w : Nat) (ty : Nat → Bool) (sat : Bool) : List Chk :=
  [pay w 16 6 isZ, pay w 15 1 (fun n => sat || n == 0), pay w 12 3 ty]
def tySigned (n : Nat) : Bool := 4 ≤ n
def tyUnsigned (n : Nat) : Bool := n < 4
def tyAny (_ : Nat) : Bool := true
/-- M of R137. -/
def m5 (w : Nat) (sub rm : Nat → Bool) : List Chk :=
  [pay w 20 2 isZ, pay w 17 3 sub, pay w 12 3 rm]
def isRm (n : Nat) : Bool := n < 5
/-- M of R149. -/
def m6 (w : Nat) (mask vt op : Nat → Bool) : List Chk :=
  [pay w 21 1 isZ, pay w 18 3 mask, pay w 15 3 vt, pay w 12 3 op]
def vtf (w : Nat) : Nat := fld w 15 3
/-- OP of the arithmetic of R152 by VT. -/
def vop (w n : Nat) : Bool := if vtf w < 2 then n < 5 else n < 2
def below (k n : Nat) : Bool := n < k
def anyF (_ : Nat) : Bool := true

def memOp (w : Nat) : MemOp :=
  { a := gr w 36, b := gr w 29, s := fin 8 w 26 3, disp := BitVec.ofNat 21 (fld w 0 21) }
def tyF (w : Nat) : IntTy := IntTy.dec (fld w 12 3)
def rmF (w : Nat) : Rm := Rm.dec (fld w 12 3)
def fmtF (w : Nat) : FFmt := FFmt.dec (fld w 15 2)
def maskF (w : Nat) : MReg := fin 8 w 18 3
def vtyF (w : Nat) : VTy := VTy.dec (vtf w)
def vopF (w : Nat) : VOp := VOp.dec (vtf w) (fld w 12 3)
def gangF (w : Nat) : GangArg :=
  { t := tile w, a := gr w 37, b := gr w 30, c := gr w 23, n := GangN.dec (fld w 20 3), east := flag w 19 }

/-! ## The groups -/

/-- Group 0 (R58, R63). -/
def group0 (w f : Nat) : Option (List Chk × Instr) :=
  let h := hdr w
  let off := imm32 w
  match f with
  | 0 => some (regs4 w isZ isZ isZ isZ ++ m0 w, .nop h)
  | 1 => some (regs2 w isZ isZ ++ mi0 w, .br h off)
  | 2 => some (regs4 w isZ isG isZ isZ ++ m0 w, .brx h (gr w 36))
  | 3 => some (regs2 w isG isZ ++ mi0 w, .call h (gr w 43) off)
  | 4 => some (regs4 w isZ isG isZ isZ ++ m0 w, .ret h (gr w 36))
  | 5 =>
    let m := fld w 32 4
    some ([reg w 43 (fun n => isG n && (m != 0 || n != 0)), reg w 36 isG, pay w 32 4 (below 3),
        reg w 43 (fun n => m == 0 || n == 0), reg w 36 (fun n => m != 0 || n == 0)],
      match m with
      | 0 => .loop h (gr w 43) off
      | 1 => .loopGt h (gr w 36) off
      | _ => .loopNz h (gr w 36) off)
  | 6 => some (regs4 w isZ isZ isZ isZ ++ m0 w, .fin h)
  | 7 => some (regs2 w isZ isZ ++ mi0 w, .trapi h off)
  | 8 => some (regs2 w isG isZ ++ mi0 w ++ [pay w 12 20 isZ], .sysrd h (gr w 43) (BitVec.ofNat 12 (fld w 0 12)))
  | 9 =>
    some (regs2 w isZ isG ++ mi0 w ++ [pay w 12 20 isZ],
      match fld w 0 12 with
      | 0x1 => .syswrOwner h (gr w 36)
      | 0x5 => .syswrFpstat h (gr w 36)
      | 0xE => .syswrStlscope h (gr w 36)
      | n => .syswr h (gr w 36) (BitVec.ofNat 12 n))
  | _ => none

/-- `mov` takes the pairs of R74; `a` and `d` are register indices. -/
def movPair (d a : Nat) : Bool :=
  (isG d && (isG a || isQ a || isP a)) || (isQ d && isG a) || (isP d && (isG a || isP a))

def movInstr (h : Hdr) (w : Nat) : Instr :=
  let d := fld w 43 7
  let a := fld w 36 7
  if isQ d then .movToStream h (qr w 43) (gr w 36)
  else if isP d then
    if isP a then .mov h (.pp (pr w 43) (pr w 36)) else .mov h (.pg (pr w 43) (gr w 36))
  else if isQ a then .movFromStream h (gr w 43) (qr w 36)
  else if isP a then .mov h (.gp (gr w 43) (pr w 36))
  else .mov h (.gg (gr w 43) (gr w 36))

/-- Group 1 (R70, R71, R74 to R76). -/
def group1 (w f : Nat) : Option (List Chk × Instr) :=
  let h := hdr w
  let d := gr w 43
  let a := gr w 36
  let b := gr w 29
  let ty := tyF w
  let sat := flag w 15
  let g3 := regs4 w isG isG isG isZ
  let g2 := regs4 w isG isG isZ isZ
  match f with
  | 0 => some (g3 ++ tyR w tyAny true, .add h d a b ty sat)
  | 1 => some (g3 ++ tyR w tyAny true, .sub h d a b ty sat)
  | 2 => some (g3 ++ tyR w tyAny true, .mul h d a b ty sat)
  | 3 => some (g3 ++ tyR w tySigned false, .mulh h d a b ty)
  | 4 => some (g3 ++ tyR w tyUnsigned false, .mulhn h d a b ty)
  | 5 => some (g3 ++ tyR w tySigned false, .div h d a b ty)
  | 6 => some (g3 ++ tyR w tyUnsigned false, .divn h d a b ty)
  | 7 => some (g3 ++ tyR w tySigned false, .rem h d a b ty)
  | 8 => some (g3 ++ tyR w tyUnsigned false, .remn h d a b ty)
  | 9 => some (g3 ++ m0 w, .and h d a b)
  | 10 => some (g3 ++ m0 w, .or h d a b)
  | 11 => some (g3 ++ m0 w, .xor h d a b)
  | 12 => some (g3 ++ m0 w, .andn h d a b)
  | 13 => some (g3 ++ m0 w, .orn h d a b)
  | 14 => some (g3 ++ m0 w, .shl h d a b)
  | 15 => some (g3 ++ m0 w, .shr h d a b)
  | 16 => some (g3 ++ m0 w, .sra h d a b)
  | 17 => some (g3 ++ m0 w, .rol h d a b)
  | 18 => some (g2 ++ m0 w, .clz h d a)
  | 19 => some (g2 ++ m0 w, .ctz h d a)
  | 20 => some (g2 ++ m0 w, .popc h d a)
  | 21 => some (g3 ++ tyR w tySigned false, .min h d a b ty)
  | 22 => some (g3 ++ tyR w tySigned false, .max h d a b ty)
  | 23 => some (g3 ++ tyR w tyUnsigned false, .minn h d a b ty)
  | 24 => some (g3 ++ tyR w tyUnsigned false, .maxn h d a b ty)
  | 25 => some (g2 ++ tyR w tySigned true, .abs h d a ty sat)
  | 26 => some (g2 ++ [pay w 18 4 isZ], .sext h d a (fin 64 w 12 6))
  | 27 => some (g2 ++ [pay w 18 4 isZ], .zext h d a (fin 64 w 12 6))
  | 28 => some (g3 ++ [pay w 13 9 isZ], .bfx h d a b (flag w 12))
  | 29 => some (regs4 w isG isG isG isG ++ m0 w, .bfi h d a b (gr w 22))
  | 30 =>
    some ([reg w 43 (fun n => isG n || isQ n || isP n), reg w 36 (fun n => movPair (fld w 43 7) n),
      reg w 29 isZ, reg w 22 isZ] ++ m0 w, movInstr h w)
  | 31 =>
    some (regs4 w isP isG isG isZ ++ [pay w 18 4 isZ, pay w 12 4 (below 12)],
      .cmp h (pr w 43) a b (Cond.dec (fld w 12 4)) (CmpW.dec (fld w 16 2)))
  | 32 => some (regs4 w isG isG isG isP ++ m0 w, .sel h d a b (pr w 22))
  | 33 =>
    some (regs4 w isP isP isP isZ ++ [pay w 16 6 isZ],
      .plog h (pr w 43) (pr w 36) (pr w 29) (BitVec.ofNat 4 (fld w 12 4)))
  | _ => none

/-- Group 2 (R77). In format I, M is exactly TYPE and SAT (R70). -/
def group2 (w f : Nat) : Option (List Chk × Instr) :=
  let h := hdr w
  let d := gr w 43
  let a := gr w 36
  let imm := imm32 w
  let ty := IntTy.dec (fld w 32 3)
  let sat := flag w 35
  let g2 := regs2 w isG isG
  match f with
  | 0 => some (g2, .addi h d a ty sat imm)
  | 1 =>
    some (regs2 w isG isZ ++ [pay w 32 4 (below 2)],
      if fld w 32 4 == 0 then .movi h d imm else .moviN h d imm)
  | 2 => some (g2 ++ mi0 w, .movh h d a imm)
  | 3 => some (regs3 w isG isG isG ++ [pay w 21 5 isZ], .lea h d (memOp w))
  | 4 => some (regs2 w isP isG ++ [pay w 32 4 (below 12)], .cmpi h (pr w 43) a (Cond.dec (fld w 32 4)) imm)
  | 5 => some (g2 ++ mi0 w, .andImm h d a imm)
  | 6 => some (g2 ++ mi0 w, .orImm h d a imm)
  | 7 => some (g2 ++ mi0 w, .xorImm h d a imm)
  | 8 => some (g2 ++ mi0 w ++ [pay w 0 32 (below 64)], .shlImm h d a (fin 64 w 0 6))
  | 9 => some (g2 ++ mi0 w ++ [pay w 0 32 (below 64)], .shrImm h d a (fin 64 w 0 6))
  | 10 => some (g2 ++ mi0 w ++ [pay w 0 32 (below 64)], .sraImm h d a (fin 64 w 0 6))
  | 11 => some (g2, .mulImm h d a ty sat imm)
  | _ => none

/-- Group 3 (R78, R86, R87). -/
def group3 (w f : Nat) : Option (List Chk × Instr) :=
  let h := hdr w
  let d := gr w 43
  let x := memOp w
  match f with
  | 0 =>
    some (regs3 w isG isG isG ++ [pay w 25 1 isZ, pay w 21 3 (below 7)],
      .ld h d x (Size.dec (fld w 21 3)) (flag w 24))
  | 1 =>
    some (regs3 w isG isG isG ++ [pay w 24 2 isZ, pay w 21 3 (below 4)], .st h d x (Size.dec (fld w 21 3)))
  | 2 =>
    some (regs3 w isGe isG isG ++ [pay w 21 5 (fun n => n == 0 || n == 8)], .ldp h d x (flag w 24))
  | 3 => some (regs3 w isGe isG isG ++ [pay w 21 5 isZ], .stp h d x)
  | 4 =>
    some (regs3 w isZ isG isG ++ [pay w 21 5 (below 2)], if flag w 21 then .pfhHome h x else .pfhL1 h x)
  | 5 =>
    let m := fld w 21 5
    let z := fun n => m < 2 || n == 0
    some (regs3 w isZ isG isG ++ [pay w 21 5 (below 4), reg w 36 z, reg w 29 z, pay w 26 3 z, pay w 0 21 z],
      match m with
      | 0 => .cinvD h x
      | 1 => .cinvI h x
      | 2 => .cinvDa h
      | _ => .cinvIa h)
  | _ => none

/-- Group 4 (R243, R244, R246, R249, R253, R255). -/
def group4 (w f : Nat) : Option (List Chk × Instr) :=
  let h := hdr w
  let d := gr w 43
  let a := gr w 36
  let b := gr w 29
  let c := gr w 22
  let disp := BitVec.ofNat 21 (fld w 0 21)
  let ord := fld w 17 2
  let scope := reg w 22 (fun n => isG n && (ord != 0 || n == 0))
  match f with
  | 0 =>
    some (regs3 w isG isG isG ++ [pay w 26 3 isZ, pay w 22 4 isZ], .lda h d a b (flag w 21) disp)
  | 1 =>
    some (regs3 w isG isG isG ++ [pay w 26 3 isZ, pay w 22 4 isZ], .strl h d a b (flag w 21) disp)
  | 2 =>
    some (regs4 w isZ isZ isZ isG ++
        [pay w 19 3 isZ, pay w 15 4 (fun n => n != 0), pay w 12 3 (fun n => n != 0)],
      .fence h c (BitVec.ofNat 4 (fld w 15 4)) (BitVec.ofNat 3 (fld w 12 3)))
  | 3 => some (regs4 w isG isG isZ isG ++ m0 w, .acq h d a c)
  | 4 => some (regs4 w isZ isG isG isG ++ m0 w, .rel h a b c)
  | 5 => some (regs4 w isZ isG isZ isZ ++ m0 w, .sigclr h a)
  | 6 =>
    some (regs4 w isG isG isZ isZ ++ [pay w 17 5 isZ, pay w 12 5 (below 17)], .sigrd h d a (fin 32 w 12 5))
  | 7 =>
    some (regs3 w isG isG isG ++ [scope, pay w 19 3 isZ, pay w 12 4 (below 12)],
      .amo h d a b c (AmoOp.dec (fld w 12 4)) (flag w 16) (Ord.dec ord))
  | 8 =>
    some (regs4 w isZ isG isG isZ ++
        [pay w 19 3 isZ, pay w 17 2 isZ, pay w 12 4 (fun n => n < 12 && n != 8)],
      .red h a b (AmoOp.dec (fld w 12 4)) (flag w 16))
  | 9 =>
    some (regs3 w isG isG isG ++ [scope, pay w 19 3 isZ, pay w 12 4 isZ],
      .cas h d a b c (flag w 16) (Ord.dec ord))
  | 10 =>
    some (regs4 w isG isG isG isG ++ [pay w 11 11 isZ], .bar h d a b c (fin 64 w 0 6) (fin 32 w 6 5))
  | _ => none

/-- Group 5 (R137, R138, R141). -/
def group5 (w f : Nat) : Option (List Chk × Instr) :=
  let h := hdr w
  let d := gr w 43
  let a := gr w 36
  let b := gr w 29
  let c := gr w 22
  let fm := fmtF w
  let rm := rmF w
  let g4 := regs4 w isG isG isG isG
  let g3 := regs4 w isG isG isG isZ
  let g2 := regs4 w isG isG isZ isZ
  match f with
  | 0 => some (g3 ++ m5 w isZ isRm, .fadd h d a b fm rm)
  | 1 => some (g3 ++ m5 w isZ isRm, .fsub h d a b fm rm)
  | 2 => some (g3 ++ m5 w isZ isRm, .fmul h d a b fm rm)
  | 3 => some (g4 ++ m5 w isZ isRm, .fma h d a b c fm rm)
  | 4 => some (g4 ++ m5 w isZ isRm, .fms h d a b c fm rm)
  | 5 => some (g4 ++ m5 w isZ isRm, .fnma h d a b c fm rm)
  | 6 => some (g3 ++ m5 w isZ isRm, .fdiv h d a b fm rm)
  | 7 => some (g2 ++ m5 w isZ isRm, .fsqrt h d a fm rm)
  | 8 => some (g3 ++ m5 w isZ isZ, .fmin h d a b fm)
  | 9 => some (g3 ++ m5 w isZ isZ, .fmax h d a b fm)
  | 10 => some (g3 ++ m5 w (below 3) isZ, .fsgn h d a b fm (SgnOp.dec (fld w 17 3)))
  | 11 =>
    some (regs4 w isP isG isG isZ ++ m5 w anyF isZ, .fcmp h (pr w 43) a b fm (FCond.dec (fld w 17 3)))
  | 12 => some (g2 ++ m5 w isZ isZ, .fclass h d a fm)
  | 13 =>
    let dst := fld w 18 3
    some (g2 ++ [pay w 21 1 isZ, pay w 15 3 (fun n => n != dst && (n < 4 || dst < 4)), pay w 12 3 isRm],
      .fcvt h d a (CvtTy.dec dst) (CvtTy.dec (fld w 15 3)) rm)
  | 14 => some (g2 ++ m5 w isZ isRm, .frnd h d a fm rm)
  | 15 => some (g3 ++ m5 w isZ isRm, .fscale h d a b fm rm)
  | _ => none

/-- `vlog` (R154): the class of D chooses lanes or masks. DEDUCED, log 75. -/
def vlogChk (w : Nat) : List Chk :=
  let masks := isM (fld w 43 7)
  let nt := fld w 12 3 == 4
  [reg w 43 (fun n => isV n || isM n), reg w 36 (fun n => if masks then isM n else isV n),
    reg w 29 (fun n => if masks then isM n || (nt && n == 0) else isVG n), reg w 22 isZ,
    pay w 12 3 (below 5), reg w 29 (fun n => !nt || n == 0),
    pay w 21 1 isZ, pay w 18 3 (fun n => !masks || n == 0), pay w 15 3 isZ]

def vlogArg (w : Nat) : LogArg :=
  if isM (fld w 43 7) then .masks (mr w 43) (mr w 36) (mr w 29)
  else .lanes (vr w 43) (vr w 36) (vgr w 29) (maskF w)

/-- Group 6 (R142, R146, R149 to R161). -/
def group6 (w f : Nat) : Option (List Chk × Instr) :=
  let h := hdr w
  let d := vr w 43
  let a := vr w 36
  let b := vgr w 29
  let mk := maskF w
  let vt := vtyF w
  let op := vopF w
  let v3 := regs4 w isV isV isVG isZ
  let v2 := regs4 w isV isV isZ isZ
  let arith := m6 w anyF (below 4) (vop w)
  let move := m6 w anyF (below 4) isZ
  let code := [pay w 17 5 isZ, pay w 13 1 (fun n => n == 1 || fld w 14 3 < 4)]
  match f with
  | 0 =>
    let mn := fld w 16 4
    some (regs4 w isG isZ isZ isZ ++
        [pay w 21 1 isZ, pay w 16 4 (fun n => 1 ≤ n && n ≤ 8),
          pay w 12 4 (fun n => 1 ≤ n && n ≤ 8 && mn ≤ n)],
      .vclaim h (gr w 43) (flag w 20) (fin 16 w 16 4) (fin 16 w 12 4))
  | 1 =>
    let m := fld w 12 10
    some (regs4 w isG isZ isZ isZ ++ [pay w 12 10 (below 2), reg w 43 (fun n => m == 1 || n == 0)],
      if m == 0 then .vrelease h else .vreleaseSp h (gr w 43))
  | 2 => some (v3 ++ arith, .vadd h d a b mk vt op)
  | 3 => some (v3 ++ arith, .vsub h d a b mk vt op)
  | 4 => some (v3 ++ arith, .vmul h d a b mk vt op)
  | 5 => some (regs4 w isV isV isVG isV ++ arith, .vfma h d a b (vr w 22) mk vt op)
  | 6 => some (v3 ++ move, .vmin h d a b mk vt)
  | 7 => some (v3 ++ move, .vmax h d a b mk vt)
  | 8 => some (v3 ++ m6 w anyF (below 2) (below 3), .vsgn h d a b mk vt (SgnOp.dec (fld w 12 3)))
  | 9 =>
    some (regs4 w isM isV isVG isZ ++ m6 w anyF (below 4) (fun n => vtf w < 2 || n < 6),
      .vcmp h (mr w 43) a b mk vt (FCond.dec (fld w 12 3)))
  | 10 => some (regs4 w isV isV isVG isM ++ m6 w isZ (below 2) isZ, .vsel h d a b (mr w 22) vt)
  | 11 => some (vlogChk w, .vlog h (vlogArg w) (LogOp.dec (fld w 12 3)))
  | 12 =>
    some (v3 ++ m6 w anyF (fun n => n == 2 || n == 3) (below 4), .vsh h d a b mk vt (ShOp.dec (fld w 12 3)))
  | 13 =>
    let dst := fld w 18 3
    some (v2 ++ [pay w 18 3 (fun n => n < 6 && (!flag w 21 || n == 5)),
        pay w 15 3 (fun n => n < 6 && n != dst && !((n == 2 || n == 3) && (dst == 2 || dst == 3))),
        pay w 12 3 isRm],
      .vcvt h d a (flag w 21) (VCvtTy.dec dst) (VCvtTy.dec (fld w 15 3)) (rmF w))
  | 14 => some (v2 ++ code, .vdec h d a (fin 8 w 14 3) (flag w 13) (fin 2 w 12 1))
  | 15 => some (v2 ++ code, .venc h d a (fin 8 w 14 3) (flag w 13) (fin 2 w 12 1))
  | 16 =>
    some (regs4 w isV isV isV isZ ++ [pay w 16 6 isZ, pay w 12 3 isRm], .vpack h d a (vr w 29) (flag w 15) (rmF w))
  | 17 => some (v2 ++ [pay w 17 5 isZ, pay w 12 3 isZ], .vunpk h d a (fin 2 w 16 1) (flag w 15))
  | 18 =>
    some (regs4 w isG isV isZ isZ ++ m6 w anyF (below 4) (below 3),
      .vred h (gr w 43) a mk vt (RedOp.dec (fld w 12 3)))
  | 19 => some (v2 ++ m6 w anyF (below 4) (below 3), .vscan h d a mk vt (RedOp.dec (fld w 12 3)))
  | 20 => some (regs4 w isV isV isV isZ ++ move, .vperm h d a (vr w 29) mk vt)
  | 21 => some (regs4 w isV isG isZ isZ ++ move, .vbcast h d (gr w 36) mk vt)
  | 22 => some (regs4 w isV isG isG isZ ++ m6 w anyF isZ isZ, .vidx h d (gr w 36) (gr w 29) mk)
  | 23 => some (v2 ++ m6 w anyF isZ anyF, .vsfu h d a mk (SfuOp.dec (fld w 12 3)))
  | 24 => some (regs4 w isG isV isG isZ ++ m6 w isZ (below 4) isZ, .vext h (gr w 43) a (gr w 29) vt)
  | 25 => some (regs4 w isV isG isG isZ ++ m6 w isZ (below 4) isZ, .vins h d (gr w 36) (gr w 29) vt)
  | _ => none

/-- Group 7 (R162, R166, R168). -/
def group7 (w f : Nat) : Option (List Chk × Instr) :=
  let h := hdr w
  let d := vr w 43
  let x := memOp w
  let fm := regs3 w isV isG isG ++ [pay w 21 2 (below 3)]
  let mk : MReg := fin 8 w 23 3
  let vw := VW.dec (fld w 21 2)
  let fr := regs4 w isV isG isV isZ ++ [pay w 17 5 isZ, pay w 12 2 (below 3)]
  let mkr : MReg := fin 8 w 14 3
  let vwr := VW.dec (fld w 12 2)
  match f with
  | 0 => some (fm, .vld h d x mk vw)
  | 1 => some (fm, .vst h d x mk vw)
  | 2 => some (fm, .vlds h d x mk vw)
  | 3 => some (fm, .vsts h d x mk vw)
  | 4 => some (fr, .vgath h d (gr w 36) (vr w 29) mkr vwr)
  | 5 => some (fr, .vscat h d (gr w 36) (vr w 29) mkr vwr)
  | 6 => some (regs4 w isQ isG isG isZ ++ [pay w 13 9 isZ], .sbind h (qr w 43) (gr w 36) (gr w 29) (flag w 12))
  | 7 => some (regs4 w isQ isZ isZ isZ ++ m0 w, .sunbind h (qr w 43))
  | _ => none

/-- G of `mma` and `snz` (R171), with the bound on T (R179). -/
def gangChk (w : Nat) : List Chk :=
  [pay w 20 3 (fun n => n < 5 && fld w 44 6 + 4 * 2 ^ n ≤ 64), pay w 17 2 isZ]

/-- Group 8 (R53, R171, R176, R179, R182, R186 to R189). -/
def group8 (w f : Nat) : Option (List Chk × Instr) :=
  let h := hdr w
  let g0 := [pay w 17 6 isZ]
  let mx0 := [pay w 12 5 isZ]
  match f with
  | 16 => some (regs4 w isG isG isZ isZ ++ [pay w 1 21 isZ], .dtload h (gr w 43) (gr w 36) (fin 2 w 0 1))
  | 17 =>
    some (regsX w isZ isZ isZ ++ g0 ++ [pay w 12 5 (fun n => n < 7 && fld w 44 6 + 2 ^ n ≤ 64)],
      .accz h (tile w) (fin 8 w 12 5))
  | 18 => some (regsX w isG isG isZ ++ g0 ++ mx0, .accld h (tile w) (gr w 37) (gr w 30))
  | 19 => some (regsX w isG isG isZ ++ g0 ++ mx0, .accst h (tile w) (gr w 37) (gr w 30))
  | 20 =>
    some (regsX w isG isG isG ++ g0 ++
        [pay w 15 2 (fun n => n == 0 || flag w 13), pay w 14 3 (fun n => n < 5 || !flag w 13)],
      .accq h (tile w) (gr w 37) (gr w 30) (gr w 23) (AccqOut.dec (fld w 12 5)))
  | 21 =>
    some (regsX w isV isZ isZ ++ g0,
      if flag w 12 then .accvWr h (tile w) (vr w 37) (fin 16 w 13 4)
      else .accvRd h (tile w) (vr w 37) (fin 16 w 13 4))
  | 22 =>
    some (regsX w isG isG isG4z ++ gangChk w ++ [pay w 16 1 isZ, pay w 12 4 (fun n => n != 5)],
      .snz h (MFmt.dec (fld w 14 2)) (MFmt.dec (fld w 12 2)) (gangF w))
  | n =>
    if n < 16 then
      some (regsX w isG isG isG4z ++ gangChk w ++ mx0, .mma h (MFmt.dec (n / 4)) (MFmt.dec (n % 4)) (gangF w))
    else none

/-- Group 9 (R260). -/
def group9 (w f : Nat) : Option (List Chk × Instr) :=
  let h := hdr w
  let d := gr w 43
  let a := gr w 36
  let b := gr w 29
  let c := gr w 22
  match f with
  | 0 => some (regs4 w isG isG4 isZ isZ ++ imm0 w, .cpyq h d a)
  | 1 => some (regs4 w isG isZ isZ isZ ++ [pay w 4 18 isZ], .wmrd h d (fin 16 w 0 4))
  | 2 => some (regs4 w isG isG isZ isZ ++ imm0 w, .lkrd h d a)
  | 3 => some (regs4 w isG isG isZ isZ ++ imm0 w, .halo h d a)
  | 4 => some (regs4 w isG isG isG isZ ++ [pay w 3 19 isZ, pay w 0 3 (below 7)], .rld h d a b (Size.dec (fld w 0 3)))
  | 5 => some (regs4 w isZ isG isG isG ++ [pay w 3 19 isZ, pay w 0 3 (below 4)], .rst h a b c (Size.dec (fld w 0 3)))
  | 6 =>
    some (regs4 w isG isG isG isG ++ [pay w 5 17 isZ, pay w 0 4 (below 12)],
      .ramo h d a b c (AmoOp.dec (fld w 0 4)) (flag w 4))
  | 7 => some (regs4 w isG isG isZ isZ ++ imm0 w, .rdx h d a)
  | 8 => some (regs4 w isG isG isG isZ ++ imm0 w, .mcgset h d a b)
  | 9 => some (regs4 w isG isG isG isZ ++ [pay w 5 17 isZ], .lodeq h d a b (fin 32 w 0 5))
  | _ => none

/-- Group 10 (R335, R346, R356). -/
def group10 (w f : Nat) : Option (List Chk × Instr) :=
  let h := hdr w
  let d := gr w 43
  let a := gr w 36
  let b := gr w 29
  match f with
  | 0 => some (regs4 w isG isG8 isG isZ ++ imm0 w, .send h d a b)
  | 1 => some (regs4 w isP isG8 isZ isZ ++ imm0 w, .spawn h (pr w 43) a)
  | 2 => some (regs4 w isG isG isZ isZ ++ imm0 w, .actbind h d a)
  | 3 => some (regs4 w isG isG isZ isZ ++ imm0 w, .actfree h d a)
  | 4 => some (regs4 w isG isG isZ isZ ++ [pay w 1 21 isZ], .chbind h d a (flag w 0))
  | 5 =>
    let op := fld w 0 3
    some (regs4 w isG isG isG isG ++
        [pay w 0 3 (below 5), reg w 29 (fun n => 3 ≤ op || n == 0), reg w 22 (fun n => op == 4 || n == 0),
          pay w 5 17 isZ, pay w 3 2 (fun n => op == 4 || n == 0)],
      match op with
      | 0 => .chcfgFree h d a
      | 1 => .chcfgPause h d a
      | 2 => .chcfgResume h d a
      | 3 => .chcfgSched h d a b
      | _ => .chcfgMbox h d a b (gr w 22) (Side.dec (fld w 3 2)))
  | 6 => some (regs4 w isG isG isZ isZ ++ imm0 w, .splice h d a)
  | 7 => some (regs4 w isG isG isZ isZ ++ imm0 w, .splst h d a)
  | 8 =>
    some (regs4 w isG isG isZ isZ ++ [reg w 36 (fun n => flag w 2 || n == 0), pay w 3 19 isZ],
      .stlcfg h d a (flag w 0) (flag w 1) (flag w 2))
  | _ => none

/-- Group 11 (R395, R400, R412). -/
def group11 (w f : Nat) : Option (List Chk × Instr) :=
  let h := hdr w
  let d := gr w 43
  let a := gr w 36
  let b := gr w 29
  let c := gr w 22
  let rights := BitVec.ofNat 5 (fld w 0 5)
  match f with
  | 0 => some (regs4 w isG isG isG isG ++ [pay w 5 17 isZ, pay w 0 5 (fun n => n != 0)], .grant h d a b c rights)
  | 1 => some (regs4 w isG isG isG isG ++ [pay w 5 17 isZ, pay w 0 5 (fun n => n != 0)], .revoke h d a b c rights)
  | 2 =>
    some (regs4 w isG isG isG isZ ++ [reg w 36 (fun n => !flag w 0 || n == 0), pay w 2 20 isZ],
      .rtwr h d a b (flag w 0) (flag w 1))
  | 3 => some (regs4 w isG isG isZ isZ ++ [pay w 1 21 isZ], .plbinv h d a (flag w 0))
  | 4 => some (regs4 w isG isG isG isG ++ [pay w 5 17 isZ], .rgnnew h d a b c rights)
  | 5 => some (regs4 w isG isG isZ isZ ++ imm0 w, .rgnfree h d a)
  | 6 =>
    some (regs4 w isG isG isG isZ ++ [pay w 10 12 isZ, pay w 1 9 (fun n => !flag w 0 || n == 0)],
      if flag w 0 then .waymRd h d a b else .waymSet h d a b (BitVec.ofNat 9 (fld w 1 9)))
  | _ => none

/-- Group 12 (R368, R429). -/
def group12 (w f : Nat) : Option (List Chk × Instr) :=
  let h := hdr w
  let d := gr w 43
  let a := gr w 36
  let b := gr w 29
  match f with
  | 0 => some (regs4 w isZ isZ isZ isZ ++ [pay w 14 8 isZ], .tret h (flag w 12) (flag w 13))
  | 1 => some (regs4 w isZ isZ isZ isZ ++ m0 w, .tabort h)
  | 2 => some (regs4 w isG isG isZ isZ ++ [pay w 15 7 isZ], .cring h d a (flag w 12) (fin 4 w 13 2))
  | 3 => some (regs4 w isG isG isG isG ++ imm0 w, .preq h d a b (gr w 22))
  | 4 =>
    some (regs4 w isG isG isG isZ ++ [pay w 4 18 isZ],
      .ctxsv h d a b (flag w 0) (flag w 1) (flag w 2) (flag w 3))
  | 5 => some (regs4 w isG isG isZ isZ ++ [pay w 3 19 isZ], .ctxrs h d a (flag w 0) (flag w 1) (flag w 2))
  | 6 => some (regs4 w isG isG isZ isZ ++ [pay w 15 7 isZ], .mcrd h d a (fin 8 w 12 3))
  | 7 => some (regs4 w isG isG isZ isZ ++ [pay w 13 9 isZ], .mcclr h d a (flag w 12))
  | 8 => some (regs4 w isG isG isZ isZ ++ [pay w 1 21 isZ], .stest h d a (flag w 0))
  | 9 => some (regs4 w isG isG isZ isZ ++ m0 w, .wdset h d a)
  | _ => none

def opcRow (w : Nat) : Option (List Chk × Instr) :=
  let f := fld w 70 6
  match fld w 76 4 with
  | 0 => group0 w f | 1 => group1 w f | 2 => group2 w f | 3 => group3 w f | 4 => group4 w f
  | 5 => group5 w f | 6 => group6 w f | 7 => group7 w f | 8 => group8 w f | 9 => group9 w f
  | 10 => group10 w f | 11 => group11 w f | 12 => group12 w f
  | _ => none

/-- Whether the instruction is of format R or X, whose bits [11:0] check 3 reads (R47, R52). -/
def zeroTail (g f : Nat) : Bool :=
  match g with
  | 0 => f == 0 || f == 2 || f == 4 || f == 6
  | 1 => true
  | 4 => 2 ≤ f && f ≤ 9
  | 5 => true
  | 6 => true
  | 7 => 4 ≤ f
  | 8 => f != 16
  | 12 => f == 0 || f == 1 || f == 2 || f == 6 || f == 7 || f == 9
  | _ => false

/-- Decoding an instruction word, with the checks of R54 in their order. -/
def decode (w : Nat) : Except Ill Instr :=
  match opcRow w with
  | none => .error ⟨70, 10, fld w 70 10⟩
  | some (cs, i) =>
    let tail := if zeroTail (fld w 76 4) (fld w 70 6) then [pay w 0 12 isZ] else []
    match firstIll w (pay w 50 4 (fun n => n != 8) :: tail ++ cs) with
    | some e => .error e
    | none => .ok i

/-- The decoder's reading of a word given as bits, bit 0 first. -/
def decodeTableWord (nbits w : Nat) : Option Instr :=
  match decode (w % 2 ^ (min nbits 80)) with
  | .ok i => some i
  | .error _ => none

/-! ## The encoder -/

def Hdr.enc (h : Hdr) : Nat :=
  h.pd.val * 2 ^ 66 + h.ta.val * 2 ^ 62 + h.tw0.val * 2 ^ 58 + h.tw1.val * 2 ^ 54 +
    h.neg.toNat * 2 ^ 53 + h.pg.val * 2 ^ 50

def vi (r : VReg) : Nat := 64 + r.val
def qi (r : QReg) : Nat := 96 + r.val
def pi (r : PReg) : Nat := 104 + r.val
def mi (r : MReg) : Nat := 112 + r.val
def VG.idx : VG → Nat
  | .v r => vi r
  | .g r => r.val

/-- Formats R, I and J, M, E, X (R47). -/
def encR (opc : Nat) (h : Hdr) (d a b c m : Nat) : Nat :=
  opc * 2 ^ 70 + h.enc + d * 2 ^ 43 + a * 2 ^ 36 + b * 2 ^ 29 + c * 2 ^ 22 + m * 2 ^ 12
def encI (opc : Nat) (h : Hdr) (d a m imm : Nat) : Nat :=
  opc * 2 ^ 70 + h.enc + d * 2 ^ 43 + a * 2 ^ 36 + m * 2 ^ 32 + imm
def encM (opc : Nat) (h : Hdr) (d : Nat) (x : MemOp) (m : Nat) : Nat :=
  opc * 2 ^ 70 + h.enc + d * 2 ^ 43 + x.a.val * 2 ^ 36 + x.b.val * 2 ^ 29 + x.s.val * 2 ^ 26 + m * 2 ^ 21 +
    x.disp.toNat
def encE (opc : Nat) (h : Hdr) (d a b c imm : Nat) : Nat :=
  opc * 2 ^ 70 + h.enc + d * 2 ^ 43 + a * 2 ^ 36 + b * 2 ^ 29 + c * 2 ^ 22 + imm
def encX (opc : Nat) (h : Hdr) (t a b c g m : Nat) : Nat :=
  opc * 2 ^ 70 + h.enc + t * 2 ^ 44 + a * 2 ^ 37 + b * 2 ^ 30 + c * 2 ^ 23 + g * 2 ^ 17 + m * 2 ^ 12

def tyM (ty : IntTy) (sat : Bool) : Nat := ty.code + 8 * sat.toNat
def m5M (sub : Nat) (f : FFmt) (rm : Nat) : Nat := 32 * sub + 8 * f.code + rm
def m6M (mask : MReg) (vt : VTy) (op : Nat) : Nat := 64 * mask.val + 8 * vt.code + op
def m7M (mask : MReg) (w : VW) : Nat := 4 * mask.val + w.code
def gangM (g : GangArg) : Nat := 8 * g.n.code + 4 * g.east.toNat
def MovArg.idx : MovArg → Nat × Nat
  | .gg d a => (d.val, a.val)
  | .gp d a => (d.val, pi a)
  | .pg d a => (pi d, a.val)
  | .pp d a => (pi d, pi a)

/-- The word of an instruction; an event has none. -/
def encode : Instr → Option Nat
  | .nop h => encR 0x000 h 0 0 0 0 0
  | .br h off => encI 0x001 h 0 0 0 off.toNat
  | .brx h a => encR 0x002 h 0 a.val 0 0 0
  | .call h d off => encI 0x003 h d.val 0 0 off.toNat
  | .ret h a => encR 0x004 h 0 a.val 0 0 0
  | .loop h d off => encI 0x005 h d.val 0 0 off.toNat
  | .loopGt h a off => encI 0x005 h 0 a.val 1 off.toNat
  | .loopNz h a off => encI 0x005 h 0 a.val 2 off.toNat
  | .fin h => encR 0x006 h 0 0 0 0 0
  | .trapi h imm => encI 0x007 h 0 0 0 imm.toNat
  | .sysrd h d n => encI 0x008 h d.val 0 0 n.toNat
  | .syswr h a n => encI 0x009 h 0 a.val 0 n.toNat
  | .syswrOwner h a => encI 0x009 h 0 a.val 0 0x1
  | .syswrFpstat h a => encI 0x009 h 0 a.val 0 0x5
  | .syswrStlscope h a => encI 0x009 h 0 a.val 0 0xE
  | .add h d a b ty sat => encR 0x040 h d.val a.val b.val 0 (tyM ty sat)
  | .sub h d a b ty sat => encR 0x041 h d.val a.val b.val 0 (tyM ty sat)
  | .mul h d a b ty sat => encR 0x042 h d.val a.val b.val 0 (tyM ty sat)
  | .mulh h d a b ty => encR 0x043 h d.val a.val b.val 0 (tyM ty false)
  | .mulhn h d a b ty => encR 0x044 h d.val a.val b.val 0 (tyM ty false)
  | .div h d a b ty => encR 0x045 h d.val a.val b.val 0 (tyM ty false)
  | .divn h d a b ty => encR 0x046 h d.val a.val b.val 0 (tyM ty false)
  | .rem h d a b ty => encR 0x047 h d.val a.val b.val 0 (tyM ty false)
  | .remn h d a b ty => encR 0x048 h d.val a.val b.val 0 (tyM ty false)
  | .and h d a b => encR 0x049 h d.val a.val b.val 0 0
  | .or h d a b => encR 0x04A h d.val a.val b.val 0 0
  | .xor h d a b => encR 0x04B h d.val a.val b.val 0 0
  | .andn h d a b => encR 0x04C h d.val a.val b.val 0 0
  | .orn h d a b => encR 0x04D h d.val a.val b.val 0 0
  | .shl h d a b => encR 0x04E h d.val a.val b.val 0 0
  | .shr h d a b => encR 0x04F h d.val a.val b.val 0 0
  | .sra h d a b => encR 0x050 h d.val a.val b.val 0 0
  | .rol h d a b => encR 0x051 h d.val a.val b.val 0 0
  | .clz h d a => encR 0x052 h d.val a.val 0 0 0
  | .ctz h d a => encR 0x053 h d.val a.val 0 0 0
  | .popc h d a => encR 0x054 h d.val a.val 0 0 0
  | .min h d a b ty => encR 0x055 h d.val a.val b.val 0 (tyM ty false)
  | .max h d a b ty => encR 0x056 h d.val a.val b.val 0 (tyM ty false)
  | .minn h d a b ty => encR 0x057 h d.val a.val b.val 0 (tyM ty false)
  | .maxn h d a b ty => encR 0x058 h d.val a.val b.val 0 (tyM ty false)
  | .abs h d a ty sat => encR 0x059 h d.val a.val 0 0 (tyM ty sat)
  | .sext h d a n1 => encR 0x05A h d.val a.val 0 0 n1.val
  | .zext h d a n1 => encR 0x05B h d.val a.val 0 0 n1.val
  | .bfx h d a b sign => encR 0x05C h d.val a.val b.val 0 sign.toNat
  | .bfi h d a b c => encR 0x05D h d.val a.val b.val c.val 0
  | .mov h x => encR 0x05E h x.idx.1 x.idx.2 0 0 0
  | .movFromStream h d q => encR 0x05E h d.val (qi q) 0 0 0
  | .movToStream h q a => encR 0x05E h (qi q) a.val 0 0 0
  | .cmp h d a b c w => encR 0x05F h (pi d) a.val b.val 0 (c.code + 16 * w.code)
  | .sel h d a b c => encR 0x060 h d.val a.val b.val (pi c) 0
  | .plog h d a b tt => encR 0x061 h (pi d) (pi a) (pi b) 0 tt.toNat
  | .addi h d a ty sat imm => encI 0x080 h d.val a.val (tyM ty sat) imm.toNat
  | .movi h d imm => encI 0x081 h d.val 0 0 imm.toNat
  | .moviN h d imm => encI 0x081 h d.val 0 1 imm.toNat
  | .movh h d a imm => encI 0x082 h d.val a.val 0 imm.toNat
  | .lea h d x => encM 0x083 h d.val x 0
  | .cmpi h d a c imm => encI 0x084 h (pi d) a.val c.code imm.toNat
  | .andImm h d a imm => encI 0x085 h d.val a.val 0 imm.toNat
  | .orImm h d a imm => encI 0x086 h d.val a.val 0 imm.toNat
  | .xorImm h d a imm => encI 0x087 h d.val a.val 0 imm.toNat
  | .shlImm h d a n => encI 0x088 h d.val a.val 0 n.val
  | .shrImm h d a n => encI 0x089 h d.val a.val 0 n.val
  | .sraImm h d a n => encI 0x08A h d.val a.val 0 n.val
  | .mulImm h d a ty sat imm => encI 0x08B h d.val a.val (tyM ty sat) imm.toNat
  | .ld h d x sz na => encM 0x0C0 h d.val x (sz.code + 8 * na.toNat)
  | .st h d x sz => encM 0x0C1 h d.val x sz.code
  | .ldp h d x na => encM 0x0C2 h d.val x (8 * na.toNat)
  | .stp h d x => encM 0x0C3 h d.val x 0
  | .pfhL1 h x => encM 0x0C4 h 0 x 0
  | .pfhHome h x => encM 0x0C4 h 0 x 1
  | .cinvD h x => encM 0x0C5 h 0 x 0
  | .cinvI h x => encM 0x0C5 h 0 x 1
  | .cinvDa h => encM 0x0C5 h 0 ⟨0, 0, 0, 0⟩ 2
  | .cinvIa h => encM 0x0C5 h 0 ⟨0, 0, 0, 0⟩ 3
  | .lda h d a b w32 disp => encM 0x100 h d.val ⟨a, b, 0, disp⟩ w32.toNat
  | .strl h d a b w32 disp => encM 0x101 h d.val ⟨a, b, 0, disp⟩ w32.toNat
  | .fence h c later earlier => encR 0x102 h 0 0 0 c.val (8 * later.toNat + earlier.toNat)
  | .acq h d a c => encR 0x103 h d.val a.val 0 c.val 0
  | .rel h a b c => encR 0x104 h 0 a.val b.val c.val 0
  | .sigclr h a => encR 0x105 h 0 a.val 0 0 0
  | .sigrd h d a j => encR 0x106 h d.val a.val 0 0 j.val
  | .amo h d a b c op w32 ord =>
    encR 0x107 h d.val a.val b.val c.val (op.code + 16 * w32.toNat + 32 * ord.code)
  | .red h a b op w32 => encR 0x108 h 0 a.val b.val 0 (op.code + 16 * w32.toNat)
  | .cas h d a b c w32 ord => encR 0x109 h d.val a.val b.val c.val (16 * w32.toNat + 32 * ord.code)
  | .bar h d a b c id ch => encE 0x10A h d.val a.val b.val c.val (id.val + 64 * ch.val)
  | .fadd h d a b f rm => encR 0x140 h d.val a.val b.val 0 (m5M 0 f rm.code)
  | .fsub h d a b f rm => encR 0x141 h d.val a.val b.val 0 (m5M 0 f rm.code)
  | .fmul h d a b f rm => encR 0x142 h d.val a.val b.val 0 (m5M 0 f rm.code)
  | .fma h d a b c f rm => encR 0x143 h d.val a.val b.val c.val (m5M 0 f rm.code)
  | .fms h d a b c f rm => encR 0x144 h d.val a.val b.val c.val (m5M 0 f rm.code)
  | .fnma h d a b c f rm => encR 0x145 h d.val a.val b.val c.val (m5M 0 f rm.code)
  | .fdiv h d a b f rm => encR 0x146 h d.val a.val b.val 0 (m5M 0 f rm.code)
  | .fsqrt h d a f rm => encR 0x147 h d.val a.val 0 0 (m5M 0 f rm.code)
  | .fmin h d a b f => encR 0x148 h d.val a.val b.val 0 (m5M 0 f 0)
  | .fmax h d a b f => encR 0x149 h d.val a.val b.val 0 (m5M 0 f 0)
  | .fsgn h d a b f op => encR 0x14A h d.val a.val b.val 0 (m5M op.code f 0)
  | .fcmp h d a b f c => encR 0x14B h (pi d) a.val b.val 0 (m5M c.code f 0)
  | .fclass h d a f => encR 0x14C h d.val a.val 0 0 (m5M 0 f 0)
  | .fcvt h d a dst src rm => encR 0x14D h d.val a.val 0 0 (64 * dst.code + 8 * src.code + rm.code)
  | .frnd h d a f rm => encR 0x14E h d.val a.val 0 0 (m5M 0 f rm.code)
  | .fscale h d a b f rm => encR 0x14F h d.val a.val b.val 0 (m5M 0 f rm.code)
  | .vclaim h d t mn mx => encR 0x180 h d.val 0 0 0 (256 * t.toNat + 16 * mn.val + mx.val)
  | .vrelease h => encR 0x181 h 0 0 0 0 0
  | .vreleaseSp h d => encR 0x181 h d.val 0 0 0 1
  | .vadd h d a b mk vt op => encR 0x182 h (vi d) (vi a) b.idx 0 (m6M mk vt op.code)
  | .vsub h d a b mk vt op => encR 0x183 h (vi d) (vi a) b.idx 0 (m6M mk vt op.code)
  | .vmul h d a b mk vt op => encR 0x184 h (vi d) (vi a) b.idx 0 (m6M mk vt op.code)
  | .vfma h d a b c mk vt op => encR 0x185 h (vi d) (vi a) b.idx (vi c) (m6M mk vt op.code)
  | .vmin h d a b mk vt => encR 0x186 h (vi d) (vi a) b.idx 0 (m6M mk vt 0)
  | .vmax h d a b mk vt => encR 0x187 h (vi d) (vi a) b.idx 0 (m6M mk vt 0)
  | .vsgn h d a b mk vt op => encR 0x188 h (vi d) (vi a) b.idx 0 (m6M mk vt op.code)
  | .vcmp h d a b mk vt c => encR 0x189 h (mi d) (vi a) b.idx 0 (m6M mk vt c.code)
  | .vsel h d a b c vt => encR 0x18A h (vi d) (vi a) b.idx (mi c) (m6M 0 vt 0)
  | .vlog h (.lanes d a b mk) op => encR 0x18B h (vi d) (vi a) b.idx 0 (m6M mk .f32 op.code)
  | .vlog h (.masks d a b) op =>
    encR 0x18B h (mi d) (mi a) (if op = .not then 0 else mi b) 0 (m6M 0 .f32 op.code)
  | .vsh h d a b mk vt op => encR 0x18C h (vi d) (vi a) b.idx 0 (m6M mk vt op.code)
  | .vcvt h d a fl dst src rm =>
    encR 0x18D h (vi d) (vi a) 0 0 (512 * fl.toNat + 64 * dst.code + 8 * src.code + rm.code)
  | .vdec h d a part c4 tab => encR 0x18E h (vi d) (vi a) 0 0 (4 * part.val + 2 * c4.toNat + tab.val)
  | .venc h d a part c4 tab => encR 0x18F h (vi d) (vi a) 0 0 (4 * part.val + 2 * c4.toNat + tab.val)
  | .vpack h d a b bf rm => encR 0x190 h (vi d) (vi a) (vi b) 0 (8 * bf.toNat + rm.code)
  | .vunpk h d a part bf => encR 0x191 h (vi d) (vi a) 0 0 (16 * part.val + 8 * bf.toNat)
  | .vred h d a mk vt op => encR 0x192 h d.val (vi a) 0 0 (m6M mk vt op.code)
  | .vscan h d a mk vt op => encR 0x193 h (vi d) (vi a) 0 0 (m6M mk vt op.code)
  | .vperm h d a b mk vt => encR 0x194 h (vi d) (vi a) (vi b) 0 (m6M mk vt 0)
  | .vbcast h d a mk vt => encR 0x195 h (vi d) a.val 0 0 (m6M mk vt 0)
  | .vidx h d a b mk => encR 0x196 h (vi d) a.val b.val 0 (m6M mk .f32 0)
  | .vsfu h d a mk op => encR 0x197 h (vi d) (vi a) 0 0 (m6M mk .f32 op.code)
  | .vext h d a b vt => encR 0x198 h d.val (vi a) b.val 0 (m6M 0 vt 0)
  | .vins h d a b vt => encR 0x199 h (vi d) a.val b.val 0 (m6M 0 vt 0)
  | .vld h d x mk w => encM 0x1C0 h (vi d) x (m7M mk w)
  | .vst h d x mk w => encM 0x1C1 h (vi d) x (m7M mk w)
  | .vlds h d x mk w => encM 0x1C2 h (vi d) x (m7M mk w)
  | .vsts h d x mk w => encM 0x1C3 h (vi d) x (m7M mk w)
  | .vgath h d a b mk w => encR 0x1C4 h (vi d) a.val (vi b) 0 (m7M mk w)
  | .vscat h d a b mk w => encR 0x1C5 h (vi d) a.val (vi b) 0 (m7M mk w)
  | .sbind h d a b wr => encR 0x1C6 h (qi d) a.val b.val 0 wr.toNat
  | .sunbind h d => encR 0x1C7 h (qi d) 0 0 0 0
  | .mma h x y g =>
    encX (0x200 + 4 * x.code + y.code) h g.t.val g.a.val g.b.val g.c.val (gangM g) 0
  | .snz h x y g => encX 0x216 h g.t.val g.a.val g.b.val g.c.val (gangM g) (4 * x.code + y.code)
  | .dtload h d a k => encE 0x210 h d.val a.val 0 0 k.val
  | .accz h t n => encX 0x211 h t.val 0 0 0 0 n.val
  | .accld h t a b => encX 0x212 h t.val a.val b.val 0 0 0
  | .accst h t a b => encX 0x213 h t.val a.val b.val 0 0 0
  | .accq h t a b c out => encX 0x214 h t.val a.val b.val c.val 0 out.code
  | .accvRd h t v part => encX 0x215 h t.val (vi v) 0 0 0 (2 * part.val)
  | .accvWr h t v part => encX 0x215 h t.val (vi v) 0 0 0 (2 * part.val + 1)
  | .cpyq h d a => encE 0x240 h d.val a.val 0 0 0
  | .wmrd h d k => encE 0x241 h d.val 0 0 0 k.val
  | .lkrd h d a => encE 0x242 h d.val a.val 0 0 0
  | .halo h d a => encE 0x243 h d.val a.val 0 0 0
  | .rld h d a b sz => encE 0x244 h d.val a.val b.val 0 sz.code
  | .rst h a b c sz => encE 0x245 h 0 a.val b.val c.val sz.code
  | .ramo h d a b c op w32 => encE 0x246 h d.val a.val b.val c.val (op.code + 16 * w32.toNat)
  | .rdx h d a => encE 0x247 h d.val a.val 0 0 0
  | .mcgset h d a b => encE 0x248 h d.val a.val b.val 0 0
  | .lodeq h d a b ch => encE 0x249 h d.val a.val b.val 0 ch.val
  | .send h d a b => encE 0x280 h d.val a.val b.val 0 0
  | .spawn h d a => encE 0x281 h (pi d) a.val 0 0 0
  | .actbind h d a => encE 0x282 h d.val a.val 0 0 0
  | .actfree h d a => encE 0x283 h d.val a.val 0 0 0
  | .chbind h d a data => encE 0x284 h d.val a.val 0 0 data.toNat
  | .chcfgFree h d a => encE 0x285 h d.val a.val 0 0 0
  | .chcfgPause h d a => encE 0x285 h d.val a.val 0 0 1
  | .chcfgResume h d a => encE 0x285 h d.val a.val 0 0 2
  | .chcfgSched h d a b => encE 0x285 h d.val a.val b.val 0 3
  | .chcfgMbox h d a b c side => encE 0x285 h d.val a.val b.val c.val (4 + 8 * side.code)
  | .splice h d a => encE 0x286 h d.val a.val 0 0 0
  | .splst h d a => encE 0x287 h d.val a.val 0 0 0
  | .stlcfg h d a ns nv sc => encE 0x288 h d.val a.val 0 0 (ns.toNat + 2 * nv.toNat + 4 * sc.toNat)
  | .grant h d a b c r => encE 0x2C0 h d.val a.val b.val c.val r.toNat
  | .revoke h d a b c r => encE 0x2C1 h d.val a.val b.val c.val r.toNat
  | .rtwr h d a b cl nz => encE 0x2C2 h d.val a.val b.val 0 (cl.toNat + 2 * nz.toNat)
  | .plbinv h d a md => encE 0x2C3 h d.val a.val 0 0 md.toNat
  | .rgnnew h d a b c r => encE 0x2C4 h d.val a.val b.val c.val r.toNat
  | .rgnfree h d a => encE 0x2C5 h d.val a.val 0 0 0
  | .waymSet h d a b dies => encE 0x2C6 h d.val a.val b.val 0 (2 * dies.toNat)
  | .waymRd h d a b => encE 0x2C6 h d.val a.val b.val 0 1
  | .tret h nx rp => encR 0x300 h 0 0 0 0 (nx.toNat + 2 * rp.toNat)
  | .tabort h => encR 0x301 h 0 0 0 0 0
  | .cring h d a s k => encR 0x302 h d.val a.val 0 0 (s.toNat + 2 * k.val)
  | .preq h d a b c => encE 0x303 h d.val a.val b.val c.val 0
  | .ctxsv h d a b t l f c =>
    encE 0x304 h d.val a.val b.val 0 (t.toNat + 2 * l.toNat + 4 * f.toNat + 8 * c.toNat)
  | .ctxrs h d a t l f => encE 0x305 h d.val a.val 0 0 (t.toNat + 2 * l.toNat + 4 * f.toNat)
  | .mcrd h d a k => encR 0x306 h d.val a.val 0 0 k.val
  | .mcclr h d a c => encR 0x307 h d.val a.val 0 0 c.toNat
  | .stest h d a p => encE 0x308 h d.val a.val 0 0 p.toNat
  | .wdset h d a => encR 0x309 h d.val a.val 0 0 0
  | _ => none

end Sys2Proof
end

