-- ==== Sys2Proof/Config.lean ====
section
/-! DEFINITION. What an implementation fixes, and the free values: constants without a body, so that
no proof can rest on a number chosen here. Each is named in an entry of the assumption log. -/

namespace Sys2Proof.Config

/-- The physical row that manufacturing test disabled on a die (R14). DESIGN CHOICE, log 9. -/
opaque disabledRow : Nat → Fin 46

/-- A byte read under key `r` where the line was written under key `w` (R208): other bits, which the spec does not
give. Arguments: `w`, `r`, the physical address, the bytes of the line as written. DESIGN CHOICE, log 8. -/
opaque crossKeyByte : Nat → Nat → Nat → Nat → Byte

/-- The mere set (0-127) of a line: the spec gives a mere 128 sets and no index (R22, R411). DESIGN CHOICE, log 10. -/
opaque mereSet : Nat → Fin 128

/-- Whether a boot image's ECDSA P-384 signature verifies with the fused vendor key (R433, R436). DESIGN CHOICE, log 11. -/
opaque signatureOk : List Byte → Bool

/-- The version floor fused in die 0 (R433). DESIGN CHOICE, log 11. -/
opaque versionFloor : Nat

/-- SHA-384 (R408, R436). DESIGN CHOICE, log 11. -/
opaque sha384 : List Byte → BitVec 384

/-- The layer-0 identity public key, fused in the module (R408, R435, R437). DESIGN CHOICE, log 11. -/
opaque identityKey : List Byte

/-- An ECDSA P-384 signature by the key of a layer, which the digests of the layers down to it fix (R408): digests and message to
signature. DESIGN CHOICE, log 11. -/
opaque layerSign : List (BitVec 384) → List Byte → List Byte

/-- AES-GCM open (R280): key, salt, frame count, additional data, ciphertext, tag to plaintext. DESIGN CHOICE, log 11. -/
opaque gcmOpen : BitVec 256 → BitVec 32 → Nat → List Byte → List Byte → List Byte → Option (List Byte)

/-- AES-GCM seal (R280): key, salt, frame count, additional data, plaintext to ciphertext and tag. DESIGN CHOICE, log 11. -/
opaque gcmSeal : BitVec 256 → BitVec 32 → Nat → List Byte → List Byte → List Byte × List Byte

/-- The port hash of R282: destination module and location to a number. DESIGN CHOICE, log 12. -/
opaque portHash : Nat → Nat → Nat

/-- The rounded result of a `vsfu` function that the model's bounded evaluation leaves undecided (R161):
function code and operand to result bits. DESIGN CHOICE, log 13. -/
opaque sfuUndecided : Nat → BitVec 32 → BitVec 32

/-- A free 64-bit value, for a value that results and that the spec does not state: a counter to a word.
DESIGN CHOICE, log 7 and 20. -/
opaque freeWord : Nat → Word

end Sys2Proof.Config
end

