-- ==== Sys2Proof/Machine/State.lean ====
section
/-! DEFINITION. The state of one E9 module as plain data, and the state after reset. Cores, tussocks,
tables and queues that nothing has touched are absent from their lists and read as their reset value. -/

namespace Sys2Proof.Machine

/-! ## Why a step can stop -/

/-- Faults. -/
inductive Fault where
  /-- Raised by `step` alone, when the agenda asks a core to issue an instruction after a fatal error: no core
  executes anything until reset (R439). Safe: the spec says that nothing is executed. -/
  | fatalStop
  deriving DecidableEq, Repr

/-- Refusals. -/
inductive Refusal where
  /-- An arm of `exec` that has no meaning yet. Safe. -/
  | notModelled (mnemonic : String)
  deriving DecidableEq, Repr

/-! ## Memory -/

/-- Sparse data by key: strictly rising keys. -/
abbrev Map (α : Type) := List (Nat × α)

/-- Bytes by address: HBM by physical address (below 2^40) and TCM, tussock memory and staithe by their
alias address (R199). -/
abbrev Memory := List Host.Cell

/-! ## Registers and results of a core -/

/-- A write of a result to a register. `s` names the supervisor bank (R362); a vector write gives the
lanes it changes (R149). -/
inductive RegWrite where
  | g (r : GReg) (v : Word)
  | s (r : Fin 16) (v : Word)
  | p (r : PReg) (b : Bool)
  | v (r : VReg) (ls : List (Option Lane))
  | m (r : MReg) (b : BitVec 128)
  deriving DecidableEq, Repr

/-- A fixed-latency result on its way to its register (R45, R50). -/
structure PendWrite where
  due : Nat
  order : Nat
  writes : List RegWrite
  flags : Flags
  tag : Fin 16
  deriving DecidableEq, Repr

/-- A late fault (R358, R360, R363): cause, TRAPVAL, program counter of the faulting instruction, source,
SEQ, the owner under which it issued, the firing it belongs to. -/
structure LateFault where
  cause : Nat
  val : Word
  pc : Word
  src : Fin 4
  seq : Nat
  owner : Nat
  firing : Nat
  tag : Fin 16
  store : Bool
  /-- The cycle of its arrival at the core. -/
  at_ : Nat
  /-- STAGE, SLOT and TASK of the firing, at their places in frame word 5 (R363, R424). -/
  who : Word := 0
  deriving DecidableEq, Repr

/-- The state of a scoreboard tag (R41). -/
inductive TagSt where
  | free
  | outstanding
  | done
  | faulted (f : LateFault)
  deriving DecidableEq, Repr

/-- A walk through memory (R97, R166): element size and (count, stride) pairs, dimension 0 first. -/
structure Shape where
  esize : Nat
  dims : List (Nat × Int)
  deriving DecidableEq, Repr

/-- An element read ahead of a read stream, or the fault found there (R167). -/
inductive Ahead where
  | elem (v : Word)
  | fault (cause : Nat) (val : Word)
  deriving DecidableEq, Repr

/-- What a q register is bound to (R167, R308). -/
inductive QBind where
  | unbound
  | chanIn (i : Fin 4)
  | chanOut (j : Fin 4)
  | stream (wr : Bool) (base : Word) (shape : Shape) (pos : Nat) (ahead : List Ahead)
  deriving DecidableEq, Repr

/-- The registers of the running firing (R298). `gs` is the supervisor bank g48 to g63 (R362). Vector
registers hold the granted lanes (R147, R148); without a claim they hold none. -/
structure Regs where
  g : Vector Word 64
  gs : Vector Word 16
  v : Vector (List Lane) 32
  m : Vector (BitVec 128) 8
  p : Vector Bool 8
  q : Vector QBind 8
  fpstat : Flags
  wsig : Sig
  isig : Sig
  /-- VGRANT (R147) and the MIN of the claim (R145). -/
  vgrant : Nat
  vmin : Nat
  /-- The model's own: the last cycle in which results raised flags, and those flags (R119). -/
  landed : Nat × Flags := (0, 0)
  deriving DecidableEq, Repr

/-! ## Operations on their way -/

/-- Ordering classes of R235, as far as a wait depends on them: the letters of R253, engine, gang,
remote and barrier operations, and operations without a class. -/
inductive OrdClass where
  | none
  | load
  | store
  | atomic
  | engine
  | mma
  | remote
  | barrier
  deriving DecidableEq, Repr

/-- Where an access goes after decoding (R199). Offsets are within the memory named. -/
inductive Loc where
  | tcm (core off : Nat)
  | tussock (tus off : Nat)
  | staithe (die off : Nat)
  | paged (va : Nat)
  | aperture (group off : Nat)
  deriving DecidableEq, Repr

/-- A translation (R207, R209): page base and size, frame, cacheable, key slot, migration lock. -/
structure Trans where
  page : Nat
  size : Nat
  frame : Nat
  c : Bool
  key : Nat
  mlock : Bool
  deriving DecidableEq, Repr

/-- A place that an access has been found to reach: the array byte, or the line of a translated page. -/
inductive Place where
  | array (addr : Nat)
  | global (va pa key : Nat) (c mlock : Bool)
  deriving DecidableEq, Repr

/-- How a load extends and where it writes (R79): D, the byte count, sign, and D + 1 for a pair. -/
structure LoadDst where
  d : RegWrite
  bytes : Nat
  signed : Bool
  pair : Bool
  deriving DecidableEq, Repr

/-- The memory part of an atomic (R250). -/
structure AtomicReq where
  /-- 0-11 as `AmoOp`, 12 for `cas`. -/
  op : Nat
  bytes : Nat
  operand : Word
  expected : Word
  deriving DecidableEq, Repr

/-- What a write-buffer entry does at its location (R85, R241). -/
inductive StoreOp where
  | bytes (data : List Byte)
  | atomic (r : AtomicReq)
  | rel (value : Word) (sig : Sig)
  | sigclr
  deriving DecidableEq, Repr

/-- The scope kinds a release waits for (R222). -/
inductive ScopeKind where
  | self
  | module
  | domain
  deriving DecidableEq, Repr

/-- An entry of the write buffer (R85, R204, R241): sequence number, operation number of its instruction,
pointer, place, operation, release wait, synchronising or not, sent to its home or not, held at a
migration-locked page or not. -/
structure StoreEnt where
  seq : Nat
  id : Nat
  ea : Word
  place : Place
  op : StoreOp
  release : Option ScopeKind
  sync : Bool
  sent : Bool
  held : Bool
  owner : Nat
  pc : Word
  firing : Nat
  /-- STAGE, SLOT and TASK of the firing (R424). -/
  who : Word := 0
  /-- A handler's own store, which no fault holds (R365). -/
  handler : Bool := false
  deriving DecidableEq, Repr

/-- A group 7 load after issue (R162, R163): active elements with address, place and the value that an L1 copy gave;
element size, D, the granted lanes, a gather or not, the fault that it completes with (cause and address). -/
structure VecMem where
  elems : List (Nat × Word × Place × Option (List Byte))
  es : Nat
  d : VReg
  lanes : Nat
  gather : Bool
  fault : Option (Nat × Word)
  deriving DecidableEq, Repr

/-- A gang operand set as a member read it (R180, R444): TCM offsets of panel and tile, panel, tile and scales as bytes with the poisoned
8-byte words of each, the row map of a compressed tile, the row scales, the entries of DT0 and DT1 and whether both are in state C4P. -/
structure GangData where
  aOff : Nat
  bOff : Nat
  panel : List Byte
  tile : List Byte
  scales : List (BitVec 16)
  rowmap : BitVec 32
  rowScales : List (BitVec 16)
  dtA : List (BitVec 20)
  dtB : List (BitVec 20)
  paired : Bool
  poisonPanel : Option Nat
  poisonTile : Option Nat
  deriving DecidableEq, Repr

/-- An accumulator-store instruction without a gang (R186, R188). -/
inductive AccOp where
  | zero (t n : Nat)
  | load (t : Nat) (addr stride : Nat)
  | store (t : Nat) (addr stride : Nat)
  | quant (t : Nat) (addr stride : Nat) (out : AccqOut) (factor : BitVec 32) (ents : List (BitVec 20))
  | toVec (t : Nat) (d : VReg) (part : Nat) (lanes : Nat)
  | fromVec (t : Nat) (ls : List Lane) (part : Nat)
  deriving DecidableEq, Repr

/-- What a remote operation is. -/
inductive RemoteKind where
  | rld | rst | ramo | apLoad | apStore | rdx
  deriving DecidableEq, Repr

/-- A remote operation: register written, answers still to come, values answered so far, faults by member index,
address named, combining format and operation, members (module, address) in order, group held in flight, lines that
join WSIG on success. -/
structure RemoteOp where
  kind : RemoteKind
  dst : Option LoadDst
  left : Nat
  vals : List Word
  faults : List (Nat × Word)
  addr : Word
  rfmt : Nat
  rop : Nat
  members : List (Nat × Word)
  group : Option Nat
  lines : List Nat
  deriving DecidableEq, Repr

/-- What an outstanding operation still has to do. -/
inductive OutOp where
  /-- A load of R83. `na` is NA of R84. -/
  | load (place : Place) (ea : Word) (dst : LoadDst) (na : Bool)
  /-- A group 7 load (R163). -/
  | vload (x : VecMem)
  /-- A group 7 store: elements that have still to enter the write buffer, its entries still to be performed, and
  the fault that it completes with. -/
  | vstore (todo : List (Word × Place × List Byte)) (seqs : List Nat) (fault : Option (Nat × Word))
  /-- A stream read that reached a fault found while reading ahead (R167). -/
  | sfault (cause : Nat) (val : Word)
  /-- An acquire load (R245). -/
  | lda (place : Place) (dst : LoadDst)
  /-- `acq` and `sigrd` of the record at the place (R230, R248). -/
  | acq (place : Place) (d : GReg)
  | sigrd (place : Place) (d : GReg) (j : Nat)
  /-- An operation whose work is the write-buffer entry `seq`; `d` is the register that takes the old value. -/
  | stored (seq : Nat) (d : Option GReg)
  /-- A fence: classes, scope; complete when its wait is over (R254). -/
  | fence (later : BitVec 4) (earlier : BitVec 3) (scope : ScopeKind)
  /-- A coprocessor result computed from the operands read at issue (R151). -/
  | cop (writes : List RegWrite) (flags : Flags)
  /-- An accumulator instruction (R186). -/
  | acc (op : AccOp)
  /-- A gang instruction: OPC function, pair, gang, and whether it has arrived or joined (R172). -/
  | gang (fn pair t n x0 : Nat) (east : Bool) (data : GangData) (arrived : Option Nat) (joined : Bool)
  /-- `dtload`: table, status to write, contents on success (R189). -/
  | dtload (k : Fin 2) (d : GReg) (status : Nat) (c4 : Bool) (ents : List (BitVec 20))
  /-- A vector claim waiting in the pool's queue (R143). -/
  | claim (d : GReg) (min max : Nat)
  /-- A barrier arrival on its way to the weir (R257). -/
  | bar (d : GReg) (scope : Word) (bar ch : Nat) (w0 w1 : Word)
  /-- A load that waits for a watermark, then completes as the load it holds (R269). -/
  | watermark (copy : Nat) (fault : Option Word) (place : Place) (ea : Word) (dst : LoadDst) (na : Bool)
  /-- An engine command accepted with status 0, complete when its copies or send list are (R261). -/
  | copy (copies : List Nat) (fault : Option Word)
  | lode
  /-- A remote operation waiting for answers (R285, R290, R293). -/
  | remote (r : RemoteOp)
  /-- A `splice` whose marker waits at the edge of its entry channel (R352). -/
  | splice (d : GReg) (num : Nat)
  /-- A `send` waiting for its answer (R339). -/
  | send (d : GReg)
  /-- A rights change waiting for its drops (R399). -/
  | drop (n : Nat)
  /-- An `actfree` waiting for the actor's firing boundary (R350). -/
  | actfree (d : GReg) (core slot : Nat)
  deriving DecidableEq, Repr

/-- An operation that has issued and has not completed. -/
structure Out where
  id : Nat
  tag : Fin 16
  pc : Word
  cyc : Nat
  /-- Holds the issue of every later instruction (R42). -/
  holds : Bool
  /-- Holds later memory, engine and barrier instructions (R242). -/
  acquires : Bool
  cls : OrdClass
  owner : Nat
  firing : Nat
  /-- Lines of its pending misses that an invalidation has met: their fill is not installed (R84). -/
  inval : List Nat
  /-- Entry of the coprocessor ring that this operation completes, by issue number. -/
  ring : Option Nat
  op : OutOp
  /-- STAGE, SLOT and TASK of the firing (R424). -/
  who : Word := 0
  deriving DecidableEq, Repr

/-- The issue side of a core. -/
structure IssueSt where
  /-- First cycle in which the next instruction may issue. -/
  next : Nat
  /-- For the latest instructions of the firing, newest first: the cycle at which a producer distance that
  names it ends (R40). -/
  hist : List Nat
  tags : Vector TagSt 16
  pend : List PendWrite
  outs : List Out
  opCount : Nat
  deriving DecidableEq, Repr

/-! ## Caches and translation of a core -/

/-- An L1 line (R203). -/
structure L1Line where
  line : Nat
  data : List Byte
  expire : Nat
  /-- Its words (0 to 7) that were poisoned when the fill read them, each with its error code (R420). -/
  poison : List (Nat × Nat) := []
  deriving DecidableEq, Repr

/-- An instruction cache line (R33, R34). -/
structure ICLine where
  line : Nat
  data : List Byte
  expire : Nat
  deriving DecidableEq, Repr

/-- A rights-table entry (R389). -/
structure RtEnt where
  base : Nat
  length : Nat
  rights : BitVec 5
  colour : Nat
  world : Nat
  granter : Nat
  deriving DecidableEq, Repr

/-- A PLB entry: a copy of entry `slot` of `owner`'s table (R390). -/
structure PlbEnt where
  owner : Nat
  slot : Nat
  ent : RtEnt
  deriving DecidableEq, Repr

/-- A code line on its way to the instruction cache, and how often it has failed its CRC (R33). -/
structure IFetch where
  line : Nat
  place : Place
  tries : Nat
  inval : Bool
  deriving DecidableEq, Repr

/-- A prefetch on its way (R86). -/
structure Prefetch where
  line : Nat
  place : Place
  home : Bool
  inval : Bool
  deriving DecidableEq, Repr

structure Caches where
  l1 : List L1Line
  ic : List ICLine
  tlb : List Trans
  plb : List PlbEnt
  wb : List StoreEnt
  seqHead : Nat
  ifetch : Option IFetch
  /-- A fetched code line of an uncacheable page, for the fetch that asked for it: it enters no instruction cache (R201). -/
  codeLine : Option ICLine
  /-- The copy that the next load waits for at issue, and the fault with which it has stopped (R269). -/
  wmWait : Option (Nat × Option Word)
  /-- The page that the access about to be made waits for at the walker (R82, R209). -/
  walkWait : Option Nat := none
  /-- A walk that this core waited for and that faulted: the page (R207). -/
  walkFault : Option Nat
  prefetches : List Prefetch
  injq : Nat
  hintDrop : Word
  deriving DecidableEq, Repr

/-! ## Matrix state of a core -/

/-- States of a decode table (R122). -/
inductive DtState where
  | empty | c8 | c4 | c4p
  deriving DecidableEq, Repr

/-- A decode table: entries hold EXCL in bit 19 and VAL in bits [18:0] (R121). -/
structure DTable where
  st : DtState
  owner : Nat
  ents : List (BitVec 20)
  deriving DecidableEq, Repr

/-- An accumulator tile: 256 elements, row-major, and its owner (R184); poisoned 8-byte words (R421). -/
structure Tile where
  owner : Option Nat
  elems : List Lane
  poison : List Nat
  deriving DecidableEq, Repr

structure Matrix where
  dt : Vector DTable 2
  /-- Tiles that are not +0 with no owner. -/
  tiles : Map Tile
  /-- The GANG value with which every later group 8 instruction of the firing completes (R174). -/
  gangFault : Option Word
  deriving DecidableEq, Repr

/-! ## Traps of a core -/

/-- A trap that waits for the firing's tags (R362). `late` and the fields of the fault as R363 stores them. -/
structure PTrap where
  cause : Nat
  val : Word
  pc : Word
  faultPc : Word
  late : Bool
  tag : Fin 16
  src : Fin 4
  seq : Nat
  held : Bool
  /-- TRAPH, SCODEB and SOWNER as they stood when the trap began (R357). -/
  traph : Word := 0
  scodeb : Word := 0
  sowner : Nat := 0
  deriving DecidableEq, Repr

/-- An abort that waits for joined gang instructions (R300). -/
structure Abort where
  cause : Nat
  val : Word
  pc : Word
  bank : Nat
  deriving DecidableEq, Repr

/-- A coprocessor dispatch ring entry (R373). -/
structure CRingEnt where
  n : Nat
  pc : Word
  st : Fin 3
  tag : Fin 16
  cause : Nat
  val : Word
  issue : Nat
  done : Option Nat
  deriving DecidableEq, Repr

/-- A global-store ring entry (R365, R373). -/
structure SRingEnt where
  seq : Nat
  st : Fin 4
  held : Bool
  cause : Nat
  logSize : Nat
  addr : Word
  data : Word
  ent : Option StoreEnt
  deriving DecidableEq, Repr

structure Traps where
  /-- Faults on their way to the core. -/
  inbound : List LateFault
  /-- Untagged faults that have arrived and wait for delivery (R360). -/
  ready : List LateFault
  /-- Untagged faults that LATEPEND counts: delivered after `tret` (R370). -/
  counted : List LateFault
  /-- The model's own: number of the handler's first operation, for the tags that `tret` waits for (R370). -/
  entryOp : Nat
  /-- `tret` has decided the kept stores and waits for the handler's tags (R370). -/
  decided : Bool := false
  pending : Option PTrap
  abort : Option Abort
  /-- A store fault has arrived and is not delivered: later stores wait (R365). -/
  storeStop : Bool
  cring : List CRingEnt
  sring : List SRingEnt
  /-- TRAPCAUSE, TRAPVAL and TRAPPC outside a handler (R67). -/
  cause : Nat
  val : Word
  tpc : Word
  deriving DecidableEq, Repr

/-! ## Firings, channels, actors -/

/-- Where a firing comes from (R316). -/
inductive FKind where
  | actor (slot : Fin 16)
  | chan (ch : Fin 32)
  | task
  | supRecord
  | preempt
  deriving DecidableEq, Repr

/-- The running firing (R298). -/
structure Firing where
  num : Nat
  kind : FKind
  pc : Word
  startOwner : Nat
  owner : Nat
  codeb : Word
  stage : Nat
  prio : Nat
  budget : Nat
  /-- The cycle at which BUDGET reads zero (R320). -/
  budgetEnd : Nat
  ext : Bool
  expired : Bool
  start : Nat
  /-- A firing started at step 1 or 2 of R316 (R357). -/
  sup : Bool
  /-- A trap handler is running (R362); the frame holds the firing's own state. -/
  handler : Bool
  /-- Words read from inputs 0-3, and the words of the record being written to outputs 0-3 with the count
  of records sent (R309, R310). -/
  reads : Vector Nat 4
  outWords : Vector (List Word) 4
  sent : Vector Nat 4
  deriving DecidableEq, Repr

/-- A splice marker (R325, R351, R352). -/
structure Marker where
  num : Nat
  issuer : Nat
  kind : Fin 3
  stage : Nat
  bind : List Word
  status : Word
  shand : Word
  sword : Word
  owner : Nat
  outcome : Option Nat
  done : Bool
  where_ : Option (Nat × Nat)
  deriving DecidableEq, Repr

/-- What a channel holds: records, with the union that a barrier token carries (R258), and markers. -/
inductive ChItem where
  | data (words : List Word) (union : Option Sig)
  | marker (m : Marker)
  deriving DecidableEq, Repr

/-- Who sent a record that is never refused (R443). -/
inductive EdgeKind where
  | token | notify | mailbox | status | lode | marker
  deriving DecidableEq, Repr

/-- A record or marker waiting at a channel's edge (R443). -/
structure EdgeRec where
  ch : Nat
  kind : EdgeKind
  item : ChItem
  /-- The owner under which it was sent, and the splice or lode engine that it delivers. -/
  owner : Nat
  ref_ : Nat
  /-- The channel has been unbound while it waits. -/
  lost : Bool := false
  deriving DecidableEq, Repr

/-- A bound channel (R343-R346). DESIGN CHOICE, log 53. -/
structure Channel where
  task : Bool
  owner : Nat
  cap : Nat
  ring : Nat
  items : List ChItem
  /-- Slots reserved by arming actors: (core, slot, output) and count (R307). -/
  reserved : List (Nat × Nat × Nat × Nat)
  paused : Bool
  prio : Nat
  budget : Nat
  codeb : Word
  inputOf : Option Nat
  deriving DecidableEq, Repr

/-- A remove or a rebind to another core under way (R329): the core and slot that take the state, if any; the state copy once
it is accepted; whether the state is copied; the channels whose items pass, each with its destination. -/
structure Perf where
  core : Nat
  slot : Option Nat
  rebind : Bool
  copy : Option Nat
  copied : Bool
  pass : List (Nat × Nat × Nat)
  deriving DecidableEq, Repr

/-- A bound actor (R306, R348). -/
structure Actor where
  owner : Nat
  handler : Word
  code : Word
  budget : Nat
  prio : Nat
  stage : Nat
  stOff : Nat
  stLen : Nat
  inhOff : Nat
  inhLen : Nat
  ins : Vector (Option (Nat × Nat)) 4
  /-- Output j: (core, channel, rate). -/
  outs : Vector (Option (Nat × Nat × Nat)) 4
  stopped : Bool
  freeing : Bool
  /-- A splice in progress: its number and issuer (R329). -/
  splicing : Option (Nat × Nat)
  /-- Its effects under way. -/
  perf : Option Perf
  /-- Not armed until a state copy or a move of records completes (R329). -/
  waits : Bool
  fired : Nat
  deriving DecidableEq, Repr

/-- A task in the deque (R301, R313). -/
structure Task where
  words : List Word
  owner : Nat
  prio : Nat
  budget : Nat
  pin : Bool
  deriving DecidableEq, Repr

/-- A launch record that passed its window test (R333, R334). -/
structure Launch where
  words : List Word
  owner : Nat
  sup : Bool
  /-- Queued by the core itself: it runs under SOWNER as it stands when the firing begins (R357, R366). -/
  queued : Bool := false
  deriving DecidableEq, Repr

/-- A mailbox counter (R274, R347). -/
structure Mbox where
  count : Nat
  ch : Nat
  w0 : Word
  value : Nat
  reached : Nat
  owner : Nat
  deriving DecidableEq, Repr

/-- A watermark slot (R270). -/
structure WmSlot where
  busy : Bool
  fault : Bool
  fill : Nat
  owner : Nat
  deriving DecidableEq, Repr

/-- A splice as its issuing core knows it (R352, R355). STATE 1-4. -/
structure SpliceEnt where
  num : Nat
  state : Nat
  outcome : Nat
  deriving DecidableEq, Repr

/-- Idle states of a core (R319). `idle since` counts from a cycle. -/
inductive IdleSt where
  | select
  | running
  | idle (since retry : Nat)
  | gated
  | waking (since : Nat)
  deriving DecidableEq, Repr

structure Sched where
  deque : List Task
  launchq : List Launch
  supq : List Launch
  windowq : List Launch
  preempt : Option (Word × Word)
  preemptIn : List (Word × Word)
  /-- A pre-emption request of a self-test is pending (R432): it names no handler and starts no firing. -/
  testReq : Bool
  actors : Map Actor
  chans : Map Channel
  edges : List EdgeRec
  mbox : Vector Mbox 4
  mboxIn : List Side
  /-- Round-robin pointer of each level: the item last fired (R317). -/
  rr : Map Nat
  /-- Armed items: since which cycle, and the levels gained by aging (R318). -/
  armed : Map (Nat × Nat)
  idle : IdleSt
  nosteal : Bool
  novictim : Bool
  stlscope : Word
  splices : List SpliceEnt
  spliceCount : Nat
  firings : Nat
  traph : Word
  scodeb : Word
  sowner : Nat
  window : Vector Word 8
  wm : Vector WmSlot 16
  torn : Map Nat
  fifo : List Nat
  deriving DecidableEq, Repr

/-- One compute core. -/
structure CoreSt where
  regs : Regs
  firing : Option Firing
  iss : IssueSt
  cache : Caches
  mtx : Matrix
  traps : Traps
  sched : Sched
  /-- The cycle at which the debugger stopped the core (R194). -/
  stopped : Option Nat
  deriving DecidableEq, Repr

/-! ## Shared units -/

/-- A claim in a pool's queue: core, operation, MIN, MAX lanes (R143). -/
structure Claim where
  core : Nat
  id : Nat
  min : Nat
  max : Nat
  deriving DecidableEq, Repr

/-- The vector pool of a tussock: queue and posted shrink requests (R143, R145). Free lanes are 128 less
the grants of its cores. -/
structure Pool where
  queue : List Claim
  shrink : List Nat
  deriving DecidableEq, Repr

/-- An arrival at a row barrier (R172), its x0 as a core number. `at_` counts the cycles of R173 from a cycle; `hold`
is the cycle since which a stopped member holds the count back (R197). -/
structure Arrival where
  core : Nat
  id : Nat
  x0 : Nat
  n : Nat
  fn : Nat
  pair : Nat
  east : Bool
  owner : Nat
  at_ : Nat
  hold : Option Nat
  deriving DecidableEq, Repr

/-- A joined gang (R180): members with their operations, the step in progress and its end. -/
structure Gang where
  x0 : Nat
  n : Nat
  east : Bool
  pair : Nat
  snz : Bool
  members : List (Nat × Nat × GangData)
  /-- Members whose later steps write nothing (R190). -/
  failed : List Nat
  /-- The bank that logged a member's error, where a step met it (R190, R358). -/
  banks : Map Nat := []
  /-- Members whose tile an error has corrupted in a latch (R190). -/
  bad : List Nat := []
  /-- Flags that the steps of a member have raised. -/
  flags : Map Flags
  step : Nat
  stepEnd : Nat
  deriving DecidableEq, Repr

/-- A barrier slot of a weir unit (R256). -/
structure WeirSlot where
  owner : Nat
  rect : Word
  /-- Arrived members: core, channel, words 0 and 1. -/
  arrived : List (Nat × Nat × Word × Word)
  union : Sig
  deriving DecidableEq, Repr

/-- A walk in progress (R207, R209): page number, level to read, table, requesting cores. -/
structure Walk where
  page : Nat
  lvl : Nat
  table : Nat
  cores : List Nat
  /-- The entries read so far, by level: they enter the translation cache when the walk returns a translation (R207). -/
  path : List (Nat × Word) := []
  deriving DecidableEq, Repr

/-- A shootdown in progress (R211): kind, first byte, count of bytes, cores that have not acknowledged with the operations and
the stores (sequence numbers) that must reach their home first. -/
structure Shootdown where
  kind : Nat
  first : Nat
  count : Nat
  waiting : List (Nat × List Nat × List Nat)
  /-- The new frame of a switch (R215), and the ranges of bytes that the shootdown covers. -/
  frame : Nat := 0
  ranges : List (Nat × Nat) := []
  deriving DecidableEq, Repr

/-- A die's translation walker (R209, R210). The cache maps (level, address prefix) to entries. -/
structure Walker where
  ptbase : Nat
  sdva : Nat
  sdpa : Nat
  sdctl : Word
  done : Nat
  err : Bool
  shoot : Option Shootdown
  walks : Word
  badpte : Word
  active : List Walk
  queue : List Walk
  tcache : List (Nat × Nat × Word)
  deriving DecidableEq, Repr

/-- A store held at the old home of a migrating page (R214). -/
structure HeldStore where
  core : Nat
  seq : Nat
  va : Nat
  deriving DecidableEq, Repr

/-- A range lock (R267): the copy, its issuing core and the number of its command among that core's operations, source or
destination, first byte and length in address bits. -/
structure Lock where
  copy : Nat
  core : Nat
  op : Nat
  dst : Bool
  base : Nat
  len : Nat
  deriving DecidableEq, Repr

inductive CopySt where
  | queued
  | running (sluice : Nat)
  | stopped (val : Word)
  deriving DecidableEq, Repr

/-- A sluice copy (R263-R273). -/
structure Copy where
  id : Nat
  core : Nat
  out : Nat
  owner : Nat
  src : Word
  dst : Word
  len : Nat
  shape : Option Shape
  /-- The sides that the shape walks (R263, R273). -/
  shapeSrc : Bool
  shapeDst : Bool
  /-- Member cores of an MCAST copy (R291). -/
  mcast : Option (List Nat)
  mgroup : Option Nat
  notify : Option (Nat × Word)
  wm : Option (Fin 16)
  /-- The receiving core and side of a halo direction (R274). -/
  halo : Option (Nat × Side)
  /-- A state copy of a splice (R329): target core and slot. -/
  splice : Option (Nat × Nat)
  done : Nat
  st : CopySt
  deriving DecidableEq, Repr

/-- An injected entry of a send list (R276): its XID and index, on its second destination or not, the address of its
record, the second destination, the record, the cycle of its injection. -/
structure LodePend where
  xid : Nat
  entry : Nat
  second : Bool
  addr : Word
  alt : Option Word
  words : List Word
  at_ : Nat
  deriving DecidableEq, Repr

/-- A send list (R275, R276): next entry to process, entries injected, records on their way to the overflow channel, the first
fault noted. -/
structure LodeJob where
  core : Nat
  out : Nat
  owner : Nat
  base : Word
  count : Nat
  ch : Nat
  lock : Nat
  next : Nat
  pending : List LodePend
  returning : Nat
  noted : Option Word
  deriving DecidableEq, Repr

/-- A lode engine: its jobs in order and its injection count SEQ (R276). -/
structure Lode where
  jobs : List LodeJob
  seq : Nat
  deriving DecidableEq, Repr

/-- A multicast group table entry (R287-R289). -/
structure Group where
  owner : Nat
  words : List Word
  inflight : Nat
  deriving DecidableEq, Repr

/-- Port states (R280). -/
inductive PortSt where
  | down | train | auth | active | fenced
  deriving DecidableEq, Repr

/-- One key of a link direction (R281), and the count of frames under it (R280). -/
structure LinkKey where
  key : BitVec 256
  salt : BitVec 32
  count : Nat
  deriving DecidableEq, Repr

/-- A frame in a sender's replay buffer (R280): sequence number, flit, the key with the frame count under which it was sent, and that
key's EPOCH. -/
structure TxFrame where
  fseq : Nat
  flit : List Byte
  key : LinkKey
  epoch : Bool
  deriving DecidableEq, Repr

/-- A Causeway port (R280, R281). -/
structure Port where
  target : Fin 4
  rekey : Bool
  st : PortSt
  epoch : Bool
  peer : Option (Nat × Nat)
  replays : Word
  crcerr : Word
  authfail : Word
  badpkt : Word
  trainGood : Nat
  tx : Option LinkKey
  rx : Option LinkKey
  rxOld : Option LinkKey
  /-- Key-block words, and which have been written since the last installation. -/
  block : Vector Word 16
  blockSet : List Nat
  txSeq : Nat
  /-- The next FSEQ in order. -/
  rxSeq : Nat
  /-- Frames sent and not acknowledged, oldest first (512 at most). -/
  replay : List TxFrame
  /-- A replay that has not delivered: its cycle and its last FSEQ. -/
  replayAt : Option (Nat × Nat)
  /-- Authentication failures within the last second, by cycle. -/
  fails : List Nat
  /-- Packets waiting to leave, with the core whose injection entry they hold, and flits of the packet
  being received. -/
  txq : List (Packet × Option Nat)
  txFlit : Nat
  rxFlits : List (List Byte)
  spdm : List (List Byte)
  halted : Bool
  deriving DecidableEq, Repr

/-- A line resident in a mere (R202, R411); dirty when HBM lacks its contents (R420, R423). -/
structure MereLine where
  line : Nat
  set : Nat
  way : Nat
  cls : Nat
  use : Nat
  dirty : Bool
  deriving DecidableEq, Repr

/-- A machine-check bank's registers 0 to 7 (R427). -/
abbrev Bank := Vector Word 8

/-- A key slot (R406). -/
structure KeySlot where
  valid : Bool
  world : Nat
  key : Vector Word 4
  deriving DecidableEq, Repr

/-- Progress of the self-test of a die (R432). -/
inductive TestPhase where
  | idle
  | quiesce
  | pattern (until_ : Nat)
  | restore
  | failed
  deriving DecidableEq, Repr

/-- The self-test unit of a die (R431, R432): its buffer, the tests queued (tussock, PREEMPT), the head's progress. -/
structure SelfTest where
  stbuf : Nat
  queue : List (Nat × Bool)
  phase : TestPhase
  deriving DecidableEq, Repr

/-- A change whose drops are under way (R399): the owner whose entries leave (none: every owner's), or the entries that have
changed (owner, slot, base, length); the waiting operation; whether the drop has reached every PLB; the accesses (core, operation)
and stores (core, sequence number) that started under the dropped entries. -/
structure DropJob where
  n : Nat
  owner : Option Nat
  ents : Option (List (Nat × Nat × Nat × Nat))
  core : Option Nat
  out : Nat
  dropped : Bool
  pinv : Bool
  waits : List (Nat × Nat)
  stores : List (Nat × Nat)
  deriving DecidableEq, Repr

/-- Fenced units (R423). -/
structure Fences where
  cores : List Nat
  tussocks : List Nat
  meres : List Nat
  sluices : List Nat
  lodes : List Nat
  suspect : List Nat
  deriving DecidableEq, Repr

/-- Module flash (R437). -/
structure Flash where
  fails : Nat
  lastReason : Nat
  bootUrl : List Byte
  recUrl : List Byte
  deriving DecidableEq, Repr

/-- A status POST (R435, R437). -/
structure Post where
  reason : Nat
  fails : Nat
  minimal : Bool
  /-- The SHA-384 digest of the layer-0 identity public key. -/
  id : BitVec 384
  mgen : Nat
  deriving DecidableEq, Repr

/-- Stages of a start (R433). -/
inductive BootSt where
  | off
  | rom
  | firmware
  | ok
  | failed (reason : Nat)
  | report (reason : Nat)
  deriving DecidableEq, Repr

/-- Starting and the outside of the module. -/
structure Boot where
  st : BootSt
  minimal : Bool
  flash : Flash
  entry : Nat
  layer1 : BitVec 384
  layer2 : BitVec 384
  posts : List Post
  lastPost : Nat
  /-- A status POST is due (R435). -/
  postDue : Bool
  /-- BOOTOK has been written in this start (R438). -/
  okWritten : Bool
  powerOn : Nat
  deriving DecidableEq, Repr

/-- Owner control, keys and measurement (R406, R408, R409). -/
structure Owners where
  tearBusy : Bool
  tearErr : Bool
  tearOwner : Nat
  pinvBusy : Bool
  mgen : Word
  droprec : Word
  keys : Map KeySlot
  /-- Worlds whose measured range has been written and not yet counted (R408). -/
  measured : List Nat
  /-- Sessions ended by firmware because their generation is older (R408): a count. -/
  sessionsEnded : Nat
  deriving DecidableEq, Repr

/-- Fault queue and machine-check banks (R425, R427). -/
structure Recovery where
  banks : Map Bank
  fqbase : Nat
  fqhead : Nat
  fqtail : Nat
  fqlost : Word
  interrupts : Nat
  tests : Map SelfTest
  fences : Fences
  /-- Poisoned 8-byte SRAM words, by address div 8 (R420). -/
  poisonWords : List Nat
  /-- Poisoned HBM lines, by physical address div 64, with their code. -/
  poisonLines : Map Nat
  fatal : Option Nat
  deriving DecidableEq, Repr

/-- Token arbitration of one queue (R324): balances by class, the class last served, and units granted and not yet performed. -/
structure Arb where
  b : Vector Int 16
  last : Nat
  credit : Vector Nat 16 := Vector.replicate 16 0
  deriving DecidableEq, Repr

/-- Power and temperature (R440, R441): the rows withheld in this window, those withheld since every row last was, and the cycle
of the last window. -/
structure Power where
  pcap : Nat
  pnow : Nat
  tj : Nat
  throttled : Bool
  withholding : Bool
  withheld : List Nat
  rotation : List Nat
  window : Nat
  deriving DecidableEq, Repr

/-- Home-side memory state: bytes, the keys under which lines were written (R208), zero-pending lines (R213), mere lines
(R202), way masks by die (R411, R412), held stores and lines awaiting forwarding (R214, R215). -/
structure Homes where
  mem : Memory
  lineKey : Map Nat
  zp : List Nat
  meres : Map (List MereLine)
  ways : Map (Vector (BitVec 16) 16)
  held : List HeldStore
  /-- Lines that await forwarded stores: first line and count. -/
  awaiting : List (Nat × Nat)
  /-- The model's own: large pages of which a walk has returned a translation and no shootdown has covered since (R211). -/
  large : List Nat
  /-- The model's own: how many free words have been taken. -/
  free : Nat
  deriving DecidableEq, Repr

/-- Engines, packets and links. -/
structure Engines where
  copies : List Copy
  copyCount : Nat
  locks : List Lock
  /-- Lode engines by unit; the lists that no engine of a die has taken yet stand under 1000 + die. -/
  lodes : Map Lode
  groups : Map Group
  /-- Packets in flight inside the module, or arrived at it. -/
  net : List Packet
  ports : Map Port
  routes : Map (BitVec 128)
  xid : Nat
  /-- Parts of `rdx` transfers that this module refused as a recipient: requester module and core, XID, destination,
  fault (R293). -/
  rdxBad : List (Nat × Nat × Nat × Word × Word)
  /-- PLBs of sluices, lode engines and die edges (R390), by unit. -/
  plbs : Map (List PlbEnt)
  /-- The port by which packets leave for a module and a location, while it stays ACTIVE (R282): module, location, port. -/
  flows : List (Nat × Nat × Nat)
  /-- Frames that have left by a port. -/
  out : List (Nat × Frame)
  deriving DecidableEq, Repr

/-- What moves next: an event, the issue of a core's next instruction, or the clock. -/
inductive Move where
  | event (i : Instr) (a : EvArg)
  | issue (core : Nat)
  | tick
  deriving DecidableEq, Repr

/-- The module. -/
structure State where
  /-- Core cycles since module reset (R67). -/
  now : Nat
  /-- The core whose instruction `exec` runs. -/
  cur : Nat
  /-- What the event that `exec` runs names. -/
  arg : EvArg
  agenda : List Move
  cores : Map CoreSt
  pools : Map Pool
  /-- Arrivals at the row barriers, and joined gangs. -/
  arrivals : List Arrival
  gangs : List Gang
  weirs : Map WeirSlot
  weirCounts : Map Nat
  walkers : Map Walker
  homes : Homes
  eng : Engines
  /-- Quotas by die and queue kind (R323), arbitration by die, kind and queue, and the periods that each die has started. -/
  quotas : Map (Vector Nat 16)
  arbs : Map Arb
  periods : Map Nat
  /-- MODNUM (R18): the number once SET. -/
  modnum : Option Nat
  hostown : Nat
  windrop : Word
  owners : Owners
  rcv : Recovery
  drops : List DropJob
  dropCount : Nat
  power : Power
  boot : Boot
  deriving DecidableEq, Repr

/-! ## The state after reset -/

/-- Registers of a core before any firing (R298). The supervisor bank reads zero. -/
def Regs.reset : Regs :=
  { g := Vector.replicate 64 0, gs := Vector.replicate 16 0, v := Vector.replicate 32 [],
    m := Vector.replicate 8 0, p := Vector.replicate 8 false, q := Vector.replicate 8 .unbound,
    fpstat := 0, wsig := 0, isig := 0, vgrant := 0, vmin := 0 }

def IssueSt.reset : IssueSt :=
  { next := 0, hist := [], tags := Vector.replicate 16 .free, pend := [], outs := [], opCount := 0 }

/-- Empty caches and buffers. The spec gives SEQHEAD no reset value. -/
def Caches.reset : Caches :=
  { l1 := [], ic := [], tlb := [], plb := [], wb := [], seqHead := 0, ifetch := .none, codeLine := .none, wmWait := .none, walkFault := .none,
    prefetches := [], injq := 0, hintDrop := 0 }

def DTable.empty : DTable := { st := .empty, owner := 0, ents := [] }

/-- Tables EMPTY (R122); every tile +0 with no owner (R184). -/
def Matrix.reset : Matrix := { dt := Vector.replicate 2 .empty, tiles := [], gangFault := .none }

def Traps.reset : Traps :=
  { inbound := [], ready := [], counted := [], entryOp := 0, pending := .none, abort := .none, storeStop := false, cring := [],
    sring := [], cause := 0, val := 0, tpc := 0 }

/-- STLSCOPE of core `i` at reset: the rectangle of its own tussock (R315, R220). -/
def tussockRect (i : Nat) : Word :=
  let d := i / 2880
  let y := 45 * (d / 3) + i / 64 % 45
  let x := 64 * (d % 3) + i % 64 / 8 * 8
  BitVec.ofNat 64 (y * 2 ^ 24 + (x + 7) * 2 ^ 16 + y * 2 ^ 8 + x)

def Mbox.reset : Mbox := { count := 0, ch := 0, w0 := 0, value := 0, reached := 0, owner := 0 }
def WmSlot.reset : WmSlot := { busy := false, fault := false, fill := 0, owner := 0 }

/-- DESIGN CHOICE, log 6. -/
def Sched.reset (i : Nat) : Sched :=
  { deque := [], launchq := [], supq := [], windowq := [], preempt := .none, preemptIn := [], testReq := false, actors := [],
    chans := [], edges := [], mbox := Vector.replicate 4 .reset, mboxIn := [], rr := [], armed := [],
    idle := .idle 0 0, nosteal := false, novictim := false, stlscope := tussockRect i, splices := [],
    spliceCount := 0, firings := 0, traph := 0, scodeb := 0, sowner := 0, window := Vector.replicate 8 0,
    wm := Vector.replicate 16 .reset, torn := [], fifo := [] }

def CoreSt.reset (i : Nat) : CoreSt :=
  { regs := .reset, firing := .none, iss := .reset, cache := .reset, mtx := .reset, traps := .reset,
    sched := .reset i, stopped := .none }

def Walker.reset : Walker :=
  { ptbase := 0, sdva := 0, sdpa := 0, sdctl := 0, done := 0, err := false, shoot := .none, walks := 0,
    badpte := 0, active := [], queue := [], tcache := [] }

/-- DESIGN CHOICE, log 6. -/
def Homes.reset : Homes :=
  { mem := [], lineKey := [], zp := [], meres := [], ways := [], held := [], awaiting := [], large := [], free := 0 }

/-- DESIGN CHOICE, log 6. -/
def Engines.reset : Engines :=
  { copies := [], copyCount := 0, locks := [], lodes := [], groups := [], net := [], ports := [], routes := [],
    xid := 0, rdxBad := [], plbs := [], flows := [], out := [] }

def Owners.reset : Owners :=
  { tearBusy := false, tearErr := false, tearOwner := 0, pinvBusy := false, mgen := 0, droprec := 0, keys := [], measured := [],
    sessionsEnded := 0 }

def Fences.none : Fences :=
  { cores := [], tussocks := [], meres := [], sluices := [], lodes := [], suspect := [] }

def Recovery.reset : Recovery :=
  { banks := [], fqbase := 0, fqhead := 0, fqtail := 0, fqlost := 0, interrupts := 0, tests := [],
    fences := .none, poisonWords := [], poisonLines := [], fatal := .none }

def Power.reset : Power :=
  { pcap := 0, pnow := 0, tj := 0, throttled := false, withholding := false, withheld := [], rotation := [], window := 0 }

def Flash.blank : Flash := { fails := 0, lastReason := 0, bootUrl := [], recUrl := [] }

def Boot.reset : Boot :=
  { st := .off, minimal := false, flash := .blank, entry := 0, layer1 := 0, layer2 := 0, posts := [], lastPost := 0,
    postDue := false, okWritten := false, powerOn := 0 }

/-- The module right after module reset, before its boot ROM runs. DESIGN CHOICE, log 3 and 5. -/
def State.reset : State :=
  { now := 0, cur := 0, arg := .none, agenda := [], cores := [], pools := [], arrivals := [], gangs := [],
    weirs := [], weirCounts := [], walkers := [], homes := .reset, eng := .reset, quotas := [], arbs := [], periods := [], modnum := .none,
    hostown := 0, windrop := 0, owners := .reset, rcv := .reset, drops := [], dropCount := 0, power := .reset,
    boot := .reset }

end Sys2Proof.Machine
end

