-- ==== Sys2Proof/Machine/Bits.lean ====
section
/-! DEFINITION. Bit fields, byte order, sign extension, CRC-32C, sparse maps and bytes of memory. -/

namespace Sys2Proof.Machine

/-! ## Bits -/

/-- A word from a number (R4). -/
def W (n : Nat) : Word := BitVec.ofNat 64 n

/-- Bits `lo + width - 1` to `lo` of a word (R7). -/
def wf (w : Word) (lo width : Nat) : Nat := fld w.toNat lo width

/-- Bit `i` of a word. -/
def wb (w : Word) (i : Nat) : Bool := fld w.toNat i 1 == 1

/-- The low `n` bits of a number, sign-extended to 64 bits (R7). -/
def sextN (v n : Nat) : Word := (BitVec.ofNat n v).signExtend 64

/-- The low `n` bits of a number, read as a signed number. -/
def toIntN (v n : Nat) : Int := (BitVec.ofNat n v).toInt

/-- A number from a Bool. -/
def b2n (b : Bool) : Nat := if b then 1 else 0

/-- Number of one bits among the low `n` bits. -/
def popN : Nat → Nat → Nat
  | 0, _ => 0
  | n + 1, v => v % 2 + popN n (v / 2)

/-- Leading zero bits of a `n`-bit number. -/
def clzN : Nat → Nat → Nat
  | 0, _ => 0
  | n + 1, v => if v / 2 ^ n % 2 = 1 then 0 else 1 + clzN n v

/-- Trailing zero bits of a `n`-bit number. -/
def ctzN : Nat → Nat → Nat
  | 0, _ => 0
  | n + 1, v => if v % 2 = 1 then 0 else 1 + ctzN n (v / 2)

/-- The low `n` bits in reverse order. -/
def revN : Nat → Nat → Nat
  | 0, _ => 0
  | n + 1, v => v % 2 * 2 ^ n + revN n (v / 2)

/-! ## Bytes (R5: little-endian) -/

def leBytes : Nat → Nat → List Byte
  | 0, _ => []
  | n + 1, v => BitVec.ofNat 8 v :: leBytes n (v / 256)

def ofLe : List Byte → Nat
  | [] => 0
  | b :: bs => b.toNat + 256 * ofLe bs

/-- Words of 8 bytes. -/
def wordsLe : Nat → List Byte → List Word
  | 0, _ => []
  | n + 1, bs => W (ofLe (bs.take 8)) :: wordsLe n (bs.drop 8)

def bytesOfWords : List Word → List Byte
  | [] => []
  | w :: ws => leBytes 8 w.toNat ++ bytesOfWords ws

/-! ## CRC-32C (R33) -/

def crcBit (c : Nat) : Nat → Nat
  | 0 => c
  | n + 1 => crcBit (if c % 2 = 1 then (c / 2) ^^^ 0x82F63B78 else c / 2) n

def crcBytes : Nat → List Byte → Nat
  | c, [] => c
  | c, b :: bs => crcBytes (crcBit (c ^^^ b.toNat) 8) bs

def crc32c (bs : List Byte) : Nat := crcBytes 0xFFFFFFFF bs ^^^ 0xFFFFFFFF

/-! ## Sparse maps -/

section
variable {α : Type}

def mget? : Map α → Nat → Option α
  | [], _ => none
  | (k, v) :: m, a => if k = a then some v else mget? m a

def mput : Map α → Nat → α → Map α
  | [], a, x => [(a, x)]
  | (k, v) :: m, a, x =>
    if a < k then (a, x) :: (k, v) :: m else if k = a then (a, x) :: m else (k, v) :: mput m a x

def mdel : Map α → Nat → Map α
  | [], _ => []
  | (k, v) :: m, a => if k = a then mdel m a else (k, v) :: mdel m a

/-- The first `some` of a function over a list. -/
def firstSome {β : Type} (f : α → Option β) : List α → Option β
  | [] => none
  | x :: xs => match f x with | some y => some y | none => firstSome f xs

end

/-! ## Bytes of memory -/

/-- What an unlisted address reads as: zero, but 1 in the low byte of the NEXT words of the fault and
arrival mailboxes of every TCM (R304, R366). The spec gives the rest no power-on contents: DESIGN CHOICE zero.
DESIGN CHOICE, log 3. -/
def memDefault (a : Nat) : Byte :=
  if a / 2 ^ 40 = 0xFE00 ∧ (a % 2 ^ 17 = 0x1FC08 ∨ a % 2 ^ 17 = 0x1F908) then 1 else 0

/-- DESIGN CHOICE, log 3. -/
def readByte : Memory → Nat → Byte
  | [], a => memDefault a
  | (k, v) :: m, a => if k = a then v else readByte m a

/-- Writing a byte keeps the canonical form: writing what an unlisted address reads as removes the entry. -/
def writeByte : Memory → Nat → Byte → Memory
  | [], a, b => if b = memDefault a then [] else [(a, b)]
  | (k, v) :: m, a, b =>
    if a < k then (if b = memDefault a then (k, v) :: m else (a, b) :: (k, v) :: m)
    else if k = a then (if b = memDefault a then m else (a, b) :: m)
    else (k, v) :: writeByte m a b

/-- The canonical form: addresses strictly rising, no entry equal to what an unlisted address reads as. -/
def Memory.wf : Memory → Bool
  | [] => true
  | [(k, v)] => v != memDefault k
  | (k, v) :: (k', v') :: m => v != memDefault k && decide (k < k') && Memory.wf ((k', v') :: m)

/-- `n` bytes from `a` on. -/
def readSeq (m : Memory) (a : Nat) : Nat → List Byte
  | 0 => []
  | n + 1 => readByte m a :: readSeq m (a + 1) n

/-- Bytes written one after the other from `a` on. -/
def writeSeq (m : Memory) (a : Nat) : List Byte → Memory
  | [] => m
  | b :: bs => writeSeq (writeByte m a b) (a + 1) bs

/-- Reading needs no cell below `a`. -/
def readBytes (m : Memory) (a n : Nat) : List Byte := readSeq (m.dropWhile fun c => decide (c.1 < a)) a n

/-- Writing leaves the cells below `a` in front. -/
def writeBytes (m : Memory) (a : Nat) (bs : List Byte) : Memory :=
  (m.takeWhile fun c => decide (c.1 < a)) ++ writeSeq (m.dropWhile fun c => decide (c.1 < a)) a bs

/-- A little-endian value (R7). -/
def readNat (m : Memory) (a n : Nat) : Nat := ofLe (readBytes m a n)
def readWord (m : Memory) (a : Nat) : Word := W (readNat m a 8)
def writeWord (m : Memory) (a : Nat) (w : Word) : Memory := writeBytes m a (leBytes 8 w.toNat)

end Sys2Proof.Machine
end

