-- ==== Sys2Proof/Machine/Parts.lean ====
section
/-! DEFINITION. Places and coordinates, access to the parts of the state, the address map (R199, R200), and the bytes of
arrays and home meres: mere fills, zero-pending lines, keys and poison (R24, R201, R202, R208, R213, R411, R420). -/

namespace Sys2Proof.Machine

/-! ## Coordinates (R15, R16, R199, R332) -/

def dieOf (i : Nat) : Nat := i / 2880
def rowOf (i : Nat) : Nat := i / 64 % 45
def colOf (i : Nat) : Nat := i % 64
def modX (i : Nat) : Nat := 64 * (dieOf i % 3) + colOf i
def modY (i : Nat) : Nat := 45 * (dieOf i / 3) + rowOf i
/-- The core at module coordinates (X, Y). -/
def coreAt (x y : Nat) : Nat := 2880 * (3 * (y / 45) + x / 64) + 64 * (y % 45) + x % 64
def coreIndex (d y x : Nat) : Nat := 2880 * d + 64 * y + x
/-- The tussock of a core, numbered within the module. -/
def tusOf (i : Nat) : Nat := i / 8
def nCores : Nat := 25920

def tcmBase (i : Nat) : Nat := 0xFE00 * 2 ^ 40 + dieOf i * 2 ^ 32 + rowOf i * 2 ^ 24 + colOf i * 2 ^ 17
def tusBase (t : Nat) : Nat :=
  0xFE01 * 2 ^ 40 + t / 360 * 2 ^ 32 + t / 8 % 45 * 2 ^ 24 + t % 8 * 2 ^ 20
def staitheBase (d : Nat) : Nat := 0xFE02 * 2 ^ 40 + d * 2 ^ 32
/-- The rights area (R386). -/
def rightsBase : Nat := staitheBase 0 + 0x3800000

/-- Cores of a tussock. -/
def tussockCores (t : Nat) : List Nat := (List.range 8).map (8 * t + ·)

/-! ## Parts of the state -/

def State.core (s : State) (i : Nat) : CoreSt := (mget? s.cores i).getD (.reset i)
def State.putCore (s : State) (i : Nat) (c : CoreSt) : State := { s with cores := mput s.cores i c }
def State.onCore (s : State) (i : Nat) (f : CoreSt → CoreSt) : State := s.putCore i (f (s.core i))
def State.onRegs (s : State) (i : Nat) (f : Regs → Regs) : State := s.onCore i fun c => { c with regs := f c.regs }
def State.onIss (s : State) (i : Nat) (f : IssueSt → IssueSt) : State := s.onCore i fun c => { c with iss := f c.iss }
def State.onCache (s : State) (i : Nat) (f : Caches → Caches) : State :=
  s.onCore i fun c => { c with cache := f c.cache }
def State.onMtx (s : State) (i : Nat) (f : Matrix → Matrix) : State := s.onCore i fun c => { c with mtx := f c.mtx }
def State.onTraps (s : State) (i : Nat) (f : Traps → Traps) : State :=
  s.onCore i fun c => { c with traps := f c.traps }
def State.onSched (s : State) (i : Nat) (f : Sched → Sched) : State :=
  s.onCore i fun c => { c with sched := f c.sched }
def State.onFiring (s : State) (i : Nat) (f : Firing → Firing) : State :=
  s.onCore i fun c => { c with firing := c.firing.map f }
def State.onMem (s : State) (f : Memory → Memory) : State := { s with homes := { s.homes with mem := f s.homes.mem } }
def State.mem (s : State) : Memory := s.homes.mem
def State.onEng (s : State) (f : Engines → Engines) : State := { s with eng := f s.eng }
def State.onHomes (s : State) (f : Homes → Homes) : State := { s with homes := f s.homes }
def State.onRcv (s : State) (f : Recovery → Recovery) : State := { s with rcv := f s.rcv }
def State.walker (s : State) (d : Nat) : Walker := (mget? s.walkers d).getD .reset
def State.onWalker (s : State) (d : Nat) (f : Walker → Walker) : State :=
  { s with walkers := mput s.walkers d (f (s.walker d)) }
def State.pool (s : State) (t : Nat) : Pool := (mget? s.pools t).getD ⟨[], []⟩
def State.onPool (s : State) (t : Nat) (f : Pool → Pool) : State := { s with pools := mput s.pools t (f (s.pool t)) }

def vget {α : Type} {n : Nat} (v : Vector α n) (d : α) (i : Nat) : α := v.toList.getD i d
def vset {α : Type} {n : Nat} (v : Vector α n) (i : Nat) (x : α) : Vector α n := v.setIfInBounds i x

/-- Microseconds since module reset: 4,000 cycles each (R3, R67). -/
def State.timeUs (s : State) : Nat := s.now / 4000

/-- End of installed HBM (R207). DEDUCED, log 74. -/
def State.hbmEnd (s : State) : Nat := if s.boot.minimal then 0xC00000000 else 0xD800000000

/-- DEDUCED, log 74. -/
def coreOn (s : State) (i : Nat) : Bool := i < nCores && (!s.boot.minimal || i < 2880)

/-- A free word: nothing says what it is; the counter makes each one new. DESIGN CHOICE, log 7. -/
def takeFree (s : State) : State × Word := (s.onHomes fun h => { h with free := h.free + 1 }, Config.freeWord s.homes.free)

/-- The ranges `[a, a + n)` and `[b, b + m)` have a byte in common. -/
def rangesMeet (a n b m : Nat) : Bool := decide (a < b + m) && decide (b < a + n)

/-! ## The address map (R199, R200) -/

def inMod (d y x : Nat) : Bool := d ≤ 8 && y ≤ 44 && x ≤ 63

/-- The location that address bits [55:0] name, for core `i` (near windows name its own memories). -/
def decodeAddr (i a : Nat) : Option Loc :=
  let top := fld a 48 8
  if top < 0xF0 then some (.paged a)
  else if top = 0xFD then some (.aperture (fld a 36 12) (fld a 0 36))
  else if top = 0xFE then
    let d := fld a 32 4
    let y := fld a 24 6
    if fld a 36 4 ≠ 0 ∨ fld a 30 2 ≠ 0 ∨ 8 < d then none
    else match fld a 40 8 with
      | 0 =>
        if fld a 23 1 ≠ 0 ∨ 44 < y then none else some (.tcm (coreIndex d y (fld a 17 6)) (fld a 0 17))
      | 1 =>
        if fld a 23 1 ≠ 0 ∨ 44 < y then none else some (.tussock (360 * d + 8 * y + fld a 20 3) (fld a 0 20))
      | 2 => if fld a 26 4 ≠ 0 then none else some (.staithe d (fld a 0 26))
      | _ => none
  else if top = 0xFF then
    match fld a 32 16 with
    | 0 => if fld a 17 15 ≠ 0 then none else some (.tcm i (fld a 0 17))
    | 1 => if fld a 20 12 ≠ 0 then none else some (.tussock (tusOf i) (fld a 0 20))
    | 2 => if fld a 26 6 ≠ 0 then none else some (.staithe (dieOf i) (fld a 0 26))
    | _ => none
  else none

/-- The alias address of a byte of an array (R200); 0 for other locations. -/
def aliasOf : Loc → Nat
  | .tcm c o => tcmBase c + o
  | .tussock t o => tusBase t + o
  | .staithe d o => staitheBase d + o
  | _ => 0

/-- Bytes from an offset to the end of its memory. -/
def locRoom : Loc → Nat
  | .tcm _ o => 2 ^ 17 - o
  | .tussock _ o => 2 ^ 20 - o
  | .staithe _ o => 2 ^ 26 - o
  | .paged a => 0xF0 * 2 ^ 48 - a
  | .aperture _ o => 2 ^ 36 - o

/-- Core `i`'s own TCM or own tussock memory (R80, R85). -/
def ownFast (i : Nat) : Loc → Bool
  | .tcm c _ => c == i
  | .tussock t _ => t == tusOf i
  | _ => false

/-- In minimal mode die 0 alone runs (R28, R434). DEDUCED, log 74. -/
def dieOn (s : State) (d : Nat) : Bool := d < 9 && (!s.boot.minimal || d == 0)

/-- The memory that holds a location runs: in minimal mode those of die 0 (R434). DEDUCED, log 74. -/
def locOn (s : State) : Loc → Bool
  | .tcm c _ => !s.boot.minimal || decide (dieOf c = 0)
  | .tussock t _ => !s.boot.minimal || decide (t < 360)
  | .staithe d _ => !s.boot.minimal || decide (d = 0)
  | _ => true

/-! ## Places -/

/-- The key of a place among memory addresses: physical address or alias address. -/
def Place.addr : Place → Nat
  | .array a => a
  | .global _ pa _ _ _ => pa

/-- A place `k` bytes further on. -/
def Place.plus (p : Place) (k : Nat) : Place :=
  match p with
  | .array a => .array (a + k)
  | .global va pa key c m => .global (va + k) (pa + k) key c m

def stackOf (pa : Nat) (minimal : Bool) : Nat := if minimal then 0 else pa / 4096 % 18
def homeDie (s : State) (pa : Nat) : Nat := stackOf pa s.boot.minimal / 2

/-- The home mere of a line within its die (R24). -/
def homeMere (pa : Nat) : Nat :=
  let l := fld pa 6 34
  2 * ((fld l 0 17 ^^^ fld l 17 17) % 360) + popN 34 l % 2

/-- The bank of the core's tussock (R426). -/
def tusBank (i : Nat) : Nat := 512 * dieOf i + tusOf i % 360

/-- A word of the line is in the list: for a global line, a poisoned word of its mere's copy. -/
def lineWords (line : Nat) (ws : List Nat) : Bool := (List.range 8).any fun k => ws.contains (8 * line + k)

/-! ## Bytes at homes and arrays -/

/-- The key of a slot as a number: words 1 to 4 of the slot (R406, R408). DESIGN CHOICE, log 8. -/
def keyNum (s : State) (slot : Nat) : Nat :=
  match mget? s.owners.keys slot with
  | some x => x.key.toList.foldl (fun n w => n * 2 ^ 64 + w.toNat) 0
  | none => 0

/-- A byte that was written under key `w` as it reads under key `r` (R208): the same bits decrypted, for as long as the line is not
written again. DESIGN CHOICE, log 8. -/
def crossByte (m : Memory) (w r pa : Nat) : Byte := Config.crossKeyByte w r pa (readNat m (pa / 64 * 64) 64)

/-- A byte of a line as its home gives it through key slot `key` (R208, R213). DESIGN CHOICE, log 8. -/
def homeByte (s : State) (pa key : Nat) : Byte :=
  if s.homes.zp.contains (pa / 64) then 0
  else match mget? s.homes.lineKey (pa / 64) with
    | some w =>
      if w = keyNum s key then readByte s.mem pa else crossByte s.mem w (keyNum s key) pa
    | none => readByte s.mem pa

/-- DESIGN CHOICE, log 8. -/
def homeBytes (s : State) (pa key : Nat) : Nat → List Byte
  | 0 => []
  | n + 1 => homeByte s pa key :: homeBytes s (pa + 1) key n

/-- `n` bytes at a place, at its home or array. -/
def placeBytes (s : State) (p : Place) (n : Nat) : List Byte :=
  match p with
  | .array a => readBytes s.mem a n
  | .global _ pa key _ _ => homeBytes s pa key n

/-- A line leaves its mere: a dirty one carries the poison of its words to HBM (R420); a clean copy's poison goes with it.
DESIGN CHOICE, log 10. -/
def evictLine (s : State) (x : MereLine) : State :=
  if lineWords x.line s.rcv.poisonWords then
    s.onRcv fun r =>
      { r with
        poisonWords := r.poisonWords.filter fun w => w / 8 != x.line
        poisonLines := if x.dirty then mput r.poisonLines x.line 3 else r.poisonLines }
  else s

/-- The mere's copy of a line is newer than HBM's. -/
def dirtyMere (s : State) (line : Nat) : State :=
  s.onHomes fun h => { h with meres := h.meres.map fun (k, ls) => (k, ls.map fun (x : MereLine) => if x.line == line then { x with dirty := true } else x) }

/-- A mere line is used or filled for class `cls` under its way mask (R202, R411). DESIGN CHOICE, log 10; DEDUCED, log 51. -/
def touchMere (s : State) (pa cls : Nat) : State :=
  let line := pa / 64
  let id := 720 * homeDie s pa + homeMere pa
  if s.rcv.fences.meres.contains id then s
  else
    let ls := (mget? s.homes.meres id).getD []
    let set := (Config.mereSet line).val
    if ls.any (·.line == line) then
      let ls' := ls.map fun x => if x.line == line then { x with use := s.now } else x
      s.onHomes fun h => { h with meres := mput h.meres id ls' }
    else
      let mask := vget ((mget? s.homes.ways (homeDie s pa)).getD (Vector.replicate 16 0xFFFF)) 0xFFFF cls
      let inSet := ls.filter (·.set == set)
      let ways := (List.range 16).filter mask.getLsbD
      match ways.find? (fun w => !inSet.any (·.way == w)) with
      | some w =>
        let ls' := { line, set, way := w, cls, use := s.now, dirty := false } :: ls
        s.onHomes fun h => { h with meres := mput h.meres id ls' }
      | none =>
        match ways with
        | [] => s
        | w0 :: _ =>
          let cand := inSet.filter fun x => ways.contains x.way
          let old := cand.foldl (fun (b : MereLine) x => if x.use < b.use then x else b)
            (cand.headD { line := 0, set, way := w0, cls, use := s.now, dirty := false })
          let ls' := { line, set, way := old.way, cls, use := s.now, dirty := false } ::
            ls.filter fun x => !(x.set == set && x.way == old.way)
          (evictLine s old).onHomes fun h => { h with meres := mput h.meres id ls' }

/-- A line's first access after ZP: it becomes zeros under the key of its page (R208, R213), which replaces the whole line
(R420). DESIGN CHOICE, log 8. -/
def openZp (s : State) (pa : Nat) : State :=
  let line := pa / 64
  if s.homes.zp.contains line then
    let s := s.onHomes fun h =>
      { h with zp := h.zp.filter (· != line), mem := writeBytes h.mem (64 * line) (List.replicate 64 0) }
    (dirtyMere s line).onRcv fun r =>
      { r with poisonLines := mdel r.poisonLines line, poisonWords := r.poisonWords.filter fun w => w / 8 != line }
  else s

/-- The line takes key slot `key`: bytes written under another slot turn into other bits (R208). DESIGN CHOICE, log 8. -/
def rekeyLine (s : State) (pa key : Nat) : State :=
  let line := pa / 64
  let key := keyNum s key
  match mget? s.homes.lineKey line with
  | some w =>
    if w = key then s
    else s.onHomes fun h =>
      { h with
        mem := writeBytes h.mem (64 * line)
          ((List.range 64).map fun k => crossByte h.mem w key (64 * line + k))
        lineKey := mput h.lineKey line key }
  | none => s.onHomes fun h => { h with lineKey := mput h.lineKey line key }

/-- The poisoned words that a write of [a, a + n) does not replace whole. -/
def clearWords (ws : List Nat) (a n : Nat) : List Nat := ws.filter fun w => !(decide (a ≤ 8 * w) && decide (8 * w + 8 ≤ a + n))

/-- Bytes written at a place, at its home or array, clearing poison that they replace whole (R420). -/
def writePlace (s : State) (p : Place) (bs : List Byte) (cls : Nat) : State :=
  match p with
  | .array a =>
    let s := s.onMem fun m => writeBytes m a bs
    s.onRcv fun r => { r with poisonWords := clearWords r.poisonWords a bs.length }
  | .global _ pa key _ _ =>
    let s := rekeyLine (openZp (touchMere s pa cls) pa) pa key
    let s := dirtyMere (s.onMem fun m => writeBytes m pa bs) (pa / 64)
    s.onRcv fun r =>
      { r with
        poisonWords := clearWords r.poisonWords pa bs.length
        poisonLines := r.poisonLines.filter fun (l, _) =>
          !(decide (pa ≤ 64 * l) && decide (64 * l + 64 ≤ pa + bs.length)) }

/-- Bytes written to an array by the core or unit that holds it, clearing the poison of the words that they replace whole
(R420). -/
def State.putArray (s : State) (a : Nat) (bs : List Byte) : State :=
  (s.onMem fun m => writeBytes m a bs).onRcv fun r => { r with poisonWords := clearWords r.poisonWords a bs.length }

def State.putWord (s : State) (a : Nat) (w : Word) : State := s.putArray a (leBytes 8 w.toNat)

/-- A physical write of bytes of one line, performed at its home under no key (R202, R213, R420). DESIGN CHOICE, log 15. -/
def State.putPhysLine (s : State) (pa : Nat) (bs : List Byte) : State :=
  let s := openZp (touchMere s pa 0) pa
  let s := dirtyMere (s.onHomes fun h => { h with mem := writeBytes h.mem pa bs, lineKey := mdel h.lineKey (pa / 64) }) (pa / 64)
  s.onRcv fun r =>
    { r with
      poisonWords := clearWords r.poisonWords pa bs.length
      poisonLines := r.poisonLines.filter fun (l, _) => !(decide (pa ≤ 64 * l) && decide (64 * l + 64 ≤ pa + bs.length)) }

/-- A read at the home counts as an access: it opens a zero-pending line and uses the mere. -/
def readTouch (s : State) (p : Place) (cls : Nat) : State :=
  match p with
  | .array _ => s
  | .global _ pa _ _ _ => openZp (touchMere s pa cls) pa

/-! ## Poison (R420, R428) -/

/-- The bank that logs an error of a place (R426). -/
def bankOf (s : State) (a : Nat) : Nat :=
  if a < 2 ^ 40 && lineWords (a / 64) s.rcv.poisonWords then 512 * homeDie s a + 402 + homeMere a / 40
  else match decodeAddr 0 a with
  | some (.tcm c _) => 512 * dieOf c + tusOf c % 360
  | some (.tussock t _) => 512 * (t / 360) + t % 360
  | some (.staithe d _) => 512 * d + 384
  | _ => 512 * homeDie s a + 360 + stackOf a s.boot.minimal % 2

/-- Index of an error's unit within its bank (R427): a mere within its bank of 40; the other banks of memory hold one unit. -/
def unitOf (s : State) (a : Nat) : Nat :=
  if a < 2 ^ 40 && lineWords (a / 64) s.rcv.poisonWords then homeMere a % 40 else 0

/-- The memory of a fenced tussock: an access to it completes with contained error 3 (R423). -/
def fencedArray (s : State) (a : Nat) : Bool :=
  !(decide (a < 2 ^ 40)) &&
    match decodeAddr 0 a with | some (.tussock t _) => s.rcv.fences.tussocks.contains t | _ => false

/-- The poison of the aligned 8-byte word number `w`: its code, a word of SRAM before its line of HBM. The first access to a
zero-pending line replaces the line, so nothing there is poisoned (R213, R420). -/
def wordPoison (s : State) (w : Nat) : Option Nat :=
  if w < 2 ^ 37 && s.homes.zp.contains (w / 8) then none
  else if s.rcv.poisonWords.contains w || fencedArray s (8 * w) then some 3
  else if w < 2 ^ 37 then mget? s.rcv.poisonLines (w / 8)
  else none

/-- The first word of [a, a + n) whose read is a contained error (R420, R423): its first byte in the range and its code. -/
def poisonSpot (s : State) (a n : Nat) : Option (Nat × Nat) :=
  if s.rcv.poisonWords.isEmpty && s.rcv.poisonLines.isEmpty && s.rcv.fences.tussocks.isEmpty then none
  else firstSome (fun k => (wordPoison s (a / 8 + k)).map (max a (8 * (a / 8 + k)), ·)) (List.range ((a + n - 1) / 8 - a / 8 + 1))

/-- Whether a read of `n` bytes meets poison. -/
def poisonAt (s : State) (a n : Nat) : Bool := (poisonSpot s a n).isSome

/-- The code of the contained error that a read of the bytes meets. -/
def poisonCode (s : State) (a n : Nat) : Option Nat := (poisonSpot s a n).map (·.2)

/-- The address of that error: of the poisoned word, which its bank logs (R427). -/
def poisonAddr (s : State) (a n : Nat) : Nat := ((poisonSpot s a n).map (·.1)).getD a

end Sys2Proof.Machine
end

