-- ==== Sys2Proof/Machine/Ops.lean ====
section
/-! DEFINITION. Shared operations: places and coordinates, access to the parts of the state, owners,
error logging and fault records, registers and tags, entering a handler, returning from it, aborting. -/

namespace Sys2Proof.Machine

/-! ## Owners (R386 to R388) -/

def State.dirWord (s : State) (o : Nat) : Word := readWord s.mem (rightsBase + 8 * o)

/-- A directory word in the layout of R388, its table inside the owner tables. -/
def dirOk (w : Word) : Bool :=
  wf w 60 2 == 0 && wf w 23 17 == 0 && wf w 0 6 == 0 &&
    decide (0x140000 ≤ 64 * wf w 6 17) && decide (64 * wf w 6 17 + 64 + 32 * wf w 40 8 ≤ 0x800000)

def State.live (s : State) (o : Nat) : Bool :=
  o != 0 && o < 65536 && wb (s.dirWord o) 63 && dirOk (s.dirWord o)
def State.tearing (s : State) (o : Nat) : Bool := wb (s.dirWord o) 62
/-- The world of an owner; 0 for an owner that is not LIVE. -/
def State.worldOf (s : State) (o : Nat) : Nat := if s.live o then wf (s.dirWord o) 52 8 else 0
def State.classOf (s : State) (o : Nat) : Nat := if s.live o then wf (s.dirWord o) 48 4 else 0
def State.capOf (s : State) (o : Nat) : Nat := wf (s.dirWord o) 40 8
def State.tableOf (s : State) (o : Nat) : Nat := rightsBase + 64 * wf (s.dirWord o) 6 17

/-! ## Error banks and fault records (R424 to R428) -/

def State.bank (s : State) (b : Nat) : Bank := (mget? s.rcv.banks b).getD (Vector.replicate 8 0)

/-- MCCOUNT after one more error (R427, R428). -/
def countError (c : Word) (cls : Nat) : Word :=
  let lo := wf c 0 32
  let hi := wf c 32 32
  if cls = 0 then W (hi * 2 ^ 32 + min (lo + 1) 0xFFFFFFFF) else W (min (hi + 1) 0xFFFFFFFF * 2 ^ 32 + lo)

/-- What an error writes into its bank. -/
structure McRec where
  bank : Nat
  code : Nat
  cls : Nat
  owner : Nat
  addr : Option Nat
  core : Option Nat
  unit : Nat
  fenced : Bool
  stest : Bool
  poison : Bool
  synd : Word
  misc0 : Word
  misc1 : Word
  deriving DecidableEq, Repr

def McRec.stat (r : McRec) (ovf : Bool) : Word :=
  W (2 ^ 63 + b2n ovf * 2 ^ 62 + r.cls * 2 ^ 60 + b2n r.addr.isSome * 2 ^ 59 + b2n r.fenced * 2 ^ 58 +
    b2n r.stest * 2 ^ 57 + b2n r.poison * 2 ^ 56 + r.owner * 2 ^ 32 + r.code * 2 ^ 16 + r.bank)

def McRec.src (r : McRec) : Word :=
  W (r.unit * 2 ^ 16 + match r.core with | some i => modY i * 2 ^ 8 + modX i | none => 0)

/-- Logging an error (R428). -/
def State.mcLog (s : State) (r : McRec) : State :=
  let b := vset (s.bank r.bank) 4 (countError (vget (s.bank r.bank) 0 4) r.cls)
  let st := vget b 0 0
  let b' :=
    if wb st 63 && !(decide (wf st 60 2 < r.cls)) then vset b 0 (W (fld st.toNat 0 62 + 2 ^ 63 + 2 ^ 62))
    else
      ⟨#[r.stat (wb st 63), W (r.addr.getD 0), r.src, r.synd, vget b 0 4, W s.timeUs, r.misc0, r.misc1], rfl⟩
  s.onRcv fun v => { v with banks := mput v.banks r.bank b' }

/-- A read that meets poison is logged in the bank of the bytes; `misc0` is the faulting program counter or the command's
SRCA, `misc1` the ring index of the failing instruction (R427). The spec does not say what MCSYND then holds.
DEDUCED, log 19; DESIGN CHOICE, log 20. -/
def logPoison (s : State) (core : Option Nat) (a code owner : Nat) (misc0 misc1 : Word) : State :=
  let (s, synd) := takeFree s
  s.mcLog
    { bank := bankOf s a, code, cls := 1, owner, addr := some a, core, unit := unitOf s a, fenced := false, stest := false
      poison := true, synd, misc0, misc1 }

/-- Identity of a firing in the layout of frame word 5 (R363). DEDUCED, log 25. -/
def identity (owner world stage slot : Nat) (task : Bool) : Word :=
  W (b2n task * 2 ^ 36 + slot * 2 ^ 32 + stage * 2 ^ 24 + world * 2 ^ 16 + owner)

/-- STAGE, SLOT and TASK of a firing, at their places in frame word 5 (R363). DEDUCED, log 25. -/
def whoOf (f : Firing) : Word :=
  identity 0 0 f.stage (match f.kind with | .actor k => k.val | _ => 0) (match f.kind with | .actor _ => false | _ => true)

/-- One fault record into the module's queue (R424, R425), written at its home; FQBASE is a multiple of 64.
DESIGN CHOICE, log 58. -/
def State.faultRecord (s : State) (ws : List Word) : State :=
  let r := s.rcv
  if r.fqbase = 0 || (r.fqhead + 1) % 4096 == r.fqtail % 4096 then
    s.onRcv fun r => { r with fqlost := r.fqlost + 1 }
  else
    (s.putPhysLine (64 * (r.fqbase / 64 + r.fqhead)) (bytesOfWords ws)).onRcv fun r =>
      { r with fqhead := (r.fqhead + 1) % 4096, interrupts := r.interrupts + 1 }

/-- Word 4 of a fault record (R424). -/
def placeWord (s : State) (i : Nat) : Word := W (s.modnum.getD 0 * 2 ^ 16 + modY i * 2 ^ 8 + modX i)

/-- DEDUCED, log 25. -/
def faultWords (s : State) (i w0 : Nat) (val pc ident : Word) (bank : Nat) : List Word :=
  [W w0, val, pc, ident, placeWord s i, W bank, W s.timeUs, 0]

/-- A mailbox in the TCM of core `i` takes an entry (R304, R366): `fill` writes the slot NEXT, COUNT goes up by one and NEXT goes
on, from `last` to 1. A poisoned COUNT or NEXT is a contained error that no firing consumes (R420): it is logged, the word stays
as it is, and without NEXT no slot is filled. DEDUCED, log 19 and 68. -/
def mailboxTake (s : State) (i count last : Nat) (fill : State → Nat → State) : State :=
  let bad := fun (s : State) (a code : Nat) => logPoison s (some i) a code 0 0 0
  let k := readNat s.mem (count + 8) 8
  let c := readWord s.mem count
  let t := match poisonCode s (count + 8) 8 with
    | some code => bad s (count + 8) code
    | none => (fill s k).putWord (count + 8) (W (if k = last then 1 else k + 1))
  match poisonCode s count 8 with
  | some code => bad t count code
  | none => t.putWord count (c + 1)

/-- A record discarded to the fault mailbox of core `i` (R304), with its fault record; DROPREC counts the records of owners that
are gone (R409, R410). DEDUCED, log 25 and 68. -/
def State.discard (s : State) (i : Nat) (ws : List Word) (reason owner : Nat) : State :=
  let b := tcmBase i
  let s1 := mailboxTake s i (b + 0x1FC00) 15 fun s k =>
    (s.putArray (b + 0x1FC40 + 64 * (k - 1)) (bytesOfWords (ws.take 8))).putArray (b + 0x1FC10 + (k - 1)) [BitVec.ofNat 8 reason]
  let s1 := if reason = 5 then { s1 with owners := { s1.owners with droprec := s1.owners.droprec + 1 } } else s1
  s1.faultRecord
    (faultWords s i (2 ^ 10 + 0x18) (W reason) (ws.getD 0 0) (identity owner (s.worldOf owner) 0 0 false) 0)

/-! ## Registers (R49, R362) -/

/-- A g register as the firing reads it: g0 is zero, and a handler reads the supervisor bank above g47. -/
def gread (c : CoreSt) (r : GReg) : Word :=
  if r = 0 then 0
  else if 48 ≤ r.val && (c.firing.map (·.handler)).getD false then vget c.regs.gs 0 (r.val - 48)
  else vget c.regs.g 0 r.val

/-- A g register by number; numbers above 63 read zero. -/
def greadN (c : CoreSt) (n : Nat) : Word := if h : n < 64 then gread c ⟨n, h⟩ else 0

/-- The write that a result for g register `r` makes: to the supervisor bank in a handler. -/
def gdest (c : CoreSt) (r : GReg) (v : Word) : RegWrite :=
  if 48 ≤ r.val && (c.firing.map (·.handler)).getD false then .s (Fin.ofNat 16 (r.val - 48)) v else .g r v

def pread (c : CoreSt) (p : PReg) : Bool := p = 0 || vget c.regs.p false p.val

/-- Lanes of a vector register after a write of some of them. -/
def mergeLanes : List Lane → List (Option Lane) → List Lane
  | [], _ => []
  | x :: xs, [] => x :: xs
  | x :: xs, o :: os => o.getD x :: mergeLanes xs os

/-- A result reaching its register; g0 and p0 discard it, and lanes at or above the grant are lost. -/
def Regs.write (r : Regs) (w : RegWrite) : Regs :=
  match w with
  | .g d v => if d = 0 then r else { r with g := vset r.g d.val v }
  | .s d v => { r with gs := vset r.gs d.val v }
  | .p d b => if d = 0 then r else { r with p := vset r.p d.val b }
  | .v d ls => { r with v := vset r.v d.val (mergeLanes (vget r.v [] d.val) ls) }
  | .m d b => { r with m := vset r.m d.val (b &&& BitVec.ofNat 128 (2 ^ r.vgrant - 1)) }

def Regs.writeAll (r : Regs) (ws : List RegWrite) : Regs := ws.foldl Regs.write r

/-- Results and flags reaching their registers in cycle `t` (R45, R119). -/
def State.writeRegsAt (s : State) (i t : Nat) (ws : List RegWrite) (fl : Flags) : State :=
  s.onRegs i fun r =>
    { r.writeAll ws with
      fpstat := r.fpstat ||| fl
      landed := if fl = 0 then r.landed else (t, if r.landed.1 = t then r.landed.2 ||| fl else fl) }

/-- Results and flags reaching their registers now. -/
def State.writeRegs (s : State) (i : Nat) (ws : List RegWrite) (fl : Flags) : State := s.writeRegsAt i s.now ws fl

/-! ## Tags and outstanding operations (R41) -/

def tagOf (c : CoreSt) (t : Fin 16) : TagSt := vget c.iss.tags .free t.val
def setTag (c : CoreSt) (t : Fin 16) (x : TagSt) : CoreSt :=
  if t = 0 then c else { c with iss := { c.iss with tags := vset c.iss.tags t.val x } }

def tagsDone (c : CoreSt) : Bool := c.iss.tags.toList.all fun t => decide (t ≠ .outstanding)

/-- A LOCKED store awaits delivery, or the ring keeps one for the handler to decide: later stores of the firing that have not
entered the write buffer wait behind it (R365). DEDUCED, log 17. -/
def storesWait (c : CoreSt) : Bool := c.traps.storeStop || c.traps.sring.any fun r => r.st == 3 && r.ent.isSome

/-- A store whose remaining writes the ring holds, or that waits behind a store fault: only the handler decides them, so a trap
does not wait for its tag (R365). -/
def heldBack (c : CoreSt) (o : Out) : Bool :=
  let held := fun q => c.traps.sring.any fun r => r.seq == q && r.held
  match o.op with
  | .stored q _ => held q
  | .vstore todo qs _ => qs.all held && (todo.isEmpty || storesWait c)
  | _ => false

/-- What a trap waits for (R359, R362): every tag has completed, every fixed-latency result is written, and no issued
instruction still holds issue. DEDUCED, log 22. -/
def quiet (c : CoreSt) : Bool :=
  c.iss.pend.isEmpty &&
  (c.iss.tags.toList.mapIdx fun k t =>
      decide (t ≠ .outstanding) || c.iss.outs.any fun o => o.tag.val == k && heldBack c o).all (·) &&
  c.iss.outs.all fun o => !o.holds || heldBack c o

def findOut (c : CoreSt) (id : Nat) : Option Out := c.iss.outs.find? (·.id == id)
def dropOut (c : CoreSt) (id : Nat) : CoreSt :=
  { c with iss := { c.iss with outs := c.iss.outs.filter (·.id != id) } }
def setOut (c : CoreSt) (o : Out) : CoreSt :=
  { c with iss := { c.iss with outs := c.iss.outs.map fun x => if x.id == o.id then o else x } }

/-- The state of a coprocessor ring entry (R373). -/
def ringSet (c : CoreSt) (n : Option Nat) (f : CRingEnt → CRingEnt) : CoreSt :=
  match n with
  | none => c
  | some n => { c with traps := { c.traps with cring := c.traps.cring.map fun e => if e.n == n then f e else e } }

/-- What a fence waits for (R253, R254): an outstanding operation of a class in EARLIER. -/
def inEarlier (earlier : BitVec 3) (k : OrdClass) : Bool :=
  match k with
  | .load => earlier.getLsbD 0
  | .store => earlier.getLsbD 1
  | .atomic => earlier.getLsbD 2
  | _ => false

/-- What a release of a scope waits for (R222), among operations before operation number `id`. The self scope
waits for address checks only, and every operation has passed its checks when it has issued. -/
def scopeWait (c : CoreSt) (id : Nat) (scope : ScopeKind) (pick : OrdClass → Bool) : Bool :=
  match scope with
  | .self => false
  | .module => c.iss.outs.any (fun o => decide (o.id < id) && pick o.cls) ||
      c.cache.wb.any (fun e => decide (e.id < id) &&
        (match e.op with | .atomic _ => pick .atomic | .sigclr => pick .atomic | _ => pick .store))
  | .domain => c.iss.outs.any (fun o => decide (o.id < id) && (pick o.cls || decide (o.cls = .remote))) ||
      c.cache.wb.any (fun e => decide (e.id < id) &&
        (match e.op with | .atomic _ => pick .atomic | .sigclr => pick .atomic | _ => pick .store))

/-- Every memory class of R222. -/
def anyMem (k : OrdClass) : Bool := k = .load || k = .store || k = .atomic

/-- Elements read ahead are read again: a later read must not return what was read before an acquire or a fence (R235).
DEDUCED, log 29. -/
def Regs.forgetAhead (r : Regs) : Regs :=
  { r with q := r.q.map fun q => match q with | .stream false b h pos _ => .stream false b h pos [] | x => x }

/-- Fences whose wait is over complete their tags (R254); one that names loads in LATER keeps them after it (R235). -/
def settleFences (c : CoreSt) : CoreSt :=
  c.iss.outs.foldl (fun c o =>
    match o.op with
    | .fence later earlier scope =>
      if scopeWait c o.id scope (inEarlier earlier) then c
      else
        let c := setTag (dropOut c o.id) o.tag .done
        if later.getLsbD 0 then { c with regs := c.regs.forgetAhead } else c
    | _ => c) c

/-- An operation completes: its tag is done (R41), its ring entry too (R373). -/
def State.complete (s : State) (i id : Nat) : State :=
  s.onCore i fun c =>
    match findOut c id with
    | none => c
    | some o =>
      let c := setTag (dropOut c id) o.tag .done
      settleFences (ringSet c o.ring fun e => { e with st := 1, done := some s.now })

/-- Results in the order in which they become due, those of one cycle in program order (R45). DEDUCED, log 21 and 21. -/
def byDue : List PendWrite → List PendWrite
  | [] => []
  | p :: ps =>
    let r := byDue ps
    r.takeWhile (fun x => decide (x.due < p.due)) ++ p :: r.dropWhile fun x => decide (x.due < p.due)

/-- Fixed-latency results that are due reach their registers, the youngest instruction's last (R45). DEDUCED, log 21. -/
def flushDue (s : State) (i : Nat) : State :=
  let due := byDue ((s.core i).iss.pend.filter fun p => decide (p.due ≤ s.now))
  due.foldl (fun s p =>
      (s.writeRegsAt i p.due p.writes p.flags).onCore i fun c =>
        if tagOf c p.tag = .outstanding then setTag c p.tag .done else c)
    (s.onIss i fun k => { k with pend := k.pend.filter fun p => !(decide (p.due ≤ s.now)) })

/-- An operation writes its result, after the fixed-latency results that are due (R45), and completes. -/
def State.completeWith (s : State) (i id : Nat) (ws : List RegWrite) (fl : Flags) : State :=
  ((flushDue s i).writeRegs i ws fl).complete i id

/-! ## Code addresses (R35 to R37, R302) -/

def lineIdx (pc : Word) : Nat := wf pc 6 50
def badPc (pc : Word) : Bool :=
  decide (6 ≤ wf pc 0 3) || wf pc 3 3 != 0 || decide (0xF0 * 2 ^ 48 ≤ lineIdx pc * 64)

/-- The program counter `off` instructions further on, modulo 6 × 2^50 (R36). -/
def pcPlus (pc : Word) (off : Int) : Word :=
  let l : Int := lineIdx pc * 6 + wf pc 0 3
  let n := ((l + off) % (6 * 2 ^ 50 : Int)).toNat
  W (wf pc 56 8 * 2 ^ 56 + n / 6 * 64 + n % 6)

/-- A handler address is admitted against a code range (R302). -/
def admitted (codeb pc : Word) : Bool :=
  let n := wf codeb 40 24
  let b := wf codeb 0 40
  let l := wf pc 6 40
  !badPc pc && (n == 0 || (decide (b ≤ l) && decide (l < b + n)))

/-- The range test of a fetch (R303). -/
def inCodeb (codeb pc : Word) : Bool :=
  let n := wf codeb 40 24
  let b := wf codeb 0 40
  let l := wf pc 6 40
  n == 0 || (decide (b ≤ l) && decide (l < b + n))

/-! ## Lanes (R143, R145, R146) -/

/-- Free lanes of a tussock's pool. -/
def freeLanes (s : State) (t : Nat) : Nat :=
  128 - (tussockCores t).foldl (fun n i => n + (s.core i).regs.vgrant) 0

/-- The grant shrinks to `g` lanes. DEDUCED, log 26. -/
def Regs.shrink (r : Regs) (g : Nat) : Regs :=
  { r with
    v := r.v.map (·.take g), m := r.m.map (· &&& BitVec.ofNat 128 (2 ^ g - 1)), vgrant := g,
    vmin := if g = 0 then 0 else r.vmin }

/-- The shrink requests that stand: those of a claim at the head that lacks its MIN (R145). DEDUCED, log 26. -/
def postShrink (s : State) (t : Nat) : State :=
  let p := s.pool t
  let req :=
    match p.queue with
    | [] => []
    | q :: _ =>
      if freeLanes s t < q.min then
        (tussockCores t).filter fun i => decide ((s.core i).regs.vmin < (s.core i).regs.vgrant)
      else []
  s.onPool t fun p => { p with shrink := req }

def State.releaseLanes (s : State) (i : Nat) : State :=
  postShrink (s.onRegs i (·.shrink 0)) (tusOf i)

/-- A queued claim is withdrawn at trap entry and abort (R145); its instruction has not issued. -/
def State.withdrawClaim (s : State) (i : Nat) : State :=
  let s := s.onCore i fun c =>
    { c with iss := { c.iss with outs := c.iss.outs.filter fun o => match o.op with | .claim .. => false | _ => true } }
  postShrink (s.onPool (tusOf i) fun p => { p with queue := p.queue.filter (·.core != i) }) (tusOf i)

/-! ## Freeing an actor (R350) and ending a firing -/

def actorOf (c : CoreSt) (slot : Nat) : Option Actor := mget? c.sched.actors slot

/-- The channels that an actor's outputs lead to lose its reservations. -/
def returnReservations (s : State) (i slot : Nat) : State :=
  match actorOf (s.core i) slot with
  | none => s
  | some a =>
    a.outs.toList.foldl (fun s o =>
      match o with
      | none => s
      | some (k, ch, _) => s.onSched k fun d =>
          { d with chans := match mget? d.chans ch with
              | none => d.chans
              | some x => mput d.chans ch { x with reserved := x.reserved.filter fun r => r.1 != i || r.2.1 != slot } })
      s

/-- The slot becomes free; its inputs stay bound as channels of no actor; waiting `actfree`s write D := 0. -/
def freeActor (s : State) (i slot : Nat) : State :=
  let s := returnReservations s i slot
  let s := s.onSched i fun d =>
    { d with
      actors := mdel d.actors slot
      armed := mdel d.armed slot
      chans := d.chans.map fun (k, x) => (k, if x.inputOf = some slot then { x with inputOf := none } else x) }
  -- `actfree` instructions of other firings that waited for this boundary
  (s.cores.foldl (fun s (k, c) =>
    c.iss.outs.foldl (fun s o =>
      match o.op with
      | .actfree d j sl => if j == i && sl == slot then s.completeWith k o.id [gdest c d 0] 0 else s
      | _ => s) s) s)

/-- The firing boundary of an actor: a pending free takes effect (R350). -/
def actorBoundary (s : State) (i : Nat) (k : FKind) : State :=
  match k with
  | .actor slot =>
    match actorOf (s.core i) slot with
    | some a => if a.freeing then freeActor s i slot else s
    | none => s
  | _ => s

/-- Untagged engine commands and remote operations go on after their firing (R261). -/
def goesOn (o : Out) : Bool :=
  match o.op with | .copy .. => true | .lode => true | .remote _ => true | .drop _ => true | _ => false

/-- What every end of a firing does (R64, R299, R300): no result of the firing survives it. -/
def closeFiring (s : State) (i : Nat) : State :=
  let s := s.releaseLanes i
  let k := (s.core i).firing.map (·.kind)
  let s := s.onCore i fun c =>
    { c with
      firing := none
      iss :=
        { c.iss with
          tags := Vector.replicate 16 .free, pend := [], hist := []
          outs := (c.iss.outs.filter goesOn).map fun o => { o with tag := 0, holds := false, acquires := false } }
      cache := { c.cache with wmWait := none, walkWait := none, walkFault := none, codeLine := none }
      regs := { c.regs with q := Vector.replicate 8 .unbound }
      mtx := { c.mtx with gangFault := none }
      traps := { c.traps with decided := false, pending := none, abort := none, storeStop := false, ready := [], counted := [] }
      sched := { c.sched with idle := .select } }
  match k with
  | some k => actorBoundary s i k
  | none => s

/-! ## Aborts (R300) -/

/-- Joined gang instructions of the core that are still running (R191). -/
def joinedGang (c : CoreSt) : Bool :=
  c.iss.outs.any fun o => match o.op with | .gang _ _ _ _ _ _ _ _ joined => joined | _ => false

def slotOf (k : FKind) : Nat := match k with | .actor s => s.val | _ => 0
def isTask (k : FKind) : Bool := match k with | .actor _ => false | _ => true

/-- The near-window address of the trap frame (R362, R363). -/
def frameOff : Nat := 0x1F800
/-- DEDUCED, log 68. -/
def frameAddr (i : Nat) : Nat := tcmBase i + frameOff

/-- Word `k` of the trap frame. -/
def frameWord (s : State) (i k : Nat) : Word := readWord s.mem (frameAddr i + 8 * k)

/-- The owner of the firing that a handler runs for: the frame holds it (R363). Where the read of its word meets poison (R420), it is
owner 0, which names no owner (R386). DEDUCED, log 19 and 23. -/
def frameOwner (s : State) (i : Nat) : Nat := if poisonAt s (frameAddr i + 40) 8 then 0 else wf (frameWord s i 5) 0 16

/-- The read of that word meets an error, which is logged. DEDUCED, log 19. -/
def noteFrameOwner (s : State) (i : Nat) : State :=
  match poisonCode s (frameAddr i + 40) 8 with
  | some code => logPoison s (some i) (frameAddr i + 40) code 0 0 0
  | none => s

/-- The abort itself: inputs stay, the actor stops, the task is discarded, and the owner's record is sent.
Stores held for a handler are discarded (R371); unheld stores stay in the write buffer (R415). DEDUCED, log 23 and 25. -/
def finishAbort (s : State) (i : Nat) (a : Abort) : State :=
  let c := s.core i
  match c.firing with
  | none => s
  | some f =>
    let stop := match f.kind with | .actor _ => true | _ => false
    let s := s.onSched i fun d =>
      match f.kind with
      | .actor slot =>
        { d with actors := match mget? d.actors slot with
            | some x => mput d.actors slot { x with stopped := true }
            | none => d.actors }
      | _ => d
    let s := match f.kind with | .actor slot => returnReservations s i slot | _ => s
    let s := { s with arrivals := s.arrivals.filter (·.core != i) }
    let s := s.withdrawClaim i
    let s := s.onTraps i fun t => { t with sring := t.sring.map fun e => { e with held := false, ent := none } }
    let o := if f.handler then frameOwner s i else f.owner
    let s := closeFiring (if f.handler then noteFrameOwner s i else s) i
    s.faultRecord (faultWords s i (a.cause + b2n (isTask f.kind) * 2 ^ 8 + b2n stop * 2 ^ 9) a.val a.pc
      (identity o (s.worldOf o) f.stage (slotOf f.kind) (isTask f.kind)) a.bank)

/-- An abort: it waits for joined gang instructions (R191). DEDUCED, log 25. -/
def State.abort (s : State) (i cause : Nat) (val pc : Word) : State :=
  let a : Abort := { cause, val, pc, bank := if cause = 0x14 then val.toNat else 0 }
  if joinedGang (s.core i) then
    s.onTraps i fun t => if t.abort.isSome then t else { t with abort := some a }
  else finishAbort s i a

/-! ## Taking a trap and returning from it (R359 to R364, R370) -/

def budgetLeft (s : State) (f : Firing) : Nat := f.budgetEnd - s.now

/-- Faults still pending when a trap is taken: LATEPEND of R363. DEDUCED, log 22. -/
def latePend (c : CoreSt) : Nat :=
  c.traps.ready.length + (c.iss.tags.toList.filter fun t => match t with | .faulted _ => true | _ => false).length

/-- The words of a trap frame (R363, R414). -/
def frameWords (s : State) (c : CoreSt) (f : Firing) (p : PTrap) : List Word :=
  [W (p.cause + b2n p.late * 2 ^ 8 + p.tag.val * 2 ^ 12), p.val, p.pc, p.faultPc,
    W (p.src.val * 2 ^ 62 + p.seq % 2 ^ 32),
    identity f.owner (s.worldOf f.owner) f.stage (slotOf f.kind) (isTask f.kind),
    W (budgetLeft s f), W f.budget, f.codeb, W c.regs.fpstat.toNat,
    W ((List.range 7).foldl (fun n k => n + b2n (vget c.regs.p false (k + 1)) * 2 ^ (k + 1)) 0),
    W (latePend c % 65536 + b2n p.held * 2 ^ 16 + b2n f.ext * 2 ^ 17 + b2n f.expired * 2 ^ 18)] ++
    List.replicate 20 0

/-- A budget that reaches zero while a trap waits for its tags: a BUDGET fault arrives and is counted (R362, R367). A second
expiry of the firing aborts it. DEDUCED, log 22. -/
def noteBudget (s : State) (i : Nat) : State :=
  let c := s.core i
  match c.firing with
  | none => s
  | some f =>
    if s.now < f.budgetEnd || c.traps.ready.any (fun x => x.cause == 0x13 && x.at_ == f.budgetEnd) then s
    else if f.expired then s.abort i 0x13 (W f.budget) f.pc
    else
      (s.onFiring i fun g => { g with expired := true }).onTraps i fun t =>
        { t with ready := t.ready ++
            [{ cause := 0x13, val := W f.budget, pc := f.pc, src := 0, seq := 0, owner := f.owner, firing := f.num
               tag := 0, store := false, at_ := f.budgetEnd, who := whoOf f }] }

/-- Entering the handler (R362): the frame is written, supervisor state begins, and execution continues at
TRAPH. DEDUCED, log 22 and 68. -/
def enterTrap (s : State) (i : Nat) (p : PTrap) : State :=
  let s := if p.cause = 0x13 then s else noteBudget s i
  let c := s.core i
  match c.firing, c.traps.abort with
  | none, _ => s
  | some _, some _ => s
  | some f, none =>
    let s := s.withdrawClaim i
    let s := s.putArray (frameAddr i) (bytesOfWords (frameWords s c f p))
    s.onCore i fun c =>
      { c with
        firing := some
          { f with
            handler := true, owner := p.sowner, codeb := p.scodeb, pc := p.traph
            budgetEnd := if budgetLeft s f < 4096 then s.now + 4096 else f.budgetEnd }
        regs := { c.regs with gs := vset (Vector.replicate 16 0) 0 (W (0x00FF000000000000 + frameOff)) }
        traps :=
          { c.traps with
            pending := none, decided := false, counted := c.traps.counted ++ c.traps.ready, ready := [], entryOp := c.iss.opCount }
        cache := { c.cache with wmWait := none, walkWait := none, walkFault := none, codeLine := none }
        iss := { c.iss with next := s.now + 1 } }

/-- Causes that always abort (R361). -/
def directAbort (cause : Nat) : Bool := cause = 0x14 || cause = 0x15 || cause = 0x16

/-- TRAPVAL of NEST (R364). -/
def nestVal (cause opc : Nat) : Word := W (cause + opc * 2 ^ 16)

/-- Where a trap goes (R361, R364): a handler's own trap is NEST; a supervisor firing is aborted; otherwise the
handler is entered once every tag has completed, or the firing is aborted. DEDUCED, log 19. -/
def deliver (s : State) (i : Nat) (p : PTrap) : State :=
  let c := s.core i
  match c.firing with
  | none => s
  | some f =>
    if f.handler then s.abort i 0x16 (if p.cause = 0x16 then p.val else nestVal p.cause 0) p.faultPc
    else if f.sup || directAbort p.cause || c.sched.traph = 0 || !admitted c.sched.scodeb c.sched.traph then
      s.abort i p.cause p.val p.faultPc
    else
      let p := { p with traph := c.sched.traph, scodeb := c.sched.scodeb, sowner := c.sched.sowner }
      if quiet c then enterTrap s i p else s.onTraps i fun t => { t with pending := some p }

/-- A precise trap on the instruction at the program counter (R359). -/
def trap (s : State) (i cause : Nat) (val : Word) : State :=
  match (s.core i).firing with
  | none => s
  | some f =>
    deliver s i { cause, val, pc := f.pc, faultPc := f.pc, late := false, tag := 0, src := 0, seq := 0, held := false }

/-- Whether the ring keeps the faulting store of a late fault (HELD of R365). -/
def ringKeeps (c : CoreSt) (f : LateFault) : Bool :=
  f.store && c.traps.sring.any fun e => e.seq == f.seq && e.ent.isSome

/-- Index of a coprocessor ring entry, 0 the most recent; SEQ of frame word 4 (R363). -/
def ringIndex (c : CoreSt) (n : Nat) : Nat := c.traps.cring.findIdx (·.n == n)

/-- A LOCKED fault of a store that has arrived and is not delivered (R365). -/
def moreStoreFaults (c : CoreSt) : Bool :=
  let hit := fun (f : LateFault) => f.store && f.cause == 0x12
  c.traps.ready.any hit || c.traps.counted.any hit ||
    c.iss.tags.toList.any fun t => match t with | .faulted f => hit f | _ => false

/-- A late fault delivered before the instruction at the program counter (R360). -/
def deliverLate (s : State) (i : Nat) (t : Fin 16) (f : LateFault) : State :=
  let c := s.core i
  match c.firing with
  | none => s
  | some fr =>
    let s := s.onCore i fun c =>
      if t = 0 then { c with traps := { c.traps with ready := c.traps.ready.drop 1 } } else setTag c t .done
    let s := if f.store then s.onCore i fun c => { c with traps := { c.traps with storeStop := moreStoreFaults c } } else s
    deliver s i
      { cause := f.cause, val := f.val, pc := fr.pc, faultPc := f.pc, late := true, tag := t, src := f.src
        seq := if f.src = 1 then ringIndex c f.seq else f.seq
        held := ringKeeps c f }

/-- The error that a read of `n` words of the trap frame from word `k` meets (R420): the address of the word, and the code.
DEDUCED, log 19. -/
def framePoison (s : State) (i k n : Nat) : Option (Nat × Nat) :=
  if n = 0 then none else poisonSpot s (frameAddr i + 8 * k) (8 * n)

/-- A read of the frame that meets poison: logged, and the firing is aborted with CONTAIN (R419, R420). DEDUCED, log 19. -/
def containFrame (s : State) (i : Nat) (e : Nat × Nat) (f : Firing) : State :=
  (logPoison s (some i) e.1 e.2 f.owner f.pc 0).abort i 0x14 (W (bankOf s e.1)) f.pc

/-- The firing as the words `w` of its frame give it, outside the handler (R370). -/
def restoreFrame (s : State) (i : Nat) (f : Firing) (w : Nat → Word) : State :=
  s.onCore i fun c =>
    { c with
      firing := some { f with handler := false, owner := wf (w 5) 0 16, codeb := w 8, ext := wb (w 11) 17 }
      regs :=
        { c.regs with
          gs := Vector.replicate 16 0
          p := Vector.ofFn fun k => k.val != 0 && wb (w 10) k.val
          fpstat := BitVec.ofNat 5 (wf (w 9) 0 5) }
      traps := { c.traps with decided := false, ready := c.traps.counted ++ c.traps.ready, counted := [] } }

/-- Where the firing goes on: at the instruction that trapped, or the one after it (R370). -/
def resumeAt (s : State) (i : Nat) (f : Firing) (target : Word) : State :=
  if badPc target then s.abort i 0x16 (nestVal 0x02 0) f.pc else s.onFiring i fun f => { f with pc := target }

/-- The firing `f` goes on as its frame says, or ends where a read of the frame meets an error. -/
def leaveFrame (s : State) (i : Nat) (f : Firing) (next : Bool) (err : Option (Nat × Nat)) : State :=
  match err with
  | some e => containFrame s i e f
  | none =>
    let w := frameWord s i
    resumeAt (restoreFrame s i f w) i f (if next then pcPlus (w 2) 1 else w 2)

/-- Resuming the firing (R370), once the stores are decided and the handler's tags have completed. DEDUCED, log 68. -/
def leaveTrap (s : State) (i : Nat) (next : Bool) : State :=
  match (s.core i).firing with
  | none => s
  | some f => leaveFrame s i f next (framePoison s i 2 10)

/-! ## Late faults on their way (R360, R365, R366) -/

/-- Something has arrived at the core: an idle core selects, a gated one begins to wake (R319). DEDUCED, log 55. -/
def wakeCore (s : State) (i : Nat) : State :=
  s.onSched i fun d =>
    { d with idle := match d.idle with
        | .idle _ _ => .select
        | .gated => .waking s.now
        | x => x }

/-- An arrival in the arrival mailbox of core `i` (R366), with its supervisor record and fault record. DEDUCED, log 25 and 68. -/
def arrivalMailbox (s : State) (i : Nat) (f : LateFault) : State :=
  let b := tcmBase i
  let k := if (poisonCode s (b + 0x1F908) 8).isSome then 0 else readNat s.mem (b + 0x1F908) 8
  let s1 := mailboxTake s i (b + 0x1F900) 11 fun s k =>
    s.putArray (b + 0x1F940 + 64 * (k - 1)) (bytesOfWords [W f.cause, f.val, f.pc, W f.seq, W f.owner, 0, 0, 0])
  let th := (s.core i).sched.traph
  let s2 :=
    if th = 0 then s1
    else wakeCore (s1.onSched i fun d =>
      { d with supq := d.supq ++
          [{ words := [th, W (2 ^ 63 + k), 0, 0, 0, 0, 0, 0], owner := d.sowner, sup := true, queued := true }] }) i
  s2.faultRecord (faultWords s i f.cause f.val f.pc (identity f.owner (s.worldOf f.owner) 0 0 false ||| f.who)
    (if f.cause = 0x14 then f.val.toNat else 0))

/-- What a buffered operation shows in the ring: log₂ of its size and its data. -/
def opShape : StoreOp → Nat × Word
  | .bytes d => (d.length.log2, W (ofLe (d.take 8)))
  | .atomic r => (r.bytes.log2, r.operand)
  | .rel v _ => (3, v)
  | .sigclr => (3, 0)

/-- An entry at its place in the order of sequence numbers. -/
def sringInsert (e : SRingEnt) (ring : List SRingEnt) : List SRingEnt :=
  ring.filter (fun r => decide (r.seq < e.seq)) ++ e :: ring.filter fun r => decide (e.seq < r.seq)

/-- A new entry among the 64: held and faulting entries are never overwritten, the others are reused oldest first (R365). -/
def sringPush (c : CoreSt) (e : SRingEnt) : CoreSt :=
  let ring := c.traps.sring
  let ring' :=
    if ring.length < 64 then sringInsert e ring
    else match ring.findIdx? (·.ent.isNone) with
      | none => ring
      | some k => sringInsert e (ring.eraseIdx k)
  { c with traps := { c.traps with sring := ring' } }

/-- The ring entry of a buffered write. -/
def ringEntry (e : StoreEnt) : SRingEnt :=
  { seq := e.seq, st := if e.sent then 1 else 0, held := false, cause := 0, logSize := (opShape e.op).1, addr := e.ea
    data := (opShape e.op).2, ent := none }

/-- A faulting or held store has an entry (R365). -/
def ringEnsure (c : CoreSt) (e : StoreEnt) : CoreSt :=
  if c.traps.sring.any (·.seq == e.seq) then c else sringPush c (ringEntry e)

/-- Holding the unsent stores behind a LOCKED store (R365): they leave the write buffer for the ring. A handler's own stores stay. -/
def holdStores (c : CoreSt) (f : LateFault) : CoreSt :=
  let (go, held) := c.cache.wb.partition fun e => e.sent || e.firing != f.firing || decide (e.seq < f.seq) || e.handler
  let c := held.foldl ringEnsure c
  { c with
    cache := { c.cache with wb := go }
    traps :=
      { c.traps with
        storeStop := true
        sring := c.traps.sring.map fun r =>
          match held.find? (·.seq == r.seq) with
          | some e => { r with held := true, ent := some { e with held := true } }
          | none => r } }

/-- A late fault arrives at its core (R360): on its tag, or untagged, or after its firing has ended. -/
def arrive (s : State) (i : Nat) (f : LateFault) : State :=
  let c := s.core i
  let f := { f with at_ := s.now }
  if (c.firing.map (·.num)) = some f.firing then
    s.onCore i fun c =>
      let c := if f.store && f.cause == 0x12 then holdStores c f else c
      if f.tag = 0 then { c with traps := { c.traps with ready := c.traps.ready ++ [f] } }
      else setTag c f.tag (.faulted f)
  else
    let s := s.onTraps i fun t => { t with sring := t.sring.filter fun e => !(e.seq == f.seq) }
    arrivalMailbox s i f

/-- An outstanding operation completes with a late fault (R41, R163). -/
def State.failOut (s : State) (i id cause : Nat) (val : Word) : State :=
  match findOut (s.core i) id with
  | none => s
  | some o =>
    let s := s.onCore i fun c =>
      settleFences (ringSet (setTag (dropOut c id) o.tag .done) o.ring fun e =>
        { e with st := 2, cause := cause, val := val, done := some s.now })
    arrive s i
      { cause, val, pc := o.pc, src := if o.ring.isSome then 1 else 3, seq := o.ring.getD 0, owner := o.owner
        firing := o.firing, tag := o.tag, store := false, at_ := s.now, who := o.who }

/-- An outstanding operation meets a contained error. It completes with it (R83, R151, R190): a tag carries it to its
consumer (R41), otherwise it arrives before the next instruction; delivered, it aborts the firing (R361, R419). DEDUCED, log 19. -/
def State.containOut (s : State) (i id bank : Nat) : State := s.failOut i id 0x14 (W bank)

end Sys2Proof.Machine
end

