-- ==== Sys2Proof/Machine/Access.lean ====
section
/-! DEFINITION. Where an access goes and whether it may: the address map (R199), rights tables and PLBs
(R389 to R391), translation (R205 to R209), the L1 (R203), the write buffer's bytes (R204), and reads and
writes at homes and arrays (R201, R202, R208, R213, R420). -/

namespace Sys2Proof.Machine

/-- Whether [o, o + n) meets reserved TCM of core `k` (R305): rings of bound channels, the trap frame, the
arrival mailbox and the fault mailbox. -/
def reservedTcm (s : State) (k o n : Nat) : Bool :=
  let meets := fun (b len : Nat) => decide (o < b + len) && decide (b < o + n)
  meets 0x1F800 0x100 || meets 0x1F900 0x300 || meets 0x1FC00 0x400 ||
    (s.core k).sched.chans.any fun (_, ch) => meets ch.ring (64 * ch.cap)

def inRightsArea : Loc → Nat → Bool
  | .staithe 0 o, n => decide (0x3800000 < o + n)
  | _, _ => false

/-! ## Rights-table entries (R389) -/

/-- Kind of location of an address in an entry: paged, or one TCM, tussock memory or staithe. -/
def entKind (a : Nat) : Option Nat :=
  match decodeAddr 0 a with
  | some (.paged _) => some 0
  | some (.tcm c _) => if fld a 48 8 = 0xFE then some (1 + c) else none
  | some (.tussock t _) => if fld a 48 8 = 0xFE then some (30000 + t) else none
  | some (.staithe d _) => if fld a 48 8 = 0xFE then some (40000 + d) else none
  | _ => none

/-- BASE to BASE + LENGTH names one kind of location. -/
def oneKind (base len : Nat) : Bool :=
  decide (0 < len) && decide (base + len ≤ 2 ^ 56) && (entKind base).isSome &&
    decide (entKind base = entKind (base + len - 1))

/-- Whether [base, base + len) meets some TCM, tussock memory or staithe. DEDUCED, log 46. -/
def meetsArray (base len : Nat) : Bool :=
  (List.range 9).any (fun d => rangesMeet (staitheBase d) (2 ^ 26) base len) ||
    (List.range 3240).any (fun t => rangesMeet (tusBase t) (2 ^ 20) base len) ||
    (List.range nCores).any fun k => rangesMeet (tcmBase k) (2 ^ 17) base len

/-- The range spans more than one kind of location (R397). A gap between memories counts as a kind of its own. DEDUCED, log 46. -/
def mixedKinds (base len : Nat) : Bool :=
  decide (entKind base ≠ entKind (base + len - 1)) || ((entKind base).isNone && meetsArray base len)

/-- The entry in four words, when it keeps R389 and is not empty. -/
def entOfWords (s : State) (owner : Nat) (w0 w1 w2 w3 : Word) : Option RtEnt :=
  let base := w0.toNat
  let len := w1.toNat
  let e : RtEnt :=
    { base, length := len, rights := BitVec.ofNat 5 (wf w2 0 5), colour := wf w2 8 8, world := wf w2 16 8
      granter := wf w2 32 16 }
  if base % 65536 = 0 ∧ len % 65536 = 0 ∧ base < 2 ^ 56 ∧ len < 2 ^ 56 ∧ oneKind base len ∧
      wf w2 48 16 = 0 ∧ wf w2 24 8 = 0 ∧ wf w2 5 3 = 0 ∧ w3 = 0 ∧
      (e.world = 0 ∨ e.world = s.worldOf owner) ∧ (entKind base = some 0 ∨ e.colour = 0) then some e
  else none

def entAddr (s : State) (o k : Nat) : Nat := s.tableOf o + 64 + 32 * k

/-- Entry `k` of owner `o`'s table, as its memory holds it. -/
def tableEnt (s : State) (o k : Nat) : Option RtEnt :=
  let a := entAddr s o k
  entOfWords s o (readWord s.mem a) (readWord s.mem (a + 8)) (readWord s.mem (a + 16)) (readWord s.mem (a + 24))

/-- The owner's entries with their slots. -/
def tableEnts (s : State) (o : Nat) : List (Nat × RtEnt) :=
  if s.live o then (List.range (s.capOf o)).filterMap fun k => (tableEnt s o k).map (k, ·) else []

def RtEnt.covers (e : RtEnt) (a : Nat) : Bool := decide (e.base ≤ a) && decide (a < e.base + e.length)

/-- Rights by number: R 0, W 1, X 2, A 3, G 4. -/
def RtEnt.gives (e : RtEnt) (need : Nat) : Bool := e.rights.getLsbD need

/-! ## The check of rights (R390, R391) -/

/-- Entries of a PLB that cover an address, newest use first. -/
def plbHits (plb : List PlbEnt) (o a : Nat) : List RtEnt :=
  (plb.filter fun p => p.owner == o && p.ent.covers a).map (·.ent)

/-- Refill: every covering entry of the owner's table is installed, least recently used entries leaving. DEDUCED, log 45. -/
def plbRefill (s : State) (plb : List PlbEnt) (o a : Nat) : List PlbEnt :=
  let new := (tableEnts s o).filterMap fun (k, e) =>
    if e.covers a then some { owner := o, slot := k, ent := e : PlbEnt } else none
  ((new ++ plb.filter fun p => !(p.owner == o && new.any (·.slot == p.slot))).take 32)

/-- Use of entries moves them to the front. -/
def plbTouch (plb : List PlbEnt) (o a : Nat) : List PlbEnt :=
  let (h, r) := plb.partition fun p => p.owner == o && p.ent.covers a
  h ++ r

/-- The covering entries after a refill where the PLB lacks what is needed (R390). DEDUCED, log 45. -/
def plbLookup (s : State) (plb : List PlbEnt) (o a need colour : Nat) (paged : Bool) : List PlbEnt × List RtEnt :=
  let h := plbHits plb o a
  let plb := if h.any (fun e => e.gives need && (!paged || e.colour == colour)) then plbTouch plb o a
    else plbRefill s plb o a
  (plb, plbHits plb o a)

inductive Verdict where
  | pass
  | fail (cause : Nat)
  deriving DecidableEq, Repr

/-- World of a key slot (R406); none when the slot is not VALID. -/
def keyWorld (s : State) (k : Nat) : Option Nat :=
  match mget? s.owners.keys k with
  | some x => if x.valid then some x.world else none
  | none => none

/-- Check 3 of R391 over the covering entries. -/
def colourFails (es : List RtEnt) (colour : Nat) : Bool := !es.isEmpty && !es.any (·.colour == colour)

/-- Check 5 of R391. `sup` is supervisor state, `own` the issuing core. -/
def check5 (s : State) (o : Nat) (es : List RtEnt) (l : Loc) (n need : Nat) (own : Option Nat) (sup : Bool)
    (key : Nat) : Verdict :=
  let w := s.worldOf o
  let res := match l with | .tcm c off => reservedTcm s c off n | _ => false
  let mine := match l with | .tcm c _ => own == some c | _ => false
  if !s.live o || inRightsArea l n || (res && !(mine && need == 0 && sup)) then .fail 0x10
  else if res then .pass
  else if !es.any (·.gives need) then .fail 0x10
  else match l with
    | .paged _ =>
      (match keyWorld s key with
       | some v => if v == w || (v == 0 && need == 0) then .pass else .fail 0x11
       | none => .fail 0x11)
    | _ =>
      if es.any fun e => e.gives need && (e.world == w || (e.world == 0 && need == 0)) then .pass else .fail 0x11

/-! ## Translation (R206, R207, R209) -/

def Trans.holds (t : Trans) (va : Nat) : Bool := decide (t.page ≤ va) && decide (va < t.page + t.size)

def tlbFind (tlb : List Trans) (va : Nat) : Option Trans := tlb.find? (·.holds va)
def tlbTouch (tlb : List Trans) (va : Nat) : List Trans :=
  let (h, r) := tlb.partition (·.holds va)
  h ++ r
def tlbFill (tlb : List Trans) (t : Trans) : List Trans :=
  (t :: tlb.filter fun x => !(x.page == t.page && x.size == t.size)).take 64

/-- What one page-table entry says (R206, R207). -/
inductive Pte where
  | invalid
  | malformed
  | next (t : Nat)
  | leaf (t : Trans) (zp : Bool)
  deriving DecidableEq, Repr

def pteOf (s : State) (e : Word) (lvl va : Nat) : Pte :=
  let endp := s.hbmEnd
  if !wb e 0 then .invalid
  else if wf e 40 24 ≠ 0 ∨ wf e 5 3 ≠ 0 then .malformed
  else if wb e 1 then
    let size := if lvl = 0 then 2 ^ 16 else 2 ^ 26
    let frame := wf e 16 24 * 2 ^ 16
    if 2 ≤ lvl ∨ frame % size ≠ 0 ∨ endp < frame + size then .malformed
    else .leaf { page := va / size * size, size, frame, c := wb e 2, key := wf e 8 8, mlock := wb e 3 } (wb e 4)
  else
    let t := wf e 13 27 * 2 ^ 13
    if lvl = 0 ∨ wf e 8 5 ≠ 0 ∨ wf e 2 3 ≠ 0 ∨ endp < t + 8192 then .malformed else .next t

/-- Address of the entry of level `lvl` in table `t`. -/
def pteAddr (t lvl va : Nat) : Nat := t + 8 * fld va (16 + 10 * lvl) 10

/-- First byte and size of what an entry of a level covers. -/
def levelSpan (lvl : Nat) : Nat := 2 ^ (16 + 10 * lvl)

/-- An entry as the translation cache holds it, if it does. DESIGN CHOICE, log 15. -/
def cachedEntry (k : Walker) (lvl va : Nat) : Option Word :=
  (k.tcache.find? fun x => x.1 == lvl && x.2.1 == va / levelSpan lvl).map (·.2.2)

/-- The translation cache with an entry at its front: 8,192 entries, the least recently used leaving. DESIGN CHOICE, log 15. -/
def cacheEntry (k : Walker) (lvl va : Nat) (e : Word) : Walker :=
  { k with
    tcache := ((lvl, va / levelSpan lvl, e) :: k.tcache.filter fun x => !(x.1 == lvl && x.2.1 == va / levelSpan lvl)).take 8192 }

/-- DESIGN CHOICE, log 15. -/
def countWalk (s : State) (d : Nat) (bad : Bool) : State :=
  s.onWalker d fun k => { k with walks := k.walks + 1, badpte := if bad then k.badpte + 1 else k.badpte }

/-- An entry as a walk of die `d` reads it: from the translation cache, or at its home, where the read is an access like any
other (R202, R207, R209, R213); or the code of the contained error that the read meets (R420). DESIGN CHOICE, log 15. -/
def readEntry (s : State) (d lvl t va : Nat) : State × Except Nat Word :=
  match cachedEntry (s.walker d) lvl va with
  | some e => (s, .ok e)
  | none =>
    let a := pteAddr t lvl va
    match poisonCode s a 8 with
    | some code => (s, .error code)
    | none =>
      let s := openZp (touchMere s a 0) a
      (s, .ok (readWord s.mem a))

/-- The entries of a walk that has returned a translation enter the translation cache, a leaf without its ZP; a walk that faults
installs nothing (R207, R209, R213). DESIGN CHOICE, log 15. -/
def noteEntries (s : State) (d va : Nat) (path : List (Nat × Word)) : State :=
  s.onWalker d fun k => path.foldl (fun k x => cacheEntry k x.1 va (if wb x.2 1 then x.2 &&& ~~~(0x10 : Word) else x.2)) k

/-- How a walk ends: a translation, the code of a poisoned entry with its address, or no translation. -/
inductive WalkEnd where
  | found (t : Trans)
  | poisoned (code a : Nat)
  | unmapped
  deriving DecidableEq, Repr

/-- Every line of a page becomes zero-pending, under the page's key, and the leaf loses ZP (R208, R213).
DESIGN CHOICE, log 8; DEDUCED, log 32. -/
def claimZp (s : State) (t : Trans) (leaf : Nat) : State :=
  let lo := t.frame / 64
  let hi := (t.frame + t.size) / 64
  let lines := (List.range (t.size / 64)).map (lo + ·)
  let k := keyNum s t.key
  let s := s.putPhysLine leaf (leBytes 8 (readWord s.mem leaf &&& ~~~(0x10 : Word)).toNat)
  s.onHomes fun h =>
    { h with
      zp := lines ++ h.zp.filter fun l => !(decide (lo ≤ l) && decide (l < hi))
      lineKey := h.lineKey.filter (fun x => decide (x.1 < lo)) ++ lines.map (·, k) ++ h.lineKey.filter fun x => decide (hi ≤ x.1) }

/-- A large page whose translation leaves a walker (R211). DESIGN CHOICE, log 15. -/
def noteLarge (s : State) (t : Trans) : State :=
  if t.size = 2 ^ 26 && !s.homes.large.contains t.page then s.onHomes fun h => { h with large := t.page :: h.large } else s

/-- What one entry makes of a walk of die `d` (R207): the next table with the entries read so far, or the walk's end. -/
inductive WalkMove where
  | on (t : Nat) (path : List (Nat × Word))
  | done (e : WalkEnd)
  deriving DecidableEq, Repr

/-- A walk reads its entry of level `lvl` from table `t` (R207), with the claim of a zero-pending page (R213).
DESIGN CHOICE, log 15. -/
def walkRead (s : State) (d t lvl va : Nat) (path : List (Nat × Word)) : State × WalkMove :=
  match readEntry s d lvl t va with
  | (s, .error code) => (countWalk s d false, .done (.poisoned code (pteAddr t lvl va)))
  | (s, .ok e) =>
    match pteOf s e lvl va with
    | .invalid => (countWalk s d false, .done .unmapped)
    | .malformed => (countWalk s d true, .done .unmapped)
    | .next t' => (s, .on t' ((lvl, e) :: path))
    | .leaf tr zp =>
      let s := if zp then claimZp s tr (pteAddr t lvl va) else s
      (noteLarge (countWalk (noteEntries s d va ((lvl, e) :: path).reverse) d false) tr, .done (.found tr))

/-- The rest of a walk of die `d`: entries of levels below `n` from table `t`. DESIGN CHOICE, log 15. -/
def walkFrom (s : State) (d t va : Nat) (path : List (Nat × Word)) : Nat → State × WalkEnd
  | 0 => (s, .unmapped)
  | n + 1 =>
    match walkRead s d t n va path with
    | (s, .on t' path) => walkFrom s d t' va path n
    | (s, .done e) => (s, e)

/-! ### Walks under way (R209) -/

/-- A walk of the walker, which waits where 256 are under way; it begins from the PTBASE that then stands (R209, R210). -/
def startWalk (k : Walker) (w : Walk) : Walker :=
  if k.active.length < 256 then { k with active := k.active ++ [w] } else { k with queue := k.queue ++ [w] }

/-- A walk ends, and the next one that waits begins. DESIGN CHOICE, log 15. -/
def endWalk (s : State) (d n : Nat) : State :=
  s.onWalker d fun k =>
    let act := k.active.eraseIdx n
    match k.queue with
    | w :: ws =>
      if act.length < 256 then { k with active := act ++ [{ w with lvl := 3, table := k.ptbase, path := [] }], queue := ws }
      else { k with active := act }
    | [] => { k with active := act }

/-- A line that a core fetches, or an entry that its walk reads, is poisoned: the firing is aborted with CONTAIN
(R419). DEDUCED, log 19 and 43. -/
def containNow (s : State) (i a code : Nat) : State :=
  match (s.core i).firing with
  | none => s
  | some f => (logPoison s (some i) a code f.owner f.pc 0).abort i 0x14 (W (bankOf s a)) f.pc

/-- The result of a walk for `page` reaches a requester: its TLB takes a translation; a fault is for the access that waits, if one
still does; a poisoned entry aborts its firing (R419, R420). DEDUCED, log 43. -/
def giveWalk (page : Nat) (e : WalkEnd) (s : State) (i : Nat) : State :=
  match e with
  | .found t => s.onCache i fun c => { c with tlb := tlbFill c.tlb t }
  | .unmapped =>
    s.onCache i fun c =>
      if c.walkWait = some (page / 65536) then { c with walkWait := none, walkFault := some (page / 65536) } else c
  | .poisoned code a => containNow s i a code

/-- Walk `n` of die `d` has ended: every joined requester receives the result (R209). DEDUCED, log 43. -/
def giveAll (s : State) (d n : Nat) (w : Walk) (e : WalkEnd) : State := w.cores.foldl (giveWalk w.page e) (endWalk s d n)

/-- Walk `n` of die `d` reads the rest of its entries. DESIGN CHOICE, log 15. -/
def finishWalk (s : State) (d n : Nat) : State × WalkEnd :=
  match (s.walker d).active[n]? with
  | none => (s, .unmapped)
  | some w =>
    let (s, e) := walkFrom s d w.table w.page w.path (w.lvl + 1)
    (giveAll s d n w e, e)

/-- The walks that stand before a new one end, until it finds room among the 256 (R209). DESIGN CHOICE, log 15. -/
def makeRoom (s : State) (d : Nat) : Nat → State
  | 0 => s
  | n + 1 => if (s.walker d).active.length < 256 then s else makeRoom (finishWalk s d 0).1 d n

/-- A walk whose requester is served within its own step: a sluice, a lode engine, a remote request, a hint, a vector element. It
goes through the same entries, translation cache and counters as a core's walk, joins the walk of the page that is in progress, and
stands behind the walks that wait (R209): those read on before it. DESIGN CHOICE, log 15. -/
def walkNow (s : State) (d va : Nat) : State × WalkEnd :=
  let page := va / 65536 * 65536
  let s := makeRoom s d ((s.walker d).queue.length + (s.walker d).active.length)
  match (s.walker d).active.findIdx? (·.page == page) with
  | some n => finishWalk s d n
  | none => walkFrom s d (s.walker d).ptbase va [] 4

/-- The translation that such a walk returns. DESIGN CHOICE, log 15. -/
def translateNow (s : State) (die va : Nat) : State × Option Trans :=
  match walkNow s die va with
  | (s, .found t) => (s, some t)
  | (s, _) => (s, none)

/-- The reads of a page's entries at their homes, levels below `n` from table `t`, are accesses there (R202, R213); `none` at an
entry that is poisoned, with the state in which its error is logged (R420). DEDUCED, log 44. -/
def touchEntries (s : State) (t va : Nat) : Nat → State × Bool
  | 0 => (s, true)
  | n + 1 =>
    let a := pteAddr t n va
    match poisonSpot s a 8 with
    | some (b, code) => (logPoison s none b code 0 0 0, false)
    | none =>
      let s := openZp (touchMere s a 0) a
      match pteOf s (readWord s.mem a) n va with
      | .next t' => touchEntries s t' va n
      | _ => (s, true)

/-- The leaf of a page as memory holds it, with its address: what a switch tests (R215). -/
def leafNow (s : State) (t va : Nat) : Nat → Option (Trans × Nat)
  | 0 => none
  | n + 1 =>
    let a := pteAddr t n va
    match pteOf s (if s.homes.zp.contains (a / 64) then 0 else readWord s.mem a) n va with
    | .next t' => leafNow s t' va n
    | .leaf tr _ => some (tr, a)
    | _ => none

/-- A core asks its die's walker for a page, joining a walk in progress (R209). DESIGN CHOICE, log 15. -/
def requestWalk (s : State) (i va : Nat) : State :=
  let page := va / 65536 * 65536
  let d := dieOf i
  let join := fun (w : Walk) => if w.page = page then { w with cores := w.cores ++ [i] } else w
  let s := s.onCache i fun c => { c with walkWait := some (va / 65536) }
  s.onWalker d fun k =>
    if (k.active ++ k.queue).any (fun w => w.page == page && w.cores.contains i) then k
    else if (k.active ++ k.queue).any (·.page == page) then
      { k with active := k.active.map join, queue := k.queue.map join }
    else
      startWalk k { page, lvl := 3, table := k.ptbase, cores := [i] }

/-! ## The address check of a core's access (R82) -/

/-- What an address check answers: a place, with the state after PLB and TLB use; a wait for a walk; a trap. -/
inductive Acc where
  | ok (s : State) (l : Loc) (p : Place)
  | wait (s : State)
  | bad (s : State) (cause : Nat)
  deriving Repr

def supState (c : CoreSt) : Bool := match c.firing with | some f => f.handler || f.sup | none => false
def ownerNow (c : CoreSt) : Nat := match c.firing with | some f => f.owner | none => 0

def pcNow (c : CoreSt) : Word := match c.firing with | some f => f.pc | none => 0

def setPlb (s : State) (i : Nat) (p : List PlbEnt) : State := s.onCache i fun k => { k with plb := p }

/-- Checks 2 to 5 of R82 for `n` bytes at `ea` by core `i`; `need` as in `RtEnt.gives`. The colour is checked ahead of
what the walk found, and a page is walked all the same: an access that fails its colour check claims a zero-pending
page (R213). Apertures and groups of
locations that an instruction does not allow are refused before, at check 2. DEDUCED, log 32. -/
def checkAt (s : State) (i : Nat) (ea : Word) (n need : Nat) : Acc :=
  let a := wf ea 0 56
  let col := wf ea 56 8
  let c := s.core i
  match decodeAddr i a with
  | none => .bad s 0x0E
  | some l =>
    if locRoom l < n || !locOn s l then .bad s 0x0E
    else
      match l with
      | .paged va =>
        let (plb, es) := plbLookup s c.cache.plb (ownerNow c) va need col true
        let s := setPlb s i plb
        let es' := es.filter (·.colour == col)
        let noWalk := s.onCache i fun k => { k with walkFault := none }
        (match tlbFind c.cache.tlb va with
         | some t =>
           let s := s.onCache i fun k => { k with tlb := tlbTouch k.tlb va }
           if colourFails es col then .bad s 0x0F
           else match check5 s (ownerNow c) es' l n need (some i) (supState c) t.key with
            | .pass => .ok s l (.global va (t.frame + (va - t.page)) t.key t.c t.mlock)
            | .fail x => .bad s x
         | none =>
           if c.cache.walkFault ≠ some (va / 65536) then .wait (requestWalk s i va)
           else if colourFails es col then .bad noWalk 0x0F
           else .bad noWalk 0x0E)
      | .aperture _ _ => .bad s 0x0E
      | _ =>
        if col ≠ 0 then .bad s 0x0F
        else
          let al := aliasOf l
          let (plb, es) := plbLookup s c.cache.plb (ownerNow c) al need 0 false
          let s := setPlb s i plb
          (match check5 s (ownerNow c) es l n need (some i) (supState c) 0 with
           | .pass => .ok s l (.array al)
           | .fail x => .bad s x)

/-- The whole address check: alignment first (R82). -/
def checkAccess (s : State) (i : Nat) (ea : Word) (n align need : Nat) : Acc :=
  if ea.toNat % align ≠ 0 then .bad s 0x05 else checkAt s i ea n need

/-- The checks of R82 over spans of bytes, each from its address. -/
def checkSpans (s : State) (i need : Nat) : List (Word × Nat) → Except Acc State
  | [] => .ok s
  | (ea, n) :: xs =>
    match checkAt s i ea n need with
    | .ok s _ _ => checkSpans s i need xs
    | x => .error x

/-- `n` bytes of own TCM at `ea`, whose offset is `off`, cut where the rights of entries may change (R389). -/
def halfSpans (ea : Word) (off n : Nat) : List (Word × Nat) :=
  let room := 65536 - off % 65536
  if n ≤ room then [(ea, n)] else [(ea, room), (ea + W room, n - room)]

/-- The 16 rows of an accumulator access (R186, R187). -/
def rowSpans (ea : Word) (stride n : Nat) : List (Word × Nat) := (List.range 16).map fun r => (ea + W (r * stride), n)

/-- The checks of R82 over a run of bytes, 64 at a time from an aligned address. -/
def checkRun (s : State) (i : Nat) (ea : Word) (need : Nat) : Nat → Except Acc State
  | 0 => .ok s
  | k + 1 =>
    match checkAt s i ea 64 need with
    | .ok s _ _ => checkRun s i (ea + 64) need k
    | x => .error x

/-! ## The L1 (R203) -/

/-- The line address of a global place: bits [55:6], the colour excluded. -/
def lineOf (va : Nat) : Nat := va / 64

/-- The lease of a line has time left; a stopped core's leases do not count down (R296). -/
def leased (s : State) (i expire : Nat) : Bool := decide ((s.core i).stopped.getD s.now < expire)

/-- DEDUCED, log 73. -/
def l1Find (s : State) (i line : Nat) : Option L1Line :=
  (s.core i).cache.l1.find? fun l => l.line == line && leased s i l.expire

/-- DEDUCED, log 73. -/
def l1Touch (s : State) (i line : Nat) : State :=
  s.onCache i fun c =>
    let (h, r) := c.l1.partition (·.line == line)
    { c with l1 := h ++ r }

/-- A fill: at most four lines of a set, the least recently used leaving; a line whose lease is over counts no more.
DEDUCED, log 73. -/
def l1Fill (s : State) (i line : Nat) (data : List Byte) (poison : List (Nat × Nat)) : State :=
  s.onCache i fun c =>
    let r := c.l1.filter fun l => l.line != line && leased s i l.expire
    let same := r.filter fun l => l.line % 128 == line % 128
    let r := match same[3]? with | some v => r.filter (·.line != v.line) | none => r
    { c with l1 := { line, data, expire := s.now + 16384, poison } :: r }

/-- The first poisoned word of an L1 line that a read of [a, a + n) meets (R417, R420): its distance from `a`, and its code.
DEDUCED, log 16. -/
def l1Poison (l : L1Line) (a n : Nat) : Option (Nat × Nat) :=
  (l.poison.find? fun w => rangesMeet (64 * l.line + 8 * w.1) 8 a n).map fun w => (64 * l.line + 8 * w.1 - a, w.2)

/-- Lines of the pending misses of an operation. -/
def missLines (o : Out) : List Nat :=
  match o.op with
  | .load (.global va _ _ _ _) _ _ _ => [lineOf va]
  | .watermark _ _ (.global va _ _ _ _) _ _ _ => [lineOf va]
  | .vload x => x.elems.filterMap fun e => match e.2.2.1, e.2.2.2 with
      | .global va _ _ _ _, none => some (lineOf va)
      | _, _ => none
  | _ => []

/-- Pending misses and prefetches of lines that `hit` names are marked: their fill is not installed (R84). -/
def markPending (c : CoreSt) (hit : Nat → Bool) : CoreSt :=
  { c with
    iss := { c.iss with outs := c.iss.outs.map fun o => { o with inval := o.inval ++ (missLines o).filter hit } }
    cache := { c.cache with prefetches := c.cache.prefetches.map fun p => if hit p.line then { p with inval := true } else p } }

/-- L1 copies of the lines that `hit` names leave, pending misses with them (R84). -/
def l1Drop (s : State) (i : Nat) (hit : Nat → Bool) : State :=
  s.onCore i fun c =>
    markPending { c with cache := { c.cache with l1 := c.cache.l1.filter fun l => !hit l.line } } hit

def icDrop (s : State) (i : Nat) (hit : Nat → Bool) : State :=
  s.onCache i fun c =>
    { c with ic := c.ic.filter (fun l => !hit l.line)
             codeLine := c.codeLine.filter fun l => !hit l.line
             ifetch := c.ifetch.map fun f => if hit f.line then { f with inval := true } else f }

/-- Bytes of a line with a store's bytes laid over them. -/
def overlay (base : Nat) (data : List Byte) (a : Nat) (bs : List Byte) : List Byte :=
  data.mapIdx fun k b => if a ≤ base + k then bs.getD (base + k - a) b else b

/-- A global store updates the L1 copies of its lines, if present (R85). DEDUCED, log 73. -/
def l1Store (s : State) (i va : Nat) (bs : List Byte) : State :=
  s.onCache i fun c =>
    { c with l1 := c.l1.map fun l =>
        if rangesMeet (64 * l.line) 64 va bs.length then
          { l with
            data := overlay (64 * l.line) l.data va bs
            poison := l.poison.filter fun w =>
              !(decide (va ≤ 64 * l.line + 8 * w.1) && decide (64 * l.line + 8 * w.1 + 8 ≤ va + bs.length)) }
        else l }

/-! ## The write buffer (R204) -/

/-- Bytes that a buffered entry covers: address and length. -/
def entSpan (e : StoreEnt) : Nat × Nat :=
  match e.op with
  | .bytes d => (e.place.addr, d.length)
  | .atomic r => (e.place.addr, r.bytes)
  | .rel .. => (e.place.addr, 144)
  | .sigclr => (e.place.addr + 8, 136)

/-- Unperformed stores of the core, program order: the write buffer and the stores held in the ring. DEDUCED, log 17. -/
def unperformed (c : CoreSt) : List StoreEnt :=
  (c.traps.sring.filterMap fun r => if r.st = 3 then none else r.ent) ++ c.cache.wb

/-- Lines that an entry writes, at its place: first line and count. -/
def entLines (e : StoreEnt) : Nat × Nat :=
  ((entSpan e).1 / 64, ((entSpan e).1 + (entSpan e).2 - 1) / 64 - (entSpan e).1 / 64 + 1)

/-- Two entries write bytes of one line. -/
def sameLine (x e : StoreEnt) : Bool := rangesMeet (entLines x).1 (entLines x).2 (entLines e).1 (entLines e).2

/-- The youngest buffered byte for an address. -/
def bufByte (es : List StoreEnt) (a : Nat) : Option Byte :=
  es.foldl (fun b e =>
    match e.op with
    | .bytes d => if e.place.addr ≤ a && a < e.place.addr + d.length then d[a - e.place.addr]? else b
    | .rel v _ => if e.place.addr ≤ a && a < e.place.addr + 8 then (leBytes 8 v.toNat)[a - e.place.addr]? else b
    | _ => b) none

/-- A read that must wait: an earlier unperformed entry of the core covers bytes of it that the buffer does
not hold (an atomic, a record operation). -/
def bufBlocks (es : List StoreEnt) (a n id : Nat) : Bool :=
  es.any fun e =>
    decide (e.id < id) &&
      (match e.op with | .bytes _ => false | _ => true) &&
      decide (a < (entSpan e).1 + (entSpan e).2) && decide ((entSpan e).1 < a + n)

/-- Bytes with the core's buffered stores of earlier operations laid over them. DEDUCED, log 17. -/
def withBuffer (c : CoreSt) (id a : Nat) (bs : List Byte) : List Byte :=
  let es := (unperformed c).filter fun e => decide (e.id < id)
  bs.mapIdx fun k b => (bufByte es (a + k)).getD b

/-! ## Range locks (R267, R268) -/

/-- A lock of a copy that a write to [a, a + n) meets. Locks name pointers of the address space. -/
def lockedW (s : State) (a n : Nat) : Bool :=
  s.eng.locks.any fun l => decide (a < l.base + l.len) && decide (l.base < a + n)

/-- A lock that a write by operation `id` of core `i` meets. A command's own locks do not stop earlier stores of its core:
the copy reads its sources after them (R227). -/
def lockedFor (s : State) (i id a n : Nat) : Bool :=
  s.eng.locks.any fun l =>
    !(l.core == i && decide (id < l.op)) && decide (a < l.base + l.len) && decide (l.base < a + n)

/-- The address under which locks name a byte: the pointer's address, a near window replaced by its alias. -/
def lockAddr (l : Loc) (ea : Word) : Nat :=
  match l with
  | .paged va => va
  | .aperture .. => wf ea 0 56
  | _ => aliasOf l

/-! ## Signatures (R225) -/

def sigPos (line : Nat) : Nat × Nat × Nat :=
  let c := fun j => fld line (10 * j) 10
  let rot := fun (v n : Nat) => (v * 2 ^ n ||| v / 2 ^ (10 - n)) % 1024
  let rev := revN 10
  (c 0 ^^^ c 1 ^^^ c 2 ^^^ c 3 ^^^ c 4,
    c 0 ^^^ rot (c 1) 3 ^^^ rot (c 2) 6 ^^^ rot (c 3) 9 ^^^ rot (c 4) 2,
    rev (c 0) ^^^ c 1 ^^^ rot (c 2) 5 ^^^ rev (c 3) ^^^ rot (c 4) 7)

def sigAdd (s : Sig) (line : Nat) : Sig :=
  let (a, b, c) := sigPos line
  s ||| BitVec.twoPow 1024 a ||| BitVec.twoPow 1024 b ||| BitVec.twoPow 1024 c

def sigHit (s : Sig) (line : Nat) : Bool :=
  let (a, b, c) := sigPos line
  s.getLsbD a && s.getLsbD b && s.getLsbD c

def sigPop (s : Sig) : Nat := popN 1024 s.toNat

/-- WSIG takes the line of a global write at issue (R226). -/
def addWsig (s : State) (i va : Nat) : State := s.onRegs i fun r => { r with wsig := sigAdd r.wsig (lineOf va) }

/-- An acquired signature drops the copies it hits, or the whole L1 (R230, R233). -/
def sigDrop (s : State) (i : Nat) (sg : Sig) (full : Bool) : State :=
  l1Drop s i fun l => full || sigHit sg l

end Sys2Proof.Machine
end

