-- ==== Sys2Proof/Machine/Issue.lean ====
section
/-! DEFINITION. Issue: what every instruction waits for (R39 to R42, R242, R254), the delivery of late faults
(R360), the guard (R46), how a result leaves the pipeline (R45, R50), and the fetch of a word (R31 to R35, R303). -/

namespace Sys2Proof.Machine

/-- What kind of access an instruction makes, as far as a wait depends on it: none; the letters l, s, a, e of
R253. -/
inductive WaitCls where
  | none | l | s | a | e
  deriving DecidableEq, Repr

def laterHas (later : BitVec 4) : WaitCls → Bool
  | .none => false
  | .l => later.getLsbD 0
  | .s => later.getLsbD 1
  | .a => later.getLsbD 2
  | .e => later.getLsbD 3

/-- How an instruction that has issued leaves its result. -/
inductive Res where
  /-- No register result: its tag completes (R41). -/
  | plain
  /-- A fixed-latency result (R50). -/
  | fixed (lat : Nat) (ws : List RegWrite) (fl : Flags)
  /-- A variable-latency result that this step writes. -/
  | written (ws : List RegWrite)
  /-- A taken control transfer, with a result of latency 1 (R60, R63). -/
  | jump (pc : Word) (ws : List RegWrite)
  /-- An operation that goes on: its class, whether it writes a register, whether it acquires (R242). -/
  | out (op : OutOp) (cls : OrdClass) (wr acq : Bool)
  /-- A command accepted: its status is written now, and it goes on (R261). -/
  | begun (ws : List RegWrite) (op : OutOp) (cls : OrdClass)
  /-- The instruction has moved the firing itself. -/
  | moved
  deriving DecidableEq, Repr

/-- What the body of an instruction answers. -/
inductive Eff where
  | done (s : State) (r : Res)
  | wait (s : State)
  | trap (s : State) (cause : Nat) (val : Word)
  deriving Repr

/-- The instruction does not issue in this cycle. DESIGN CHOICE, log 2. -/
def stall (s : State) (i : Nat) : State := s.onIss i fun k => { k with next := max k.next (s.now + 1) }

/-- The tag and producer waits of R39 to R42, and whatever stops the core. -/
def mustWait (s : State) (c : CoreSt) (h : Hdr) : Bool :=
  decide (s.now < c.iss.next) || c.stopped.isSome || c.traps.pending.isSome || c.traps.abort.isSome ||
    (h.pd.val != 0 && decide (s.now < c.iss.hist.getD (h.pd.val - 1) 0)) ||
    decide (tagOf c h.tw0 = .outstanding) || decide (tagOf c h.tw1 = .outstanding) ||
    decide (tagOf c h.ta = .outstanding) || c.iss.outs.any (·.holds)

/-- A fault on a tag that the instruction names. -/
def tagFault (c : CoreSt) (t : Fin 16) : List (Fin 16 × LateFault) :=
  match tagOf c t with | .faulted f => if t = 0 then [] else [(t, f)] | _ => []

/-- The late fault to deliver before the instruction: the earliest arrival (R360). A `tret` that has decided the kept stores is
past that point: what arrives meanwhile is delivered where the firing goes on (R370). -/
def lateFault (c : CoreSt) (ts : List (Fin 16)) : Option (Fin 16 × LateFault) :=
  if c.traps.decided then none else
  let all := (c.traps.ready.take 1).map ((0 : Fin 16), ·) ++ ts.flatMap (tagFault c)
  all.foldl (fun b x => match b with | none => some x | some y => if x.2.at_ < y.2.at_ then some x else b) none

def guardTrue (c : CoreSt) (h : Hdr) : Bool := (pread c h.pg) != h.neg

/-- Unit waits on earlier acquires (R242) and fences (R254), and on element stores that have not entered the write
buffer (R164). -/
def orderWait (c : CoreSt) (k : WaitCls) : Bool :=
  c.iss.outs.any fun o =>
    ((o.acquires || (match o.op with | .vstore todo _ _ => !todo.isEmpty | _ => false)) && decide (k ≠ .none)) || (match o.op with | .fence later _ _ => laterHas later k | _ => false)

/-- An instruction whose class of access depends on its operands waits as that class does (R80, R242, R254, R312). -/
def holdAs (k : CoreSt → WaitCls) (body : Nat → State → Eff) (i : Nat) (s : State) : Eff :=
  if orderWait (s.core i) (k (s.core i)) then .wait s else body i s

/-- The instruction takes its place in dynamic order (R39, R40). DEDUCED, log 21. -/
def retire (s : State) (i : Nat) (lat gap : Nat) (pc : Word) : State :=
  (s.onIss i fun k =>
      { k with hist := (s.now + lat) :: k.hist.take 14, next := s.now + gap, opCount := k.opCount + 1 }).onFiring i
    fun f => { f with pc := pc }

/-- A new entry of the coprocessor dispatch ring: the 64 most recent (R373). -/
def ringPush (c : CoreSt) (e : CRingEnt) : CoreSt :=
  { c with traps := { c.traps with cring := (e :: c.traps.cring).take 64 } }

/-- Retiring with a result. `cop` says that the instruction enters the coprocessor dispatch ring. DEDUCED, log 21. -/
def settle (s : State) (i : Nat) (f : Firing) (h : Hdr) (cop : Bool) (r : Res) : State :=
  let id := (s.core i).iss.opCount
  let pc1 := pcPlus f.pc 1
  let ring := fun (s : State) (done : Option Nat) =>
    if cop then s.onCore i fun c => ringPush c
      { n := id, pc := f.pc, st := if done.isSome then 1 else 0, tag := h.ta, cause := 0, val := 0, issue := s.now
        done }
    else s
  match r with
  | .moved => s
  | .plain => retire (ring (s.onCore i fun c => setTag c h.ta .done) (some s.now)) i 1 1 pc1
  | .written ws =>
    retire (ring ((s.writeRegs i ws 0).onCore i fun c => setTag c h.ta .done) (some s.now)) i 1 1 pc1
  | .fixed lat ws fl =>
    let s := s.onCore i fun c => setTag c h.ta .outstanding
    let s := s.onIss i fun k =>
      { k with pend := k.pend ++ [{ due := s.now + lat, order := id, writes := ws, flags := fl, tag := h.ta }] }
    retire (ring s (some (s.now + lat))) i lat 1 pc1
  | .jump pc ws =>
    let s := s.onCore i fun c => setTag c h.ta .outstanding
    let s := s.onIss i fun k =>
      { k with pend := k.pend ++ [{ due := s.now + 1, order := id, writes := ws, flags := 0, tag := h.ta }] }
    retire s i 1 2 pc
  | .out op cls wr acq =>
    let s := s.onCore i fun c => setTag c h.ta .outstanding
    let o : Out :=
      { id, tag := h.ta, pc := f.pc, cyc := s.now, holds := wr && h.ta == 0, acquires := acq, cls, owner := f.owner
        firing := f.num, inval := [], ring := if cop then some id else none, op, who := whoOf f }
    let s := s.onIss i fun k => { k with outs := k.outs ++ [o] }
    (retire (ring s none) i 1 1 pc1).onCore i settleFences
  | .begun ws op cls =>
    let s := (s.writeRegs i ws 0).onCore i fun c => setTag c h.ta .outstanding
    let o : Out :=
      { id, tag := h.ta, pc := f.pc, cyc := s.now, holds := false, acquires := false, cls, owner := f.owner
        firing := f.num, inval := [], ring := none, op, who := whoOf f }
    retire (s.onIss i fun k => { k with outs := k.outs ++ [o] }) i 1 1 pc1

/-- BUDGET reads zero (R320). -/
def budgetOut (s : State) (f : Firing) : Bool := decide (f.budgetEnd ≤ s.now)

/-- Budget expiry (R321, R364, R367): a BUDGET fault with no tag, delivered before the next instruction; a second
expiry, or one in a handler, aborts. DEDUCED, log 24. -/
def expireBudget (s : State) (i : Nat) : State :=
  match (s.core i).firing with
  | none => s
  | some f =>
    if f.handler then s.abort i 0x16 (nestVal 0x13 0) f.pc
    else if f.expired then s.abort i 0x13 (W f.budget) f.pc
    else
      deliver (s.onFiring i fun g => { g with expired := true }) i
        { cause := 0x13, val := W f.budget, pc := f.pc, faultPc := f.pc, late := true, tag := 0, src := 0, seq := 0
          held := false }

/-- The budget is out: a late fault that arrived before it goes first, in the order of arrival (R360, R367). DEDUCED, log 24. -/
def budgetOrder (s : State) (i : Nat) (f : Firing) (lf : Option (Fin 16 × LateFault)) : State :=
  match lf with
  | some (t, x) => if x.at_ < f.budgetEnd then deliverLate s i t x else expireBudget s i
  | none => expireBudget s i

/-- One attempt to issue an instruction on the core `cur`. -/
def issueState (cop : Bool) (k : WaitCls) (h : Hdr) (body : Nat → State → Eff) (s : State) : State :=
  let i := s.cur
  let s := flushDue s i
  let c := s.core i
  match c.firing with
  | none => s
  | some f =>
    if budgetOut s f && c.stopped.isNone && c.traps.abort.isNone && c.traps.pending.isNone then
      budgetOrder s i f (lateFault c (if mustWait s c h then [] else [h.tw0, h.tw1, h.ta]))
    else if mustWait s c h then stall s i
    else match lateFault c [h.tw0, h.tw1, h.ta] with
      | some (t, lf) => deliverLate s i t lf
      | none =>
        if !guardTrue c h then settle s i f h false .plain
        else if orderWait c k then stall s i
        else match body i s with
          | .done s r => settle s i f h cop r
          | .wait s => stall s i
          | .trap s cause val => trap s i cause val

/-- Issue of a scalar instruction. -/
def issue (k : WaitCls) (h : Hdr) (body : Nat → State → Eff) (s : State) : Host.Outcome State Fault Refusal :=
  .next (issueState false k h body s)

/-- Issue of an instruction of groups 6 to 8, which enters the coprocessor dispatch ring. -/
def issueCop (k : WaitCls) (h : Hdr) (body : Nat → State → Eff) (s : State) : Host.Outcome State Fault Refusal :=
  .next (issueState true k h body s)

/-- A register-only instruction: a fixed latency and the writes it computes from the core at issue. -/
def issueReg (h : Hdr) (lat : Nat) (f : CoreSt → List RegWrite) (s : State) : Host.Outcome State Fault Refusal :=
  issue .none h (fun i s => .done s (.fixed lat (f (s.core i)) 0)) s

def inHandler (c : CoreSt) : Bool := (c.firing.map (·.handler)).getD false

/-- Instructions that R364 forbids in a handler, by OPC. -/
def forbid (opc : Nat) (body : Nat → State → Eff) (i : Nat) (s : State) : Eff :=
  if inHandler (s.core i) then .trap s 0x16 (nestVal 0 opc) else body i s

/-- A vector instruction needs a claim (R144). -/
def needClaim (body : Nat → State → Eff) (i : Nat) (s : State) : Eff :=
  if (s.core i).regs.vgrant = 0 then .trap s 0x07 0 else body i s

/-- An instruction that needs supervisor state traps SYSREG with its OPC elsewhere (R368, R395, R429). -/
def needSup (opc : Nat) (body : Nat → State → Eff) (i : Nat) (s : State) : Eff :=
  if supState (s.core i) then body i s else .trap s 0x04 (W opc)

/-! ## Fetch -/

inductive Fetched where
  | word (s : State) (w : Nat)
  | wait (s : State)
  | trap (s : State) (cause : Nat)
  deriving Repr

/-- DESIGN CHOICE, log 14. -/
def icFind (s : State) (i line : Nat) : Option ICLine :=
  (s.core i).cache.ic.find? fun l => l.line == line && leased s i l.expire

/-- A fetched line of an uncacheable page, for the fetch that asked for it: it serves that one (R201). DESIGN CHOICE, log 14. -/
def takeCodeLine (s : State) (i line : Nat) : Option (State × ICLine) :=
  match (s.core i).cache.codeLine with
  | some l => if l.line = line then some (s.onCache i fun k => { k with codeLine := none }, l) else none
  | none => none

/-- Use of an instruction cache line. DESIGN CHOICE, log 14. -/
def icUse (s : State) (i : Nat) (l : ICLine) : State :=
  s.onCache i fun k => { k with ic := l :: k.ic.filter (·.line != l.line) }

/-- The word at the program counter (R32), after the tests of R303, R391 and R413. A line that the instruction
cache lacks is fetched first. DESIGN CHOICE, log 14. -/
def fetch (s : State) (i : Nat) : Fetched :=
  match (s.core i).firing with
  | none => .wait s
  | some f =>
    if !inCodeb f.codeb f.pc then .trap s 0x17
    else if 0xF0 * 2 ^ 48 ≤ 64 * lineIdx f.pc then .trap s 0x0E
    else
      match checkAt s i (W (wf f.pc 56 8 * 2 ^ 56 + 64 * lineIdx f.pc)) 64 2 with
      | .bad s cause => .trap s cause
      | .wait s => .wait s
      | .ok s _ p =>
        match icFind s i (lineIdx f.pc), takeCodeLine s i (lineIdx f.pc) with
        | some l, _ => .word (icUse s i l) (ofLe ((l.data.drop (10 * wf f.pc 0 3)).take 10))
        | none, some (s, l) => .word s (ofLe ((l.data.drop (10 * wf f.pc 0 3)).take 10))
        | none, none =>
          if (s.core i).cache.ifetch.isSome then .wait s
          else .wait (s.onCache i fun k =>
            { k with ifetch := some { line := lineIdx f.pc, place := p, tries := 0, inval := false } })

/-- `end` waits for every tag of the firing (R43) and for its vector and matrix instructions (R146, R185). -/
def endWaits (c : CoreSt) : Bool := !tagsDone c || c.iss.outs.any fun o => o.ring.isSome

/-- Every tag, for the faults that `end` delivers (R360). -/
def allTags : List (Fin 16) := (List.range 16).map (Fin.ofNat 16)

/-- The tags whose faults the instruction at the program counter meets before it issues now (R360): none where it has still to wait
or cannot be fetched; every tag where an `end` is about to complete. -/
def tagsAtPc (s : State) (i : Nat) : List (Fin 16) :=
  match fetch s i with
  | .word s w =>
    let c := s.core i
    let h := hdr w
    (match decode w with
     | .error _ => []
     | .ok x =>
       if mustWait s c h then []
       else match x with
         | .fin _ => if guardTrue c h && !endWaits c then allTags else [h.tw0, h.tw1, h.ta]
         | _ => [h.tw0, h.tw1, h.ta])
  | _ => []

/-- What happens instead of a fetch: the core cannot issue in this cycle, its budget is out, or an untagged late
fault is delivered first (R360, R367). DEDUCED, log 24. -/
def preIssue (s : State) (i : Nat) : Option State :=
  let s := flushDue s i
  let c := s.core i
  match c.firing with
  | none => some s
  | some f =>
    if decide (s.now < c.iss.next) || c.stopped.isSome || c.traps.pending.isSome || c.traps.abort.isSome then
      some (stall s i)
    else if budgetOut s f then some (budgetOrder s i f (lateFault c (tagsAtPc s i)))
    else if c.iss.outs.any (·.holds) then some (stall s i)
    else if (lateFault c []).isNone then none
    else (lateFault c (tagsAtPc s i)).map fun x => deliverLate s i x.1 x.2

/-- ILLOP on the instruction at the program counter (R54, R55). -/
def illop (s : State) (i : Nat) (e : Ill) : State := trap s i 0x01 e.trapval

/-- A fault found at fetch: TRAPVAL is the program counter (R358). -/
def fetchTrap (s : State) (i cause : Nat) : State :=
  match (s.core i).firing with
  | none => s
  | some f => trap s i cause f.pc

end Sys2Proof.Machine
end

