-- ==== Sys2Proof/Machine/Operands.lean ====
section
/-! DEFINITION. Operand forms: integer types and saturation (R68, R69), effective addresses (R47), scopes (R220),
shape records (R97, R166), record reads (R337), designators (R338). -/

namespace Sys2Proof.Machine

/-! ## Integer types (R68, R69) -/

def IntTy.width : IntTy → Nat
  | .n64 | .s64 => 64
  | .n32 | .s32 => 32
  | .n16 | .s16 => 16
  | .n8 | .s8 => 8

/-- opnd(x) of R69. -/
def opnd (ty : IntTy) (x : Word) : Int :=
  let v := fld x.toNat 0 (IntTy.width ty)
  if ty.signed then toIntN v (IntTy.width ty) else v

def tyLo (ty : IntTy) : Int := if ty.signed then -(2 ^ (IntTy.width ty - 1) : Int) else 0
def tyHi (ty : IntTy) : Int :=
  if ty.signed then (2 ^ (IntTy.width ty - 1) : Int) - 1 else (2 ^ IntTy.width ty : Int) - 1

/-- fit(v) of R69. -/
def fit (ty : IntTy) (sat : Bool) (v : Int) : Int :=
  if sat then min (max v (tyLo ty)) (tyHi ty) else v % (2 ^ IntTy.width ty : Int)

/-- The register value of an exact result (R69). -/
def resultOf (ty : IntTy) (sat : Bool) (v : Int) : Word :=
  let n := (fit ty sat v % (2 ^ IntTy.width ty : Int)).toNat
  if ty.signed then sextN n (IntTy.width ty) else W n

/-- Quotient and remainder of R72: truncation toward zero; division by zero gives w one bits and a. -/
def quotOf (ty : IntTy) (a b : Int) : Int := if b = 0 then (2 ^ IntTy.width ty : Int) - 1 else Int.tdiv a b
def remOf (a b : Int) : Int := if b = 0 then a else Int.tmod a b

/-- Immediates of format I, sign-extended (R77). -/
def simm (imm : BitVec 32) : Word := imm.signExtend 64

/-! ## Effective addresses (R47) -/

def effAddr (c : CoreSt) (x : MemOp) : Word := gread c x.a + (gread c x.b <<< x.s.val) + x.disp.signExtend 64
/-- A + sext(DISP21) of `lda` and `strl` (R244). -/
def baseDisp (c : CoreSt) (a : GReg) (disp : BitVec 21) : Word := gread c a + disp.signExtend 64

/-! ## Scopes (R220, R243) -/

structure Rect where
  x0 : Nat
  y0 : Nat
  x1 : Nat
  y1 : Nat
  deriving DecidableEq, Repr

def rectOf (v : Word) : Rect := { x0 := wf v 0 8, y0 := wf v 8 8, x1 := wf v 16 8, y1 := wf v 24 8 }

/-- A scope value that performs no trap. -/
def scopeOk (v : Word) : Bool :=
  let r := rectOf v
  wf v 34 30 == 0 &&
    (wf v 32 2 != 0 || (decide (r.x0 ≤ r.x1) && decide (r.y0 ≤ r.y1) && decide (r.x1 ≤ 191) && decide (r.y1 ≤ 134)))

/-- What a release of this scope waits for (R222). -/
def scopeKind (v : Word) : ScopeKind :=
  match wf v 32 2 with | 3 => .self | 2 => .domain | _ => .module

def Rect.has (r : Rect) (i : Nat) : Bool :=
  decide (r.x0 ≤ modX i) && decide (modX i ≤ r.x1) && decide (r.y0 ≤ modY i) && decide (modY i ≤ r.y1)
def Rect.size (r : Rect) : Nat := (r.x1 - r.x0 + 1) * (r.y1 - r.y0 + 1)
def Rect.cores (r : Rect) : List Nat :=
  (List.range (r.y1 - r.y0 + 1)).flatMap fun y => (List.range (r.x1 - r.x0 + 1)).map fun x => coreAt (r.x0 + x) (r.y0 + y)

/-- `trap(SCOPE, value)` for a malformed scope. DEDUCED, log 27. -/
def withScope (v : Word) (s : State) (k : Unit → Eff) : Eff := if scopeOk v then k () else .trap s 0x0C v

/-! ## Address checks in a body (R82) -/

/-- Continues at a place that has passed the checks of R82; a walk is waited for. -/
def withAccess (s : State) (i : Nat) (ea : Word) (n align need : Nat) (k : State → Loc → Place → Eff) : Eff :=
  match checkAccess s i ea n align need with
  | .ok s l p => k s l p
  | .wait s => .wait s
  | .bad s cause => .trap s cause ea

/-- Checks 2 and 3 alone (R177). -/
def check23 (i : Nat) (ea : Word) : Except Nat Loc :=
  match decodeAddr i (wf ea 0 56) with
  | none => .error 0x0E
  | some l => match l with
    | .paged _ => .ok l
    | .aperture .. => .ok l
    | _ => if wf ea 56 8 ≠ 0 then .error 0x0F else .ok l

/-- Check 5 of R82 over the bytes that an operand at `ea` names (R305, R385, R391). DEDUCED, log 30. -/
def withSpans (i : Nat) (s : State) (ea : Word) (need : Nat) (xs : List (Word × Nat)) (k : State → Eff) : Eff :=
  match checkSpans s i need xs with
  | .ok s => k s
  | .error (.bad s cause) => .trap s cause ea
  | .error (.wait s) => .wait s
  | .error (.ok s _ _) => .wait s

/-- The checks of R82 over `k` blocks of 64 bytes. -/
def withRun (s : State) (i : Nat) (ea : Word) (need blocks : Nat) (k : State → Eff) : Eff :=
  match checkRun s i ea need blocks with
  | .ok s => k s
  | .error (.wait s) => .wait s
  | .error (.bad s cause) => .trap s cause ea
  | .error (.ok s _ _) => .wait s

/-- The place of an address that has passed its checks, for a later read or write. -/
def placeAt (s : State) (i : Nat) (ea : Word) : Option Place :=
  match decodeAddr i (wf ea 0 56) with
  | some (.paged va) => (tlbFind (s.core i).cache.tlb va).map fun t => .global va (t.frame + (va - t.page)) t.key t.c t.mlock
  | some (.aperture ..) => none
  | some l => some (.array (aliasOf l))
  | none => none

/-- A 64-byte block as the core last wrote it (R227, R337). -/
def blockAt (s : State) (i : Nat) (ea : Word) : List Byte :=
  match placeAt s i ea with
  | some p => withBuffer (s.core i) ((s.core i).iss.opCount) p.addr (placeBytes s p 64)
  | none => List.replicate 64 0

/-! ## Designators (R338) -/

structure Desig where
  ch : Nat
  core : Nat
  mod : Nat
  deriving DecidableEq, Repr

/-- A designator of a channel; `none` when the layout is broken. -/
def desig (w : Word) : Option Desig :=
  let x := wf w 16 8
  let y := wf w 24 8
  if wf w 37 27 = 0 ∧ wf w 14 2 = 0 ∧ y ≤ 134 ∧ x ≤ 191 then
    some { ch := wf w 32 5, core := coreAt x y, mod := wf w 0 14 }
  else none

/-- A designator with MOD zero. -/
def desigLocal (w : Word) : Option Desig := (desig w).bind fun d => if d.mod = 0 then some d else none

/-- A status word (R336). -/
def statusWord (status detail value : Nat) : Word := W (status + detail * 2 ^ 8 + value * 2 ^ 16)

/-- The instruction writes a status word into D. -/
def status (s : State) (i : Nat) (d : GReg) (w : Word) : Eff := .done s (.written [gdest (s.core i) d w])

/-! ## Shapes (R97, R166) -/

/-- A walk's element count. -/
def Shape.count (h : Shape) : Nat := h.dims.foldl (fun n d => n * d.1) 1

/-- Byte offset of element `e`, dimension 0 innermost. -/
def shapeOffset : List (Nat × Int) → Nat → Int
  | [], _ => 0
  | (n, st) :: ds, e => (e % n : Nat) * st + shapeOffset ds (e / n)

def elemAddr (base : Word) (h : Shape) (e : Nat) : Word := base + BitVec.ofInt 64 (shapeOffset h.dims e)

end Sys2Proof.Machine
end

