-- ==== Sys2Proof/Machine/Queues.lean ====
section
/-! DEFINITION. Token arbitration (R323, R324): the queues of a die, their balances and the units that they have granted. QUEUE_SERVE
decides which class is served next; an event of the unit then performs what is granted. -/

namespace Sys2Proof.Machine

/-- A die has one queue of each kind: 0 its HBM controllers, 1 its sluices, 2 its injection ports, 3 its lode engines.
DEDUCED, log 52. -/
def arbKey (d k : Nat) : Nat := 4 * d + k
/-- DEDUCED, log 52. -/
def Arb.reset : Arb := { b := Vector.replicate 16 0, last := 15, credit := Vector.replicate 16 0 }
def arbOf (s : State) (d k : Nat) : Arb := (mget? s.arbs (arbKey d k)).getD .reset
def onArb (s : State) (d k : Nat) (f : Arb → Arb) : State := { s with arbs := mput s.arbs (arbKey d k) (f (arbOf s d k)) }
def Arb.creditOf (a : Arb) (c : Nat) : Nat := vget a.credit 0 c

/-- Quotas of a die's queue; at module reset class 0 alone has one (R323). -/
def quotasOf (s : State) (d k : Nat) : Vector Nat 16 :=
  (mget? s.quotas (arbKey d k)).getD (vset (Vector.replicate 16 0) 0 0xFFFFFFFF)

/-! ## Periods -/

/-- A class's balance after `n` period starts. -/
def refilled (b : Int) (quota n : Nat) : Int := if n = 0 then b else min (b + n * quota) quota

/-- Balances after `n` period starts. -/
def Arb.refill (a : Arb) (q : Vector Nat 16) (n : Nat) : Arb :=
  { a with b := Vector.ofFn fun c => refilled (vget a.b 0 c.val) (vget q 0 c.val) n }

/-- The period starts of a die up to this tick of TIMEUS (R324). DEDUCED, log 52. -/
def startPeriods (s : State) (d : Nat) : State :=
  let n := s.timeUs + 1 - (mget? s.periods d).getD 0
  if n = 0 || !dieOn s d then s
  else
    (List.range 4).foldl (fun s k => onArb s d k (·.refill (quotasOf s d k) n))
      { s with periods := mput s.periods d (s.timeUs + 1) }

/-- TOKEN_PERIOD_START. DEDUCED, log 52. -/
def execTokenPeriodStart (s : State) : Host.Outcome State Fault Refusal := .next (startPeriods s s.arg.unit)

/-! ## Serving a unit -/

/-- The next class round-robin that passes a test. DEDUCED, log 52. -/
def nextClass (last : Nat) (p : Nat → Bool) : Option Nat := ((List.range 16).map fun j => (last + 1 + j) % 16).find? p

/-- The class that lends a token: none queued, the greatest balance, the lowest number. -/
def lender (a : Arb) (queued : List Nat) : Option Nat :=
  (List.range 16).foldl (fun best c =>
    let b := vget a.b 0 c
    if queued.contains c || b < 1 then best
    else match best with
      | some d => if vget a.b 0 d < b then some c else best
      | none => some c) none

/-- DEDUCED, log 52. -/
def Arb.take (a : Arb) (c : Nat) : Arb := { a with b := vset a.b c (vget a.b 0 c - 1) }

/-- One unit of service (R324): the balances and the pointer after it, which names the class served; or none when the unit
waits. DEDUCED, log 52. -/
def serveUnit (a : Arb) (q : Vector Nat 16) (queued : List Nat) : Option Arb :=
  let quota : Nat → Int := fun c => Int.ofNat (vget q 0 c)
  match nextClass a.last fun c => queued.contains c && decide (1 ≤ vget a.b 0 c) with
  | some c => some { a.take c with last := c }
  | none =>
    let borrower := nextClass a.last fun c =>
      queued.contains c && decide (0 < quota c) && decide (-4 * quota c ≤ vget a.b 0 c - 1)
    match borrower, lender a queued with
    | some c, some d => some { (a.take d).take c with last := c }
    | _, _ =>
      if queued.all fun c => vget q 0 c == 0 then
        (nextClass a.last queued.contains).map fun c => { a with last := c }
      else none

/-- The units of a class among those that wait. -/
def unitsIn (waiting : List (Nat × Nat)) (c : Nat) : Nat := waiting.foldl (fun n w => if w.1 = c then n + w.2 else n) 0

/-- One unit is granted to a class that waits for more than it has been granted. DEDUCED, log 52. -/
def grantUnit (s : State) (d k : Nat) (waiting : List (Nat × Nat)) : State :=
  let s := startPeriods s d
  let a := arbOf s d k
  match serveUnit a (quotasOf s d k) ((List.range 16).filter fun c => decide (a.creditOf c < unitsIn waiting c)) with
  | some x => onArb s d k fun _ => { x with credit := vset x.credit x.last (x.creditOf x.last + 1) }
  | none => s

/-- A service of `n` units for owner `o` may happen now: they are granted. DEDUCED, log 52. -/
def granted (s : State) (d k o n : Nat) : Bool := decide (n ≤ (arbOf s d k).creditOf (s.classOf o))

/-- Granted units are used up. -/
def spendUnits (s : State) (d k o n : Nat) : State :=
  onArb s d k fun a => { a with credit := vset a.credit (s.classOf o) (a.creditOf (s.classOf o) - n) }

end Sys2Proof.Machine
end

