-- ==== Sys2Proof/Machine/Homes.lean ====
section
/-! DEFINITION. What meets an access at its location: range locks and watermarks (R267 to R269), poison (R420),
self-test (R432), migration (R214, R215), the write buffer (R85, R204, R241), the global-store ring (R365), and late
faults of stores. -/

namespace Sys2Proof.Machine

/-! ## Locks and watermarks -/

/-- The address under which a lock names the bytes of a place: the pointer's address or the alias. -/
def Place.lockKey : Place → Nat
  | .array a => a
  | .global va _ _ _ _ => va

def copyOf (s : State) (id : Nat) : Option Copy := s.eng.copies.find? (·.id == id)

/-- The watermark of a destination lock (R269): the first byte in walk order that is not written. -/
def lockMark (s : State) (l : Lock) : Nat :=
  match copyOf s l.copy with
  | none => l.base + l.len
  | some c =>
    match c.shape, c.shapeDst with
    | some h, true =>
      let e := c.done / h.esize
      let ea := elemAddr c.dst h e
      if h.count ≤ e then l.base + l.len
      else match decodeAddr c.core (wf ea 0 56) with
        | some x => lockAddr x ea
        | none => wf ea 0 56
    | _, _ => l.base + c.done

/-- The copy that a read of [a, a + n) waits for: it meets destination bytes at or above the watermark. -/
def blockedRead (s : State) (a n : Nat) : Option Nat :=
  (s.eng.locks.find? fun l =>
    l.dst && decide (a < l.base + l.len) && decide (l.base < a + n) && decide (lockMark s l < a + n)).map (·.copy)

/-! ## Waits at a location -/

/-- The tussock memory under test (R432): steps 3 to 5 of the test at the head of its die's queue. -/
def underTest (s : State) (a : Nat) : Bool :=
  match decodeAddr 0 a with
  | some (.tussock t _) =>
    (match mget? s.rcv.tests (t / 360) with
     | some k =>
       (match k.phase, k.queue with
        | .pattern _, (u, _) :: _ => u == t
        | .restore, (u, _) :: _ => u == t
        | _, _ => false)
     | none => false)
  | _ => false

/-- A store of core `i` writes bytes of the line of the address space. -/
def storeMeets (s : State) (i seq line : Nat) : Bool :=
  (unperformed (s.core i)).any fun e =>
    e.seq == seq && match e.place with
      | .global va pa _ _ _ => rangesMeet (va + ((entSpan e).1 - pa)) (entSpan e).2 (64 * line) 64
      | .array _ => false

/-- Stores to a line of a migrating page that its new home has still to perform (R215): those that the old homes hold, and those that
are on their way there. DEDUCED, log 44. -/
def forwards (s : State) (x : Shootdown) (line : Nat) : Bool :=
  s.homes.held.any (fun h => storeMeets s h.core h.seq line) ||
    x.waiting.any fun w => w.2.2.any fun q => storeMeets s w.1 q line

/-- A line of the new frame of a switch awaits forwarded stores (R215). DEDUCED, log 44. -/
def lineAwaits (s : State) (pa : Nat) : Bool :=
  s.homes.awaiting.any (fun r => decide (r.1 ≤ pa / 64) && decide (pa / 64 < r.1 + r.2)) &&
    s.walkers.any fun (_, k) =>
      match k.shoot with
      | some x =>
        x.kind == 2 && decide (x.frame ≤ pa) && decide (pa < x.frame + x.count) && forwards s x ((x.first + (pa - x.frame)) / 64)
      | none => false

/-- The location of a place serves no access now: a tussock memory under test, or a line that awaits forwarded
stores (R215). -/
def placeBusy (s : State) (p : Place) : Bool :=
  match p with
  | .array a => underTest s a
  | .global _ pa _ _ _ => lineAwaits s pa

/-! ## Queued self-tests (R431, R432) -/

def testOf (s : State) (d : Nat) : SelfTest := (mget? s.rcv.tests d).getD { stbuf := 0, queue := [], phase := .idle }
def putTest (s : State) (d : Nat) (t : SelfTest) : State := s.onRcv fun r => { r with tests := mput r.tests d t }

/-- STBUF names 1 MiB of installed HBM. DEDUCED, log 59. -/
def bufOk (s : State) (t : SelfTest) : Bool := t.stbuf != 0 && decide (t.stbuf + 2 ^ 20 ≤ s.hbmEnd)

/-- A die whose unit is idle begins the first test of its queue: step 1, once STBUF is set. A tussock fenced meanwhile leaves
the queue. DEDUCED, log 59. -/
def beginTest (s : State) (d : Nat) : State :=
  let t := testOf s d
  let q := t.queue.filter fun x => !s.rcv.fences.tussocks.contains x.1
  match t.phase, q with
  | .idle, (u, pre) :: _ =>
    if bufOk s t then
      let s := putTest s d { t with queue := q, phase := .quiesce }
      if pre then
        (tussockCores u).foldl (fun s i => if (s.core i).firing.isSome then s.onSched i fun x => { x with testReq := true } else s) s
      else s
    else s
  | .idle, [] => putTest s d { t with queue := q }
  | _, _ => s

/-- A test joins its die's queue. DEDUCED, log 59. -/
def queueTest (s : State) (u : Nat) (pre : Bool) : State :=
  let d := u / 360
  let t := testOf s d
  if t.queue.any (·.1 == u) then s else beginTest (putTest s d { t with queue := t.queue ++ [(u, pre)] }) d

/-- A residue or parity error makes its tussock suspect, and a self-test of it joins the queue (R419). -/
def suspectTussock (s : State) (u : Nat) : State :=
  queueTest (s.onRcv fun r => { r with fences := { r.fences with suspect := u :: r.fences.suspect.filter (· != u) } }) u false

/-! ## Poison (R420, R428) -/

/-- An instruction's read at issue meets poison: the instruction completes with the contained error (R83, R419).
DEDUCED, log 19. -/
def containEff (s : State) (i a code : Nat) : Eff :=
  .done (logPoison s (some i) a code (ownerNow (s.core i)) (pcNow (s.core i)) 0) (.out (.sfault 0x14 (W (bankOf s a))) .load true false)

/-- An outstanding operation's read meets poison. DEDUCED, log 19. -/
def containAt (s : State) (i id a code : Nat) : State :=
  match findOut (s.core i) id with
  | none => s
  | some o =>
    (logPoison s (some i) a code o.owner o.pc (W ((o.ring.map (ringIndex (s.core i))).getD 0))).containOut i id (bankOf s a)

/-! ## Unit waits on group 8 operands (R178) -/

/-- Bytes of 16 elements of one side of a pair: format 0 c8, 1 c4, 2 and 3 the 16-bit formats (R175). -/
def rowBytes (fmt : Nat) : Nat := match fmt with | 0 => 16 | 1 => 8 | _ => 32

/-- K of a pair (R175). -/
def pairK (snz : Bool) (pair : Nat) : Nat := if pair = 5 && !snz then 64 else 32

/-- Bytes of the A panel and of the B operand with its scales (R175, R182). -/
def aBytes (snz : Bool) (pair : Nat) : Nat := pairK snz pair * rowBytes (pair / 4)
def bBytes (snz : Bool) (pair : Nat) (rowmap : BitVec 32) : Nat :=
  if snz then 64 + popN 32 rowmap.toNat * rowBytes (pair % 4) + 32 else pairK snz pair * rowBytes (pair % 4) + 32

/-- OPC function of `snz` within group 8. -/
def snzFn : Nat := 0x16

/-- Spans of the core's TCM that an outstanding group 8 instruction has still to access: offset and length. -/
def pendingSpans (o : Out) : List (Nat × Nat) :=
  let rows := fun (addr stride len : Nat) => (List.range 16).map fun r => (addr + r * stride, len)
  match o.op with
  | .acc (.load _ a st) => rows a st 64
  | .acc (.store _ a st) => rows a st 64
  | .acc (.quant _ a st out _ _) =>
    rows a st (match out with | .c8 _ => 16 | .c4 _ => 8 | _ => 32)
  | .gang fn pair _ _ _ _ g _ _ =>
    if !g.panel.isEmpty then [] else [(g.aOff, aBytes (fn == snzFn) pair), (g.bOff, bBytes (fn == snzFn) pair g.rowmap)]
  | _ => []

/-- An access to own TCM [o, o + n) that must wait for a group 8 instruction. -/
def matrixOverlap (c : CoreSt) (o n : Nat) : Bool :=
  c.iss.outs.any fun x => (pendingSpans x).any fun (b, len) => decide (o < b + len) && decide (b < o + n)

def ownOverlap (c : CoreSt) (l : Loc) (n : Nat) : Bool :=
  match l with | .tcm _ o => matrixOverlap c o n | _ => false

/-! ## The global-store ring (R365, R373) -/

def sringSt (c : CoreSt) (seq : Nat) (st : Fin 4) : CoreSt :=
  { c with traps := { c.traps with sring := c.traps.sring.map fun e => if e.seq == seq then { e with st := st } else e } }

/-! ## The write buffer -/

/-- A write that cannot enter the buffer now: 63 entries stand in it, or a store fault awaits delivery and no handler runs
(R365). DEDUCED, log 23. -/
def bufferFull (c : CoreSt) : Bool := decide (63 ≤ c.cache.wb.length) || (c.traps.storeStop && !inHandler c)

/-- An element store of a vector instruction cannot enter now: the buffer is full, or a store fault of its firing waits for the
handler's decision (R365). -/
def elemsWait (c : CoreSt) : Bool := decide (63 ≤ c.cache.wb.length) || storesWait c

/-- The elements that streams have read ahead, from the first for whose `esize` bytes `hit` holds, are read again (R167).
DEDUCED, log 29. -/
def dropAheadAt (s : State) (i : Nat) (hit : Place → Nat → Bool) : State :=
  let onto := fun (base : Word) (h : Shape) (e : Nat) =>
    match placeAt s i (elemAddr base h e) with
    | some p => hit p h.esize
    | none => true
  s.onRegs i fun r =>
    { r with
      q := r.q.map fun q =>
        match q with
        | .stream false base h pos ahead =>
          .stream false base h pos (ahead.take ((List.range ahead.length).findIdx fun k => onto base h (pos + k)))
        | x => x }

/-- The core's own store to [a, a + n) takes back the elements read ahead from the first that it overlaps (R167).
DEDUCED, log 29. -/
def dropAhead (s : State) (i a n : Nat) : State :=
  dropAheadAt s i fun p es => decide (p.addr < a + n) && decide (a < p.addr + es)

/-- A write of operation `id` enters the write buffer and takes the next sequence number (R85, R241). -/
def pushStoreAs (s : State) (i id owner firing : Nat) (who pc ea : Word) (p : Place) (op : StoreOp)
    (release : Option ScopeKind) (sync : Bool) : State × Nat :=
  let seq := (s.core i).cache.seqHead
  let e : StoreEnt :=
    { seq, id, ea, place := p, op, release, sync, sent := false, held := false, owner, pc, firing, who
      handler := inHandler (s.core i) && decide ((s.core i).traps.entryOp ≤ id) }
  let s := dropAhead s i (entSpan e).1 (entSpan e).2
  (s.onCore i fun c =>
    sringPush { c with cache := { c.cache with wb := c.cache.wb ++ [e], seqHead := seq + 1 } } (ringEntry e), seq)

/-- A write of the instruction that is issuing. -/
def pushStore (s : State) (i : Nat) (ea : Word) (p : Place) (op : StoreOp) (release : Option ScopeKind) (sync : Bool) :
    State × Nat :=
  let c := s.core i
  match c.firing with
  | none => (s, 0)
  | some f => pushStoreAs s i c.iss.opCount f.owner f.num (whoOf f) f.pc ea p op release sync

/-- A store's own copy of its line takes the bytes (R85). -/
def updateCopy (s : State) (i : Nat) (p : Place) (bs : List Byte) : State :=
  match p with
  | .global va _ _ true _ => l1Store s i va bs
  | _ => s

/-- The line of a global write enters WSIG (R226). -/
def noteWrite (s : State) (i : Nat) (p : Place) : State :=
  match p with
  | .global va _ _ _ _ => addWsig s i va
  | .array _ => s

/-- Stores to one home arrive in program order (R85): the home of a place. -/
def homeOf (s : State) (p : Place) : Nat :=
  match p with
  | .global _ pa _ _ _ => 720 * homeDie s pa + homeMere pa
  | .array a =>
    match decodeAddr 0 a with
    | some (.tcm c _) => 100000 + c
    | some (.tussock t _) => 200000 + t
    | some (.staithe d _) => 300000 + d
    | _ => 400000

/-- Homes of the lines that an entry writes. -/
def homesOf (s : State) (e : StoreEnt) : List Nat :=
  (List.range (entLines e).2).map fun k => homeOf s (e.place.plus (64 * k))

/-- Synchronising operations before operation `id` that are not performed (R242). -/
def syncBefore (c : CoreSt) (id : Nat) : Bool :=
  (unperformed c).any (fun e => e.sync && decide (e.id < id)) ||
    c.iss.outs.any fun o =>
      decide (o.id < id) && (match o.op with | .lda .. => true | .acq .. => true | .bar .. => true | _ => false)

/-- The entry that may be sent next: the first unsent one, when no earlier store to its line is unperformed, in the buffer or kept in
the ring, and what it waits for as a release or synchronising access is over (R204, R222, R242). DEDUCED, log 17. -/
def sendable (c : CoreSt) : Option StoreEnt :=
  match c.cache.wb.find? (!·.sent) with
  | none => none
  | some e =>
    if (c.cache.wb ++ c.traps.sring.filterMap (·.ent)).any (fun x => decide (x.seq < e.seq) && sameLine x e) then none
    else if e.sync && syncBefore c e.id then none
    else match e.release with
      | none => some e
      | some k => if scopeWait c e.id k anyMem then none else some e

def findStore (c : CoreSt) (seq : Nat) : Option StoreEnt := c.cache.wb.find? fun e => e.seq == seq && e.sent && !e.held

/-- Bytes that an outstanding read of the core has still to read at their location: address and length. A gather at the homes
keeps its whole lines from later fills (R165). -/
def readSpans (o : Out) : List (Nat × Nat) :=
  match o.op with
  | .load p _ dst _ | .watermark _ none p _ dst _ => [(p.addr, if dst.pair then 16 else dst.bytes)]
  | .vload x => x.elems.filterMap fun (_, _, p, v) =>
      if x.gather then some (p.addr / 64 * 64, 64) else if v.isNone then some (p.addr, x.es) else none
  | .lda p dst => [(p.addr, dst.bytes)]
  | .acq p _ => [(p.addr, 144)]
  | .sigrd p _ _ => [(p.addr + 8, 136)]
  | _ => []

/-- A read of an operation before `id` that a write to [a, a + n) must not overtake (R217). -/
def readBefore (c : CoreSt) (id a n : Nat) : Bool :=
  c.iss.outs.any fun o =>
    decide (o.id < id) && (readSpans o).any fun (b, len) => decide (b < a + n) && decide (a < b + len)

/-- An earlier `sigrd` of the same home goes first (R235: AMR to a store at one home). -/
def sigrdBefore (s : State) (c : CoreSt) (e : StoreEnt) : Bool :=
  c.iss.outs.any fun o =>
    match o.op with
    | .sigrd p _ j => decide (o.id < e.id) && (homesOf s e).contains (homeOf s (p.plus (8 + 8 * j)))
    | _ => false

/-- Unperformed writes of the core to bytes of [a, a + n). DEDUCED, log 17. -/
def unperfOverlap (c : CoreSt) (a n : Nat) : Bool :=
  (unperformed c).any fun e => decide (a < (entSpan e).1 + (entSpan e).2) && decide ((entSpan e).1 < a + n)

/-- A sent entry whose turn at its home has come. -/
def atHome (s : State) (i seq : Nat) : Option StoreEnt :=
  let c := s.core i
  match findStore c seq with
  | none => none
  | some e =>
    if placeBusy s e.place || readBefore c e.id (entSpan e).1 (entSpan e).2 || sigrdBefore s c e ||
        c.cache.wb.any (fun x => decide (x.seq < seq) && x.sent && !x.held && (homesOf s x).any (homesOf s e).contains)
    then none else some e

def removeStore (c : CoreSt) (seq : Nat) : CoreSt :=
  { c with cache := { c.cache with wb := c.cache.wb.filter (·.seq != seq) } }

/-- The outstanding operation of a buffered write. -/
def outOfSeq (c : CoreSt) (seq : Nat) : Option Out :=
  c.iss.outs.find? fun o =>
    match o.op with | .stored q _ => q == seq | .vstore _ qs _ => qs.contains seq | _ => false

/-- A write has been performed: it leaves the buffer, and its operation completes, with an old value or not. -/
def performed (s : State) (i seq : Nat) (old : Option Word) : State :=
  let s := s.onCore i fun c => sringSt (removeStore c seq) seq 2
  match outOfSeq (s.core i) seq with
  | none => s.onCore i settleFences
  | some o =>
    match o.op, old with
    | .stored _ (some d), some v => s.completeWith i o.id [gdest (s.core i) d v] 0
    | .vstore todo qs x, _ =>
      if qs.length ≤ 1 && todo.isEmpty then s.complete i o.id
      else s.onCore i fun c => settleFences (setOut c { o with op := .vstore todo (qs.filter (· != seq)) x })
    | _, _ => s.complete i o.id

/-- A write that fails at its home becomes a late fault with its sequence number (R85, R365); it reaches the core
later. -/
def storeFault (s : State) (i : Nat) (e : StoreEnt) (cause : Nat) (val : Word) : State :=
  let tag := ((outOfSeq (s.core i) e.seq).map (·.tag)).getD 0
  let f : LateFault :=
    { cause, val, pc := e.pc, src := 2, seq := e.seq, owner := e.owner, firing := e.firing, tag, store := true
      at_ := s.now, who := e.who }
  s.onCore i fun c =>
    let c := removeStore c e.seq
    let c := if c.firing.map (·.num) = some e.firing then ringEnsure c e else c
    let c := match outOfSeq c e.seq with | some o => dropOut c o.id | none => c
    settleFences
      { c with
        traps :=
          { c.traps with
            inbound := c.traps.inbound ++ [f]
            sring := c.traps.sring.map fun r =>
              if r.seq == e.seq then { r with st := 3, cause := cause, ent := some e } else r } }

/-- A write meets a contained error at its home (R419): a late fault, whose delivery aborts the firing. -/
def storeContain (s : State) (i : Nat) (e : StoreEnt) (code : Nat) : State :=
  let a := poisonAddr s e.place.addr ((entSpan e).1 + (entSpan e).2 - e.place.addr)
  storeFault (logPoison s (some i) a code e.owner e.pc 0) i e 0x14 (W (bankOf s a))

/-- A store held at a migration-locked page (R214). -/
def holdAtHome (s : State) (i : Nat) (e : StoreEnt) : State :=
  let s := s.onHomes fun h =>
    { h with held := h.held ++ [{ core := i, seq := e.seq, va := e.place.lockKey }] }
  s.onCache i fun k => { k with wb := k.wb.map fun x => if x.seq == e.seq then { x with held := true } else x }

def migrationLocked : Place → Bool
  | .global _ _ _ _ m => m
  | .array _ => false

/-! ## Writes performed at homes -/

/-- The rights area holds world descriptor `w` at this address (R387). -/
def worldDesc (w : Nat) : Nat := rightsBase + 0xA0000 + 32 * w

/-- Live worlds whose measured range holds a byte of [a, a + n) (R406, R408). -/
def measuredWorlds (s : State) (a n : Nat) : List Nat :=
  (List.range 256).filter fun w =>
    w != 0 && wb (readWord s.mem (worldDesc w)) 63 &&
      decide (a < (readWord s.mem (worldDesc w + 8)).toNat + (readWord s.mem (worldDesc w + 16)).toNat) &&
      decide ((readWord s.mem (worldDesc w + 8)).toNat < a + n)

/-- Writes of measured ranges, which the generations count (R408). DEDUCED, log 32 and 50. -/
def noteMeasured (s : State) (p : Place) (n : Nat) : State :=
  match p with
  | .array _ => s
  | .global va _ _ _ _ =>
    { s with owners := { s.owners with measured := s.owners.measured ++ measuredWorlds s va n } }

/-- A write performed at its location. -/
def performWrite (s : State) (p : Place) (bs : List Byte) (owner : Nat) : State :=
  writePlace (noteMeasured s p bs.length) p bs (s.classOf owner)

/-- Bytes of one write over several lines, each line in its turn. -/
def placeLines (s : State) (p : Place) (cls : Nat) : Nat → List Byte → State
  | 0, _ => s
  | n + 1, bs =>
    if bs.isEmpty then s
    else
      let k := 64 - p.addr % 64
      placeLines (writePlace s p (bs.take k) cls) (p.plus k) cls n (bs.drop k)

/-- The write of a record operation: one write, over the lines of the record. DEDUCED, log 32. -/
def performRecord (s : State) (p : Place) (bs : List Byte) (owner : Nat) : State :=
  placeLines (noteMeasured s p bs.length) p (s.classOf owner) 4 bs

/-! ## Loads -/

/-- Bytes as loaded: zero- or sign-extended (R79). -/
def extend (bs : List Byte) (signed : Bool) : Word :=
  if signed then sextN (ofLe bs) (8 * bs.length) else W (ofLe bs)

def RegWrite.withVal (r : RegWrite) (w : Word) : RegWrite :=
  match r with
  | .g d _ => .g d w
  | .s d _ => .s d w
  | x => x

/-- The register after this one, for the high half of `ldp`. -/
def RegWrite.succ (r : RegWrite) : RegWrite :=
  match r with
  | .g d w => .g (d + 1) w
  | .s d w => .s (d + 1) w
  | x => x

/-- The writes of a load (R79). -/
def loadWrites (x : LoadDst) (bs : List Byte) : List RegWrite :=
  if x.pair then [x.d.withVal (W (ofLe (bs.take 8))), x.d.succ.withVal (W (ofLe (bs.drop 8)))]
  else [x.d.withVal (extend bs x.signed)]

/-- The bytes that the L1 takes for a line: the home's, with the core's own unperformed stores. -/
def fillBytes (s : State) (i : Nat) (p : Place) : List Byte :=
  let a := p.addr / 64 * 64
  let line := match p with | .global va pa key c m => Place.global (va / 64 * 64) (pa / 64 * 64) key c m | x => x
  withBuffer (s.core i) (s.core i).iss.opCount a (placeBytes s line 64)

/-- The poisoned words of a line as a fill reads it, with their codes (R417, R420). DEDUCED, log 16. -/
def linePoison (s : State) (p : Place) : List (Nat × Nat) :=
  (List.range 8).filterMap fun k => (poisonCode s (p.addr / 64 * 64 + 8 * k) 8).map (k, ·)

/-! ## Records in memory (R337) -/

/-- An outstanding operation that has still to store, other than through an entry of the write buffer. -/
def stillStores (o : Out) : Bool :=
  match o.op with
  | .acc (.store ..) => true
  | .acc (.quant ..) => true
  | .vstore .. => true
  | _ => false

/-- Earlier stores of the issuing core that a command's reads follow (R227). DEDUCED, log 33. -/
def storesBefore (c : CoreSt) (id : Nat) : Bool :=
  (unperformed c).any (fun e => decide (e.id < id)) || c.iss.outs.any fun o => decide (o.id < id) && stillStores o

/-- A read at issue of bytes that a running copy has still to fill: it waits, and completes with the copy's fault if the copy stops
first (R83, R178, R269). DEDUCED, log 18. -/
def withFill (s : State) (i a n : Nat) (k : State → Eff) : Eff :=
  let clear := fun (s : State) => s.onCache i fun c => { c with wmWait := none }
  match (s.core i).cache.wmWait with
  | some (_, some v) => .done (clear s) (.out (.sfault 0x0D v) .load true false)
  | _ =>
    match blockedRead s a n with
    | some k => .wait (s.onCache i fun c => { c with wmWait := some (k, none) })
    | none => k (clear s)

/-- What a read of a record at issue waits for: every earlier store of the core that is on its way (R337), and an earlier read of
the same bytes (R217). Stores that the ring holds for a handler are on no way; their bytes read as written. DEDUCED, log 18. -/
def recordBusy (c : CoreSt) (p : Place) : Bool :=
  !c.cache.wb.isEmpty || c.iss.outs.any stillStores || readBefore c c.iss.opCount p.addr 64

/-- Words 0 to 7 of a record in memory (R337): the checks of R82 as a 64-byte load at a multiple of 64. The read waits as a
load at its location does, and meets poison as one at issue does. DEDUCED, log 18. -/
def withRecord (s : State) (i : Nat) (ea : Word) (k : State → List Word → Eff) : Eff :=
  withAccess s i ea 64 64 0 fun s _ p =>
    let c := s.core i
    if bufBlocks (unperformed c) p.addr 64 c.iss.opCount || placeBusy s p || recordBusy c p then .wait s
    else withFill s i p.lockKey 64 fun s => match poisonCode s p.addr 64 with
      | some code => containEff s i (poisonAddr s p.addr 64) code
      | none => k (readTouch s p (s.classOf (ownerNow c))) (wordsLe 8 (blockAt s i ea))

end Sys2Proof.Machine
end

