-- ==== Sys2Proof/Machine/Flags.lean ====
section
/-! DEFINITION. Floating point: formats (R112 to R114), rounding with its flags (R115, R116), special values (R117),
conversions (R120), minimum, maximum, comparison and classes (R139, R140). -/

namespace Sys2Proof.Machine

/-! ## Flags (R118) -/

def flInvalid : Flags := 0x01
def flDivzero : Flags := 0x02
def flOverflow : Flags := 0x04
def flUnderflow : Flags := 0x08
def flInexact : Flags := 0x10

def flagIf (b : Bool) (f : Flags) : Flags := if b then f else 0

/-! ## Formats -/

/-- A binary format: exponent bits and mantissa bits. -/
structure Fmt where
  eb : Nat
  mb : Nat
  deriving DecidableEq, Repr

def fmt64 : Fmt := ⟨11, 52⟩
def fmt32 : Fmt := ⟨8, 23⟩
def fmt19 : Fmt := ⟨8, 10⟩
def fmtB16 : Fmt := ⟨8, 7⟩
def fmtH16 : Fmt := ⟨5, 10⟩

def Fmt.bias (f : Fmt) : Int := 2 ^ (f.eb - 1) - 1
def Fmt.width (f : Fmt) : Nat := 1 + f.eb + f.mb
/-- Exponent of the smallest normal. -/
def Fmt.emin (f : Fmt) : Int := 1 - f.bias
/-- Field of an infinity without its sign. -/
def Fmt.infField (f : Fmt) : Nat := (2 ^ f.eb - 1) * 2 ^ f.mb
def Fmt.signBit (f : Fmt) (neg : Bool) : Nat := if neg then 2 ^ (f.eb + f.mb) else 0
/-- The canonical NaN (R114). -/
def Fmt.nan (f : Fmt) : Nat := f.infField + 2 ^ (f.mb - 1)
def Fmt.inf (f : Fmt) (neg : Bool) : Nat := f.signBit neg + f.infField
def Fmt.zero (f : Fmt) (neg : Bool) : Nat := f.signBit neg
def Fmt.maxFin (f : Fmt) (neg : Bool) : Nat := f.signBit neg + f.infField - 1

/-- A value: a NaN (signalling or not), an infinity, or (-1)^neg × m × 2^e. -/
inductive FVal where
  | nan (sig : Bool)
  | inf (neg : Bool)
  | fin (neg : Bool) (m : Nat) (e : Int)
  deriving DecidableEq, Repr

/-- The value of a bit pattern (R112, R140). -/
def unpack (f : Fmt) (b : Nat) : FVal :=
  let man := fld b 0 f.mb
  let ex := fld b f.mb f.eb
  let neg := fld b (f.eb + f.mb) 1 == 1
  if ex = 2 ^ f.eb - 1 then
    if man = 0 then .inf neg else .nan (fld b (f.mb - 1) 1 == 0)
  else if ex = 0 then .fin neg man (f.emin - f.mb)
  else .fin neg (man + 2 ^ f.mb) ((ex : Int) - f.bias - f.mb)

/-! ## Rounding (R115, R116) -/

/-- An exact value rounded to a multiple of 2^q: the multiple, and whether it differs. `sticky`: the exact magnitude
lies strictly between m and m + 1 units of 2^e. -/
def roundUnits (rm : Rm) (neg : Bool) (m : Nat) (e : Int) (sticky : Bool) (q : Int) : Nat × Bool :=
  let sh := (q - e).toNat
  if q ≤ e then (m * 2 ^ (e - q).toNat, sticky)
  else
    let keep := m / 2 ^ sh
    let rem := m % 2 ^ sh
    let half := 2 ^ (sh - 1)
    let inexact := rem != 0 || sticky
    let above := decide (half < rem) || (rem == half && sticky)
    let tie := rem == half && !sticky
    let up := match rm with
      | .rne => above || (tie && keep % 2 == 1)
      | .rna => above || tie
      | .rtz => false
      | .rup => inexact && !neg
      | .rdn => inexact && neg
    (keep + b2n up, inexact)

/-- round(x, format, mode) of a non-zero exact value: bits and flags. -/
def roundFin (f : Fmt) (rm : Rm) (neg : Bool) (m : Nat) (e : Int) (sticky : Bool) : Nat × Flags :=
  let top : Int := m.log2 + e
  let qu := top - f.mb
  let lo := f.emin - f.mb
  let q := max qu lo
  let (k, inexact) := roundUnits rm neg m e sticky q
  let field := (q - lo).toNat * 2 ^ f.mb + k
  if f.infField ≤ field then
    let toInf := match rm with | .rne | .rna => true | .rtz => false | .rup => !neg | .rdn => neg
    (if toInf then f.inf neg else f.maxFin neg, flOverflow ||| flInexact)
  else
    let (ku, _) := roundUnits rm neg m e sticky qu
    let tiny := decide ((ku.log2 : Int) + qu < f.emin) || ku == 0
    (f.signBit neg + field, flagIf inexact flInexact ||| flagIf (inexact && tiny) flUnderflow)

/-- round(x, format, mode) of an exact value; a zero keeps the sign given. -/
def roundVal (f : Fmt) (rm : Rm) (x : FVal) : Nat × Flags :=
  match x with
  | .nan sig => (f.nan, flagIf sig flInvalid)
  | .inf neg => (f.inf neg, 0)
  | .fin neg m e => if m = 0 then (f.zero neg, 0) else roundFin f rm neg m e false

/-! ## Exact sums and products (R116, R117) -/

def FVal.isNan : FVal → Bool | .nan _ => true | _ => false
def FVal.isSig : FVal → Bool | .nan s => s | _ => false
def FVal.isInf : FVal → Bool | .inf _ => true | _ => false
def FVal.isZero : FVal → Bool | .fin _ m _ => m == 0 | _ => false
def FVal.neg? : FVal → Bool | .nan _ => false | .inf n => n | .fin n _ _ => n
def FVal.negate : FVal → FVal | .nan s => .nan s | .inf n => .inf (!n) | .fin n m e => .fin (!n) m e

/-- A signed integer mantissa at exponent `e0`, which is not above the value's. -/
def scaled (neg : Bool) (m : Nat) (e e0 : Int) : Int :=
  let v : Int := (m : Int) * 2 ^ (e - e0).toNat
  if neg then -v else v

/-- What an operation yields before rounding: an exact value with the flags raised so far. -/
abbrev Pre := FVal × Flags

/-- NaN operands: the canonical NaN, INVALID for a signalling one. -/
def nanPre (xs : List FVal) : Option Pre :=
  if xs.any (·.isNan) then some (.nan false, flagIf (xs.any (·.isSig)) flInvalid) else none

def invalidPre : Pre := (.nan false, flInvalid)

/-- a + b of non-NaN operands. -/
def addCore (rm : Rm) (a b : FVal) : Pre :=
  match a, b with
  | .inf x, .inf y => if x = y then (.inf x, 0) else invalidPre
  | .inf x, _ => (.inf x, 0)
  | _, .inf y => (.inf y, 0)
  | .fin na ma ea, .fin nb mb eb =>
    if ma = 0 && mb = 0 then (.fin (if na = nb then na else decide (rm = .rdn)) 0 0, 0)
    else
      let e0 := min ea eb
      let v := scaled na ma ea e0 + scaled nb mb eb e0
      if v = 0 then (.fin (decide (rm = .rdn)) 0 0, 0) else (.fin (decide (v < 0)) v.natAbs e0, 0)
  | _, _ => (.nan false, 0)

def fpAdd (rm : Rm) (a b : FVal) : Pre := (nanPre [a, b]).getD (addCore rm a b)

/-- a × b of non-NaN operands; `none` for 0 × ∞. -/
def mulCore (a b : FVal) : Option FVal :=
  match a, b with
  | .inf x, .inf y => some (.inf (x != y))
  | .inf x, .fin n m _ => if m = 0 then none else some (.inf (x != n))
  | .fin n m _, .inf y => if m = 0 then none else some (.inf (n != y))
  | .fin na ma ea, .fin nb mb eb => some (.fin (na != nb) (ma * mb) (ea + eb))
  | _, _ => none

def fpMul (a b : FVal) : Pre :=
  (nanPre [a, b]).getD (match mulCore a b with | some v => (v, 0) | none => invalidPre)

/-- a × b + c with one rounding (R138); 0 × ∞ is invalid even when c is a quiet NaN (R117). -/
def fpFma (rm : Rm) (a b c : FVal) : Pre :=
  match nanPre [a, b] with
  | some (v, fl) => (v, fl ||| flagIf c.isSig flInvalid)
  | none =>
    match mulCore a b with
    | none => invalidPre
    | some p => (nanPre [c]).getD (addCore rm p c)

def roundPre (f : Fmt) (rm : Rm) (x : Pre) : Nat × Flags :=
  let (b, fl) := roundVal f rm x.1
  (b, fl ||| x.2)

/-! ## Division and roots -/

/-- Largest r with r² ≤ n, below 2^k. -/
def isqrtAux (n : Nat) : Nat → Nat → Nat
  | 0, r => r
  | k + 1, r => let r' := r + 2 ^ k; isqrtAux n k (if r' * r' ≤ n then r' else r)

def isqrt (n : Nat) : Nat := isqrtAux n (n.log2 / 2 + 1) 0

/-- a ÷ b: bits and flags (R117, R138). -/
def fpDiv (f : Fmt) (rm : Rm) (a b : FVal) : Nat × Flags :=
  match nanPre [a, b] with
  | some x => roundPre f rm x
  | none =>
    match a, b with
    | .inf _, .inf _ => roundPre f rm invalidPre
    | .inf x, .fin n _ _ => (f.inf (x != n), 0)
    | .fin n _ _, .inf y => (f.zero (n != y), 0)
    | .fin na ma ea, .fin nb mb eb =>
      if mb = 0 then
        if ma = 0 then roundPre f rm invalidPre else (f.inf (na != nb), flDivzero)
      else if ma = 0 then (f.zero (na != nb), 0)
      else
        let k := f.mb + 4 + mb.log2
        let n := ma * 2 ^ k
        roundFin f rm (na != nb) (n / mb) (ea - eb - k) (n % mb != 0)
    | _, _ => roundPre f rm invalidPre

/-- √a: bits and flags. -/
def fpSqrt (f : Fmt) (rm : Rm) (a : FVal) : Nat × Flags :=
  match a with
  | .nan s => roundPre f rm (.nan false, flagIf s flInvalid)
  | .inf n => if n then roundPre f rm invalidPre else (f.inf false, 0)
  | .fin n m e =>
    if m = 0 then (f.zero n, 0)
    else if n then roundPre f rm invalidPre
    else
      let k := 2 * (f.mb + 4) + (if e % 2 = 0 then 0 else 1)
      let v := m * 2 ^ k
      let r := isqrt v
      roundFin f rm false r ((e - k) / 2) (r * r != v)

/-! ## Integral values (R120, R138) -/

/-- A finite value rounded to an integer: signed integer, and whether it differs. -/
def toIntegral (rm : Rm) (neg : Bool) (m : Nat) (e : Int) : Int × Bool :=
  let (k, x) := roundUnits rm neg m e false (max 0 e)
  let v : Int := (k : Int) * 2 ^ (max 0 e).toNat
  (if neg then -v else v, x)

/-- `frnd`: the sign of the operand stays on a zero result. -/
def fpRnd (f : Fmt) (rm : Rm) (a : FVal) : Nat × Flags :=
  match a with
  | .fin n m e =>
    let (v, x) := toIntegral rm n m e
    ((roundVal f rm (.fin n v.natAbs 0)).1, flagIf x flInexact)
  | x => roundVal f rm x

/-- Float to integer with the type's range (R120). -/
def fpToInt (rm : Rm) (lo hi : Int) (a : FVal) : Int × Flags :=
  match a with
  | .nan _ => (0, flInvalid)
  | .inf n => (if n then lo else hi, flInvalid)
  | .fin n m e =>
    let (v, x) := toIntegral rm n m e
    if v < lo then (lo, flInvalid) else if hi < v then (hi, flInvalid) else (v, flagIf x flInexact)

/-- Integer to float. -/
def fpOfInt (f : Fmt) (rm : Rm) (v : Int) : Nat × Flags := roundVal f rm (.fin (decide (v < 0)) v.natAbs 0)

/-! ## Comparison (R139, R140) -/

/-- a < b of non-NaN operands, −0 equal to +0. -/
def fpLt (a b : FVal) : Bool :=
  match a, b with
  | .inf x, .inf y => x && !y
  | .inf x, _ => x
  | _, .inf y => !y
  | .fin na ma ea, .fin nb mb eb =>
    let e0 := min ea eb
    decide (scaled na ma ea e0 < scaled nb mb eb e0)
  | _, _ => false

def fpEq (a b : FVal) : Bool := !a.isNan && !b.isNan && !fpLt a b && !fpLt b a

/-- Conditions of R140 with INVALID. -/
def fpCond (c : FCond) (a b : FVal) : Bool × Flags :=
  let un := a.isNan || b.isNan
  let sg := a.isSig || b.isSig
  match c with
  | .eq => (!un && fpEq a b, flagIf sg flInvalid)
  | .ne => (un || !fpEq a b, flagIf sg flInvalid)
  | .lt => (!un && fpLt a b, flagIf un flInvalid)
  | .le => (!un && !fpLt b a, flagIf un flInvalid)
  | .gt => (!un && fpLt b a, flagIf un flInvalid)
  | .ge => (!un && !fpLt a b, flagIf un flInvalid)
  | .uo => (un, flagIf sg flInvalid)
  | .or => (!un, flagIf sg flInvalid)

/-- `fmin` and `fmax` on bit patterns (R139): a copy of an operand. -/
def fpMinMax (f : Fmt) (isMax : Bool) (a b : Nat) : Nat × Flags :=
  let x := unpack f a
  let y := unpack f b
  if x.isSig || y.isSig then (f.nan, flInvalid)
  else if x.isNan && y.isNan then (f.nan, 0)
  else if x.isNan then (b, 0)
  else if y.isNan then (a, 0)
  else
    let less := fpLt x y || (fpEq x y && x.neg? && !y.neg?)
    (if less != isMax then a else b, 0)

/-- `fsgn` on bit patterns (R139). -/
def fpSgn (f : Fmt) (op : SgnOp) (a b : Nat) : Nat :=
  let sa := fld a (f.width - 1) 1
  let sb := fld b (f.width - 1) 1
  let mag := fld a 0 (f.width - 1)
  let s := match op with | .cp => sb | .neg => 1 - sb | .xor => sa ^^^ sb
  mag + s * 2 ^ (f.width - 1)

/-- `fclass` (R140). -/
def fpClass (f : Fmt) (a : Nat) : Nat :=
  match unpack f a with
  | .nan s => if s then 0x100 else 0x200
  | .inf n => if n then 0x001 else 0x080
  | .fin n m _ =>
    if m = 0 then (if n then 0x008 else 0x010)
    else if m < 2 ^ f.mb then (if n then 0x004 else 0x020)
    else if n then 0x002 else 0x040

/-- a × 2^b rounded once; |b| beyond 10,000 rounds as 10,000 does. -/
def fpScale (f : Fmt) (rm : Rm) (a : FVal) (b : Int) : Nat × Flags :=
  match a with
  | .fin n m e => roundVal f rm (.fin n m (e + max (-10000) (min b 10000)))
  | x => roundVal f rm x

/-- A conversion between floating formats (R120). -/
def fpConv (src dst : Fmt) (rm : Rm) (a : Nat) : Nat × Flags := roundVal dst rm (unpack src a)

end Sys2Proof.Machine
end

