-- ==== Sys2Proof/Machine/Tables.lean ====
section
/-! DEFINITION. Decode tables: their state as an instruction finds it (R122, R126, R127), decoding (R124) and encoding
(R129). -/

namespace Sys2Proof.Machine

def DtState.code : DtState → Nat
  | .empty => 0 | .c8 => 1 | .c4 => 2 | .c4p => 3

def tableOfCore (c : CoreSt) (k : Fin 2) : DTable := vget c.mtx.dt .empty k.val

/-- The state that the current owner finds: EMPTY for a table of another owner (R122). -/
def tableState (c : CoreSt) (k : Fin 2) : DtState :=
  let t := tableOfCore c k
  if t.owner = ownerNow c then t.st else .empty

/-- A c8 operand needs C8, a c4 operand C4 or C4P (R126). -/
def tableFits (c4 : Bool) : DtState → Bool
  | .c8 => !c4
  | .c4 | .c4p => c4
  | .empty => false

/-- A `dtload` of the table is outstanding (R127). -/
def tableLoading (c : CoreSt) (k : Fin 2) : Bool :=
  c.iss.outs.any fun o => match o.op with | .dtload j .. => j == k | _ => false

/-- The wait and the check before an instruction reads a table (R126, R127). -/
def withTable (c4 : Bool) (k : Fin 2) (body : Nat → State → Eff) (i : Nat) (s : State) : Eff :=
  let c := s.core i
  if tableLoading c k then .wait s
  else if tableFits c4 (tableState c k) then body i s
  else .trap s 0x06 (W (k.val + 256 * (tableState c k).code))

/-- The F19 value of a code. -/
def entVal (ents : List (BitVec 20)) (code : Nat) : Nat := fld (ents.getD code 0).toNat 0 19
def entExcl (ents : List (BitVec 20)) (code : Nat) : Bool := (ents.getD code 0).getLsbD 19

/-- decode(TAB, c) as an FP32 value (R113, R124): F19 widens exactly, a NaN to the canonical one. -/
def decodeCode (ents : List (BitVec 20)) (code : Nat) : Nat :=
  let v := entVal ents code
  if (unpack fmt19 v).isNan then fmt32.nan else v * 2 ^ 13

/-! ## Encoding (R129) -/

/-- A value in units of 2^-149; infinities lie beyond every finite value. -/
def unitsOf (x : FVal) : Int :=
  match x with
  | .nan _ => 0
  | .inf n => if n then -(2 ^ 400 : Int) else 2 ^ 400
  | .fin n m e => scaled n m e (-149)

/-- A finite encodable code with its value and the sign of its bits. -/
structure EncCode where
  code : Nat
  v : Int
  neg : Bool
  deriving DecidableEq, Repr

def encSet (ents : List (BitVec 20)) (n : Nat) : List EncCode :=
  (List.range n).filterMap fun c =>
    if entExcl ents c then none
    else match unpack fmt19 (entVal ents c) with
      | .fin neg m e => some { code := c, v := scaled neg m e (-149), neg }
      | _ => none

/-- Of the codes with a value, the one with the sign of `x` if there is one. -/
def encPick (f : List EncCode) (v : Int) (neg : Bool) : EncCode :=
  let h := f.filter (·.v == v)
  (h.find? (·.neg == neg)).getD (h.headD { code := 0, v, neg })

def listMax (d : Int) (l : List Int) : Int := l.foldl max d
def listMin (d : Int) (l : List Int) : Int := l.foldl min d

/-- Nearest code of a value inside the range of F. -/
def encNear (f : List EncCode) (u : Int) (neg zero : Bool) : Nat × Flags :=
  let lo := encPick f (listMax (listMin u (f.map (·.v))) ((f.map (·.v)).filter fun v => decide (v ≤ u))) neg
  let hi := encPick f (listMin (listMax u (f.map (·.v))) ((f.map (·.v)).filter fun v => decide (u ≤ v))) neg
  if lo.v = u then (lo.code, 0)
  else
    let dl := u - lo.v
    let dh := hi.v - u
    let c :=
      if dl < dh then lo
      else if dh < dl then hi
      else if lo.code % 2 ≠ hi.code % 2 then (if lo.code % 2 = 0 then lo else hi)
      else if lo.v.natAbs < hi.v.natAbs then lo
      else if hi.v.natAbs < lo.v.natAbs then hi
      else if lo.neg = neg then lo else hi
    (c.code, flInexact ||| flagIf (!zero && c.v == 0) flUnderflow)

/-- encode(TAB, x) of an FP32 value through a table of `n` codes. -/
def encodeCode (ents : List (BitVec 20)) (n : Nat) (x : Nat) : Nat × Flags :=
  let f := encSet ents n
  let go := fun (v : FVal) =>
    let neg := v.neg?
    let u := unitsOf v
    let vs := f.map (·.v)
    let mx := listMax (vs.headD 0) vs
    let mn := listMin (vs.headD 0) vs
    if mx < u then ((encPick f mx neg).code, flOverflow ||| flInexact)
    else if u < mn then ((encPick f mn neg).code, flOverflow ||| flInexact)
    else if v.isZero && vs.contains 0 then ((encPick f 0 neg).code, 0)
    else encNear f u neg v.isZero
  match unpack fmt32 x with
  | .nan _ =>
    (match (List.range n).find? (fun c => !entExcl ents c && (unpack fmt19 (entVal ents c)).isNan) with
     | some c => (c, 0)
     | none => ((go (.fin false 0 0)).1, flInvalid))
  | .inf neg =>
    (match (List.range n).find? (fun c => !entExcl ents c && unpack fmt19 (entVal ents c) == .inf neg) with
     | some c => (c, 0)
     | none => go (.inf neg))
  | v => go v

end Sys2Proof.Machine
end

