-- ==== Sys2Proof/Machine/Block.lean ====
section
/-! DEFINITION. One matrix block: element decoding (R124, R175), the block sum with its single rounding (R132, R133), and
the quantisation of `accq` (R187). -/

namespace Sys2Proof.Machine

/-- Element `k` of a matrix operand in format 0 c8, 1 c4, 2 b16, 3 h16, as a value in F19 arithmetic. -/
def matElem (fmt : Nat) (ents : List (BitVec 20)) (bs : List Byte) (k : Nat) : FVal :=
  let viaTable := fun code => match unpack fmt19 (entVal ents code) with | .nan _ => FVal.nan false | v => v
  match fmt with
  | 0 => viaTable (bs.getD k 0).toNat
  | 1 => viaTable (fld (bs.getD (k / 2) 0).toNat (4 * (k % 2)) 4)
  | 2 => unpack fmtB16 (ofLe ((bs.drop (2 * k)).take 2))
  | _ => unpack fmtH16 (ofLe ((bs.drop (2 * k)).take 2))

/-- The exact product of four factors; `none` for zero times infinity. -/
def prod4 (a b c d : FVal) : Option FVal :=
  (mulCore a b).bind fun x => (mulCore x c).bind fun y => mulCore y d

def FVal.exp? : FVal → Option Int
  | .fin _ m e => if m = 0 then none else some (m.log2 + e)
  | _ => none

/-- A value on the grid 2^q, truncated toward minus infinity, and whether it changed. -/
def keepOn (q : Int) : FVal → Int × Bool
  | .fin neg m e =>
    if q ≤ e then (scaled neg m e q, false)
    else
      let v : Int := if neg then -(m : Int) else m
      let d : Int := 2 ^ (q - e).toNat
      (v / d, v % d != 0)
  | _ => (0, false)

/-- The sum of the finite terms with one rounding (R132). -/
def blockSum (acc : FVal) (ts : List FVal) : Nat × Flags :=
  let vs := (acc :: ts).filterMap fun v => v.exp?.map (v, ·)
  match vs with
  | [] => (fmt32.zero ((acc :: ts).all (·.neg?)), 0)
  | (_, e0) :: rest =>
    let q := rest.foldl (fun m x => max m x.2) e0 - 50
    let ks := vs.map fun x => keepOn q x.1
    let sticky := ks.any (·.2)
    let n := 4 * ks.foldl (fun t x => t + x.1) 0 + (if sticky then 1 else 0)
    let (b, fl) := roundVal fmt32 .rne (.fin (decide (n < 0)) n.natAbs (q - 2))
    (b, fl ||| flagIf sticky flInexact)

/-- A zero factor and an infinite factor (R133). -/
def zeroInf (xs : List FVal) : Bool :=
  xs.any (·.isInf) && xs.any fun x => match x with | .fin _ m _ => m == 0 | _ => false

/-- block(acc, sA, sB, row, column) (R132, R133) over the terms that are present. -/
def block (acc : Nat) (sa sb : FVal) (ab : List (FVal × FVal)) : Nat × Flags :=
  if ab.isEmpty then (acc, 0)
  else
    let av := unpack fmt32 acc
    let ops := av :: sa :: sb :: ab.flatMap fun x => [x.1, x.2]
    let ts := (ab.filter fun x => !(zeroInf [sa, sb, x.1, x.2]) && !([sa, sb, x.1, x.2].any (·.isNan))).filterMap fun x =>
      prod4 sa sb x.1 x.2
    let infs := (av :: ts).filter (·.isInf)
    let mixed := match infs with | [] => false | v :: vs => vs.any (· != v)
    let invalid := ops.any (·.isSig) || ab.any (fun x => zeroInf [sa, sb, x.1, x.2]) || mixed
    if invalid || ops.any (·.isNan) then (fmt32.nan, flagIf invalid flInvalid)
    else match infs with
      | [] => blockSum av ts
      | v :: _ => (fmt32.inf v.neg?, 0)

/-- Rows of a compressed tile that are present, in order (R182). -/
def presentRows (rowmap : BitVec 32) : List Nat := (List.range 32).filter rowmap.getLsbD

/-- One ring step on one tile (R180, R183): `own` is the member's panel, scales and tables, `b` the tile it holds. -/
def gangStep (pair : Nat) (snz : Bool) (own b : GangData) (tile : List Lane) : List (Nat × Flags) :=
  let k := pairK snz pair
  let rows := if snz then presentRows b.rowmap else List.range k
  let fa := pair / 4
  let fb := pair % 4
  let aRow := fun (r : Nat) => rows.map fun x => matElem fa own.dtA own.panel (r * k + x)
  let aRows := (List.range 16).map aRow
  let bCols := (List.range 16).map fun c => (List.range rows.length).map fun x => matElem fb own.dtB b.tile (16 * x + c)
  (List.range 256).map fun e =>
    let r := e / 16
    let c := e % 16
    block (tile.getD e 0).toNat (unpack fmtB16 (own.rowScales.getD r 0x3F80).toNat)
      (unpack fmtB16 (b.scales.getD c 0).toNat) ((aRows.getD r []).zip (bCols.getD c []))

/-! ## accq (R187) -/

def AccqOut.rowLen : AccqOut → Nat
  | .c8 _ => 16 | .c4 _ => 8 | _ => 32

/-- One element of `accq`: its code or value, with the flags of both roundings and of the encoding. -/
def accqElem (out : AccqOut) (ents : List (BitVec 20)) (factor x : BitVec 32) : Nat × Flags :=
  let p := fpMul (unpack fmt32 x.toNat) (unpack fmt32 factor.toNat)
  let enc := fun n =>
    let (y, f1) := roundPre fmt32 .rne p
    let (c, f2) := encodeCode ents n y
    (c, f1 ||| f2)
  match out with
  | .c8 _ => enc 256
  | .c4 _ => enc 16
  | .b16 rm => roundPre fmtB16 rm p
  | .h16 rm => roundPre fmtH16 rm p

/-- The bytes of a row. -/
def accqRow (out : AccqOut) (vs : List Nat) : List Byte :=
  match out with
  | .c8 _ => vs.map fun v => BitVec.ofNat 8 v
  | .c4 _ => (List.range 8).map fun k => BitVec.ofNat 8 (vs.getD (2 * k) 0 + 16 * vs.getD (2 * k + 1) 0)
  | _ => vs.flatMap (leBytes 2)

end Sys2Proof.Machine
end

