-- ==== Sys2Proof/Machine/Chan.lean ====
section
/-! DEFINITION. Channels: room, placing records, admission, and the records that wait at an edge (R302, R307,
R311, R443). -/

namespace Sys2Proof.Machine

def chanOf (s : State) (i ch : Nat) : Option Channel := mget? (s.core i).sched.chans ch

def onChan (s : State) (i ch : Nat) (f : Channel → Channel) : State :=
  s.onSched i fun d =>
    { d with chans := match mget? d.chans ch with | some c => mput d.chans ch (f c) | none => d.chans }

def Channel.reservedSlots (c : Channel) : Nat := c.reserved.foldl (fun n r => n + r.2.2.2) 0
/-- Unreserved free slots (R307). -/
def Channel.room (c : Channel) : Nat := c.cap - (c.items.length + c.reservedSlots)

/-- DESIGN CHOICE, log 53. -/
def pushItem (s : State) (i ch : Nat) (x : ChItem) : State :=
  wakeCore (onChan s i ch fun c => { c with items := c.items ++ [x] }) i

/-- Reason with which a record fails admission against a code range (R302, R304). -/
def admitFail (codeb w0 : Word) : Option Nat :=
  if badPc w0 then some 2 else if admitted codeb w0 then none else some 1

/-- A record waits at the edge of its channel. -/
def edgeAdd (s : State) (i : Nat) (e : EdgeRec) : State :=
  wakeCore (s.onSched i fun d => { d with edges := d.edges ++ [e] }) i

def edgeWords (e : EdgeRec) : List Word := match e.item with | .data ws _ => ws | .marker _ => []

/-- The first record of a kind that waits at a channel. -/
def edgeFind (s : State) (i ch : Nat) (k : EdgeKind) : Option EdgeRec :=
  (s.core i).sched.edges.find? fun e => e.ch == ch && decide (e.kind = k)

def dropFirst {α : Type} (p : α → Bool) : List α → List α
  | [] => []
  | x :: xs => if p x then xs else x :: dropFirst p xs

def edgeDrop (s : State) (i ch : Nat) (k : EdgeKind) : State :=
  s.onSched i fun d => { d with edges := dropFirst (fun e => e.ch == ch && decide (e.kind = k)) d.edges }

/-- The owner is torn down, or is being torn down (R410). DEDUCED, log 49. -/
def ownerGone (s : State) (o : Nat) : Bool := !s.live o || s.tearing o

/-- What becomes of the first record of a kind at a channel's edge (R443): `none` while it waits; otherwise the
state with the record placed or discarded. A channel accepts records of its own owner only (R307): for another's it is not
bound. DESIGN CHOICE, log 53. -/
def placeEdge (s : State) (i ch : Nat) (k : EdgeKind) : Option (State × EdgeRec) :=
  match edgeFind s i ch k with
  | none => none
  | some e =>
    let unbound := some ((edgeDrop s i ch k).discard i (edgeWords e) (if ownerGone s e.owner then 5 else 6) e.owner, e)
    match chanOf s i ch with
    | none => unbound
    | some c =>
      if ownerGone s c.owner then
        some ((edgeDrop s i ch k).discard i (edgeWords e) 5 c.owner, e)
      else if e.lost || c.owner ≠ e.owner then unbound
      else if c.room = 0 then none
      else match c.task, admitFail c.codeb ((edgeWords e).getD 0 0) with
        | true, some r => some ((edgeDrop s i ch k).discard i (edgeWords e) r c.owner, e)
        | _, _ => some (pushItem (edgeDrop s i ch k) i ch e.item, e)

/-- A channel that takes notify, overflow and token records: an actor input or a task channel (R257, R264, R275). -/
def recvChannel (s : State) (i ch : Nat) : Bool :=
  match chanOf s i ch with
  | some c => c.task || c.inputOf.isSome
  | none => false

end Sys2Proof.Machine
end

