-- ==== Sys2Proof/Machine/Net.lean ====
section
/-! DEFINITION. Packets of the Causeway and of a module's own edge (R279, R282, R285), and the checks that engines
and edges make (R259, R264, R285, R392). -/

namespace Sys2Proof.Machine

def State.ownMod (s : State) : Nat := s.modnum.getD 0

def Packet.blank : Packet :=
  { kind := 0, dstMod := 0, srcMod := 0, dy := 0, dx := 0, sy := 0, sx := 0, owner := 0, world := 0, xid := 0, seq := 0
    addr := 0, len := 0, op := 0, w32 := false, size := 0, sub := 0, val := 0, req := 0, remain := 0, group := none
    data := [] }

/-- A request packet of core `i` for its operation `xid`. -/
def request (s : State) (i owner kind dstMod xid : Nat) : Packet :=
  { Packet.blank with
    kind, dstMod, srcMod := s.ownMod, sy := modY i, sx := modX i, owner, world := s.worldOf owner
    xid := xid % 2 ^ 31 }

/-- An answer: the request turned round. -/
def answer (s : State) (p : Packet) (kind : Nat) : Packet :=
  { p with kind, dstMod := p.srcMod, srcMod := s.ownMod, dy := p.sy, dx := p.sx, data := [], len := 0, group := none }

/-- The issuing core of a packet, on the module that formed it. -/
def pktCore (p : Packet) : Nat := coreAt p.sx p.sy

/-! ## Routes (R282) and rosters (R407) -/

def portOf (s : State) (p : Nat) : Port :=
  (mget? s.eng.ports p).getD
    { target := 0, rekey := false, st := .down, epoch := false, peer := none, replays := 0, crcerr := 0, authfail := 0
      badpkt := 0, trainGood := 0, tx := none, rx := none, rxOld := none, block := Vector.replicate 16 0, blockSet := []
      txSeq := 0, rxSeq := 0, replay := [], replayAt := none, fails := [], txq := [], txFlit := 0
      rxFlits := [], spdm := [], halted := false }

def onPort (s : State) (p : Nat) (f : Port → Port) : State :=
  s.onEng fun e => { e with ports := mput e.ports p (f (portOf s p)) }

/-- A world owner sends to the modules of its world's roster only. -/
def onRoster (s : State) (w m : Nat) : Bool :=
  w == 0 || (readByte s.mem (rightsBase + 0xC0000 + 2048 * (w - 1) + m / 8)).getLsbD (m % 8)

/-- The location of a packet for the choice of a port. DEDUCED, log 69. -/
def pktLoc (p : Packet) : Nat :=
  if p.kind = 7 then p.addr.toNat else wf p.addr 6 50

def routePorts (s : State) (m : Nat) : List Nat :=
  let mask := (mget? s.eng.routes m).getD 0
  (List.range 128).filter fun p => mask.getLsbD p && decide ((portOf s p).st = .active)

/-- The die of a port (R26). -/
def portDie (p : Nat) : Nat := if p / 16 < 4 then p / 16 else p / 16 + 1

/-- The port for a packet among the ACTIVE ports of its route: the one that its module and location already take, or one chosen by
the hash (R282). DESIGN CHOICE, log 12. -/
def pickPort (s : State) (p : Packet) (ps : List Nat) : Option Nat :=
  match s.eng.flows.find? fun f => f.1 == p.dstMod && f.2.1 == pktLoc p && ps.contains f.2.2 with
  | some f => some f.2.2
  | none => ps[Config.portHash p.dstMod (pktLoc p) % ps.length]?

/-- A packet leaves the edge, whatever the roster: to the module's own edge, or to a port's queue; none where no port carries
it. DESIGN CHOICE, log 12; DEDUCED, log 45. -/
def routePkt (s : State) (p : Packet) (core : Option Nat) : Option State :=
  if p.dstMod = s.ownMod then
    let die := if p.srcMod = s.ownMod ∧ p.kind ≠ 10 then dieOf (pktCore p) else p.die
    some (s.onEng fun e => { e with net := e.net ++ [{ p with die := die }] })
  else
    (pickPort s p (routePorts s p.dstMod)).map fun k =>
      let s := match core with
        | some i => s.onCache i fun c => { c with injq := c.injq + 1 }
        | none => s
      let s := s.onEng fun e =>
        { e with flows := (p.dstMod, pktLoc p, k) :: e.flows.filter fun f => !(f.1 == p.dstMod && f.2.1 == pktLoc p) }
      onPort s k fun q => { q with txq := q.txq ++ [(p, core)] }

/-- A request or data packet leaves its edge, or the SUB with which the edge refuses it. -/
def sendPkt (s : State) (p : Packet) (core : Option Nat) : Except Nat State :=
  if !onRoster s p.world p.dstMod then .error 8
  else match routePkt s p core with
    | some t => .ok t
    | none => .error 10

/-- An answer leaves; one that no route can deliver is lost, and the requester times out (R278). -/
def sendAnswer (s : State) (p : Packet) : State := (routePkt s p none).getD s

/-- Kinds that share an order at a location: memory requests, records, `rdx` data (R283, R340). DEDUCED, log 69. -/
def orderClass (k : Nat) : Nat := match k with | 1 => 1 | 3 => 1 | 5 => 1 | 7 => 7 | 10 => 10 | _ => 0

/-- An earlier packet that `p` must not overtake. DEDUCED, log 69. -/
def before (q p : Packet) : Bool :=
  orderClass p.kind != 0 && !p.loose && !q.loose && orderClass q.kind == orderClass p.kind && q.srcMod == p.srcMod && q.sx == p.sx &&
    q.sy == p.sy && (if p.kind = 10 then q.xid == p.xid else pktLoc q == pktLoc p)

/-- A packet in flight at this module, by its place in the list and its kind. DEDUCED, log 69. -/
def takePkt (s : State) (id kind : Nat) : Option (Packet × State) :=
  match s.eng.net[id]? with
  | some p => if p.kind = kind && !(s.eng.net.take id).any (before · p) then some (p, s.onEng fun e => { e with net := e.net.eraseIdx id }) else none
  | none => none

/-! ## Faults of group 9 (R259) -/

def engineVal (sub : Nat) (addr : Word) : Word := W (sub % 256 * 2 ^ 56 + wf addr 0 56)

/-! ## Checks of engines and edges -/

def plbUnit (s : State) (u : Nat) : List PlbEnt := (mget? s.eng.plbs u).getD []
def setPlbUnit (s : State) (u : Nat) (p : List PlbEnt) : State := s.onEng fun e => { e with plbs := mput e.plbs u p }

def sluiceUnit (die k : Nat) : Nat := 16 * die + k
def lodeUnit (die k : Nat) : Nat := 200 + 4 * die + k
/-- DEDUCED, log 45. -/
def edgeUnit (die : Nat) : Nat := 300 + die

/-- Who asks for an engine's access: PLB, owner, die whose walker serves it, the core as which addresses decode
(`none`: near windows are refused), and the command's SRCA for the error log. -/
structure Agent where
  unit : Nat
  owner : Nat
  die : Nat
  core : Option Nat
  src : Word := 0
  deriving DecidableEq, Repr

/-- Decode, colour, translation, rights and world for an engine or remote access of `n` bytes; the SUB of the first
check that fails. A walk completes at once and may claim a zero-pending page (R213); one that reads a poisoned entry ends the
access as uncorrectable (R420). -/
def engineCheck (s : State) (g : Agent) (ea : Word) (n need : Nat) : State × Except Nat (Loc × Place) :=
  let side := if need = 0 then 1 else 2
  let a := wf ea 0 56
  let col := wf ea 56 8
  if !s.live g.owner || s.tearing g.owner then (s, .error 7)
  else if g.core.isNone && fld a 48 8 == 0xFF then (s, .error side)
  else match decodeAddr (g.core.getD 0) a with
    | none => (s, .error side)
    | some l =>
      if locRoom l < n || !locOn s l then (s, .error side)
      else match l with
        | .aperture _ _ => (s, .error side)
        | .paged va =>
          let (plb, es) := plbLookup s (plbUnit s g.unit) g.owner va need col true
          let s := setPlbUnit s g.unit plb
          let (s, w) := walkNow s g.die va
          if colourFails es col then (s, .error side)
          else
            (match w with
             | .unmapped => (s, .error 3)
             | .poisoned code a => (logPoison s g.core a code g.owner g.src 0, .error 9)
             | .found t =>
               match check5 s g.owner (es.filter (·.colour == col)) l n need none false t.key with
               | .pass => (s, .ok (l, .global va (t.frame + (va - t.page)) t.key t.c t.mlock))
               | .fail 0x11 => (s, .error 4)
               | .fail _ => (s, .error side))
        | _ =>
          if col ≠ 0 then (s, .error side)
          else
            let al := aliasOf l
            let (plb, es) := plbLookup s (plbUnit s g.unit) g.owner al need 0 false
            let s := setPlbUnit s g.unit plb
            (match check5 s g.owner es l n need none false 0 with
             | .pass => (s, .ok (l, .array al))
             | .fail 0x11 => (s, .error 4)
             | .fail _ => (s, .error side))

/-- Whether an engine's or remote access must wait at its location: a test, lines that await forwarded stores, a
watermark (reads), a migration lock (writes). -/
def engineBusy (s : State) (p : Place) (n : Nat) (write : Bool) : Bool :=
  placeBusy s p || (if write then migrationLocked p else (blockedRead s p.lockKey n).isSome)

/-! ## The issuer's side -/

/-- Outstanding remote operation of a core, by its number. -/
def remoteOf (s : State) (i xid : Nat) : Option (Out × RemoteOp) :=
  match (s.core i).iss.outs.find? (fun o => o.id % 2 ^ 31 == xid) with
  | some o => (match o.op with | .remote r => some (o, r) | _ => none)
  | none => none

/-- The injection queue has room (R285). -/
def injRoom (s : State) (i n : Nat) : Bool := decide ((s.core i).cache.injq + n ≤ 32)

/-- Groups (R287, R289). -/
def groupOf (s : State) (g : Nat) : Option Group := mget? s.eng.groups g
def groupType (ws : List Word) : Nat := wf (ws.getD 0 0) 0 2
def groupRfmt (ws : List Word) : Nat := wf (ws.getD 0 0) 6 2
def groupRop (ws : List Word) : Nat := wf (ws.getD 0 0) 4 2
def groupMods (ws : List Word) : List Nat :=
  (List.range (wf (ws.getD 2 0) 0 5)).map fun k => wf (ws.getD (3 + k / 4) 0) (16 * (k % 4)) 14
def groupCores (ws : List Word) : List Nat := (rectOf (ws.getD 1 0)).cores

/-- Members of a group as (module, address of the offset). -/
def groupMembers (s : State) (ws : List Word) (off : Nat) : List (Nat × Word) :=
  if groupType ws = 1 then (groupCores ws).map fun c => (s.ownMod, W (tcmBase c + off))
  else (groupMods ws).map fun m => (m, (ws.getD 1 0) + W off)

def groupFlight (s : State) (g : Option Nat) (d : Int) : State :=
  match g with
  | none => s
  | some g => s.onEng fun e =>
      { e with groups := match mget? e.groups g with
          | some x => mput e.groups g { x with inflight := ((x.inflight : Int) + d).toNat }
          | none => e.groups }

/-- The kind of packet that answers a request. -/
def answerKind (k : Nat) : Nat := match k with | 1 => 2 | 3 => 4 | 5 => 6 | 7 => 8 | 9 => 12 | _ => 11

/-- A request leaves; an edge that cannot send it answers with its SUB, in the name of the module it was for. -/
def sendReq (s : State) (p : Packet) (core : Option Nat) : State :=
  match sendPkt s p core with
  | .ok t => t
  | .error sub =>
    s.onEng fun e =>
      { e with net := e.net ++ [{ answer s p (answerKind p.kind) with sub := sub, srcMod := p.dstMod, dstMod := p.srcMod }] }

/-- Requests to every member, in member order. The first request that leaves the module holds the access's injection
entry of core `hold`. -/
def sendMembers (s : State) (mk : Nat → Word → Packet) : Option Nat → List (Nat × Word) → State
  | _, [] => s
  | hold, (m, a) :: ms => sendMembers (sendReq s (mk m a) hold) mk (if m = s.ownMod then hold else none) ms

end Sys2Proof.Machine
end

