-- ==== Sys2Proof/Machine/Mem.lean ====
section
/-! DEFINITION. Ordinary memory, group 3 (R78 to R87), multicast apertures (R287, R290), and the events that complete
its loads, stores and prefetches (R83, R84, R204). -/

namespace Sys2Proof.Machine

/-! ## Apertures -/

/-- Width in bytes of a group's combining format (R288). -/
def rfmtBytes (rfmt : Nat) : Nat := if rfmt = 3 then 4 else 8

/-- Check 2 and check 5 of an aperture access (R287). DESIGN CHOICE, log 77. -/
def apertureCheck (s : State) (i g off n : Nat) (load pair : Bool) : Except Nat Group :=
  match groupOf s g with
  | none => .error 0x0E
  | some x =>
    let room := if groupType x.words = 1 then decide (off + n ≤ 0x20000) else true
    if pair || !room || (load && rfmtBytes (groupRfmt x.words) != n) then .error 0x0E
    else if x.owner ≠ ownerNow (s.core i) then .error 0x10
    else .ok x

/-- An aperture access (R290): one request for each member, and the operation that waits for their answers.
DESIGN CHOICE, log 77. -/
def apertureAccess (s : State) (i : Nat) (g off : Nat) (ea : Word) (n : Nat) (store : Option Word) (dst : Option LoadDst) :
    Eff :=
  match apertureCheck s i g off n store.isNone false with
  | .error cause => .trap s cause ea
  | .ok x =>
    if !injRoom s i 1 then .wait s
    else
      let id := (s.core i).iss.opCount
      let o := ownerNow (s.core i)
      let ms := groupMembers s x.words off
      let mk := fun m a =>
        { request s i o (if store.isSome then 3 else 1) m id with
          addr := a, val := store.getD 0, len := n, size := n.log2, group := some x.words }
      let s := groupFlight s (some g) 1
      let s := sendMembers s mk (some i) ms
      let r : RemoteOp :=
        { kind := if store.isSome then .apStore else .apLoad, dst, left := ms.length, vals := [], faults := []
          addr := ea, rfmt := groupRfmt x.words, rop := groupRop x.words, members := ms, group := some g, lines := [] }
      .done s (.out (.remote r) .remote dst.isSome false)

/-! ## Loads -/

/-- Whether a load at issue waits for a copy that fills its bytes of own memory (R269), or completes with that copy's
fault. -/
def ownLoadWait (s : State) (p : Place) (n : Nat) : Option Nat := blockedRead s p.lockKey n

/-- A load of the core's own TCM or tussock memory: a fixed latency (R50, R80). A load of the own TCM that a running copy has
still to fill waits at issue, one of the tussock memory at the array (R269): it is then a load of variable latency, which PD counts
as one cycle and which holds issue without a tag (R42). What is read takes back elements that a stream has read ahead there (R217).
DESIGN CHOICE, log 77. -/
def ownLoad (s : State) (i : Nat) (l : Loc) (p : Place) (ea : Word) (n : Nat) (dst : LoadDst) : Eff :=
  match (s.core i).cache.wmWait with
  | some (k, some v) =>
    .done (s.onCache i fun c => { c with wmWait := none }) (.out (.watermark k (some v) p ea dst true) .load true false)
  | _ =>
    match ownLoadWait s p n with
    | some k =>
      (match l with
       | .tcm .. => .wait (s.onCache i fun c => { c with wmWait := some (k, none) })
       | _ => .done s (.out (.watermark k none p ea dst true) .load true false))
    | none =>
      let s := s.onCache i fun c => { c with wmWait := none }
      if ownOverlap (s.core i) l n || unperfOverlap (s.core i) p.addr n ||
          readBefore (s.core i) (s.core i).iss.opCount p.addr n then .wait s
      else match poisonCode s p.addr n with
        | some code => containEff s i (poisonAddr s p.addr n) code
        | none =>
          let lat := match l with | .tcm .. => 3 | _ => 5
          .done (dropAhead s i p.addr n) (.fixed lat (loadWrites dst (placeBytes s p n)) 0)

/-- A load elsewhere: an L1 hit returns now, anything else is on its way (R84). -/
def farLoad (s : State) (i : Nat) (p : Place) (ea : Word) (n : Nat) (dst : LoadDst) (na : Bool) : Eff :=
  let out : Eff := .done s (.out (.load p ea dst na) .load true false)
  match p with
  | .global va pa _ true _ =>
    let c := s.core i
    (match l1Find s i (lineOf va) with
     | some l =>
       if bufBlocks (unperformed c) pa n c.iss.opCount || readBefore c c.iss.opCount pa n then out
       else
         (match l1Poison l va n with
          | some (k, code) => containEff (l1Touch s i (lineOf va)) i (pa + k) code
          | none =>
            let bs := withBuffer c c.iss.opCount pa ((l.data.drop (va % 64)).take n)
            .done (dropAhead (l1Touch s i (lineOf va)) i pa n) (.written (loadWrites dst bs)))
     | none => out)
  | _ => out

/-- A load of `n` bytes (R79 to R84). -/
def loadBody (dst : LoadDst) (na : Bool) (x : MemOp) (i : Nat) (s : State) : Eff :=
  let n := if dst.pair then 16 else dst.bytes
  let ea := effAddr (s.core i) x
  if ea.toNat % n ≠ 0 then .trap s 0x05 ea
  else match decodeAddr i (wf ea 0 56) with
    | some (.aperture g off) =>
      if dst.pair then .trap s 0x0E ea else apertureAccess s i g off ea n none (some dst)
    | _ =>
      withAccess s i ea n n 0 fun s l p => if ownFast i l then ownLoad s i l p ea n dst else farLoad s i p ea n dst na

def Size.bytes : Size → Nat
  | .n8 | .s8 => 1
  | .n16 | .s16 => 2
  | .n32 | .s32 => 4
  | .n64 => 8

def Size.signed : Size → Bool
  | .s8 | .s16 | .s32 => true
  | _ => false

/-- An access to a multicast aperture is a remote operation, any other one a load or a store (R80, R235). -/
def memCls (x : MemOp) (k : WaitCls) (c : CoreSt) : WaitCls :=
  if fld (wf (effAddr c x) 0 56) 48 8 = 0xFD then .e else k

/-- `ld` (R79). -/
def execLd (h : Hdr) (d : GReg) (x : MemOp) (sz : Size) (na : Bool) (s : State) : Host.Outcome State Fault Refusal :=
  issue .none h
    (holdAs (memCls x .l) fun i s =>
      loadBody { d := gdest (s.core i) d 0, bytes := Size.bytes sz, signed := Size.signed sz, pair := false } na x i s) s

/-- `ldp` (R79). -/
def execLdp (h : Hdr) (d : GReg) (x : MemOp) (na : Bool) (s : State) : Host.Outcome State Fault Refusal :=
  issue .none h
    (holdAs (memCls x .l) fun i s => loadBody { d := gdest (s.core i) d 0, bytes := 8, signed := false, pair := true } na x i s) s

/-! ## Stores -/

/-- A store to the core's own TCM or tussock memory (R85): LOCKED is precise, the write is performed at issue. -/
def ownStore (s : State) (i : Nat) (l : Loc) (p : Place) (ea : Word) (bs : List Byte) : Eff :=
  if lockedW s p.lockKey bs.length then .trap s 0x12 ea
  else if ownOverlap (s.core i) l bs.length || unperfOverlap (s.core i) p.addr bs.length ||
      readBefore (s.core i) (s.core i).iss.opCount p.addr bs.length then .wait s
  else .done (dropAhead (writePlace s p bs 0) i p.addr bs.length) .plain

/-- A store elsewhere enters the write buffer (R85). -/
def farStore (s : State) (i : Nat) (p : Place) (ea : Word) (bs : List Byte) : Eff :=
  if bufferFull (s.core i) then .wait s
  else
    let s := noteWrite (updateCopy s i p bs) i p
    let (s, seq) := pushStore s i ea p (.bytes bs) none false
    .done s (.out (.stored seq none) .store false false)

/-- A store of bytes (R79 to R85). -/
def storeBody (bs : CoreSt → List Byte) (pair : Bool) (x : MemOp) (i : Nat) (s : State) : Eff :=
  let c := s.core i
  let ea := effAddr c x
  let data := bs c
  let n := data.length
  if ea.toNat % n ≠ 0 then .trap s 0x05 ea
  else match decodeAddr i (wf ea 0 56) with
    | some (.aperture g off) =>
      if pair then .trap s 0x0E ea else apertureAccess s i g off ea n (some (W (ofLe data))) none
    | _ =>
      withAccess s i ea n n 1 fun s l p => if ownFast i l then ownStore s i l p ea data else farStore s i p ea data

/-- `st` (R79). -/
def execSt (h : Hdr) (d : GReg) (x : MemOp) (sz : Size) (s : State) : Host.Outcome State Fault Refusal :=
  issue .none h (holdAs (memCls x .s) <| storeBody (fun c => leBytes (Size.bytes sz) (gread c d).toNat) false x) s

/-- `stp` (R79). -/
def execStp (h : Hdr) (d : GReg) (x : MemOp) (s : State) : Host.Outcome State Fault Refusal :=
  issue .none h
    (holdAs (memCls x .s) <| storeBody (fun c => leBytes 8 (gread c d).toNat ++ leBytes 8 (greadN c (d.val + 1)).toNat) true x) s

/-! ## Hints and invalidations -/

/-- The translation of a hint's page: from the TLB, whose entry is used, or by a walk that completes at once. DEDUCED, log 72. -/
def hintTrans (s : State) (i va : Nat) : State × Option Trans :=
  match tlbFind (s.core i).cache.tlb va with
  | some t => (s.onCache i fun k => { k with tlb := tlbTouch k.tlb va }, some t)
  | none => translateNow s (dieOf i) va

/-- A dropped hint installs nothing (R86): the core's TLB and PLB and the walker's translation cache are as they were before it. -/
def hintDropped (s t : State) (i : Nat) : State :=
  (t.onCache i fun k => { k with tlb := (s.core i).cache.tlb, plb := (s.core i).cache.plb }).onWalker (dieOf i) fun k =>
    { k with tcache := (s.walker (dieOf i)).tcache }

/-- The place that a hint reaches (R86). DEDUCED, log 72. -/
def hintPlace (s : State) (i : Nat) (ea : Word) : State × Option Place :=
  let a := wf ea 0 56
  let col := wf ea 56 8
  match decodeAddr i a with
  | some (.paged va) =>
    let c := s.core i
    let (plb, es) := plbLookup s c.cache.plb (ownerNow c) va 0 col true
    (match hintTrans (setPlb s i plb) i va with
     | (u, none) => (hintDropped s u i, none)
     | (u, some t) =>
       if colourFails es col then (hintDropped s u i, none)
       else match check5 u (ownerNow c) (es.filter (·.colour == col)) (.paged va) 1 0 (some i) (supState c) t.key with
         | .pass => (u, some (.global va (t.frame + (va - t.page)) t.key t.c t.mlock))
         | .fail _ => (hintDropped s u i, none))
  | _ => (s, none)

/-- `pfh` (R86): a dropped hint counts in HINTDROP. A line of an uncacheable page enters no L1. DEDUCED, log 72. -/
def prefetch (home : Bool) (x : MemOp) (i : Nat) (s : State) : Eff :=
  match hintPlace s i (effAddr (s.core i) x) with
  | (s, none) => .done (s.onCache i fun c => { c with hintDrop := c.hintDrop + 1 }) .plain
  | (s, some p) =>
    let f : Prefetch := { line := lineOf p.lockKey, place := p, home, inval := false }
    .done (s.onCache i fun c => { c with prefetches := c.prefetches ++ [f] }) .plain

/-- `pfh.l1` (R86). DEDUCED, log 72. -/
def execPfhL1 (h : Hdr) (x : MemOp) (s : State) : Host.Outcome State Fault Refusal := issue .none h (prefetch false x) s

/-- `pfh.home` (R86). DEDUCED, log 72. -/
def execPfhHome (h : Hdr) (x : MemOp) (s : State) : Host.Outcome State Fault Refusal := issue .none h (prefetch true x) s

/-- `cinv.d` (R87). -/
def execCinvD (h : Hdr) (x : MemOp) (s : State) : Host.Outcome State Fault Refusal :=
  issue .none h
    (fun i s => .done (l1Drop s i (· == lineOf (wf (effAddr (s.core i) x) 0 56))) .plain) s

/-- `cinv.i` (R87). -/
def execCinvI (h : Hdr) (x : MemOp) (s : State) : Host.Outcome State Fault Refusal :=
  issue .none h
    (fun i s => .done (icDrop s i (· == lineOf (wf (effAddr (s.core i) x) 0 56))) .plain) s

/-- `cinv.da` (R87). -/
def execCinvDa (h : Hdr) (s : State) : Host.Outcome State Fault Refusal :=
  issue .none h (fun i s => .done (l1Drop s i fun _ => true) .plain) s

/-- `cinv.ia` (R87). -/
def execCinvIa (h : Hdr) (s : State) : Host.Outcome State Fault Refusal :=
  issue .none h (fun i s => .done (icDrop s i fun _ => true) .plain) s

/-! ## Completion of loads -/

/-- The fill of a miss (R84); `no` where it is not installed. DEDUCED, log 16. -/
def fillFrom (s : State) (i : Nat) (p : Place) (no : Bool) : State :=
  match p with
  | .global va _ _ true _ => if no then s else l1Fill s i (lineOf va) (fillBytes s i p) (linePoison s p)
  | _ => s

/-- The L1 copy of a place, if a load may take it. DEDUCED, log 16. -/
def copyAt (s : State) (i : Nat) (p : Place) : Option L1Line :=
  match p with
  | .global va _ _ true _ => l1Find s i (lineOf va)
  | _ => none

/-- A plain load returns (R83, R84): a contained error, or its data, with the fill of the L1. A line that has come into the L1
since the load issued is present, and the load takes its copy (R84, R217). DEDUCED, log 16. -/
def returnLoad (s : State) (i : Nat) (o : Out) (p : Place) (dst : LoadDst) (na : Bool) : State :=
  let n := if dst.pair then 16 else dst.bytes
  match copyAt s i p with
  | some l =>
    let va := p.lockKey
    (match l1Poison l va n with
     | some (k, code) => containAt (l1Touch s i (lineOf va)) i o.id (p.addr + k) code
     | none =>
       let bs := withBuffer (s.core i) o.id p.addr ((l.data.drop (va % 64)).take n)
       (dropAhead (l1Touch s i (lineOf va)) i p.addr n).completeWith i o.id (loadWrites dst bs) 0)
  | none =>
    match poisonCode s p.addr n with
    | some code => containAt s i o.id (poisonAddr s p.addr n) code
    | none =>
      let s := dropAhead (readTouch s p (s.classOf o.owner)) i p.addr n
      let bs := withBuffer (s.core i) o.id p.addr (placeBytes s p n)
      (fillFrom s i p (na || o.inval.contains (lineOf p.lockKey))).completeWith i o.id (loadWrites dst bs) 0

/-- A load that may not read yet: earlier writes of the core that the buffer cannot answer for, an earlier read of the core at
the same bytes (R217), a location that serves no access. -/
def loadWaits (s : State) (i : Nat) (o : Out) (p : Place) (n : Nat) : Bool :=
  bufBlocks (unperformed (s.core i)) p.addr n o.id || readBefore (s.core i) o.id p.addr n || placeBusy s p

/-- `lda` returns (R245): read at the location, the L1 copy of its line dropped (R219), what was read ahead read again (R235).
DEDUCED, log 17. -/
def returnAcquire (s : State) (i : Nat) (o : Out) (p : Place) (dst : LoadDst) : State :=
  match poisonCode s p.addr dst.bytes with
  | some code => containAt s i o.id p.addr code
  | none =>
    let s := readTouch s p (s.classOf o.owner)
    let bs := withBuffer (s.core i) o.id p.addr (placeBytes s p dst.bytes)
    let s := match p with | .global va _ _ _ _ => l1Drop s i (· == lineOf va) | _ => s
    (s.onRegs i Regs.forgetAhead).completeWith i o.id (loadWrites dst bs) 0

/-- WATERMARK_READ_RELEASE (R269): a waiting read proceeds when the watermark has passed it, or completes with the
copy's fault. -/
def execWatermarkReadRelease (s : State) : Host.Outcome State Fault Refusal :=
  let i := s.arg.core
  .next (match findOut (s.core i) s.arg.id with
    | none => s
    | some o =>
      match o.op with
      | .watermark _ (some v) _ _ _ _ => s.failOut i o.id 0x0D v
      | .watermark _ none p _ dst na =>
        let n := if dst.pair then 16 else dst.bytes
        if (blockedRead s p.lockKey n).isSome || loadWaits s i o p n then s else returnLoad s i o p dst na
      | _ => s)

/-! ## Completion of stores and prefetches -/

/-- WRITE_BUFFER_SEND (R204, R222, R242). -/
def execWriteBufferSend (s : State) : Host.Outcome State Fault Refusal :=
  let i := s.arg.core
  .next (match sendable (s.core i) with
    | none => s
    | some e =>
      s.onCore i fun c =>
        sringSt
          { c with cache := { c.cache with wb := c.cache.wb.map fun x =>
              if x.seq == e.seq then { x with sent := true } else x } } e.seq 1)

/-- STORE_AT_HOME (R85, R214): LOCKED, held at a migration-locked page, or performed. DESIGN CHOICE, log 77. -/
def execStoreAtHome (s : State) : Host.Outcome State Fault Refusal :=
  let i := s.arg.core
  .next (match atHome s i s.arg.id with
    | none => s
    | some e =>
      match e.op with
      | .bytes bs =>
        if lockedFor s i e.id e.place.lockKey bs.length then storeFault s i e 0x12 e.ea
        else if migrationLocked e.place then holdAtHome s i e
        else if (match decodeAddr 0 e.place.addr with
            | some (.tussock t _) => s.rcv.fences.tussocks.contains t
            | _ => false) then storeContain s i e 3
        else performed (performWrite s e.place bs e.owner) i e.seq none
      | _ => s)

/-- LATE_FAULT_ARRIVAL (R360): the first fault on its way reaches the core. -/
def execLateFaultArrival (s : State) : Host.Outcome State Fault Refusal :=
  let i := s.arg.core
  .next (match (s.core i).traps.inbound with
    | [] => s
    | f :: fs => arrive (s.onTraps i fun t => { t with inbound := fs }) i f)

/-- PREFETCH_FILL (R86): the line is brought into its mere, and for `pfh.l1` installed in the L1, unless an invalidation has met it
(R84). A hint whose line awaits forwarded stores waits. A line that the L1 already holds is fetched anew. DEDUCED, log 72. -/
def execPrefetchFill (s : State) : Host.Outcome State Fault Refusal :=
  let i := s.arg.core
  let c := s.core i
  .next (match c.cache.prefetches[s.arg.id]? with
    | none => s
    | some f =>
      let done := s.onCache i fun k => { k with prefetches := k.prefetches.eraseIdx s.arg.id }
      if placeBusy s f.place then s
      else fillFrom (readTouch done f.place (s.classOf (ownerNow c))) i f.place (f.home || f.inval))

/-- L1_LEASE_EXPIRY (R203). -/
def execL1LeaseExpiry (s : State) : Host.Outcome State Fault Refusal :=
  .next (s.onCache s.arg.core fun c =>
    { c with l1 := c.l1.filter fun l => !(l.line == s.arg.id && !leased s s.arg.core l.expire) })

/-- ICACHE_LEASE_EXPIRY (R34). -/
def execIcacheLeaseExpiry (s : State) : Host.Outcome State Fault Refusal :=
  .next (s.onCache s.arg.core fun c =>
    { c with ic := c.ic.filter fun l => !(l.line == s.arg.id && !leased s s.arg.core l.expire) })

/-- FIXED_LATENCY_WRITE (R50, R119): results that are due reach their registers. DEDUCED, log 21. -/
def execFixedLatencyWrite (s : State) : Host.Outcome State Fault Refusal := .next (flushDue s s.arg.core)

end Sys2Proof.Machine
end

