-- ==== Sys2Proof/Machine/Order.lean ====
section
/-! DEFINITION. Acquire, release, atomics, fences and barriers, group 4 (R238 to R258): the meanings, and the events at
homes and at the weir units that perform them. -/

namespace Sys2Proof.Machine

def Ord.isAcq : Ord → Bool | .acq | .ar => true | _ => false
def Ord.isRel : Ord → Bool | .rel | .ar => true | _ => false

/-- The place of a group 4 access to an array of the core itself (R241): its LOCKED fault is precise. -/
def ownLocked (s : State) (i : Nat) (l : Loc) (p : Place) (n : Nat) : Bool := ownFast i l && lockedW s p.lockKey n

/-- A location of a synchronisation record (R240): paged global memory only. DEDUCED, log 27. -/
def withSyncRec (s : State) (i : Nat) (ea : Word) (need : Nat) (k : State → Place → Eff) : Eff :=
  if ea.toNat % 256 ≠ 0 then .trap s 0x05 ea
  else match decodeAddr i (wf ea 0 56) with
    | some (.paged _) => withAccess s i ea 144 256 need fun s _ p => k s p
    | _ => .trap s 0x0E ea

/-! ## lda and strl (R244, R245) -/

def wBytes (w32 : Bool) : Nat := if w32 then 4 else 8

/-- `lda`. -/
def execLda (h : Hdr) (d a b : GReg) (w32 : Bool) (disp : BitVec 21) (s : State) : Host.Outcome State Fault Refusal :=
  issue .l h
    (fun i s =>
      let c := s.core i
      let ea := baseDisp c a disp
      let n := wBytes w32
      withScope (gread c b) s fun _ =>
        withAccess s i ea n n 0 fun s l p =>
          if ownFast i l && ownOverlap c l n then .wait s
          else
            let dst : LoadDst := { d := gdest c d 0, bytes := n, signed := false, pair := false }
            .done s (.out (.lda p dst) .load true true)) s

/-- `strl`: a release that writes the low bytes of D and publishes no signature. -/
def execStrl (h : Hdr) (d a b : GReg) (w32 : Bool) (disp : BitVec 21) (s : State) : Host.Outcome State Fault Refusal :=
  issue .s h
    (fun i s =>
      let c := s.core i
      let ea := baseDisp c a disp
      let n := wBytes w32
      let bs := leBytes n (gread c d).toNat
      withScope (gread c b) s fun _ =>
        withAccess s i ea n n 1 fun s l p =>
          if ownLocked s i l p n then .trap s 0x12 ea
          else if (ownFast i l && ownOverlap c l n) || bufferFull c then .wait s
          else
            let s := noteWrite (updateCopy s i p bs) i p
            let (s, seq) := pushStore s i ea p (.bytes bs) (some (scopeKind (gread c b))) true
            .done s (.out (.stored seq none) .store false false)) s

/-! ## fence (R253, R254) -/

/-- `fence`: it issues without waiting. -/
def execFence (h : Hdr) (c : GReg) (later : BitVec 4) (earlier : BitVec 3) (s : State) : Host.Outcome State Fault Refusal :=
  issue .none h
    (fun i s =>
      let v := gread (s.core i) c
      withScope v s fun _ => .done s (.out (.fence later earlier (scopeKind v)) .none false false)) s

/-! ## Records (R246 to R248) -/

/-- `acq`. -/
def execAcq (h : Hdr) (d a c : GReg) (s : State) : Host.Outcome State Fault Refusal :=
  issue .l h
    (fun i s =>
      let k := s.core i
      withScope (gread k c) s fun _ =>
        withSyncRec s i (gread k a) 0 fun s p => .done s (.out (.acq p d) .load true true)) s

/-- `rel`: WSIG and ISIG are taken and cleared at issue (R229, R247). -/
def execRel (h : Hdr) (a b c : GReg) (s : State) : Host.Outcome State Fault Refusal :=
  issue .s h
    (fun i s =>
      let k := s.core i
      let ea := gread k a
      withScope (gread k c) s fun _ =>
        withSyncRec s i ea 1 fun s p =>
          if bufferFull k then .wait s
          else
            let sig := k.regs.wsig ||| k.regs.isig
            let s := s.onRegs i fun r => { r with wsig := 0, isig := 0 }
            let (s, seq) := pushStore s i ea p (.rel (gread k b) sig) (some (scopeKind (gread k c))) true
            .done s (.out (.stored seq none) .store false false)) s

/-- `sigclr`. -/
def execSigclr (h : Hdr) (a : GReg) (s : State) : Host.Outcome State Fault Refusal :=
  issue .a h
    (fun i s =>
      let k := s.core i
      let ea := gread k a
      withSyncRec s i ea 1 fun s p =>
        if bufferFull k then .wait s
        else
          let (s, seq) := pushStore s i ea p .sigclr none false
          .done s (.out (.stored seq none) .atomic false false)) s

/-- `sigrd`. -/
def execSigrd (h : Hdr) (d a : GReg) (j : Fin 32) (s : State) : Host.Outcome State Fault Refusal :=
  issue .a h
    (fun i s =>
      let k := s.core i
      withSyncRec s i (gread k a) 0 fun s p => .done s (.out (.sigrd p d j.val) .atomic true false)) s

/-! ## Atomics (R249 to R252) -/

def AmoOp.code : AmoOp → Nat
  | .add => 0 | .and => 1 | .or => 2 | .xor => 3 | .min => 4 | .max => 5 | .minn => 6 | .maxn => 7 | .swap => 8
  | .fadd => 9 | .fmin => 10 | .fmax => 11

/-- The new value of an atomic on `8 n` bits (R250); `none` where `cas` writes nothing. -/
def atomicNew (op n old b expected : Nat) : Option Nat :=
  let w := 8 * n
  let f := if n = 8 then fmt64 else fmt32
  let lt := decide (toIntN old w < toIntN b w)
  match op with
  | 0 => some ((old + b) % 2 ^ w)
  | 1 => some (old &&& b)
  | 2 => some (old ||| b)
  | 3 => some (old ^^^ b)
  | 4 => some (if lt then old else b)
  | 5 => some (if lt then b else old)
  | 6 => some (min old b)
  | 7 => some (max old b)
  | 8 => some b
  | 9 => some (roundPre f .rne (fpAdd .rne (unpack f old) (unpack f b))).1
  | 10 => some (fpMinMax f false old b).1
  | 11 => some (fpMinMax f true old b).1
  | _ => if old = expected then some b else none

/-- An atomic of the core's own array in a locked range (R85, R268): LOCKED is precise. A `cas` that fails is a read only (R251): at a
destination it waits for the watermark (R269), elsewhere it goes on. `none`: the atomic waits. -/
def ownLockStops (s : State) (i : Nat) (l : Loc) (p : Place) (r : AtomicReq) : Option Bool :=
  if !ownLocked s i l p r.bytes then some false
  else if r.op < 12 then some true
  else if (blockedRead s p.lockKey r.bytes).isSome || unperfOverlap (s.core i) p.addr r.bytes then none
  else some (ofLe (placeBytes s p r.bytes) == r.expected.toNat)

/-- The body of `amo`, `red` and `cas`. DEDUCED, log 27. -/
def atomicBody (req : CoreSt → AtomicReq) (d : Option GReg) (a : GReg) (scope : Option GReg) (ord : Ord) (i : Nat)
    (s : State) : Eff :=
  let k := s.core i
  let r := req k
  let ea := gread k a
  let v := match scope with | some c => gread k c | none => 0
  withScope (if ord = .relaxed then 0 else v) s fun _ =>
    withAccess s i ea r.bytes r.bytes 3 fun s l p =>
      match ownLockStops s i l p r with
      | some true => .trap s 0x12 ea
      | none => .wait s
      | some false =>
      if (ownFast i l && ownOverlap k l r.bytes) || bufferFull k then .wait s
      else
        let s := noteWrite s i p
        let rel := if Ord.isRel ord then some (scopeKind v) else none
        let (s, seq) := pushStore s i ea p (.atomic r) rel (ord != .relaxed)
        .done s (.out (.stored seq d) .atomic d.isSome (Ord.isAcq ord))

/-- The operand bits of an atomic. -/
def lowBytes (n : Nat) (w : Word) : Word := W (fld w.toNat 0 (8 * n))

/-- `amo`. -/
def execAmo (h : Hdr) (d a b c : GReg) (op : AmoOp) (w32 : Bool) (ord : Ord) (s : State) :
    Host.Outcome State Fault Refusal :=
  issue .a h
    (atomicBody (fun k => { op := AmoOp.code op, bytes := wBytes w32, operand := lowBytes (wBytes w32) (gread k b), expected := 0 })
      (some d) a (some c) ord) s

/-- `red`. -/
def execRed (h : Hdr) (a b : GReg) (op : AmoOp) (w32 : Bool) (s : State) : Host.Outcome State Fault Refusal :=
  issue .a h
    (atomicBody (fun k => { op := AmoOp.code op, bytes := wBytes w32, operand := lowBytes (wBytes w32) (gread k b), expected := 0 })
      none a none .relaxed) s

/-- `cas`: D holds the expected value at issue. -/
def execCas (h : Hdr) (d a b c : GReg) (w32 : Bool) (ord : Ord) (s : State) : Host.Outcome State Fault Refusal :=
  issue .a h
    (atomicBody (fun k =>
        let n := wBytes w32
        { op := 12, bytes := n, operand := lowBytes n (gread k b), expected := lowBytes n (gread k d) })
      (some d) a (some c) ord) s

/-- What an atomic finds at its location and what it writes there: `none` where a `cas` fails (R250, R251). -/
def atomicValues (s : State) (p : Place) (r : AtomicReq) : Nat × Option Nat :=
  let old := ofLe (placeBytes s p r.bytes)
  (old, atomicNew r.op r.bytes old r.operand.toNat r.expected.toNat)

/-- The read and write of an atomic, one action (R250, R251). What the core has read ahead of an acquire or of newer bytes is read
again (R217, R235). -/
def performAtomic (s : State) (i : Nat) (e : StoreEnt) (r : AtomicReq) : State :=
  match poisonCode s e.place.addr r.bytes with
  | some code => storeContain s i e code
  | none =>
    let v := atomicValues s e.place r
    let s := match v.2 with
      | some w => performWrite s e.place (leBytes r.bytes w) e.owner
      | none => readTouch s e.place (s.classOf e.owner)
    let s := match e.place with | .global va _ _ _ _ => l1Drop s i (· == lineOf va) | _ => s
    let s := if ((outOfSeq (s.core i) e.seq).map (·.acquires)).getD false then s.onRegs i Regs.forgetAhead
      else dropAhead s i e.place.addr r.bytes
    performed s i e.seq (some (W v.1))

/-- HOME_ATOMIC (R214, R251, R268, R269): the write of an atomic fails in a locked range, and is held with its read at a
migration-locked page; a `cas` that fails counts as a read only. DESIGN CHOICE, log 77. -/
def execHomeAtomic (s : State) : Host.Outcome State Fault Refusal :=
  let i := s.arg.core
  .next (match atHome s i s.arg.id with
    | none => s
    | some e =>
      match e.op with
      | .atomic r =>
        let writes := (poisonCode s e.place.addr r.bytes).isSome || (atomicValues s e.place r).2.isSome
        if writes && lockedFor s i e.id e.place.lockKey r.bytes then storeFault s i e 0x12 e.ea
        else if writes && migrationLocked e.place && (poisonCode s e.place.addr r.bytes).isNone then holdAtHome s i e
        else if !writes && (blockedRead s e.place.lockKey r.bytes).isSome then s
        else performAtomic s i e r
      | _ => s)

/-! ## Records at their home (R224, R229, R230, R248) -/

/-- SIG of a record as bytes. -/
def sigOf (bs : List Byte) : Sig := BitVec.ofNat 1024 (ofLe ((bs.drop 16).take 128))

/-- Bytes 0 to 143 of a record after a `rel` (R229). -/
def recRel (bs : List Byte) (value : Word) (p : Sig) : List Byte :=
  let hd := ofLe ((bs.drop 8).take 8)
  let sg := sigOf bs ||| p
  let n := sigPop sg
  let full := if 640 < n then 1 else fld hd 48 1
  leBytes 8 value.toNat ++
    leBytes 8 (full * 2 ^ 48 + n * 2 ^ 32 + (fld hd 0 32 + 1) % 2 ^ 32) ++ leBytes 128 sg.toNat

/-- Bytes 8 to 143 of a record after a `sigclr` (R248). -/
def recClr (bs : List Byte) : List Byte := leBytes 8 (fld (ofLe ((bs.drop 8).take 8)) 0 32) ++ List.replicate 128 0

/-- A record operation of the write buffer, performed: one action (R224). -/
def performRecordOp (s : State) (i : Nat) (e : StoreEnt) : State :=
  match poisonCode s e.place.addr 144 with
  | some code => storeContain s i e code
  | none =>
    let bs := placeBytes s e.place 144
    let (p, out) := match e.op with
      | .rel v sig => (e.place, recRel bs v sig)
      | _ => (e.place.plus 8, recClr bs)
    let s := performRecord s p out e.owner
    let s := match p with
      | .global va _ _ _ _ => l1Store s i va out
      | _ => s
    performed s i e.seq none

/-- A record operation of the write buffer at its home (R214, R268). -/
def recordWrite (s : State) (i : Nat) (e : StoreEnt) : State :=
  let n := (entSpan e).2
  if lockedFor s i e.id (match e.op with | .rel .. => e.place.lockKey | _ => e.place.lockKey + 8) n then storeFault s i e 0x12 e.ea
  else if migrationLocked e.place && (poisonCode s e.place.addr 144).isNone then holdAtHome s i e
  else performRecordOp s i e

/-- An earlier `sigrd` of the core at the same home goes first (R235: AMR to AMR). -/
def sigrdWaits (s : State) (i id : Nat) (p : Place) : Bool :=
  (s.core i).iss.outs.any fun o =>
    match o.op with
    | .sigrd q _ j => decide (o.id < id) && homeOf s (q.plus (8 + 8 * j)) == homeOf s p
    | _ => false

/-- A record is not read while its bytes are held elsewhere, nor before an earlier read of the core there (R217). -/
def recordWaits (s : State) (i : Nat) (o : Out) (p : Place) : Bool :=
  placeBusy s p || readBefore (s.core i) o.id p.addr 144 || (s.core i).cache.wb.any fun e =>
    decide (e.id < o.id) && (homeOf s e.place == homeOf s p ||
      (decide (e.place.addr < p.addr + 144) && decide (p.addr < (entSpan e).1 + (entSpan e).2)))

/-- `acq` at the home and at the core (R230). DEDUCED, log 17. -/
def acquireRecord (s : State) (i : Nat) (o : Out) (p : Place) (d : GReg) : State :=
  if syncBefore (s.core i) o.id || recordWaits s i o p || (blockedRead s p.lockKey 144).isSome then s
  else match poisonCode s p.addr 144 with
    | some code => containAt s i o.id (poisonAddr s p.addr 144) code
    | none =>
      let bs := placeBytes s p 144
      let cls := s.classOf o.owner
      let s := readTouch (readTouch (readTouch s p cls) (p.plus 64) cls) (p.plus 128) cls
      let sg := sigOf bs
      let full := fld (ofLe ((bs.drop 8).take 8)) 48 1 == 1
      let s := s.onRegs i fun r => { r with isig := r.isig ||| sg }
      let s := sigDrop s i sg full
      let s := l1Drop s i fun l => decide (l / 4 = p.lockKey / 256)
      let s := s.onRegs i Regs.forgetAhead
      s.completeWith i o.id [gdest (s.core i) d (W (ofLe (bs.take 8)))] 0

/-- `sigrd` at the home (R248). -/
def readRecord (s : State) (i : Nat) (o : Out) (p : Place) (d : GReg) (j : Nat) : State :=
  if recordWaits s i o p || sigrdWaits s i o.id (p.plus (8 + 8 * j)) || (blockedRead s (p.lockKey + 8 + 8 * j) 8).isSome then s
  else match poisonCode s (p.addr + 8 + 8 * j) 8 with
    | some code => containAt s i o.id (poisonAddr s (p.addr + 8 + 8 * j) 8) code
    | none =>
      let s := dropAhead (readTouch s (p.plus (8 + 8 * j)) (s.classOf o.owner)) i (p.addr + 8 + 8 * j) 8
      s.completeWith i o.id [gdest (s.core i) d (W (ofLe (placeBytes s (p.plus (8 + 8 * j)) 8)))] 0

/-- SYNC_RECORD_AT_HOME: the record operation with the number `id` of the core. -/
def execSyncRecordAtHome (s : State) : Host.Outcome State Fault Refusal :=
  let i := s.arg.core
  let isRec := fun (e : StoreEnt) =>
    e.id == s.arg.id && (match e.op with | .rel .. => true | .sigclr => true | _ => false)
  .next (match (s.core i).cache.wb.find? isRec with
    | some e => (match atHome s i e.seq with | some e => recordWrite s i e | none => s)
    | none =>
      match findOut (s.core i) s.arg.id with
      | none => s
      | some o =>
        match o.op with
        | .acq p d => acquireRecord s i o p d
        | .sigrd p d j => readRecord s i o p d j
        | _ => s)

/-! ## bar (R255 to R258) -/

/-- `bar`: statuses 1 and 4 at the core; the arrival goes on its way otherwise. DEDUCED, log 27. -/
def execBar (h : Hdr) (d a b c : GReg) (id : Fin 64) (ch : Fin 32) (s : State) : Host.Outcome State Fault Refusal :=
  issue .e h
    (fun i s =>
      let k := s.core i
      let v := gread k b
      withScope v s fun _ =>
        if wf v 32 2 ≠ 0 ∨ (rectOf v).has i = false then status s i d 1
        else if !recvChannel s i ch.val then status s i d 4
        else .done s (.out (.bar d v id.val ch.val (gread k a) (gread k c)) .barrier true false)) s

/-- The slot of a barrier: the weir unit of the die that holds the rectangle's corner (R256). -/
def weirKey (scope : Word) (bar : Nat) : Nat :=
  let r := rectOf scope
  64 * dieOf (coreAt r.x0 r.y0) + bar

/-- The tokens of a completed phase, each at its member's channel edge (R256, R258). -/
def sendTokens (s : State) (owner count n : Nat) (u : Sig) : List (Nat × Nat × Word × Word) → State
  | [] => s
  | (k, ch, w0, w1) :: ms =>
    let words := [w0, w1, W (count % 2 ^ 32), W n, 0, 0, 0, 0]
    sendTokens (edgeAdd s k { ch, kind := .token, item := .data words (some u), owner, ref_ := 0 }) owner count n u ms

/-- An arrival at the weir unit (R257). -/
def weirArrive (s : State) (i : Nat) (o : Out) (d : GReg) (scope : Word) (bar ch : Nat) (w0 w1 : Word) : State :=
  let key := weirKey scope bar
  let rect := W (wf scope 0 32)
  let sig := (s.core i).regs.wsig ||| (s.core i).regs.isig
  let s := s.onRegs i fun r => { r with wsig := 0, isig := 0 }
  let slot := (mget? s.weirs key).getD { owner := o.owner, rect, arrived := [], union := 0 }
  let refuse := fun (s : State) (st : Nat) =>
    (s.onRegs i fun r => { r with wsig := r.wsig ||| sig }).completeWith i o.id [gdest (s.core i) d (W st)] 0
  if slot.owner ≠ o.owner ∨ slot.rect ≠ rect then refuse s 2
  else if slot.arrived.any (·.1 == i) then refuse s 3
  else
    let arrived := slot.arrived ++ [(i, ch, w0, w1)]
    let u := slot.union ||| sig
    let n := (rectOf scope).size
    let s := s.completeWith i o.id [gdest (s.core i) d 0] 0
    if arrived.length < n then
      { s with weirs := mput s.weirs key { slot with arrived := arrived, union := u } }
    else
      let count := (mget? s.weirCounts key).getD 0 + 1
      sendTokens { s with weirs := mdel s.weirs key, weirCounts := mput s.weirCounts key count } o.owner count n u arrived

/-- BAR_ARRIVAL_AT_WEIR: after the waits of R222 and R242, the signatures are taken and the arrival recorded. -/
def execBarArrivalAtWeir (s : State) : Host.Outcome State Fault Refusal :=
  let i := s.arg.core
  .next (match findOut (s.core i) s.arg.id with
    | none => s
    | some o =>
      match o.op with
      | .bar d scope bar ch w0 w1 =>
        if scopeWait (s.core i) o.id (scopeKind scope) anyMem || syncBefore (s.core i) o.id then s
        else weirArrive s i o d scope bar ch w0 w1
      | _ => s)

/-- TOKEN_DELIVERY (R256, R443): a token that waits at its channel is placed or discarded. -/
def execTokenDelivery (s : State) : Host.Outcome State Fault Refusal :=
  .next (match placeEdge s s.arg.core s.arg.id .token with | some (s, _) => s | none => s)

end Sys2Proof.Machine
end

