-- ==== Sys2Proof/Machine/Fp.lean ====
section
/-! DEFINITION. Scalar floating point, group 5 (R136 to R141). -/

namespace Sys2Proof.Machine

def FFmt.fmt : FFmt → Fmt
  | .f64 => fmt64
  | .f32 => fmt32
  | .h16 => fmtH16
  | .b16 => fmtB16

/-- The bits of a floating operand (R136). -/
def fbits (f : FFmt) (x : Word) : Nat := wf x 0 (FFmt.fmt f).width
def fval (f : FFmt) (x : Word) : FVal := unpack (FFmt.fmt f) (fbits f x)

/-- Latency of the add, subtract, multiply and FMA family (R138). -/
def famLat (f : FFmt) : Nat := if f = .f64 then 6 else 4

/-- A group 5 instruction: a fixed latency, the value that D takes with its flags. -/
def fpIssue (h : Hdr) (lat : Nat) (d : GReg) (f : CoreSt → Nat × Flags) (s : State) :
    Host.Outcome State Fault Refusal :=
  issue .none h (fun i s => let c := s.core i; .done s (.fixed lat [gdest c d (W (f c).1)] (f c).2)) s

/-- A rounded operation of two operands. -/
def fpBin (h : Hdr) (lat : Nat) (d a b : GReg) (f : FFmt) (rm : Rm) (op : FVal → FVal → Pre) (s : State) :
    Host.Outcome State Fault Refusal :=
  fpIssue h lat d (fun c => roundPre (FFmt.fmt f) rm (op (fval f (gread c a)) (fval f (gread c b)))) s

/-- A fused operation of three operands. -/
def fpTri (h : Hdr) (d a b c : GReg) (f : FFmt) (rm : Rm) (op : FVal → FVal → FVal → Pre) (s : State) :
    Host.Outcome State Fault Refusal :=
  fpIssue h (famLat f) d
    (fun k => roundPre (FFmt.fmt f) rm (op (fval f (gread k a)) (fval f (gread k b)) (fval f (gread k c)))) s

/-- `fadd` (R138). -/
def execFadd (h : Hdr) (d a b : GReg) (f : FFmt) (rm : Rm) (s : State) : Host.Outcome State Fault Refusal :=
  fpBin h (famLat f) d a b f rm (fpAdd rm) s

/-- `fsub` (R138). -/
def execFsub (h : Hdr) (d a b : GReg) (f : FFmt) (rm : Rm) (s : State) : Host.Outcome State Fault Refusal :=
  fpBin h (famLat f) d a b f rm (fun x y => fpAdd rm x y.negate) s

/-- `fmul` (R138). -/
def execFmul (h : Hdr) (d a b : GReg) (f : FFmt) (rm : Rm) (s : State) : Host.Outcome State Fault Refusal :=
  fpBin h (famLat f) d a b f rm fpMul s

/-- `fma` (R138). -/
def execFma (h : Hdr) (d a b c : GReg) (f : FFmt) (rm : Rm) (s : State) : Host.Outcome State Fault Refusal :=
  fpTri h d a b c f rm (fpFma rm) s

/-- `fms` (R138). -/
def execFms (h : Hdr) (d a b c : GReg) (f : FFmt) (rm : Rm) (s : State) : Host.Outcome State Fault Refusal :=
  fpTri h d a b c f rm (fun x y z => fpFma rm x y z.negate) s

/-- `fnma` (R138). -/
def execFnma (h : Hdr) (d a b c : GReg) (f : FFmt) (rm : Rm) (s : State) : Host.Outcome State Fault Refusal :=
  fpTri h d a b c f rm (fun x y z => fpFma rm x.negate y z) s

/-- `fdiv` (R138). -/
def execFdiv (h : Hdr) (d a b : GReg) (f : FFmt) (rm : Rm) (s : State) : Host.Outcome State Fault Refusal :=
  fpIssue h 14 d (fun c => fpDiv (FFmt.fmt f) rm (fval f (gread c a)) (fval f (gread c b))) s

/-- `fsqrt` (R138). -/
def execFsqrt (h : Hdr) (d a : GReg) (f : FFmt) (rm : Rm) (s : State) : Host.Outcome State Fault Refusal :=
  fpIssue h 20 d (fun c => fpSqrt (FFmt.fmt f) rm (fval f (gread c a))) s

/-- `fmin` (R139). -/
def execFmin (h : Hdr) (d a b : GReg) (f : FFmt) (s : State) : Host.Outcome State Fault Refusal :=
  fpIssue h 4 d (fun c => fpMinMax (FFmt.fmt f) false (fbits f (gread c a)) (fbits f (gread c b))) s

/-- `fmax` (R139). -/
def execFmax (h : Hdr) (d a b : GReg) (f : FFmt) (s : State) : Host.Outcome State Fault Refusal :=
  fpIssue h 4 d (fun c => fpMinMax (FFmt.fmt f) true (fbits f (gread c a)) (fbits f (gread c b))) s

/-- `fsgn` (R139). -/
def execFsgn (h : Hdr) (d a b : GReg) (f : FFmt) (op : SgnOp) (s : State) : Host.Outcome State Fault Refusal :=
  fpIssue h 4 d (fun c => (fpSgn (FFmt.fmt f) op (fbits f (gread c a)) (fbits f (gread c b)), 0)) s

/-- `fcmp` (R140). -/
def execFcmp (h : Hdr) (d : PReg) (a b : GReg) (f : FFmt) (c : FCond) (s : State) :
    Host.Outcome State Fault Refusal :=
  issue .none h
    (fun i s =>
      let k := s.core i
      let (r, fl) := fpCond c (fval f (gread k a)) (fval f (gread k b))
      .done s (.fixed 4 [.p d r] fl)) s

/-- `fclass` (R140). -/
def execFclass (h : Hdr) (d a : GReg) (f : FFmt) (s : State) : Host.Outcome State Fault Refusal :=
  fpIssue h 4 d (fun c => (fpClass (FFmt.fmt f) (fbits f (gread c a)), 0)) s

/-- A float format, or an integer type as sign and width (R141). -/
def CvtTy.kind : CvtTy → Fmt ⊕ (Bool × Nat)
  | .f64 => .inl fmt64
  | .f32 => .inl fmt32
  | .h16 => .inl fmtH16
  | .b16 => .inl fmtB16
  | .s64 => .inr (true, 64)
  | .s32 => .inr (true, 32)
  | .n64 => .inr (false, 64)
  | .n32 => .inr (false, 32)

/-- `fcvt` of an operand (R120, R141). -/
def convert (dst src : Fmt ⊕ (Bool × Nat)) (rm : Rm) (x : Word) : Word × Flags :=
  match dst, src with
  | .inl fd, .inl fs => let (b, fl) := fpConv fs fd rm (wf x 0 fs.width); (W b, fl)
  | .inl fd, .inr (sg, w) =>
    let v : Int := if sg then toIntN (wf x 0 w) w else wf x 0 w
    let (b, fl) := fpOfInt fd rm v
    (W b, fl)
  | .inr (sg, w), .inl fs =>
    let lo : Int := if sg then -(2 ^ (w - 1) : Int) else 0
    let hi : Int := if sg then (2 ^ (w - 1) : Int) - 1 else (2 ^ w : Int) - 1
    let (v, fl) := fpToInt rm lo hi (unpack fs (wf x 0 fs.width))
    let n := (v % (2 ^ w : Int)).toNat
    (if sg then sextN n w else W n, fl)
  | .inr _, .inr _ => (x, 0)

/-- `fcvt` (R141). -/
def execFcvt (h : Hdr) (d a : GReg) (dst src : CvtTy) (rm : Rm) (s : State) : Host.Outcome State Fault Refusal :=
  fpIssue h 4 d (fun c => let (w, fl) := convert (CvtTy.kind dst) (CvtTy.kind src) rm (gread c a); (w.toNat, fl)) s

/-- `frnd` (R138). -/
def execFrnd (h : Hdr) (d a : GReg) (f : FFmt) (rm : Rm) (s : State) : Host.Outcome State Fault Refusal :=
  fpIssue h 4 d (fun c => fpRnd (FFmt.fmt f) rm (fval f (gread c a))) s

/-- `fscale` (R138). -/
def execFscale (h : Hdr) (d a b : GReg) (f : FFmt) (rm : Rm) (s : State) : Host.Outcome State Fault Refusal :=
  fpIssue h 4 d (fun c => fpScale (FFmt.fmt f) rm (fval f (gread c a)) (gread c b).toInt) s

end Sys2Proof.Machine
end

