-- ==== Sys2Proof/Machine/Sfu.lean ====
section
/-! DEFINITION. The functions of `vsfu` (R161), correctly rounded: each value is enclosed between two fixed-point numbers
of 512 fraction bits, and both ends round to the same result. -/

namespace Sys2Proof.Machine

/-- Fraction bits. -/
def fxP : Nat := 512
/-- How far an approximation may lie from the exact value, in units of 2^-512. -/
def fxSlack : Nat := 4096

/-- Sum of 1 / ((2k + 1) × n^(2k + 1)), with alternating signs or without, in units of 2^-q. -/
def invSeries (q n : Nat) (alt : Bool) : Nat → Nat → Nat → Int
  | 0, _, _ => 0
  | fuel + 1, k, p =>
    let t : Int := 2 ^ q / (p * (2 * k + 1))
    (if alt && k % 2 == 1 then -t else t) + invSeries q n alt fuel (k + 1) (p * n * n)

/-- ln 2 = 2 artanh(1/3) and π (Machin's formula), in units of 2^-512. -/
def fxLn2 : Int := 2 * invSeries (fxP + 64) 3 false 200 0 3 / 2 ^ 64
def fxPi : Int :=
  4 * (4 * invSeries (fxP + 64) 5 true 140 0 5 - invSeries (fxP + 64) 239 true 60 0 239) / 2 ^ 64

/-- e^t from its series: the terms from term `k` on. -/
def expSeries (t : Int) : Nat → Nat → Int → Int
  | 0, _, _ => 0
  | fuel + 1, k, term => term + expSeries t fuel (k + 1) (term * t / (2 ^ fxP * (k + 1 : Int)))

def fxExp (t : Int) : Int := expSeries t 160 0 (2 ^ fxP)

/-- sin t from its series. -/
def sinSeries (t : Int) : Nat → Nat → Int → Int
  | 0, _, _ => 0
  | fuel + 1, k, term =>
    term + sinSeries t fuel (k + 1) (-(term * t / 2 ^ fxP * t) / (2 ^ fxP * ((2 * k + 2) * (2 * k + 3) : Int)))

def fxSin (t : Int) : Int := sinSeries t 80 0 t

/-- artanh z from its series. -/
def atanhSeries (z : Int) : Nat → Nat → Int → Int
  | 0, _, _ => 0
  | fuel + 1, k, p => p / (2 * k + 1 : Int) + atanhSeries z fuel (k + 1) (p * z / 2 ^ fxP * z / 2 ^ fxP)

/-- m × 2^e in units of 2^-512, exact for e ≥ -512. -/
def fxOf (m : Nat) (e : Int) : Int := m * 2 ^ (e + fxP).toNat

/-- e^(-a) of a ≥ 0. -/
def fxExpNeg (a : Int) : Int :=
  let n := a / fxLn2
  fxExp (-(a - n * fxLn2)) / 2 ^ n.toNat

def SfuOp.code : SfuOp → Nat
  | .rcp => 0 | .rsqrt => 1 | .exp2 => 2 | .log2 => 3 | .sinpi => 4 | .cospi => 5 | .tanh => 6 | .sigm => 7

/-- The rounded result of an inexact value near `v` × 2^e. DESIGN CHOICE, log 13. -/
def sfuRound (op : SfuOp) (x : Nat) (neg : Bool) (v : Int) (e : Int) : Nat × Flags :=
  let lo := roundFin fmt32 .rne neg (v.toNat - fxSlack) e true
  let hi := roundFin fmt32 .rne neg (v.toNat + fxSlack - 1) e true
  if lo = hi then lo else ((Config.sfuUndecided op.code (BitVec.ofNat 32 x)).toNat, lo.2 ||| hi.2)

/-- A value strictly between 0 and every result, and one strictly between 1 - 2^-64 and 1. -/
def sfuTiny (neg : Bool) : Nat × Flags := roundFin fmt32 .rne neg 1 (-200) true
def sfuNearOne (neg : Bool) : Nat × Flags := roundFin fmt32 .rne neg (2 ^ 64 - 1) (-64) true

/-- DESIGN CHOICE, log 13. -/
def sfuExact (neg : Bool) (m : Nat) (e : Int) : Nat × Flags := roundVal fmt32 .rne (.fin neg m e)

/-- Whether m × 2^e is an integer, and its floor. -/
def isInt (m : Nat) (e : Int) : Bool := decide (0 ≤ e) || m % 2 ^ (-e).toNat == 0

/-- |x| modulo 2 in units of 2^-512. -/
def fxMod2 (m : Nat) (e : Int) : Int := if 2 ≤ e then 0 else fxOf m e % 2 ^ (fxP + 1)

def sfuRsqrt (m : Nat) (e : Int) : Nat × Flags :=
  let odd := e % 2 = 1
  let m' := if odd then 2 * m else m
  let e' := if odd then e - 1 else e
  let r := isqrt (2 ^ 160 / m')
  roundFin fmt32 .rne false r (-80 - e' / 2) (r * r * m' != 2 ^ 160)

def sfuExp2 (x : Nat) (neg : Bool) (m : Nat) (e : Int) : Nat × Flags :=
  if 8 ≤ (m.log2 : Int) + e then (if neg then sfuTiny false else roundFin fmt32 .rne false 1 200 true)
  else
    let v : Int := (if neg then -1 else 1) * fxOf m e
    let n := v / 2 ^ fxP
    let f := v % 2 ^ fxP
    if f = 0 then sfuExact false 1 n else sfuRound .exp2 x false (fxExp (f * fxLn2 / 2 ^ fxP)) (n - fxP)

def sfuLog2 (x : Nat) (m : Nat) (e : Int) : Nat × Flags :=
  let k := m.log2
  let n : Int := k + e
  if m = 2 ^ k then roundVal fmt32 .rne (.fin (decide (n < 0)) n.natAbs 0)
  else
    let z : Int := ((m : Int) - 2 ^ k) * 2 ^ fxP / ((m : Int) + 2 ^ k)
    let v := n * 2 ^ fxP + 2 * atanhSeries z 180 0 z * 2 ^ fxP / fxLn2
    sfuRound .log2 x (decide (v < 0)) v.natAbs (-fxP)

/-- sin(πr) of r in (0, 1/2), with a sign. -/
def sfuSinOf (op : SfuOp) (x : Nat) (neg : Bool) (r : Int) : Nat × Flags :=
  sfuRound op x neg (fxSin (r * fxPi / 2 ^ fxP)) (-fxP)

def sfuSinpi (x : Nat) (neg : Bool) (m : Nat) (e : Int) : Nat × Flags :=
  if isInt m e then sfuExact neg 0 0
  else
    let r := fxMod2 m e
    let sg := neg != decide (2 ^ fxP ≤ r)
    let r1 := r % 2 ^ fxP
    let r2 := min r1 (2 ^ fxP - r1)
    if 2 * r2 = 2 ^ fxP then sfuExact sg 1 0 else sfuSinOf .sinpi x sg r2

def sfuCospi (x : Nat) (m : Nat) (e : Int) : Nat × Flags :=
  let r := fxMod2 m e
  let r1 := r % 2 ^ fxP
  if 2 * r1 = 2 ^ fxP then sfuExact false 0 0
  else
    let sg := decide (2 ^ fxP ≤ r) != decide (2 ^ fxP < 2 * r1)
    if r1 = 0 then sfuExact sg 1 0 else sfuSinOf .cospi x sg ((2 ^ fxP - 2 * r1).natAbs / 2)

def sfuTanh (x : Nat) (neg : Bool) (m : Nat) (e : Int) : Nat × Flags :=
  if m = 0 then sfuExact neg 0 0
  else if 6 ≤ (m.log2 : Int) + e then sfuNearOne neg
  else
    let u := fxExpNeg (2 * fxOf m e)
    sfuRound .tanh x neg ((2 ^ fxP - u) * 2 ^ fxP / (2 ^ fxP + u)) (-fxP)

def sfuSigm (x : Nat) (neg : Bool) (m : Nat) (e : Int) : Nat × Flags :=
  if m = 0 then sfuExact false 1 (-1)
  else if 7 ≤ (m.log2 : Int) + e then (if neg then sfuTiny false else sfuNearOne false)
  else
    let u := fxExpNeg (fxOf m e)
    sfuRound .sigm x false ((if neg then u else 2 ^ fxP) * 2 ^ fxP / (2 ^ fxP + u)) (-fxP)

/-- A function of `vsfu` on FP32 bits: result and flags. DESIGN CHOICE, log 13. -/
def sfu (op : SfuOp) (x : Nat) : Nat × Flags :=
  let v := unpack fmt32 x
  let f := fmt32
  match v with
  | .nan sig => (f.nan, flagIf sig flInvalid)
  | .inf neg =>
    (match op with
     | .rcp => (f.zero neg, 0)
     | .rsqrt => if neg then (f.nan, flInvalid) else (f.zero false, 0)
     | .exp2 => if neg then (f.zero false, 0) else (f.inf false, 0)
     | .log2 => if neg then (f.nan, flInvalid) else (f.inf false, 0)
     | .sinpi | .cospi => (f.nan, flInvalid)
     | .tanh => sfuExact neg 1 0
     | .sigm => if neg then (f.zero false, 0) else sfuExact false 1 0)
  | .fin neg m e =>
    match op with
    | .rcp => fpDiv f .rne (unpack f 0x3F800000) v
    | .rsqrt => if m = 0 then (f.inf neg, flDivzero) else if neg then (f.nan, flInvalid) else sfuRsqrt m e
    | .exp2 => if m = 0 then sfuExact false 1 0 else sfuExp2 x neg m e
    | .log2 => if m = 0 then (f.inf true, flDivzero) else if neg then (f.nan, flInvalid) else sfuLog2 x m e
    | .sinpi => if m = 0 then sfuExact neg 0 0 else sfuSinpi x neg m e
    | .cospi => if m = 0 then sfuExact false 1 0 else sfuCospi x m e
    | .tanh => sfuTanh x neg m e
    | .sigm => sfuSigm x neg m e

end Sys2Proof.Machine
end

