-- ==== Sys2Proof/Machine/Vec.lean ====
section
/-! DEFINITION. Vector instructions, group 6 (R142 to R161), the grant of a queued claim (R143) and the completion of
coprocessor results (R151). -/

namespace Sys2Proof.Machine

/-! ## Claims (R142 to R147) -/

/-- A grant: registers of the new width, all zero (R147). DEDUCED, log 26. -/
def Regs.claim (r : Regs) (g mn : Nat) : Regs :=
  { r with
    v := Vector.replicate 32 (List.replicate g 0), m := Vector.replicate 8 0, vgrant := g, vmin := mn }

/-- The lanes that a claim receives (R143). DEDUCED, log 26. -/
def grantOf (mx free : Nat) : Nat := min mx free / 16 * 16

/-- DEDUCED, log 26. -/
def claimBody (d : GReg) (try_ : Bool) (mn mx : Nat) (ta : Fin 16) (i : Nat) (s : State) : Eff :=
  let c := s.core i
  let t := tusOf i
  if c.regs.vgrant ≠ 0 then .trap s 0x07 1
  else if c.iss.outs.any (fun o => match o.op with | .claim .. => true | _ => false) then .wait s
  else
    let free := freeLanes s t
    if (s.pool t).queue.isEmpty && decide (mn ≤ free) then
      let g := grantOf mx free
      .done (s.onRegs i fun r => r.claim g mn) (.written [gdest c d (W g)])
    else if try_ then .done s (.written [gdest c d 0])
    else
      let id := c.iss.opCount
      let o : Out :=
        { id, tag := ta, pc := (c.firing.map (·.pc)).getD 0, cyc := s.now, holds := false, acquires := false, cls := .none
          owner := ownerNow c, firing := (c.firing.map (·.num)).getD 0, inval := [], ring := none, op := .claim d mn mx }
      let s := s.onIss i fun k => { k with outs := k.outs ++ [o] }
      .wait (postShrink (s.onPool t fun p => { p with queue := p.queue ++ [{ core := i, id, min := mn, max := mx }] }) t)

/-- `vclaim` (R142 to R144). -/
def execVclaim (h : Hdr) (d : GReg) (try_ : Bool) (mn mx : Fin 16) (s : State) : Host.Outcome State Fault Refusal :=
  issueCop .none h (forbid 0x180 (claimBody d try_ (16 * mn.val) (16 * mx.val) h.ta)) s

def plainHdr (ta : Fin 16) : Hdr := { pd := 0, ta, tw0 := 0, tw1 := 0, neg := false, pg := 0 }

/-- VCLAIM_GRANT (R143): the claim at the head of the pool's queue is granted; its instruction issues with it. A claim is not
granted on a stopped core (R194), nor while a trap or an abort that goes ahead of its instruction waits for the firing's tags:
the trap's entry withdraws it (R145, R362). DEDUCED, log 26. -/
def execVclaimGrant (s : State) : Host.Outcome State Fault Refusal :=
  let t := s.arg.unit
  .next (match (s.pool t).queue with
    | [] => s
    | q :: qs =>
      let free := freeLanes s t
      let c := s.core q.core
      if free < q.min || c.stopped.isSome || c.traps.pending.isSome || c.traps.abort.isSome then s
      else
        match c.firing, findOut c q.id with
        | some f, some o =>
          match o.op with
          | .claim d mn mx =>
            let g := grantOf mx free
            let s := flushDue s q.core
            let s := s.onPool t fun p => { p with queue := qs }
            let s := s.onCore q.core fun c => dropOut c q.id
            let s := s.onRegs q.core fun r => r.claim g mn
            settle (postShrink s t) q.core f (plainHdr o.tag) true (.written [gdest c d (W g)])
          | _ => s
        | _, _ => postShrink (s.onPool t fun p => { p with queue := qs }) t)

/-- Group 6 and group 7 instructions that have not completed (R146). -/
def vectorBusy (s : State) (c : CoreSt) : Bool :=
  c.iss.outs.any (fun o => match o.op with | .cop .. => true | .vload _ => true | .vstore .. => true | _ => false) ||
    c.traps.cring.any fun e => match e.done with | some t => decide (s.now < t) | none => false

/-- `vrelease` (R146). -/
def execVrelease (h : Hdr) (s : State) : Host.Outcome State Fault Refusal :=
  issueCop .none h
    (forbid 0x181 fun i s =>
      if vectorBusy s (s.core i) then .wait s
      else .done (if (s.core i).regs.vgrant = 0 then s else s.releaseLanes i) .plain) s

/-- `vrelease.sp` (R146): a shrink point. -/
def execVreleaseSp (h : Hdr) (d : GReg) (s : State) : Host.Outcome State Fault Refusal :=
  issueCop .none h
    (forbid 0x181 fun i s =>
      if vectorBusy s (s.core i) then .wait s
      else
        let s :=
          if (s.pool (tusOf i)).shrink.contains i then postShrink (s.onRegs i fun r => r.shrink r.vmin) (tusOf i) else s
        let c := s.core i
        .done s (.written [gdest c d (W c.regs.vgrant)])) s

/-! ## Elements (R148 to R150) -/

def vcount (f64 : Bool) (g : Nat) : Nat := if f64 then g / 2 else g

/-- Element `j` of a list of lanes. -/
def vElem (f64 : Bool) (ls : List Lane) (j : Nat) : Nat :=
  if f64 then (ls.getD (2 * j) 0).toNat + 2 ^ 32 * (ls.getD (2 * j + 1) 0).toNat else (ls.getD j 0).toNat

def vreg (c : CoreSt) (r : VReg) : List Lane := vget c.regs.v [] r.val
def vmaskBits (c : CoreSt) (m : MReg) : BitVec 128 := vget c.regs.m 0 m.val

/-- A vector operand or a g register that every element reads (R150). -/
def vgElem (c : CoreSt) (f64 : Bool) (x : VG) (j : Nat) : Nat :=
  match x with
  | .v r => vElem f64 (vreg c r) j
  | .g r => wf (gread c r) 0 (if f64 then 64 else 32)

/-- Element `j` is active under MASK (R149). -/
def active (c : CoreSt) (m : MReg) (j : Nat) : Bool := m = 0 || (vmaskBits c m).getLsbD j

/-- Lanes that element results write. -/
def vLanes (f64 : Bool) (rs : List (Option Nat)) : List (Option Lane) :=
  if f64 then rs.flatMap fun r => [r.map fun n => BitVec.ofNat 32 n, r.map fun n => BitVec.ofNat 32 (n / 2 ^ 32)]
  else rs.map fun r => r.map fun n => BitVec.ofNat 32 n

def orFlags (fs : List Flags) : Flags := fs.foldl (· ||| ·) 0

/-- How a group 6 result leaves: the fixed latency of R151, or a coprocessor result. -/
def copRes (c : CoreSt) (vl : Bool) (ws : List RegWrite) (fl : Flags) : Res :=
  if vl then .out (.cop ws fl) .none true false
  else .fixed (6 + (c.regs.vgrant + 31) / 32) ws fl

/-- A group 6 instruction that has a claim, with the writes and flags it computes at issue. -/
def vecIssue (h : Hdr) (vl : Bool) (f : CoreSt → List RegWrite × Flags) (s : State) :
    Host.Outcome State Fault Refusal :=
  issueCop .none h
    (needClaim fun i s =>
      let c := s.core i
      let (ws, fl) := f c
      .done s (copRes c vl ws fl)) s

/-- Results of the active elements. -/
def vecMap (c : CoreSt) (f64 : Bool) (mask : MReg) (f : Nat → Nat × Flags) : List (Option Nat) × Flags :=
  let rs := (List.range (vcount f64 c.regs.vgrant)).map fun j => if active c mask j then some (f j) else none
  (rs.map fun r => r.map (·.1), orFlags (rs.map fun r => (r.map (·.2)).getD 0))

/-- An element-wise instruction. -/
def vecElems (h : Hdr) (f64 : Bool) (d : VReg) (mask : MReg) (f : CoreSt → Nat → Nat × Flags) (s : State) :
    Host.Outcome State Fault Refusal :=
  vecIssue h f64
    (fun c =>
      let (rs, fl) := vecMap c f64 mask (f c)
      ([.v d (vLanes f64 rs)], fl)) s

def VTy.is64 (vt : VTy) : Bool := vt = .f64
def VTy.fmt (vt : VTy) : Fmt := if vt = .f64 then fmt64 else fmt32
def VTy.ty (vt : VTy) : IntTy := if vt = .s32 then .s32 else .n32

/-- A rounded or an exact integer operation on bits (R152). -/
def vArith (vt : VTy) (op : VOp) (fp : Rm → List FVal → Pre) (int : List Int → Int) (xs : List Nat) : Nat × Flags :=
  match op with
  | .fp rm => roundPre (VTy.fmt vt) rm (fp rm (xs.map (unpack (VTy.fmt vt))))
  | .int sat => (wf (resultOf (VTy.ty vt) sat (int (xs.map fun x => opnd (VTy.ty vt) (W x)))) 0 32, 0)

def fp2 (f : FVal → FVal → Pre) (xs : List FVal) : Pre :=
  match xs with | [a, b] => f a b | _ => invalidPre
def int2 (f : Int → Int → Int) (xs : List Int) : Int := match xs with | [a, b] => f a b | _ => 0

/-- A two-operand arithmetic instruction. -/
def vBin (h : Hdr) (d a : VReg) (b : VG) (mask : MReg) (vt : VTy) (f : Nat → Nat → Nat × Flags) (s : State) :
    Host.Outcome State Fault Refusal :=
  vecElems h (VTy.is64 vt) d mask
    (fun c j => f (vElem (VTy.is64 vt) (vreg c a) j) (vgElem c (VTy.is64 vt) b j)) s

/-- `vadd` (R152). -/
def execVadd (h : Hdr) (d a : VReg) (b : VG) (mask : MReg) (vt : VTy) (op : VOp) (s : State) :
    Host.Outcome State Fault Refusal :=
  vBin h d a b mask vt (fun x y => vArith vt op (fun rm => fp2 (fpAdd rm)) (int2 (· + ·)) [x, y]) s

/-- `vsub` (R152). -/
def execVsub (h : Hdr) (d a : VReg) (b : VG) (mask : MReg) (vt : VTy) (op : VOp) (s : State) :
    Host.Outcome State Fault Refusal :=
  vBin h d a b mask vt
    (fun x y => vArith vt op (fun rm => fp2 fun p q => fpAdd rm p q.negate) (int2 (· - ·)) [x, y]) s

/-- `vmul` (R152). -/
def execVmul (h : Hdr) (d a : VReg) (b : VG) (mask : MReg) (vt : VTy) (op : VOp) (s : State) :
    Host.Outcome State Fault Refusal :=
  vBin h d a b mask vt (fun x y => vArith vt op (fun _ => fp2 fpMul) (int2 (· * ·)) [x, y]) s

/-- `vfma` (R152). -/
def execVfma (h : Hdr) (d a : VReg) (b : VG) (c : VReg) (mask : MReg) (vt : VTy) (op : VOp) (s : State) :
    Host.Outcome State Fault Refusal :=
  let w := VTy.is64 vt
  let fp := fun (rm : Rm) (xs : List FVal) => match xs with | [x, y, z] => fpFma rm x y z | _ => invalidPre
  let int := fun (xs : List Int) => match xs with | [x, y, z] => x * y + z | _ => 0
  vecElems h w d mask
    (fun k j => vArith vt op fp int [vElem w (vreg k a) j, vgElem k w b j, vElem w (vreg k c) j]) s

/-- Minimum or maximum of two elements (R139, R152). -/
def vMinMax (vt : VTy) (isMax : Bool) (x y : Nat) : Nat × Flags :=
  if VTy.float vt then fpMinMax (VTy.fmt vt) isMax x y
  else
    let lt := decide (opnd (VTy.ty vt) (W x) < opnd (VTy.ty vt) (W y))
    (if lt != isMax then x else y, 0)

/-- `vmin` (R152). -/
def execVmin (h : Hdr) (d a : VReg) (b : VG) (mask : MReg) (vt : VTy) (s : State) : Host.Outcome State Fault Refusal :=
  vBin h d a b mask vt (vMinMax vt false) s

/-- `vmax` (R152). -/
def execVmax (h : Hdr) (d a : VReg) (b : VG) (mask : MReg) (vt : VTy) (s : State) : Host.Outcome State Fault Refusal :=
  vBin h d a b mask vt (vMinMax vt true) s

/-- `vsgn` (R152). -/
def execVsgn (h : Hdr) (d a : VReg) (b : VG) (mask : MReg) (vt : VTy) (op : SgnOp) (s : State) :
    Host.Outcome State Fault Refusal :=
  vBin h d a b mask vt (fun x y => (fpSgn (VTy.fmt vt) op x y, 0)) s

/-- A mask from one Bool per element; bits above the elements are zero (R148). -/
def maskOf (bs : List Bool) : BitVec 128 :=
  BitVec.ofNat 128 (bs.foldr (fun b n => 2 * n + b2n b) 0)

/-- A condition on two elements (R140, R153). -/
def vCond (vt : VTy) (c : VCond) (x y : Nat) : Bool × Flags :=
  if VTy.float vt then fpCond c (unpack (VTy.fmt vt) x) (unpack (VTy.fmt vt) y)
  else
    let p := opnd (VTy.ty vt) (W x)
    let q := opnd (VTy.ty vt) (W y)
    (match c with
     | .eq => p = q | .ne => p ≠ q | .lt => p < q | .le => p ≤ q | .gt => p > q | .ge => p ≥ q
     | .uo => false | .or => true, 0)

/-- `vcmp` (R153). -/
def execVcmp (h : Hdr) (d : MReg) (a : VReg) (b : VG) (mask : MReg) (vt : VTy) (c : VCond) (s : State) :
    Host.Outcome State Fault Refusal :=
  let w := VTy.is64 vt
  vecIssue h w
    (fun k =>
      let rs := (List.range (vcount w k.regs.vgrant)).map fun j =>
        if active k mask j then vCond vt c (vElem w (vreg k a) j) (vgElem k w b j) else (false, 0)
      ([.m d (maskOf (rs.map (·.1)))], orFlags (rs.map (·.2)))) s

/-- `vsel` (R154). -/
def execVsel (h : Hdr) (d a : VReg) (b : VG) (c : MReg) (vt : VTy) (s : State) : Host.Outcome State Fault Refusal :=
  let w := VTy.is64 vt
  vecElems h w d 0
    (fun k j => (if (vmaskBits k c).getLsbD j then vElem w (vreg k a) j else vgElem k w b j, 0)) s

/-- A bitwise operation on `w` bits (R154). -/
def logOp (op : LogOp) (w x y : Nat) : Nat :=
  match op with
  | .and => x &&& y
  | .or => x ||| y
  | .xor => x ^^^ y
  | .andn => x &&& (y ^^^ (2 ^ w - 1))
  | .not => x ^^^ (2 ^ w - 1)

/-- `vlog` (R154): lanes or masks over g bits. -/
def execVlog (h : Hdr) (x : LogArg) (op : LogOp) (s : State) : Host.Outcome State Fault Refusal :=
  match x with
  | .lanes d a b mask =>
    vecElems h false d mask (fun c j => (logOp op 32 (vElem false (vreg c a) j) (vgElem c false b j), 0)) s
  | .masks d a b =>
    vecIssue h false
      (fun c => ([.m d (BitVec.ofNat 128 (logOp op 128 (vmaskBits c a).toNat (vmaskBits c b).toNat))], 0)) s

/-- A 32-bit shift (R154). -/
def shOp (op : ShOp) (x n : Nat) : Nat :=
  let b := BitVec.ofNat 32 x
  (match op with | .shl => b <<< n | .shr => b >>> n | .sra => b.sshiftRight n | .rol => b.rotateLeft n).toNat

/-- `vsh` (R154). -/
def execVsh (h : Hdr) (d a : VReg) (b : VG) (mask : MReg) (vt : VTy) (op : ShOp) (s : State) :
    Host.Outcome State Fault Refusal :=
  vBin h d a b mask vt (fun x y => (shOp op x (y % 32), 0)) s

/-! ## Conversions, codes, packing (R155 to R157) -/

def VCvtTy.kind : VCvtTy → Fmt ⊕ (Bool × Nat)
  | .f32 => .inl fmt32
  | .f64 => .inl fmt64
  | .s32 => .inr (true, 32)
  | .n32 => .inr (false, 32)
  | .h16 => .inl fmtH16
  | .b16 => .inl fmtB16

/-- Tiny under R155: the exact value rounded to BF16 precision with unbounded exponents lies below 2^-126. DEDUCED, log 31. -/
def tinyB16 (rm : Rm) : FVal → Bool
  | .fin neg m e =>
    let qu : Int := m.log2 + e - 7
    m != 0 && decide (((roundUnits rm neg m e false qu).1.log2 : Int) + qu < -126)
  | _ => false

/-- One element of `vcvt`. DEDUCED, log 31. -/
def vConvert (flush : Bool) (dst src : VCvtTy) (rm : Rm) (x : Nat) : Nat × Flags :=
  let r := convert (VCvtTy.kind dst) (VCvtTy.kind src) rm (W x)
  match flush, VCvtTy.kind src with
  | true, .inl f =>
    let v := unpack f (fld x 0 f.width)
    if tinyB16 rm v then (fmtB16.zero v.neg?, flUnderflow ||| flInexact) else (r.1.toNat, r.2)
  | _, _ => (r.1.toNat, r.2)

/-- `vcvt` (R155). -/
def execVcvt (h : Hdr) (d a : VReg) (flush : Bool) (dst src : VCvtTy) (rm : Rm) (s : State) :
    Host.Outcome State Fault Refusal :=
  let sw := decide (src = .f64)
  let dw := decide (dst = .f64)
  vecIssue h (sw || dw)
    (fun c =>
      let g := c.regs.vgrant
      let n := vcount (sw || dw) g
      let rs := (List.range n).map fun j => vConvert flush dst src rm (vElem sw (vreg c a) j)
      let ls := rs.map fun r => some r.1
      let pad := if sw then List.replicate (g - n) (some 0) else []
      ([.v d (vLanes dw (ls ++ pad))], orFlags (rs.map (·.2)))) s

/-- Codes in a lane: 4 of a byte, or 8 of four bits (R156). -/
def codesPer (c4 : Bool) : Nat := if c4 then 8 else 4
def codeBits (c4 : Bool) : Nat := if c4 then 4 else 8
def tableCodes (c4 : Bool) : Nat := if c4 then 16 else 256

/-- `vdec` (R156). -/
def execVdec (h : Hdr) (d a : VReg) (part : Fin 8) (c4 : Bool) (tab : Fin 2) (s : State) :
    Host.Outcome State Fault Refusal :=
  issueCop .none h
    (needClaim <| withTable c4 tab fun i s =>
      let c := s.core i
      let ents := (tableOfCore c tab).ents
      let g := c.regs.vgrant
      let n := codesPer c4
      let rs := (List.range g).map fun k =>
        let lane := ((vreg c a).getD (part.val * g / n + k / n) 0).toNat
        some (decodeCode ents (fld lane (codeBits c4 * (k % n)) (codeBits c4)))
      .done s (copRes c false [.v d (vLanes false rs)] 0)) s

/-- The lane that the codes of `n` elements make. -/
def codeLane (bits : Nat) (cs : List Nat) : Nat := cs.foldr (fun c n => n * 2 ^ bits + c) 0

/-- `venc` (R156): the codes of the other parts stay. -/
def execVenc (h : Hdr) (d a : VReg) (part : Fin 8) (c4 : Bool) (tab : Fin 2) (s : State) :
    Host.Outcome State Fault Refusal :=
  issueCop .none h
    (needClaim <| withTable c4 tab fun i s =>
      let c := s.core i
      let ents := (tableOfCore c tab).ents
      let g := c.regs.vgrant
      let n := codesPer c4
      let es := (List.range g).map fun k => encodeCode ents (tableCodes c4) (vElem false (vreg c a) k)
      let lanes := (List.range (g / n)).map fun q => codeLane (codeBits c4) ((es.map (·.1)).drop (n * q) |>.take n)
      let rs := List.replicate (part.val * g / n) none ++ lanes.map some
      .done s (copRes c false [.v d (vLanes false rs)] (orFlags (es.map (·.2))))) s

def halfFmt (bf : Bool) : Fmt := if bf then fmtB16 else fmtH16

/-- Pairs of FP32 lanes rounded into one lane each (R157). -/
def packHalf (f : Fmt) (rm : Rm) (ls : List Lane) (n : Nat) : List (Nat × Flags) :=
  (List.range n).map fun j =>
    let x := fpConv fmt32 f rm (vElem false ls (2 * j))
    let y := fpConv fmt32 f rm (vElem false ls (2 * j + 1))
    (x.1 + 2 ^ 16 * y.1, x.2 ||| y.2)

/-- `vpack` (R157). -/
def execVpack (h : Hdr) (d a b : VReg) (bf : Bool) (rm : Rm) (s : State) : Host.Outcome State Fault Refusal :=
  vecIssue h false
    (fun c =>
      let n := c.regs.vgrant / 2
      let rs := packHalf (halfFmt bf) rm (vreg c a) n ++ packHalf (halfFmt bf) rm (vreg c b) n
      ([.v d (vLanes false (rs.map fun r => some r.1))], orFlags (rs.map (·.2)))) s

/-- `vunpk` (R157). -/
def execVunpk (h : Hdr) (d a : VReg) (part : Fin 2) (bf : Bool) (s : State) : Host.Outcome State Fault Refusal :=
  vecIssue h false
    (fun c =>
      let g := c.regs.vgrant
      let rs := (List.range g).map fun k =>
        fpConv (halfFmt bf) fmt32 .rne (fld (vElem false (vreg c a) (part.val * g / 2 + k / 2)) (16 * (k % 2)) 16)
      ([.v d (vLanes false (rs.map fun r => some r.1))], orFlags (rs.map (·.2)))) s

/-! ## Reductions and scans (R158, R159) -/

/-- A tree node: absent, or a value with the flags raised below it. -/
abbrev RNode := Option (Nat × Flags)

/-- combine(x, y) on bits of one element. -/
def redStep (vt : VTy) (op : RedOp) (x y : Nat) : Nat × Flags :=
  match op with
  | .add => vArith vt (if VTy.float vt then .fp .rne else .int false) (fun rm => fp2 (fpAdd rm)) (int2 (· + ·)) [x, y]
  | .min => vMinMax vt false x y
  | .max => vMinMax vt true x y

def redCombine (vt : VTy) (op : RedOp) (x y : RNode) : RNode :=
  match x, y with
  | some (a, fa), some (b, fb) => let (r, f) := redStep vt op a b; some (r, fa ||| fb ||| f)
  | some a, none => some a
  | none, y => y

/-- The result of a tree: a NaN that no step has rounded becomes the canonical one, a signalling one with INVALID (R114,
R117). -/
def redOut (vt : VTy) (x : RNode) : RNode :=
  x.map fun (v, fl) =>
    if VTy.float vt then
      match unpack (VTy.fmt vt) v with
      | .nan sig => ((VTy.fmt vt).nan, fl ||| flagIf sig flInvalid)
      | _ => (v, fl)
    else (v, fl)

/-- One level of the tree. -/
def redLevel (vt : VTy) (op : RedOp) : List RNode → List RNode
  | x :: y :: xs => redCombine vt op x y :: redLevel vt op xs
  | [x] => [x]
  | [] => []

/-- node(k, ·). -/
def redTree (vt : VTy) (op : RedOp) (leaves : List RNode) : Nat → List RNode
  | 0 => leaves
  | k + 1 => redLevel vt op (redTree vt op leaves k)

def redLeaves (c : CoreSt) (a : VReg) (mask : MReg) (vt : VTy) : List RNode :=
  let w := VTy.is64 vt
  (List.range (vcount w c.regs.vgrant)).map fun j => if active c mask j then some (vElem w (vreg c a) j, 0) else none

/-- The result of an empty tree (R158). -/
def redIdentity (vt : VTy) (op : RedOp) : Nat :=
  match op, vt with
  | .add, _ => 0
  | .min, .f32 | .min, .f64 => (VTy.fmt vt).inf false
  | .max, .f32 | .max, .f64 => (VTy.fmt vt).inf true
  | .min, .s32 => 0x7FFFFFFF
  | .max, .s32 => 0x80000000
  | .min, .n32 => 0xFFFFFFFF
  | .max, .n32 => 0

/-- `vred` (R158). -/
def execVred (h : Hdr) (d : GReg) (a : VReg) (mask : MReg) (vt : VTy) (op : RedOp) (s : State) :
    Host.Outcome State Fault Refusal :=
  vecIssue h true
    (fun c =>
      let root := (redTree vt op (redLeaves c a mask vt) (if VTy.is64 vt then 6 else 7)).headD none |> redOut vt
      let (r, fl) := root.getD (redIdentity vt op, 0)
      ([gdest c d (if vt = .s32 then sextN r 32 else W r)], fl)) s

/-- The blocks of [0, i]: (k, j) of node(k, j), largest first (R159). -/
def scanBlocks (n start : Nat) : Nat → List (Nat × Nat)
  | 0 => if n % 2 = 1 then [(0, start)] else []
  | k + 1 =>
    if n / 2 ^ (k + 1) % 2 = 1 then (k + 1, start / 2 ^ (k + 1)) :: scanBlocks n (start + 2 ^ (k + 1)) k
    else scanBlocks n start k

/-- `vscan` (R159). -/
def execVscan (h : Hdr) (d a : VReg) (mask : MReg) (vt : VTy) (op : RedOp) (s : State) :
    Host.Outcome State Fault Refusal :=
  let w := VTy.is64 vt
  vecIssue h true
    (fun c =>
      let leaves := redLeaves c a mask vt
      let top := c.regs.vgrant.log2 + 1
      let tree := (List.range (top + 1)).map (redTree vt op leaves)
      let node := fun (b : Nat × Nat) => ((tree.getD b.1 []).getD b.2 none)
      let rs := (List.range (vcount w c.regs.vgrant)).map fun i =>
        if active c mask i then
          redOut vt (((scanBlocks (i + 1) 0 top).map node).foldl (redCombine vt op) none)
        else none
      ([.v d (vLanes w (rs.map fun r => r.map (·.1)))], orFlags (rs.map fun r => (r.map (·.2)).getD 0))) s

/-! ## Moving elements (R160) -/

/-- `vperm`. -/
def execVperm (h : Hdr) (d a b : VReg) (mask : MReg) (vt : VTy) (s : State) : Host.Outcome State Fault Refusal :=
  let w := VTy.is64 vt
  vecElems h w d mask
    (fun c j =>
      let k := fld ((vreg c b).getD j 0).toNat 0 7
      (if k < vcount w c.regs.vgrant then vElem w (vreg c a) k else 0, 0)) s

/-- `vbcast`. -/
def execVbcast (h : Hdr) (d : VReg) (a : GReg) (mask : MReg) (vt : VTy) (s : State) : Host.Outcome State Fault Refusal :=
  vecElems h (VTy.is64 vt) d mask (fun c j => (vgElem c (VTy.is64 vt) (.g a) j, 0)) s

/-- `vidx`. -/
def execVidx (h : Hdr) (d : VReg) (a b : GReg) (mask : MReg) (s : State) : Host.Outcome State Fault Refusal :=
  vecElems h false d mask (fun c j => (wf (gread c a + W j * gread c b) 0 32, 0)) s

/-- `vext`. -/
def execVext (h : Hdr) (d : GReg) (a : VReg) (b : GReg) (vt : VTy) (s : State) : Host.Outcome State Fault Refusal :=
  let w := VTy.is64 vt
  vecIssue h w
    (fun c =>
      let k := wf (gread c b) 0 7
      let r := vElem w (vreg c a) k
      let v := if k < vcount w c.regs.vgrant then (if vt = .s32 then sextN r 32 else W r) else 0
      ([gdest c d v], 0)) s

/-- `vins`. -/
def execVins (h : Hdr) (d : VReg) (a b : GReg) (vt : VTy) (s : State) : Host.Outcome State Fault Refusal :=
  let w := VTy.is64 vt
  vecIssue h w
    (fun c =>
      let k := wf (gread c b) 0 7
      let rs := (List.range (vcount w c.regs.vgrant)).map fun j => if j = k then some (vgElem c w (.g a) j) else none
      ([.v d (vLanes w rs)], 0)) s

/-- `vsfu` (R161). -/
def execVsfu (h : Hdr) (d a : VReg) (mask : MReg) (op : SfuOp) (s : State) : Host.Outcome State Fault Refusal :=
  vecIssue h true
    (fun c =>
      let (rs, fl) := vecMap c false mask fun j => sfu op (vElem false (vreg c a) j)
      ([.v d (vLanes false rs)], fl)) s

end Sys2Proof.Machine
end

