-- ==== Sys2Proof/Machine/VecMem.lean ====
section
/-! DEFINITION. Vector memory and streams, group 7 (R162 to R168), `mov` from and to a q register (R74, R309), and the
return of load data (R83, R84, R163). -/

namespace Sys2Proof.Machine

/-! ## Elements in memory (R162, R163) -/

def VW.es : VW → Nat
  | .w32 => 4 | .w64 => 8 | .w16 => 2

/-- Active elements with their addresses. -/
def vecAddrs (c : CoreSt) (mask : MReg) (w : VW) (addr : Nat → Word) : List (Nat × Word) :=
  ((List.range (vcount (w = .w64) c.regs.vgrant)).filter (active c mask)).map fun j => (j, addr j)

/-- What the checks of the elements answer: their places, a wait for a walk, or the fault of the first that fails. -/
inductive ElemChk where
  | ok (s : State) (es : List (Nat × Word × Loc × Place))
  | wait (s : State)
  | bad (s : State) (cause : Nat) (val : Word)
  deriving Repr

/-- The check of one element. A page that the TLB lacks is walked within the step, so that an access may touch more pages than
the TLB holds (R163, R209). DESIGN CHOICE, log 15. -/
def checkElem (s : State) (i : Nat) (ea : Word) (es need : Nat) : ElemChk :=
  let answer := fun (x : Acc) => match x with
    | .ok s l p => ElemChk.ok s [(0, ea, l, p)]
    | .wait s => .wait s
    | .bad s cause => .bad s cause ea
  match checkAccess s i ea es es need with
  | .wait _ =>
    let d := dieOf i
    let va := wf ea 0 56
    (match walkNow s d va with
     | (s, .found t) => answer (checkAccess (s.onCache i fun c => { c with tlb := tlbFill c.tlb t }) i ea es es need)
     | (s, .unmapped) =>
       answer (checkAccess (s.onCache i fun c => { c with walkFault := some (va / 65536) }) i ea es es need)
     | (s, .poisoned code a) =>
       .bad (logPoison s (some i) a code (ownerNow (s.core i)) (pcNow (s.core i)) 0) 0x14 (W (bankOf s a)))
  | x => answer x

/-- The checks of R82 on each active element, in element order (R163). DEDUCED, log 28. -/
def checkElems (s : State) (i es need : Nat) : List (Nat × Word) → ElemChk
  | [] => .ok s []
  | (j, ea) :: xs =>
    match checkElem s i ea es need with
    | .ok s ys =>
      (match checkElems s i es need xs with
       | .ok s zs => .ok s (ys.map (fun y => (j, y.2)) ++ zs)
       | x => x)
    | x => x

/-- The places of a gather allow the homes to perform it (R165). -/
def homeGather (c : CoreSt) (es : List (Nat × Word × Loc × Place)) : Bool :=
  let lines := (es.map fun x => x.2.2.2.addr / 64).eraseDups
  es.all (fun x => match x.2.2.2 with | .global .. => true | .array _ => false) && decide (lines.length ≤ 8) &&
    !(unperformed c).any fun e => lines.contains (e.place.addr / 64) ||
      lines.contains (((entSpan e).1 + (entSpan e).2 - 1) / 64)

/-- The value that an L1 copy gives an element now; a poisoned word of the copy gives none. -/
def elemHit (s : State) (i es : Nat) (p : Place) : Option (List Byte) :=
  let c := s.core i
  match p with
  | .global va pa _ true _ =>
    (match l1Find s i (lineOf va) with
     | some l =>
       if bufBlocks (unperformed c) pa es c.iss.opCount || readBefore c c.iss.opCount pa es || (l1Poison l va es).isSome then none
       else some (withBuffer c c.iss.opCount pa ((l.data.drop (va % 64)).take es))
     | none => none)
  | _ => none

def vecLoad (d : VReg) (w : VW) (gath : Bool) (xs : List (Nat × Word)) (i : Nat) (s : State) : Eff :=
  let es := VW.es w
  let x : VecMem := { elems := [], es, d, lanes := (s.core i).regs.vgrant, gather := gath, fault := none }
  match checkElems s i es 0 xs with
  | .wait s => .wait s
  | .bad s cause val => .done s (.out (.vload { x with fault := some (cause, val) }) .load true false)
  | .ok s ys =>
    if ys.any fun y => ownFast i y.2.2.1 && ownOverlap (s.core i) y.2.2.1 es then .wait s
    else
      let home := gath && homeGather (s.core i) ys
      let elems := ys.map fun (j, ea, _, p) => (j, ea, p, if home then none else elemHit s i es p)
      let lines := ys.map fun y => lineOf y.2.2.2.lockKey
      let s := if home then l1Drop s i fun l => lines.contains l
        else elems.foldl (fun s e => if e.2.2.2.isSome then l1Touch s i (lineOf e.2.2.1.lockKey) else s) s
      .done s (.out (.vload { x with elems, gather := home }) .load true false)

/-- Element stores to the core's own arrays, in element order. -/
def ownElems (s : State) (i : Nat) : List (Word × Loc × Place × List Byte) → State
  | [] => s
  | (_, _, p, bs) :: xs => ownElems (dropAhead (writePlace s p bs 0) i p.addr bs.length) i xs

/-- Element stores that have room enter the write buffer. -/
def enterElems (s : State) (i : Nat) (o : Out) : Nat → List (Word × Place × List Byte) → List Nat →
    State × List (Word × Place × List Byte) × List Nat
  | 0, todo, seqs => (s, todo, seqs)
  | _, [], seqs => (s, [], seqs)
  | n + 1, (ea, p, bs) :: xs, seqs =>
    if elemsWait (s.core i) then (s, (ea, p, bs) :: xs, seqs)
    else
      let (s, q) := pushStoreAs s i o.id o.owner o.firing o.who o.pc ea p (.bytes bs) none false
      enterElems s i o n xs (seqs ++ [q])

/-- DEDUCED, log 28. -/
def vecStore (w : VW) (data : CoreSt → Nat → List Byte) (xs : List (Nat × Word)) (i : Nat) (s : State) : Eff :=
  let es := VW.es w
  match checkElems s i es 1 xs with
  | .wait s => .wait s
  | .bad s cause val => .done s (.out (.vstore [] [] (some (cause, val))) .store false false)
  | .ok s ys =>
    let c := s.core i
    let zs := ys.map fun (j, ea, l, p) => (ea, l, p, data c j)
    let own := zs.filter fun z => ownFast i z.2.1
    let far := (zs.filter fun z => !ownFast i z.2.1).map fun (ea, _, p, bs) => (ea, p, bs)
    match own.find? (fun z => lockedW s z.2.2.1.lockKey es) with
    | some z => .trap s 0x12 z.1
    | none =>
      if own.any (fun z => ownOverlap c z.2.1 es || unperfOverlap c z.2.2.1.addr es ||
          readBefore c c.iss.opCount z.2.2.1.addr es) || (!far.isEmpty && bufferFull c) then .wait s
      else
        let s := ownElems s i own
        let s := far.foldl (fun s (_, p, bs) => dropAhead (noteWrite (updateCopy s i p bs) i p) i p.addr es) s
        if far.isEmpty then .done s .plain
        else
          let o : Out :=
            { id := c.iss.opCount, tag := 0, pc := (c.firing.map (·.pc)).getD 0, cyc := 0, holds := false, acquires := false
              cls := .store, owner := ownerNow c, firing := (c.firing.map (·.num)).getD 0, inval := [], ring := none
              op := .sfault 0 0, who := match c.firing with | some f => whoOf f | none => 0 }
          let (s, todo, seqs) := enterElems s i o far.length far []
          .done s (.out (.vstore todo seqs none) .store false false)

/-- The bytes of an element that a store takes from a vector register (R162). -/
def elemBytes (c : CoreSt) (d : VReg) (w : VW) (j : Nat) : List Byte :=
  leBytes (VW.es w) (vElem (w = .w64) (vreg c d) j)

/-- Forbidden in a handler, and no access without a claim (R144, R364). DEDUCED, log 28. -/
def vmemBody (opc : Nat) (body : Nat → State → Eff) (i : Nat) (s : State) : Eff := forbid opc (needClaim body) i s

/-- The addresses of `vld` and `vst`. -/
def unitBody (x : MemOp) (mask : MReg) (w : VW) (k : List (Nat × Word) → Nat → State → Eff) (i : Nat) (s : State) : Eff :=
  let c := s.core i
  let es := VW.es w
  let ea := effAddr c x
  if ea.toNat % es ≠ 0 then .trap s 0x05 ea else k (vecAddrs c mask w fun j => ea + W (j * es)) i s

/-- The addresses of `vlds` and `vsts`. -/
def strideBody (x : MemOp) (mask : MReg) (w : VW) (k : List (Nat × Word) → Nat → State → Eff) (i : Nat) (s : State) : Eff :=
  let c := s.core i
  let es := VW.es w
  let ea := baseDisp c x.a x.disp
  let st := gread c x.b <<< x.s.val
  if ea.toNat % es ≠ 0 then .trap s 0x05 ea
  else if st.toNat % es ≠ 0 then .trap s 0x05 st
  else k (vecAddrs c mask w fun j => ea + W j * st) i s

/-- The addresses of `vgath` and `vscat`. -/
def gathBody (a : GReg) (b : VReg) (mask : MReg) (w : VW) (k : List (Nat × Word) → Nat → State → Eff) (i : Nat)
    (s : State) : Eff :=
  let c := s.core i
  let off := fun j => ((vreg c b).getD (if w = .w64 then 2 * j else j) 0).signExtend 64
  k (vecAddrs c mask w fun j => gread c a + off j) i s

/-- `vld` (R162). -/
def execVld (h : Hdr) (d : VReg) (x : MemOp) (mask : MReg) (w : VW) (s : State) : Host.Outcome State Fault Refusal :=
  issueCop .l h (vmemBody 0x1C0 <| unitBody x mask w (vecLoad d w false)) s

/-- `vst` (R162). DEDUCED, log 28. -/
def execVst (h : Hdr) (d : VReg) (x : MemOp) (mask : MReg) (w : VW) (s : State) : Host.Outcome State Fault Refusal :=
  issueCop .s h (vmemBody 0x1C1 <| unitBody x mask w (vecStore w fun c => elemBytes c d w)) s

/-- `vlds` (R162). -/
def execVlds (h : Hdr) (d : VReg) (x : MemOp) (mask : MReg) (w : VW) (s : State) : Host.Outcome State Fault Refusal :=
  issueCop .l h (vmemBody 0x1C2 <| strideBody x mask w (vecLoad d w false)) s

/-- `vsts` (R162). -/
def execVsts (h : Hdr) (d : VReg) (x : MemOp) (mask : MReg) (w : VW) (s : State) : Host.Outcome State Fault Refusal :=
  issueCop .s h (vmemBody 0x1C3 <| strideBody x mask w (vecStore w fun c => elemBytes c d w)) s

/-- `vgath` (R162, R165). -/
def execVgath (h : Hdr) (d : VReg) (a : GReg) (b : VReg) (mask : MReg) (w : VW) (s : State) :
    Host.Outcome State Fault Refusal :=
  issueCop .l h (vmemBody 0x1C4 <| gathBody a b mask w (vecLoad d w true)) s

/-- `vscat` (R162, R165). -/
def execVscat (h : Hdr) (d : VReg) (a : GReg) (b : VReg) (mask : MReg) (w : VW) (s : State) :
    Host.Outcome State Fault Refusal :=
  issueCop .s h (vmemBody 0x1C5 <| gathBody a b mask w (vecStore w fun c => elemBytes c d w)) s

/-! ## Return of load data -/

/-- Lanes that the loaded elements write. -/
def loadLanes (x : VecMem) (vals : List (Nat × Nat)) : List (Option Lane) :=
  let n := if x.es = 8 then x.lanes / 2 else x.lanes
  vLanes (x.es = 8) ((List.range n).map fun j => (vals.find? (·.1 == j)).map (·.2))

/-- An element that no copy gave at issue, as it is read when the load returns: from a copy that has come into the L1 since, or
at its location; or the address and the code of the contained error. DEDUCED, log 16. -/
def elemRead (s : State) (i id es : Nat) (gather : Bool) (p : Place) : Except (Nat × Nat) (List Byte) :=
  match if gather then none else copyAt s i p with
  | some l =>
    (match l1Poison l p.lockKey es with
     | some (k, code) => .error (p.addr + k, code)
     | none => .ok (withBuffer (s.core i) id p.addr ((l.data.drop (p.lockKey % 64)).take es)))
  | none =>
    (match poisonSpot s p.addr es with
     | some e => .error e
     | none => .ok (withBuffer (s.core i) id p.addr (placeBytes s p es)))

/-- The copy of a line that a home gather reads leaves, were it filled since the gather issued (R165). -/
def gatherDrop (s : State) (i : Nat) (p : Place) : State :=
  s.onCache i fun c => { c with l1 := c.l1.filter (·.line != lineOf p.lockKey) }

/-- The effects of reading an element: use or fill of the L1, or the home's access. -/
def elemTouch (i : Nat) (o : Out) (x : VecMem) (cls : Nat) (s : State) (p : Place) : State :=
  let s := if (copyAt s i p).isSome && !x.gather then l1Touch s i (lineOf p.lockKey)
    else fillFrom (readTouch (if x.gather then gatherDrop s i p else s) p cls) i p (x.gather || o.inval.contains (lineOf p.lockKey))
  dropAhead s i p.addr x.es

/-- A group 7 load reads what it can of its elements and returns with the last of them (R163 to R165, R269), or with its fault or a
contained error. DEDUCED, log 28. -/
def returnVec (s : State) (i : Nat) (o : Out) (x : VecMem) : State :=
  let due := fun (p : Place) => !(loadWaits s i o p x.es || (blockedRead s p.lockKey x.es).isSome)
  let got := fun (p : Place) => elemRead s i o.id x.es x.gather p
  let miss := x.elems.filterMap fun (_, _, p, v) => if v.isNone && due p then some p else none
  match x.fault with
  | some (cause, val) => s.failOut i o.id cause val
  | none =>
    match firstSome (fun p => match got p with | .error e => some e | .ok _ => none) miss with
    | some (a, code) => containAt s i o.id a code
    | none =>
      let elems := x.elems.map fun (j, ea, p, v) =>
        (j, ea, p, if v.isNone && due p then (match got p with | .ok bs => some bs | .error _ => none) else v)
      let s := miss.foldl (elemTouch i o x (s.classOf o.owner)) s
      if elems.any (·.2.2.2.isNone) then s.onCore i fun c => setOut c { o with op := .vload { x with elems } }
      else s.completeWith i o.id [.v x.d (loadLanes x (elems.map fun e => (e.1, ofLe (e.2.2.2.getD []))))] 0

/-- LOAD_DATA_RETURN: a load reads its location and returns; one that meets bytes a copy has still to write waits for
the watermark (R269). DEDUCED, log 16. -/
def execLoadDataReturn (s : State) : Host.Outcome State Fault Refusal :=
  let i := s.arg.core
  .next (match findOut (s.core i) s.arg.id with
    | none => s
    | some o =>
      match o.op with
      | .load p ea dst na =>
        let n := if dst.pair then 16 else dst.bytes
        (match blockedRead s p.lockKey n with
         | some k => s.onCore i fun c => setOut c { o with op := .watermark k none p ea dst na }
         | none => if loadWaits s i o p n then s else returnLoad s i o p dst na)
      | .lda p dst =>
        if syncBefore (s.core i) o.id || loadWaits s i o p dst.bytes || (blockedRead s p.lockKey dst.bytes).isSome then s
        else returnAcquire s i o p dst
      | .vload x => returnVec s i o x
      | .sfault cause val => s.failOut i o.id cause val
      | _ => s)

/-! ## Streams (R166 to R168) -/

/-- A binding that has elements left; a walk that has ended is no binding (R167). -/
def qBind (c : CoreSt) (q : QReg) : QBind :=
  match vget c.regs.q .unbound q.val with
  | .stream wr b h pos ahead => if h.count ≤ pos then .unbound else .stream wr b h pos ahead
  | x => x

def setQ (s : State) (i : Nat) (q : Nat) (b : QBind) : State := s.onRegs i fun r => { r with q := vset r.q q b }

def streamTrap (s : State) (q : QReg) : Eff := .trap s 0x08 (W (96 + q.val))

/-- A shape record (R97), its reserved fields zero and its used counts not. -/
def shapeOf (ws : List Word) (maxE : Nat) : Option Shape :=
  let w := ws.getD 0 0
  let nd := wf w 0 3
  let es := wf w 8 8
  let dims := (List.range nd).map fun k => (wf (ws.getD (1 + k) 0) 0 32, toIntN (wf (ws.getD (1 + k) 0) 32 32) 32)
  if wf w 16 48 = 0 ∧ wf w 3 5 = 0 ∧ ws.getD 5 0 = 0 ∧ ws.getD 6 0 = 0 ∧ ws.getD 7 0 = 0 ∧ 1 ≤ nd ∧ nd ≤ 4 ∧
      es ≤ maxE ∧ dims.all (fun d => d.1 != 0) = true then
    some { esize := 2 ^ es, dims }
  else none

/-- Base and used strides are multiples of the element size. -/
def shapeAligned (h : Shape) (base : Word) : Bool :=
  base.toNat % h.esize == 0 && h.dims.all fun d => d.2 % (h.esize : Int) == 0

/-- `sbind` (R166). -/
def execSbind (h : Hdr) (d : QReg) (a b : GReg) (wr : Bool) (s : State) : Host.Outcome State Fault Refusal :=
  issueCop .l h
    (forbid 0x1C6 fun i s =>
      let c := s.core i
      if qBind c d ≠ .unbound then streamTrap s d
      else withRecord s i (gread c b) fun s ws =>
        match shapeOf ws 3 with
        | none => .trap s 0x09 (gread c b)
        | some sh =>
          if !shapeAligned sh (gread c a) then .trap s 0x09 (gread c b)
          else .done (setQ s i d.val (.stream wr (gread c a) sh 0 [])) .plain) s

/-- `sunbind` (R168). -/
def execSunbind (h : Hdr) (d : QReg) (s : State) : Host.Outcome State Fault Refusal :=
  issueCop .none h
    (forbid 0x1C7 fun i s =>
      match qBind (s.core i) d with
      | .chanIn _ | .chanOut _ => streamTrap s d
      | _ => .done (setQ s i d.val .unbound) .plain) s

/-- STREAM_READAHEAD_RETURN (R167): the next element of a read stream, or the fault found there. DEDUCED, log 29. -/
def execStreamReadaheadReturn (s : State) : Host.Outcome State Fault Refusal :=
  let i := s.arg.core
  let q := s.arg.id
  .next (match vget (s.core i).regs.q .unbound q with
    | .stream false base h pos ahead =>
      let e := pos + ahead.length
      if h.count ≤ e || 8 ≤ ahead.length || inHandler (s.core i) then s
      else
        let add := fun (s : State) x => setQ s i q (.stream false base h pos (ahead ++ [x]))
        let ea := elemAddr base h e
        match checkElem s i ea h.esize 0 with
        | .wait s => s
        | .bad s cause val => add s (.fault cause val)
        | .ok s [] => s
        | .ok s ((_, _, l, p) :: _) =>
          let c := s.core i
          if placeBusy s p || ownOverlap c l h.esize || bufBlocks (unperformed c) p.addr h.esize c.iss.opCount ||
              readBefore c c.iss.opCount p.addr h.esize || (blockedRead s p.lockKey h.esize).isSome then s
          else match elemRead s i c.iss.opCount h.esize false p with
            | .error (a, code) => add (logPoison s (some i) a code (ownerNow c) (pcNow c) 0) (.fault 0x14 (W (bankOf s a)))
            | .ok bs =>
              add (if (copyAt s i p).isSome then l1Touch s i (lineOf p.lockKey)
                else fillFrom (readTouch s p (s.classOf (ownerNow c))) i p false) (.elem (W (ofLe bs)))
    | _ => s)

/-! ## mov from and to q (R74, R309) -/

def firingActor (c : CoreSt) : Option Actor :=
  match c.firing with
  | some f => (match f.kind with | .actor slot => actorOf c slot.val | _ => none)
  | none => none

/-- Data records of a channel ahead of the first marker, as words. -/
def dataAhead : List ChItem → List (List Word)
  | .data ws _ :: xs => ws :: dataAhead xs
  | _ => []

/-- A read of an input (R309). -/
def readInput (d : GReg) (q : QReg) (k : Nat) (i : Nat) (s : State) : Eff :=
  let c := s.core i
  match c.firing, firingActor c with
  | some f, some a =>
    (match vget a.ins none k with
     | some (ch, rate) =>
       let w := vget f.reads 0 k
       if 8 * rate ≤ w then streamTrap s q
       else
         let recs := match chanOf s i ch with | some x => dataAhead x.items | none => []
         let v := (recs.getD (w / 8) []).getD (w % 8) 0
         .done (s.onFiring i fun f => { f with reads := vset f.reads k (w + 1) }) (.written [gdest c d v])
     | none => streamTrap s q)
  | _, _ => streamTrap s q

/-- An output record is sent into a slot that its actor has reserved (R307, R309); it meets the discards of R304. -/
def sendOutput (s : State) (i slot j k ch owner : Nat) (ws : List Word) : State :=
  let s := onChan s k ch fun c =>
    { c with reserved := c.reserved.map fun r => if r.1 = i ∧ r.2.1 = slot ∧ r.2.2.1 = j then (i, slot, j, r.2.2.2 - 1) else r }
  match chanOf s k ch with
  | none => s.discard k ws 6 owner
  | some c =>
    match c.task, admitFail c.codeb (ws.getD 0 0) with
    | true, some r => s.discard k ws r owner
    | _, _ => pushItem s k ch (.data ws none)

/-- A write to an output (R309): the record goes with its eighth word. -/
def writeOutput (a : GReg) (q : QReg) (j : Nat) (i : Nat) (s : State) : Eff :=
  let c := s.core i
  match c.firing, firingActor c with
  | some f, some x =>
    (match vget x.outs none j, f.kind with
     | some (k, ch, rate), .actor slot =>
       let ws := vget f.outWords [] j
       let n := vget f.sent 0 j
       if rate ≤ n then streamTrap s q
       else
         let ws' := ws ++ [gread c a]
         if 7 ≤ ws.length && c.iss.outs.any (fun o => match o.op with | .splice .. => true | _ => false) then .wait s
         else if ws'.length < 8 then .done (s.onFiring i fun f => { f with outWords := vset f.outWords j ws' }) .plain
         else
           let s := s.onFiring i fun f => { f with outWords := vset f.outWords j [], sent := vset f.sent j (n + 1) }
           .done (sendOutput s i slot.val j k ch x.owner ws') .plain
     | _, _ => streamTrap s q)
  | _, _ => streamTrap s q

/-- A read of a bound read stream: the element read ahead, once it is there (R167); what other streams have read of its bytes is
read again (R217). In a handler nothing is read ahead, since the
handler runs under another owner: the read makes its own access. DEDUCED, log 29. -/
def readStream (d : GReg) (q : QReg) (base : Word) (h : Shape) (pos : Nat) (ahead : List Ahead) (i : Nat) (s : State) :
    Eff :=
  let read := fun (s : State) => match placeAt s i (elemAddr base h pos) with | some p => dropAhead s i p.addr h.esize | none => s
  let next := fun rest => setQ (read s) i q.val (.stream false base h (pos + 1) rest)
  match ahead with
  | [] =>
    if inHandler (s.core i) then
      let ea := elemAddr base h pos
      let dst : LoadDst := { d := gdest (s.core i) d 0, bytes := h.esize, signed := false, pair := false }
      withAccess s i ea h.esize h.esize 0 fun s l p =>
        match if ownFast i l then ownLoad s i l p ea h.esize dst else farLoad s i p ea h.esize dst false with
        | .done s r => .done (setQ s i q.val (.stream false base h (pos + 1) [])) r
        | x => x
    else .wait s
  | .elem v :: rest => .done (next rest) (.written [gdest (s.core i) d v])
  | .fault cause val :: rest => .done (next rest) (.out (.sfault cause val) .load true false)

/-- `mov` g from q. -/
def execMovFromStream (h : Hdr) (d : GReg) (q : QReg) (s : State) : Host.Outcome State Fault Refusal :=
  issue .none h
    (holdAs (fun c => match qBind c q with | .chanIn _ => .none | _ => .l) fun i s =>
      match qBind (s.core i) q with
      | .chanIn k => readInput d q k.val i s
      | .stream false base sh pos ahead => readStream d q base sh pos ahead i s
      | _ => streamTrap s q) s

/-- A write to a bound write stream: a store of the next element (R167). -/
def writeStream (a : GReg) (q : QReg) (base : Word) (h : Shape) (pos : Nat) (i : Nat) (s : State) : Eff :=
  let ea := elemAddr base h pos
  let bs := leBytes h.esize (gread (s.core i) a).toNat
  withAccess s i ea h.esize h.esize 1 fun s l p =>
    match if ownFast i l then ownStore s i l p ea bs else farStore s i p ea bs with
    | .done s r => .done (setQ s i q.val (.stream true base h (pos + 1) [])) r
    | x => x

/-- `mov` q from g. -/
def execMovToStream (h : Hdr) (q : QReg) (a : GReg) (s : State) : Host.Outcome State Fault Refusal :=
  issue .none h
    (holdAs (fun c => match qBind c q with | .chanOut _ => .e | _ => .s) fun i s =>
      match qBind (s.core i) q with
      | .chanOut j => writeOutput a q j.val i s
      | .stream true base sh pos _ => writeStream a q base sh pos i s
      | _ => streamTrap s q) s

end Sys2Proof.Machine
end

