-- ==== Sys2Proof/Machine/Matrix.lean ====
section
/-! DEFINITION. Matrix instructions, group 8 (R169 to R192, R444): gangs and the ring, the accumulator store, `dtload`,
and the events that complete them. -/

namespace Sys2Proof.Machine

/-! ## Outstanding group 8 instructions -/

def isMatrix (o : Out) : Bool :=
  match o.op with
  | .acc _ => true
  | .gang .. => true
  | .dtload .. => true
  | .sfault c _ => c == 0x0B
  | _ => false

/-- A ninth outstanding instruction waits (R181). -/
def matrixFull (c : CoreSt) : Bool := decide (8 ≤ (c.iss.outs.filter isMatrix).length)

/-- Tiles that an outstanding instruction touches: first and count (R185). -/
def tileSpan (o : Out) : Nat × Nat :=
  match o.op with
  | .acc (.zero t n) => (t, n)
  | .acc (.load t _ _) => (t, 1)
  | .acc (.store t _ _) => (t, 1)
  | .acc (.quant t _ _ _ _ _) => (t, 1)
  | .acc (.toVec t _ _ _) => (t, 1)
  | .acc (.fromVec t _ _) => (t, 1)
  | .gang _ _ t n _ _ _ _ _ => (t, n)
  | _ => (0, 0)

def spansMeet (a b : Nat × Nat) : Bool := decide (a.1 < b.1 + b.2) && decide (b.1 < a.1 + a.2)

/-- A load or store of the core before operation `id` that is not performed: group 8 reads and writes TCM after it (R178, R235). -/
def memBefore (c : CoreSt) (id : Nat) : Bool :=
  c.iss.outs.any (fun x => decide (x.id < id) && !isMatrix x && anyMem x.cls) ||
    c.cache.wb.any fun e => decide (e.id < id)

/-- An earlier outstanding group 8 instruction touches a tile of `o` (R185). DEDUCED, log 30. -/
def tilesBefore (c : CoreSt) (o : Out) : Bool :=
  c.iss.outs.any fun x => decide (x.id < o.id) && isMatrix x && spansMeet (tileSpan x) (tileSpan o)

/-- An accumulator load or store of the core before operation `id`, which a gang's reads follow whatever its bytes (R235: LOC to MMA).
DEDUCED, log 30. -/
def accBefore (c : CoreSt) (id : Nat) : Bool :=
  c.iss.outs.any fun x => decide (x.id < id) && (match x.op with | .acc _ => !(pendingSpans x).isEmpty | _ => false)

/-- An earlier access that the TCM accesses of `o` must follow (R178, R235). DEDUCED, log 30. -/
def tcmBefore (c : CoreSt) (o : Out) : Bool :=
  let mine := pendingSpans o
  let gang := match o.op with | .gang .. => true | _ => false
  !mine.isEmpty &&
    (memBefore c o.id || (gang && accBefore c o.id) ||
      c.iss.outs.any fun x => decide (x.id < o.id) && (pendingSpans x).any fun y => mine.any (spansMeet y))

/-- What an accumulator instruction must follow: on its tiles (R185) or in TCM (R178). -/
def matrixBefore (c : CoreSt) (o : Out) : Bool := tilesBefore c o || tcmBefore c o

/-- What every group 8 instruction meets at issue: forbidden in a handler (R364), the fault of an earlier gang (R174),
at most eight outstanding (R181). DEDUCED, log 30. -/
def matrixBody (opc : Nat) (body : Nat → State → Eff) : Nat → State → Eff :=
  forbid opc fun i s =>
    let c := s.core i
    if matrixFull c then .wait s
    else match c.mtx.gangFault with
      | some v => .done s (.out (.sfault 0x0B v) .none false false)
      | none => body i s

/-! ## Operand addresses (R177) -/

/-- The checks of R177: the TCM offset of an operand, its extent known to end within TCM. Paged memory meets check 3 against the
owner's covering entries before it is refused (R82, R391). DEDUCED, log 30. -/
def withOperand (i : Nat) (s : State) (ea : Word) (align len : Nat) (ok : Bool) (k : Nat → Eff) : Eff :=
  if ea.toNat % align ≠ 0 then .trap s 0x05 ea
  else match check23 i ea with
    | .error cause => .trap s cause ea
    | .ok (.paged va) =>
      let (plb, es) := plbLookup s (s.core i).cache.plb (ownerNow (s.core i)) va 0 (wf ea 56 8) true
      .trap (setPlb s i plb) (if colourFails es (wf ea 56 8) then 0x0F else 0x0A) ea
    | .ok (.tcm j off) => if j = i ∧ ok = true ∧ off + len ≤ 2 ^ 17 then k off else .trap s 0x0A ea
    | .ok _ => .trap s 0x0A ea

/-- An operand that a gang reads in one piece: after the checks of R177 the owner's right to read it (R385). DEDUCED, log 30. -/
def withPiece (i : Nat) (s : State) (ea : Word) (len : Nat) (k : State → Nat → Eff) : Eff :=
  withOperand i s ea 64 len true fun off => withSpans i s ea 0 (halfSpans ea off len) fun s => k s off

/-- The stride rules of `accld`, `accst` and `accq` (R186, R187). -/
def strideOk (st : Word) (row : Nat) : Bool := st.toNat % row == 0 && decide (row ≤ st.toNat)

/-- An operand of 16 rows of `len` bytes at stride `st`: after the checks of R177 the owner's right `need` to each row (R385).
DEDUCED, log 30. -/
def withRows (i : Nat) (s : State) (ea st : Word) (len need : Nat) (k : State → Nat → Eff) : Eff :=
  withOperand i s ea len (15 * st.toNat + len) (strideOk st len) fun off =>
    withSpans i s ea need (rowSpans ea st.toNat len) fun s => k s off

/-! ## mma and snz (R179, R182) -/

def MFmt.code : MFmt → Nat
  | .c8 => 0 | .c4 => 1 | .b16 => 2 | .h16 => 3

/-- The 16 row scales (R131). -/
def rowScales (c : CoreSt) (r : GReg) : List (BitVec 16) :=
  if r = 0 then List.replicate 16 0x3F80
  else (List.range 16).map fun k => BitVec.ofNat 16 (wf (greadN c (r.val + k / 4)) (16 * (k % 4)) 16)

/-- Table checks of the sides that read one, DT0 first (R126, R127, R179). -/
def withTables (x y : MFmt) (body : Nat → State → Eff) : Nat → State → Eff :=
  let side := fun (f : MFmt) (k : Fin 2) (b : Nat → State → Eff) =>
    match f with | .c8 => withTable false k b | .c4 => withTable true k b | _ => b
  side x 0 (side y 1 body)

/-- A gang instruction after its checks: it goes on to the row barrier. -/
def gangOut (fn pair : Nat) (g : GangArg) (aOff bOff : Nat) (rowmap : BitVec 32) (i : Nat) (s : State) : Eff :=
  let c := s.core i
  let n := GangN.toNat g.n
  let d : GangData :=
    { aOff, bOff, panel := [], tile := [], scales := [], rowmap, rowScales := rowScales c g.c
      dtA := (tableOfCore c 0).ents, dtB := (tableOfCore c 1).ents
      paired := tableState c 0 == .c4p && tableState c 1 == .c4p, poisonPanel := none, poisonTile := none }
  .done s (.out (.gang fn pair g.t.val n (i - i % 64 % n) g.east d none false) .mma false false)

/-- `mma` (R179). -/
def execMma (h : Hdr) (x y : MFmt) (g : GangArg) (s : State) : Host.Outcome State Fault Refusal :=
  let pair := 4 * x.code + y.code
  issueCop .e h
    (matrixBody (0x200 + pair) fun i s =>
      let c := s.core i
      withPiece i s (gread c g.a) (aBytes false pair) fun s a =>
        withPiece i s (gread c g.b) (bBytes false pair 0) fun s b =>
          withTables x y (gangOut pair pair g a b 0) i s) s

/-- `snz` (R182): the header of the compressed tile is read at issue. -/
def execSnz (h : Hdr) (x y : MFmt) (g : GangArg) (s : State) : Host.Outcome State Fault Refusal :=
  let pair := 4 * x.code + y.code
  issueCop .e h
    (matrixBody 0x216 fun i s =>
      let c := s.core i
      let eb := gread c g.b
      withPiece i s (gread c g.a) (aBytes true pair) fun s a =>
        withPiece i s eb 64 fun s b =>
          let ab := tcmBase i + b
          if memBefore c c.iss.opCount || accBefore c c.iss.opCount || matrixOverlap c b 64 then .wait s
          else withFill s i ab 64 fun s => match poisonSpot s ab 64 with
            | some (a, code) => containEff s i a code
            | none =>
              let hd := readBytes s.mem ab 64
              let rowmap := BitVec.ofNat 32 (ofLe (hd.take 4))
              if (hd.drop 4).any (· != 0) || decide (2 ^ 17 < b + bBytes true pair rowmap) then .trap s 0x0A eb
              else withSpans i s eb 0 (halfSpans eb b (bBytes true pair rowmap)) fun s =>
                withTables x y (gangOut snzFn pair g a b rowmap) i s) s

/-! ## The accumulator store (R184 to R188) -/

def tileOf (c : CoreSt) (t : Nat) : Tile := (mget? c.mtx.tiles t).getD { owner := none, elems := [], poison := [] }
def setTile (s : State) (i t : Nat) (x : Tile) : State := s.onMtx i fun m => { m with tiles := mput m.tiles t x }

/-- A tile as an instruction of `owner` finds it: +0 everywhere when its owner differs (R184). -/
def ownTile (c : CoreSt) (t owner : Nat) : Tile :=
  let x := tileOf c t
  if x.owner = some owner then x else { owner := some owner, elems := List.replicate 256 0, poison := [] }

/-- The error of an uncorrectable word of the accumulator store (R421, R427). -/
def tileError (s : State) (i : Nat) (o : Out) : State :=
  let b := bankOf s (tcmBase i)
  let (s, synd) := takeFree s
  (s.mcLog
    { bank := b, code := 17, cls := 1, owner := o.owner, addr := none, core := some i, unit := 0, fenced := false, stest := false
      poison := true, synd, misc0 := o.pc
      misc1 := W ((o.ring.map (ringIndex (s.core i))).getD 0) }).containOut i o.id b

/-- `accz` (R186). -/
def execAccz (h : Hdr) (t : ATile) (logN : Fin 8) (s : State) : Host.Outcome State Fault Refusal :=
  issueCop .none h
    (matrixBody 0x211 fun _ s => .done s (.out (.acc (.zero t.val (2 ^ logN.val))) .none false false)) s

/-- LOCKED of a store into the core's own TCM, for the rows of an accumulator store: it is checked before any later instruction
issues (R85). -/
def rowsLocked (s : State) (i id off stride len : Nat) : Option Nat :=
  (List.range 16).find? fun r => lockedFor s i id (tcmBase i + off + r * stride) len

/-- Elements that streams have read ahead from the rows of an accumulator store are read again (R167). -/
def dropRows (s : State) (i off stride len : Nat) : State :=
  (List.range 16).foldl (fun s r => dropAhead s i (tcmBase i + off + r * stride) len) s

/-- `accld` (R186). -/
def execAccld (h : Hdr) (t : ATile) (a b : GReg) (s : State) : Host.Outcome State Fault Refusal :=
  issueCop .l h
    (matrixBody 0x212 fun i s =>
      let c := s.core i
      let st := gread c b
      withRows i s (gread c a) st 64 0 fun s off =>
        .done s (.out (.acc (.load t.val off st.toNat)) .load false false)) s

/-- `accst` (R186). DEDUCED, log 30. -/
def execAccst (h : Hdr) (t : ATile) (a b : GReg) (s : State) : Host.Outcome State Fault Refusal :=
  issueCop .s h
    (matrixBody 0x213 fun i s =>
      let c := s.core i
      let st := gread c b
      withRows i s (gread c a) st 64 1 fun s off =>
        match rowsLocked s i (s.core i).iss.opCount off st.toNat 64 with
        | some r => .trap s 0x12 (gread c a + W (r * st.toNat))
        | none => .done (dropRows s i off st.toNat 64) (.out (.acc (.store t.val off st.toNat)) .store false false)) s

/-- `accq` (R187). DEDUCED, log 30. -/
def execAccq (h : Hdr) (t : ATile) (a b c : GReg) (out : AccqOut) (s : State) : Host.Outcome State Fault Refusal :=
  issueCop .s h
    (matrixBody 0x214 fun i s =>
      let k := s.core i
      let st := gread k b
      let len := AccqOut.rowLen out
      let factor := if c = 0 then 0x3F800000 else (gread k c).setWidth 32
      withRows i s (gread k a) st len 1 fun s off =>
        let go := fun (ents : List (BitVec 20)) (_ : Nat) (s : State) =>
          match rowsLocked s i (s.core i).iss.opCount off st.toNat len with
          | some r => .trap s 0x12 (gread k a + W (r * st.toNat))
          | none =>
            Eff.done (dropRows s i off st.toNat len) (.out (.acc (.quant t.val off st.toNat out factor ents)) .store false false)
        match out with
        | .c8 tab => withTable false tab (go (tableOfCore k tab).ents) i s
        | .c4 tab => withTable true tab (go (tableOfCore k tab).ents) i s
        | _ => go [] i s) s

/-- `accv.rd` (R188). -/
def execAccvRd (h : Hdr) (t : ATile) (v : VReg) (part : Fin 16) (s : State) : Host.Outcome State Fault Refusal :=
  issueCop .none h
    (matrixBody 0x215 <| needClaim fun i s =>
      .done s (.out (.acc (.toVec t.val v part.val (s.core i).regs.vgrant)) .none true false)) s

/-- `accv.wr` (R188). -/
def execAccvWr (h : Hdr) (t : ATile) (v : VReg) (part : Fin 16) (s : State) : Host.Outcome State Fault Refusal :=
  issueCop .none h
    (matrixBody 0x215 <| needClaim fun i s =>
      .done s (.out (.acc (.fromVec t.val (vreg (s.core i) v) part.val)) .none false false)) s

/-- The elements of a row. -/
def rowOfTile (x : Tile) (r : Nat) : List Lane := (List.range 16).map fun c => x.elems.getD (16 * r + c) 0

/-- Rows written to the core's own TCM. -/
def writeRows (s : State) (i off stride : Nat) (rows : List (List Byte)) : State :=
  (rows.zipIdx).foldl (fun s (bs, r) =>
    let a := tcmBase i + off + r * stride
    dropAhead (writePlace s (.array a) bs 0) i a bs.length) s

/-- An accumulator instruction takes effect (R186 to R188, R421). DEDUCED, log 30. -/
def performAcc (s : State) (i : Nat) (o : Out) (op : AccOp) : State :=
  let c := s.core i
  let rows := fun (off st : Nat) => (List.range 16).map fun r => tcmBase i + off + r * st
  match op with
  | .zero t n =>
    let z : Tile := { owner := some o.owner, elems := List.replicate 256 0, poison := [] }
    ((List.range n).foldl (fun s k => setTile s i (t + k) z) s).complete i o.id
  | .load t off st =>
    if (rows off st).any (fun a => (blockedRead s a 64).isSome) then s
    else match firstSome (fun a => poisonSpot s a 64) (rows off st) with
      | some (a, code) => containAt s i o.id a code
      | none =>
        let elems := (rows off st).flatMap fun a => (List.range 16).map fun k => BitVec.ofNat 32 (readNat s.mem (a + 4 * k) 4)
        (setTile s i t { owner := some o.owner, elems, poison := [] }).complete i o.id
  | .store t off st =>
    let x := ownTile c t o.owner
    if !x.poison.isEmpty then tileError s i o
    else
      let bs := (List.range 16).map fun r => (rowOfTile x r).flatMap fun l => leBytes 4 l.toNat
      (writeRows (setTile s i t x) i off st bs).complete i o.id
  | .quant t off st out factor ents =>
    let x := ownTile c t o.owner
    if !x.poison.isEmpty then tileError s i o
    else
      let vs := (List.range 256).map fun e => accqElem out ents factor (x.elems.getD e 0)
      let bs := (List.range 16).map fun r => accqRow out (((vs.drop (16 * r)).take 16).map (·.1))
      (writeRows (setTile s i t x) i off st bs).completeWith i o.id [] (orFlags (vs.map (·.2)))
  | .toVec t d part lanes =>
    let x := ownTile c t o.owner
    let first := part * lanes
    if x.poison.any (fun w => decide (first < 2 * w + 2) && decide (2 * w < first + lanes)) then tileError s i o
    else
      let ls := (List.range lanes).map fun l => some (x.elems.getD (first + l) 0)
      (setTile s i t x).completeWith i o.id [.v d ls] 0
  | .fromVec t ls part =>
    let x := ownTile c t o.owner
    let first := part * ls.length
    let elems := (List.range 256).map fun e =>
      if first ≤ e then ls.getD (e - first) (x.elems.getD e 0) else x.elems.getD e 0
    let poison := x.poison.filter fun w => !(decide (first ≤ 2 * w) && decide (2 * w + 2 ≤ first + ls.length))
    (setTile s i t { x with elems, poison }).complete i o.id

/-- COPROCESSOR_COMPLETION (R151, R185): a coprocessor result, element stores that find room, an accumulator
instruction, or a fault. -/
def execCoprocessorCompletion (s : State) : Host.Outcome State Fault Refusal :=
  let i := s.arg.core
  .next (match findOut (s.core i) s.arg.id with
    | none => s
    | some o =>
      match o.op with
      | .cop ws fl => s.completeWith i o.id ws fl
      | .acc op => if matrixBefore (s.core i) o then s else performAcc s i o op
      | .vstore _ _ (some (cause, val)) => s.failOut i o.id cause val
      | .vstore todo seqs none =>
        let (s, todo, seqs) := enterElems s i o todo.length todo seqs
        if todo.isEmpty && seqs.isEmpty then s.complete i o.id
        else s.onCore i fun c => setOut c { o with op := .vstore todo seqs none }
      | .sfault cause val => s.failOut i o.id cause val
      | _ => s)

/-! ## The row barrier (R172 to R174, R196) -/

/-- TRAPVAL of GANG (R174). -/
def gangVal (n x0 sub : Nat) : Word := W (n * 2 ^ 16 + colOf x0 * 2 ^ 8 + sub)

/-- A core's instruction completes with GANG, and every later group 8 instruction of its firing with it (R174). -/
def gangFail (s : State) (i id : Nat) (val : Word) : State :=
  let s := { s with arrivals := s.arrivals.filter (·.core != i) }
  let s := s.onCore i fun c =>
    { c with
      mtx := { c.mtx with gangFault := some val }
      iss := { c.iss with outs := c.iss.outs.map fun o =>
        if id < o.id && isMatrix o then { o with op := .sfault 0x0B val } else o } }
  s.failOut i id 0x0B val

/-- An arrival has waited 16,384 cycles, stops of its gang's members apart (R173, R197). -/
def Arrival.expired (a : Arrival) (now : Nat) : Bool := a.hold.isNone && decide (a.at_ + 16384 ≤ now)

def withdraw (s : State) (a : Arrival) : State := gangFail s a.core a.id (gangVal a.n a.x0 0)

/-- GANG_WITHDRAWAL (R173). -/
def execGangWithdrawal (s : State) : Host.Outcome State Fault Refusal :=
  .next (match s.arrivals.find? (fun a => a.core == s.arg.core && a.expired s.now) with
    | some a => withdraw s a
    | none => s)

/-- Cycles of a step (R181, R183). -/
def stepCycles (pair : Nat) (snz : Bool) (ms : List (Nat × Nat × GangData)) : Nat :=
  if snz then ms.foldl (fun m x => max m (2 * popN 32 x.2.2.rowmap.toNat)) 8
  else if pair = 5 then (if ms.all (·.2.2.paired) then 64 else 128)
  else 64

/-- A member's instruction, with what it read. -/
def gangDataOf (s : State) (a : Arrival) : Option GangData :=
  match findOut (s.core a.core) a.id with
  | some o => (match o.op with | .gang _ _ _ _ _ _ d _ _ => some d | _ => none)
  | none => none

/-- A join, when every member of the gang has an arrival present and has read its operands (R172, R180): the steps begin, or
every member completes with subcode 1. Arrivals whose time is over are withdrawn before (R173). DEDUCED, log 30. -/
def tryJoin (s : State) (x0 n : Nat) : State :=
  let mine := fun (s : State) => s.arrivals.filter fun a => a.x0 == x0 && a.n == n
  let s := ((mine s).filter (·.expired s.now)).foldl withdraw s
  let as := mine s
  if as.length < n || as.any (fun a => (gangDataOf s a).any fun d => d.panel.isEmpty) then s
  else
    let a0 := as.headD { core := 0, id := 0, x0, n, fn := 0, pair := 0, east := false, owner := 0, at_ := 0, hold := none }
    if as.all fun a => a.fn == a0.fn && a.pair == a0.pair && a.east == a0.east && a.owner == a0.owner then
      let ms := (List.range n).filterMap fun k =>
        (as.find? (·.core == x0 + k)).bind fun a => (gangDataOf s a).map (a.core, a.id, ·)
      let snz := a0.fn == snzFn
      let g : Gang :=
        { x0, n, east := a0.east, pair := a0.pair, snz, members := ms, failed := [], flags := [], step := 0
          stepEnd := s.now + stepCycles a0.pair snz ms }
      let s := { s with arrivals := s.arrivals.filter fun a => !(a.x0 == x0 && a.n == n), gangs := s.gangs ++ [g] }
      ms.foldl (fun s (i, id, _) => s.onCore i fun c =>
        match findOut c id with
        | some o =>
          (match o.op with
           | .gang fn pair t n x0 east d arr _ => setOut c { o with op := .gang fn pair t n x0 east d arr true }
           | _ => c)
        | none => c) s
    else as.foldl (fun s a => gangFail s a.core a.id (gangVal n x0 1)) s

/-- The first gang instruction of a core that has not arrived. -/
def nextGang (c : CoreSt) : Option Out :=
  match c.iss.outs.find? fun o => match o.op with | .gang .. => true | _ => false with
  | some o => (match o.op with | .gang _ _ _ _ _ _ _ none _ => some o | _ => none)
  | none => none

/-- A member's operands as it reads them between issue and join (R180, R444). -/
def readGang (s : State) (i fn pair : Nat) (d : GangData) : GangData :=
  let snz := fn == snzFn
  let la := aBytes snz pair
  let lb := bBytes snz pair d.rowmap
  let a := tcmBase i + d.aOff
  let b := tcmBase i + d.bOff
  let hd := if snz then 64 else 0
  let tile := readBytes s.mem (b + hd) (lb - hd - 32)
  let sc := readBytes s.mem (b + lb - 32) 32
  { d with
    panel := readBytes s.mem a la, tile
    scales := (List.range 16).map fun k => BitVec.ofNat 16 (ofLe ((sc.drop (2 * k)).take 2))
    poisonPanel := (poisonSpot s a la).map (·.1), poisonTile := (poisonSpot s b lb).map (·.1) }

/-- The arrival of a core's next gang instruction, if it is due (R172, R196). DEDUCED, log 30. -/
def arriveGang (s : State) (i : Nat) : State :=
  match nextGang (s.core i) with
  | none => s
  | some o =>
    match o.op with
    | .gang fn pair t n x0 east d none j =>
      let s := s.onCore i fun c => setOut c { o with op := .gang fn pair t n x0 east d (some s.now) j }
      let stopped := (List.range n).any fun k => (s.core (x0 + k)).stopped.isSome
      let a : Arrival :=
        { core := i, id := o.id, x0, n, fn, pair, east, owner := o.owner, at_ := s.now
          hold := if stopped then some s.now else none }
      { s with arrivals := s.arrivals ++ [a] }
    | _ => s

/-- The operands of an arrived member, read once what they wait for is over (R178, R180). DEDUCED, log 30. -/
def readOperands (s : State) (i : Nat) : State :=
  match (s.core i).iss.outs.find? fun o => match o.op with | .gang _ _ _ _ _ _ d (some _) false => d.panel.isEmpty | _ => false with
  | none => s
  | some o =>
    match o.op with
    | .gang fn pair t n x0 east d arr j =>
      if tcmBefore (s.core i) o || (pendingSpans o).any (fun m => (blockedRead s (tcmBase i + m.1) m.2).isSome) then s
      else s.onCore i fun c => setOut c { o with op := .gang fn pair t n x0 east (readGang s i fn pair d) arr j }
    | _ => s

/-- The gang that a core has arrived for joins when it can. -/
def joinGang (s : State) (i : Nat) : State :=
  match s.arrivals.find? (·.core == i) with
  | some a => tryJoin s a.x0 a.n
  | none => s

/-- What the row barrier does for a core: its arrival, its reads, the join. -/
def rowBarrier (s : State) (i : Nat) : State := joinGang (readOperands (arriveGang s i) i) i

/-- ROW_BARRIER_ARRIVAL (R172, R178, R180, R196): the core's next gang instruction arrives, and its operands are read as soon as
they may be. DEDUCED, log 30. -/
def execRowBarrierArrival (s : State) : Host.Outcome State Fault Refusal := .next (rowBarrier s s.arg.core)

/-- Arrivals that are due at the end of a cycle: an arrival is made in the first cycle in which it can be (R196). -/
def arriveAll (s : State) : State :=
  s.cores.foldl (fun s (i, c) => if (nextGang c).isSome then rowBarrier s i else s) s

/-! ## Ring steps (R180, R190, R192, R444) -/

/-- A member's step fails: the error is logged, with the address of a poisoned word of an operand, and the member's later steps write
nothing. A parity error of its latches makes its tussock suspect (R419). DEDUCED, log 19 and 30. -/
def failMember (s : State) (g : Gang) (i : Nat) (o : Out) (code : Nat) (word : Option Nat) : State × Gang :=
  let b := bankOf s (word.getD (tcmBase i))
  let (s, synd) := takeFree s
  let s := s.mcLog
    { bank := b, code, cls := 1, owner := o.owner, addr := word, core := some i, unit := 0, fenced := false
      stest := false, poison := code != 9, synd, misc0 := o.pc
      misc1 := W ((o.ring.map (ringIndex (s.core i))).getD 0) }
  (if code = 9 then suspectTussock s (tusOf i) else s, { g with failed := i :: g.failed, banks := mput g.banks i b })

/-- An earlier accumulator instruction of a member has still to take effect on a tile of the gang instruction (R185). -/
def tilesWait (s : State) (g : Gang) : Bool :=
  g.members.any fun (i, id, _) => match findOut (s.core i) id with | some o => tilesBefore (s.core i) o | none => false

/-- One member's step: member `k` is core x0 + k. DEDUCED, log 30. -/
def memberStep (s : State) (g : Gang) (k : Nat) : State × Gang :=
  match g.members[k]? with
  | none => (s, g)
  | some (_, id, own) =>
    let i := g.x0 + k
    let j := if g.east then (k + g.n - g.step) % g.n else (k + g.step) % g.n
    match g.members[j]?, findOut (s.core i) id with
    | some (_, _, b), some o =>
      (match o.op with
       | .gang _ _ t _ _ _ _ _ _ =>
         if g.failed.contains i then (s, g)
         else if own.poisonPanel.isSome || b.poisonTile.isSome then failMember s g i o 3 (own.poisonPanel <|> b.poisonTile)
         else if g.bad.contains (g.x0 + j) then failMember s g i o 9 none
         else
           let x := ownTile (s.core i) (t + j) o.owner
           if !x.poison.isEmpty then failMember s g i o 17 none
           else
             let rs := gangStep g.pair g.snz own b x.elems
             let fl := orFlags (rs.map (·.2)) ||| (mget? g.flags i).getD 0
             (setTile s i (t + j) { x with elems := rs.map fun r => BitVec.ofNat 32 r.1 },
               { g with flags := mput g.flags i fl })
       | _ => (s, g))
    | _, _ => (s, g)

/-- An abort that waits for joined gang instructions goes on when none is left (R191). -/
def abortAfterGang (s : State) (i : Nat) : State :=
  match (s.core i).traps.abort with
  | some a => if joinedGang (s.core i) then s else finishAbort s i a
  | none => s

/-- A member's instruction completes: its flags, or the contained error that its steps met. -/
def finishMember (s : State) (g : Gang) (m : Nat × Nat × GangData) : State :=
  let (i, id, _) := m
  if g.failed.contains i then s.containOut i id ((mget? g.banks i).getD (bankOf s (tcmBase i)))
  else abortAfterGang (s.completeWith i id [] ((mget? g.flags i).getD 0)) i

/-- A partner completes with the contained error of the fenced member (R192). DEDUCED, log 30. -/
def stopMember (s : State) (bank : Nat) (m : Nat × Nat × GangData) : State := s.containOut m.1 m.2.1 bank

/-- MMA_STEP_END (R180): the step under way ends on every member that still runs; with a fenced member the rest of the steps is not
performed (R192). DEDUCED, log 30. -/
def execMmaStepEnd (s : State) : Host.Outcome State Fault Refusal :=
  let key := fun (g : Gang) => g.x0 == s.arg.core && g.n == s.arg.id
  .next (match s.gangs.find? key with
    | none => s
    | some g =>
      let dead := fun (i : Nat) => s.rcv.fences.cores.contains i || s.rcv.fences.tussocks.contains (tusOf i)
      let drop := fun (s : State) => { s with gangs := dropFirst key s.gangs }
      if s.now < g.stepEnd || tilesWait s g then s
      else
        let (s, g) := (List.range g.n).foldl (fun (p : State × Gang) k =>
          if dead (g.x0 + k) then p else memberStep p.1 p.2 k) (s, g)
        match g.members.find? (dead ·.1) with
        | some (i, _, _) => g.members.foldl (fun s m => stopMember s (bankOf s (tcmBase i)) m) (drop s)
        | none =>
          if g.step + 1 = g.n then g.members.foldl (fun s m => finishMember s g m) (drop s)
          else
            let g := { g with step := g.step + 1, stepEnd := s.now + stepCycles g.pair g.snz g.members }
            { s with gangs := s.gangs.map fun x => if key x then g else x })

/-! ## dtload (R121 to R127, R189) -/

/-- A 64-byte block as a load with NA set reads it now: the L1 copy or the location (R84); or the address and the code of the
contained error. -/
def blockRead (s : State) (i : Nat) (ea : Word) : Except (Nat × Nat) (List Byte) :=
  match placeAt s i ea with
  | some p => elemRead s i (s.core i).iss.opCount 64 false p
  | none => .ok (List.replicate 64 0)

/-- Its bytes, where no error meets them. DEDUCED, log 30. -/
def blockNow (s : State) (i : Nat) (ea : Word) : List Byte :=
  match blockRead s i ea with | .ok bs => bs | .error _ => List.replicate 64 0

/-- The status of R123 for a header and its entries. DEDUCED, log 31. -/
def tableStatus (hd : List Byte) (ents : List Nat) : Nat :=
  let kind := (hd.headD 0).toNat
  let vals := (ents.filter fun e => fld e 19 1 == 0).map fun e => fld e 0 19
  let nums := vals.filter fun v => !(unpack fmt19 v).isNan
  if 1 < kind || (hd.drop 1).any (· != 0) then 1
  else if ents.any fun e => fld e 20 12 != 0 then 2
  else if nums.eraseDups.length ≠ nums.length then 3
  else if vals.any (fun v => match unpack fmt19 v with | .fin .. => true | _ => false) then 0
  else 4

/-- An entry that paired mode takes: an infinity, a NaN, a zero, or at most 4 significant bits (R125). -/
def entPaired (e : BitVec 20) : Bool :=
  let v := fld e.toNat 0 19
  let man := fld v 0 10
  let ex := fld v 10 8
  if ex = 255 then true
  else if ex = 0 then man == 0 || man % 2 ^ (man.log2 - 3) == 0
  else fld man 0 7 == 0

/-- An earlier instruction still reads the table (R127). -/
def tableRead (c : CoreSt) (k : Fin 2) : Bool :=
  c.iss.outs.any fun o =>
    match o.op with
    | .gang _ pair _ _ _ _ _ _ _ => if k = 0 then decide (pair / 4 ≤ 1) else decide (pair % 4 ≤ 1)
    | .acc (.quant _ _ _ (.c8 t) _ _) => t == k
    | .acc (.quant _ _ _ (.c4 t) _ _) => t == k
    | .dtload j .. => j == k
    | _ => false

/-- Bytes that the load must wait for: its own earlier accesses (R178, R217), a location that serves no access, a copy that fills
them. -/
def runBusy (s : State) (i : Nat) (ea : Word) (blocks : Nat) : Bool :=
  (List.range blocks).any fun b =>
    match placeAt s i (ea + W (64 * b)) with
    | some p =>
      placeBusy s p || bufBlocks (unperformed (s.core i)) p.addr 64 (s.core i).iss.opCount ||
        readBefore (s.core i) (s.core i).iss.opCount p.addr 64 ||
        (match p with | .array a => matrixOverlap (s.core i) (a - tcmBase i) 64 && decide (tcmBase i ≤ a) | _ => false) ||
        (blockedRead s p.lockKey 64).isSome
    | none => true

/-- The wait for a copy that fills a run of blocks, and its fault (R178, R269). -/
def fillRun (s : State) (i : Nat) (ea : Word) (blocks : Nat) (k : State → Eff) : Eff :=
  match firstSome (fun b => (placeAt s i (ea + W (64 * b))).bind fun p =>
      if (blockedRead s p.lockKey 64).isSome then some p.lockKey else none) (List.range blocks) with
  | some a => withFill s i a 64 k
  | none => withFill s i 0 0 k

/-- The reads of a run of blocks use the L1 lines that give them (R203), or the meres of their lines (R202). DEDUCED, log 30. -/
def touchBlocks (s : State) (i : Nat) (ea : Word) (blocks : Nat) : State :=
  (List.range blocks).foldl (fun s b =>
    match placeAt s i (ea + W (64 * b)) with
    | some p =>
      if (copyAt s i p).isSome then l1Touch s i (lineOf p.lockKey) else readTouch s p (s.classOf (ownerNow (s.core i)))
    | none => s) s

/-- The first contained error that the reads of a run of blocks meet. DEDUCED, log 30. -/
def runPoison (s : State) (i : Nat) (ea : Word) (blocks : Nat) : Option (Nat × Nat) :=
  firstSome (fun b => match blockRead s i (ea + W (64 * b)) with | .error e => some e | .ok _ => none) (List.range blocks)

/-- `dtload` (R189). DEDUCED, log 31; DESIGN CHOICE, log 77. -/
def execDtload (h : Hdr) (d a : GReg) (k : Fin 2) (s : State) : Host.Outcome State Fault Refusal :=
  issueCop .l h
    (matrixBody 0x210 fun i s =>
      let ea := gread (s.core i) a
      if tableRead (s.core i) k then .wait s
      else if ea.toNat % 64 ≠ 0 then .trap s 0x05 ea
      else withRun s i ea 0 1 fun s =>
        if memBefore (s.core i) (s.core i).iss.opCount then .wait s
        else fillRun s i ea 1 fun s => if runBusy s i ea 1 then .wait s
        else match runPoison s i ea 1 with
          | some (p, code) => containEff s i p code
          | none =>
            let hd := blockNow s i ea
            let kind := (hd.headD 0).toNat
            let blocks := if kind = 0 then 16 else if kind = 1 then 1 else 0
            withRun s i (ea + 64) 0 blocks fun s =>
              fillRun s i (ea + 64) blocks fun s => if runBusy s i (ea + 64) blocks then .wait s
              else match runPoison s i (ea + 64) blocks with
                | some (p, code) => containEff s i p code
                | none =>
                  let s := touchBlocks s i ea (blocks + 1)
                  let bs := (List.range blocks).map fun b => blockNow s i (ea + 64 + W (64 * b))
                  let ents := (List.range (16 * blocks)).map fun e => ofLe (((bs.getD (e / 16) []).drop (4 * (e % 16))).take 4)
                  .done s (.out (.dtload k d (tableStatus hd ents) (kind == 1) (ents.map (BitVec.ofNat 20))) .load true false)) s

/-- DTLOAD_INDEX_BUILT (R123, R189): the first outstanding `dtload` of the core completes. A table whose owner OWNER has left
meanwhile is EMPTY (R122). -/
def execDtloadIndexBuilt (s : State) : Host.Outcome State Fault Refusal :=
  let i := s.arg.core
  .next (match (s.core i).iss.outs.find? fun o => match o.op with | .dtload .. => true | _ => false with
    | none => s
    | some o =>
      match o.op with
      | .dtload k d st c4 ents =>
        let x : DTable :=
          { st := if !c4 then .c8 else if ents.all entPaired then .c4p else .c4, owner := o.owner, ents }
        let x := if ents.isEmpty then DTable.empty else x
        let s := if st = 0 then s.onMtx i fun m => { m with dt := vset m.dt k.val x } else s
        s.completeWith i o.id [gdest (s.core i) d (W st)] 0
      | _ => s)

end Sys2Proof.Machine
end

