-- ==== Sys2Proof/Machine/Copies.lean ====
section
/-! DEFINITION. Sluice copies (R261 to R274, R291): `cpyq`, `halo`, `wmrd`, `lkrd`, `mcgset`, range locks, watermarks, and
the events that run a copy. -/

namespace Sys2Proof.Machine

/-! ## Ranges and rights at acceptance (R262, R264) -/

/-- A range as locks name it: alias or pointer address, without colour. -/
def lockBase (i : Nat) (ea : Word) : Nat :=
  match decodeAddr i (wf ea 0 56) with
  | some l => lockAddr l ea
  | none => wf ea 0 56

/-- Smallest and largest byte offset that a shape reaches, with its last element's end. -/
def shapeSpan (h : Shape) : Int × Int :=
  h.dims.foldl (fun (lo, hi) d =>
    let x := ((d.1 : Int) - 1) * d.2
    (lo + min 0 x, hi + max 0 x)) (0, h.esize)

/-- The smallest range of a side: first address and length. DEDUCED, log 33. -/
def sideRange (base : Word) (len : Nat) (h : Option Shape) : Word × Nat :=
  match h with
  | none => (base, len)
  | some h => let (lo, hi) := shapeSpan h; (base + BitVec.ofInt 64 lo, (hi - lo).toNat)

/-- Entries that cover an address, from the owner's rights table. -/
def coverEnts (s : State) (o a : Nat) : List RtEnt := ((tableEnts s o).map (·.2)).filter (·.covers a)

/-- What one covered address gives: 0, 5 (world) or 6 (rights) of R262. `strict` leaves out world 0, as both sides of a
copy belong to the current world (R262, R407). DEDUCED, log 33. -/
def pointVerdict (s : State) (o a col need : Nat) (paged strict : Bool) : Nat :=
  let es := coverEnts s o a
  if paged && colourFails es col then 6
  else
    let es := (if paged then es.filter (·.colour == col) else es).filter (·.gives need)
    let w := s.worldOf o
    if es.isEmpty then 6
    else if es.any fun e => e.world == w || (e.world == 0 && need == 0 && !strict) then 0
    else 5

/-- The rights and worlds of a range, 64 KiB by 64 KiB, without translation (R264). DEDUCED, log 33. -/
def rangeVerdict (s : State) (i o : Nat) (ea : Word) (len need : Nat) (strict : Bool) : Nat :=
  let col := wf ea 56 8
  match decodeAddr i (wf ea 0 56) with
  | none => 6
  | some l =>
    let res := match l with | .tcm c off => reservedTcm s c off len | _ => false
    let paged := match l with | .paged _ => true | _ => false
    if locRoom l < len || !locOn s l || !s.live o || inRightsArea l len || res || (!paged && col ≠ 0) then 6
    else
      let a := lockAddr l ea
      let vs := (List.range ((a + len - 1) / 65536 - a / 65536 + 1)).map fun k =>
        pointVerdict s o (if k = 0 then a else (a / 65536 + k) * 65536) col need paged strict
      if vs.contains 5 then 5 else if vs.contains 6 then 6 else 0

/-! ## Lock tables (R267) -/

/-- A controller that holds locks: an array or a mere, and its entries. DESIGN CHOICE, log 34. -/
def lockCapacity (u : Nat) : Nat :=
  if u < 100000 then 16 else if u < 200000 then 8 else if u < 300000 then 32 else 64

/-- Controllers of the bytes of a range. A global range is registered at the meres of the lines that are mapped.
DESIGN CHOICE, log 34. -/
def lockUnits (s : State) (die base len : Nat) : List Nat :=
  match decodeAddr 0 base with
  | some (.tcm c _) => [100000 + c]
  | some (.tussock t _) => [200000 + t]
  | some (.staithe d _) => [300000 + d]
  | some (.paged _) =>
    ((List.range ((base + len - 1) / 64 - base / 64 + 1)).foldl (fun (m : Map Unit) k =>
      let va := (base / 64 + k) * 64
      match leafNow s (s.walker die).ptbase va 4 with
      | some (t, _) =>
        let pa := t.frame + (va - t.page)
        mput m (720 * homeDie s pa + homeMere pa) ()
      | none => m) []).map (·.1)
  | _ => []

/-- The lock would fall in the tussock memory of a test under way (R432). -/
def lockInTest (s : State) (l : Lock) : Bool :=
  s.rcv.tests.any fun (_, t) =>
    decide (t.phase ≠ .idle) && decide (t.phase ≠ .failed) &&
      (match t.queue with | (u, _) :: _ => rangesMeet l.base l.len (tusBase u) (2 ^ 20) | [] => false)

/-- Every controller has a free entry for the new locks, and none falls in a tussock memory under test. DESIGN CHOICE, log 34. -/
def locksFit (s : State) (die : Nat) (new : List Lock) : Bool :=
  !new.any (lockInTest s) &&
  let held := s.eng.locks.map fun l => lockUnits s die l.base l.len
  let more := new.map fun l => lockUnits s die l.base l.len
  let count := fun (ls : List (List Nat)) (u : Nat) => (ls.filter (·.contains u)).length
  more.flatten.eraseDups.all fun u => decide (count held u + count more u ≤ lockCapacity u)

/-- Status 4 of R264. -/
def locksClash (s : State) (new : List Lock) : Bool :=
  new.any (fun l => s.eng.locks.any fun k => rangesMeet l.base l.len k.base k.len && (l.dst || k.dst)) ||
    new.any fun l => !l.dst && new.any fun k => k.dst && k.copy == l.copy && rangesMeet l.base l.len k.base k.len

/-! ## Acceptance -/

/-- A copy before it is accepted. -/
def Copy.blank (s : State) (i : Nat) : Copy :=
  { id := s.eng.copyCount, core := i, out := (s.core i).iss.opCount, owner := ownerNow (s.core i), src := 0, dst := 0
    len := 0, shape := none, shapeSrc := false, shapeDst := false, mcast := none, mgroup := none, notify := none
    wm := none, halo := none, splice := none, done := 0, st := .queued }

/-- The destinations of a copy: for MCAST, each member's TCM. -/
def Copy.dsts (c : Copy) : List Word :=
  match c.mcast with
  | none => [c.dst]
  | some ms => ms.map fun k => W (tcmBase k + c.dst.toNat)

def Copy.srcRange (c : Copy) : Word × Nat := sideRange c.src c.len (if c.shapeSrc then c.shape else none)
def Copy.dstRange (c : Copy) (d : Word) : Word × Nat := sideRange d c.len (if c.shapeDst then c.shape else none)

def Copy.locks (c : Copy) : List Lock :=
  let (a, n) := c.srcRange
  { copy := c.id, core := c.core, op := c.out, dst := false, base := lockBase c.core a, len := n } ::
    c.dsts.map fun d => let (b, m) := c.dstRange d; { copy := c.id, core := c.core, op := c.out, dst := true, base := lockBase c.core b, len := m }

/-- The verdict of both sides under R262: 5 before 6. DEDUCED, log 33. -/
def Copy.verdict (s : State) (c : Copy) : Nat :=
  let (a, n) := c.srcRange
  let vs := rangeVerdict s c.core c.owner a n 0 true ::
    c.dsts.map fun d => let (b, m) := c.dstRange d; rangeVerdict s c.core c.owner b m 1 true
  if vs.contains 5 then 5 else if vs.contains 6 then 6 else 0

/-- The destinations of a copy cover bytes of [a, a + n), as locks name them: for a shape, its elements do. -/
def Copy.meets (c : Copy) (a n : Nat) : Bool :=
  match c.shape, c.shapeDst with
  | some h, true => (List.range h.count).any fun e => rangesMeet a n (lockBase c.core (elemAddr c.dst h e)) h.esize
  | _, _ => c.dsts.any fun d => rangesMeet a n (lockBase c.core d) c.len

/-- A line that the destination covers. -/
def Copy.covers (c : Copy) (line : Nat) : Bool := c.meets (64 * line) 64

/-- Accepted copies: locks, slot, L1 drops, the stream elements read ahead that they overwrite (R236), a place in the FIFO. -/
def acceptCopies (s : State) (i : Nat) (cs : List Copy) : State :=
  cs.foldl (fun s c =>
    let s := s.onEng fun e =>
      { e with copies := e.copies ++ [c], copyCount := e.copyCount + 1, locks := e.locks ++ c.locks }
    let s := dropAheadAt (l1Drop s i c.covers) i fun p es => c.meets p.lockKey es
    let s := groupFlight s c.mgroup 1
    s.onSched i fun d =>
      { d with
        fifo := d.fifo ++ [c.id]
        wm := match c.wm with
          | some k => vset d.wm k.val { busy := true, fault := false, fill := wf c.dst 0 56, owner := c.owner }
          | none => d.wm }) s

/-- Status of the last checks, and acceptance: 4, 1 or 0 (R264). DEDUCED, log 33 and 37. -/
def takeCopies (d : GReg) (i : Nat) (s : State) (cs : List Copy) : Eff :=
  let new := cs.flatMap (·.locks)
  if locksClash s new then status s i d 4
  else if 8 < (s.core i).sched.fifo.length + cs.length || !locksFit s (dieOf i) new then status s i d 1
  else
    .done (acceptCopies s i cs) (.begun [gdest (s.core i) d 0] (.copy (cs.map (·.id)) none) .engine)

/-- A shape record read at acceptance as a load under R82: the shape, or a fault of the read, or a record that fails
the checks of R166. -/
inductive ShapeRead where
  | ok (s : State) (h : Shape)
  | wait (s : State)
  | fault (s : State)
  | malformed (s : State)
  deriving Repr

/-- DEDUCED, log 19. -/
def readShape (s : State) (i : Nat) (ea : Word) : ShapeRead :=
  match checkAccess s i ea 64 64 0 with
  | .wait s => .wait s
  | .bad s _ => .fault s
  | .ok s _ _ =>
    if runBusy s i ea 1 then .wait s
    else match runPoison s i ea 1 with
    | some (a, code) => .fault (logPoison s (some i) a code (ownerNow (s.core i)) (pcNow (s.core i)) 0)
    | none => match shapeOf (wordsLe 8 (blockNow s i ea)) 3 with
      | some h => if 2 ^ 32 ≤ h.count * h.esize then .malformed s else .ok (touchBlocks s i ea 1) h
      | none => .malformed s

/-! ## cpyq -/

/-- Malformed (7) apart from the shape record. -/
def cpyqMalformed (s : State) (i : Nat) (dst w2 aux : Word) : Bool :=
  let c := s.core i
  let nt := wb w2 48
  let mc := wb w2 47
  let pat := wb w2 46
  let pd := wb w2 45
  let en := wb w2 44
  let slot := wf w2 40 4
  let len := wf w2 0 32
  decide (wf w2 54 10 ≠ 0) || decide (wf w2 32 8 ≠ 0) || (pd && !pat) || (!en && slot != 0) ||
    (nt && mc) || (nt && pat) || (mc && pat) ||
    (!nt && !mc && !pat && aux != 0) ||
    (if pat then len != 0 else decide (len < 8) || decide (2 ^ 32 - 8 < len)) || (mc && decide (131072 - 8 < dst.toNat)) ||
    (en && (vget c.sched.wm .reset slot).busy) ||
    (nt && !recvChannel s i (wf w2 49 5)) ||
    (mc && match (if aux.toNat < 4096 then groupOf s aux.toNat else none) with
      | some g => g.owner != ownerNow c
      | none => true)

/-- The rest of the checks of R264, from Misaligned on. -/
def cpyqChecks (d : GReg) (i : Nat) (s : State) (src dst w2 aux : Word) (h : Option Shape) (recBad recFault : Bool) : Eff :=
  let mc := wb w2 47
  let pat := wb w2 46
  let group := if mc then groupOf s aux.toNat else none
  let es := match h with | some h => h.esize | none => 1
  let mis :=
    if pat then recBad || src.toNat % es != 0 || dst.toNat % es != 0 ||
      (match h with | some h => h.dims.any fun x => x.2 % (es : Int) != 0 | none => false)
    else src.toNat % 8 != 0 || dst.toNat % 8 != 0 || wf w2 0 32 % 8 != 0
  let apert := fun (a : Word) => match decodeAddr i (wf a 0 56) with | some (.aperture ..) => true | _ => false
  let typ2 := match group with | some g => groupType g.words == 2 | none => false
  let c : Copy :=
    { Copy.blank s i with
      src, dst
      len := match h with | some h => h.count * h.esize | none => wf w2 0 32
      shape := h, shapeSrc := pat && !wb w2 45, shapeDst := pat && wb w2 45
      mcast := group.map fun g => groupCores g.words
      mgroup := if mc then some aux.toNat else none
      notify := if wb w2 48 then some (wf w2 49 5, aux) else none
      wm := if wb w2 44 then some (Fin.ofNat 16 (wf w2 40 4)) else none }
  if mis then status s i d 2
  else if apert src || (!mc && apert dst) || typ2 then status s i d 3
  else
    let v := if recFault then 6 else c.verdict s
    if v ≠ 0 then status s i d (W v) else takeCopies d i s [c]

/-- `cpyq` (R263, R264). -/
def execCpyq (h : Hdr) (d a : GReg) (s : State) : Host.Outcome State Fault Refusal :=
  issue .e h
    (fun i s =>
      let c := s.core i
      let w := fun k => greadN c (a.val + k)
      let aux := w 3
      if cpyqMalformed s i (w 1) (w 2) aux then status s i d 7
      else if !wb (w 2) 46 then cpyqChecks d i s (w 0) (w 1) (w 2) aux none false false
      else if aux.toNat % 64 ≠ 0 then cpyqChecks d i s (w 0) (w 1) (w 2) aux none true false
      else match readShape s i aux with
        | .wait s => .wait s
        | .malformed s => status s i d 7
        | .fault s => cpyqChecks d i s (w 0) (w 1) (w 2) aux none false true
        | .ok s sh => cpyqChecks d i s (w 0) (w 1) (w 2) aux (some sh) false false) s

/-- `wmrd` (R270). -/
def execWmrd (h : Hdr) (d : GReg) (k : Fin 16) (s : State) : Host.Outcome State Fault Refusal :=
  issue .e h
    (fun i s =>
      let c := s.core i
      let x := vget c.sched.wm .reset k.val
      let v := if x.owner = ownerNow c then W (b2n x.busy * 2 ^ 63 + b2n x.fault * 2 ^ 62 + x.fill % 2 ^ 56) else 0
      .done s (.written [gdest c d v])) s

/-- `lkrd` (R271). -/
def execLkrd (h : Hdr) (d a : GReg) (s : State) : Host.Outcome State Fault Refusal :=
  issue .e h
    (fun i s =>
      withAccess s i (gread (s.core i) a) 1 1 0 fun s _ p =>
        let on := fun (dst : Bool) => s.eng.locks.any fun l => l.dst == dst && rangesMeet l.base l.len p.lockKey 1
        .done s (.written [gdest (s.core i) d (W (b2n (on false) + 2 * b2n (on true)))])) s

/-! ## Records in own TCM (R260) -/

/-- The words of a 64-byte record in own TCM; `none` when it is misaligned or lies elsewhere. DEDUCED, log 18. -/
def ownRecOff (i : Nat) (ea : Word) (align len : Nat) : Option Nat :=
  if ea.toNat % align ≠ 0 ∨ wf ea 56 8 ≠ 0 then none
  else match decodeAddr i (wf ea 0 56) with
    | some (.tcm j off) => if j = i ∧ off + len ≤ 2 ^ 17 then some off else none
    | _ => none

/-- Continues with the words of an aligned block of `n` bytes in own TCM, as the core last wrote it, or with the status `bad`. The read
makes the checks of R82 as a load (R305, R337, R385). DEDUCED, log 18. -/
def withOwnBlock (s : State) (i : Nat) (d : GReg) (ea : Word) (n : Nat) (bad : Word) (k : State → List Word → Eff) : Eff :=
  match ownRecOff i ea n n with
  | none => status s i d bad
  | some off =>
    let a := tcmBase i + off
    match checkAt s i ea n 0 with
    | .wait s => .wait s
    | .bad s cause => .trap s cause ea
    | .ok s _ _ =>
      if unperfOverlap (s.core i) a n || matrixOverlap (s.core i) off n || (blockedRead s a n).isSome then .wait s
      else match poisonCode s a n with
        | some code => containEff s i (poisonAddr s a n) code
        | none => k s (wordsLe (n / 8) (readBytes s.mem a n))

/-- A record of 64 bytes in own TCM. DEDUCED, log 18. -/
def withOwnRec (s : State) (i : Nat) (d : GReg) (ea : Word) (bad : Word) (k : State → List Word → Eff) : Eff :=
  withOwnBlock s i d ea 64 bad k

/-! ## halo (R273) -/

/-- The neighbour of a side: north, east, south, west. -/
def neighbour (s : State) (i k : Nat) : Option Nat :=
  let x := modX i
  let y := modY i
  let c := match k with
    | 0 => if y = 0 then none else some (coreAt x (y - 1))
    | 1 => if x = 191 then none else some (coreAt (x + 1) y)
    | 2 => if y = 134 then none else some (coreAt x (y + 1))
    | _ => if x = 0 then none else some (coreAt (x - 1) y)
  c.bind fun j => if coreOn s j then some j else none

/-- The side of the receiver at which data sent to side `k` arrives (R274). -/
def farSide (k : Nat) : Side := match k with | 0 => .s | 1 => .w | 2 => .n | _ => .e

/-- DEDUCED, log 37. -/
def haloChecks (d : GReg) (i : Nat) (s : State) (ws : List Word) (sh : Option Shape) (recBad recFault : Bool) : Eff :=
  let w := fun k => ws.getD k 0
  let on := (List.range 4).filter fun k => wb (w k) 53
  let shp := fun k => wb (w k) 52
  let es := match sh with | some h => h.esize | none => 1
  let mis := on.any fun k =>
    if shp k then recBad || wf (w k) 0 17 % es != 0 || wf (w k) 17 17 % es != 0 ||
      (match sh with | some h => h.dims.any fun x => x.2 % (es : Int) != 0 | none => false)
    else wf (w k) 0 17 % 8 != 0 || wf (w k) 17 17 % 8 != 0 || wf (w k) 34 18 % 8 != 0
  let copies := (on.zipIdx).map fun (k, n) =>
    { Copy.blank s i with
      id := s.eng.copyCount + n
      src := W (tcmBase i + wf (w k) 0 17)
      dst := W (tcmBase ((neighbour s i k).getD i) + wf (w k) 17 17)
      len := if shp k then (match sh with | some h => h.count * h.esize | none => 0) else wf (w k) 34 18
      shape := if shp k then sh else none, shapeSrc := shp k, shapeDst := shp k
      halo := (neighbour s i k).map fun j => (j, farSide k) }
  if mis then status s i d 2
  else if on.any fun k => (neighbour s i k).isNone then status s i d 3
  else
    let vs := copies.map fun c => if recFault && c.shape.isNone && c.shapeSrc then 6 else c.verdict s
    if vs.contains 5 then status s i d 5
    else if vs.contains 6 then status s i d 6
    else takeCopies d i s copies

/-- `halo` (R273). DEDUCED, log 37. -/
def execHalo (h : Hdr) (d a : GReg) (s : State) : Host.Outcome State Fault Refusal :=
  issue .e h
    (fun i s =>
      withOwnRec s i d (gread (s.core i) a) 7 fun s ws =>
        let w := fun k => ws.getD k 0
        let on := (List.range 4).filter fun k => wb (w k) 53
        let shp := on.any fun k => wb (w k) 52
        let bad :=
          on.isEmpty || (List.range 4).any (fun k => wf (w k) 54 10 != 0) || (ws.drop 5).any (· != 0) ||
            on.any fun k => if wb (w k) 52 then wf (w k) 34 18 != 0
              else decide (wf (w k) 34 18 < 8) || decide (131072 < wf (w k) 34 18)
        if bad then status s i d 7
        else if !shp then haloChecks d i s ws none false false
        else if (w 4).toNat % 64 ≠ 0 then haloChecks d i s ws none true false
        else match readShape s i (w 4) with
          | .wait s => .wait s
          | .malformed s => status s i d 7
          | .fault s => haloChecks d i s ws none false true
          | .ok s sh => haloChecks d i s ws (some sh) false false) s

/-! ## mcgset (R288, R289) -/

/-- A group record that keeps R288. -/
def groupOk (ws : List Word) : Bool :=
  let w := fun k => ws.getD k 0
  let t := groupType ws
  let ms := groupMods ws
  let field := fun k => wf (w (3 + k / 4)) (16 * (k % 4)) 16
  wf (w 0) 8 56 == 0 && wf (w 0) 2 2 == 0 && groupRop ws != 3 && t != 3 && wf (w 2) 5 59 == 0 && w 7 == 0 &&
    (match t with
     | 1 => wf (w 1) 32 2 == 0 && scopeOk (w 1) && w 2 == 0 && (List.range 16).all (fun k => field k == 0)
     | 2 =>
       decide (1 ≤ wf (w 2) 0 5) && decide (wf (w 2) 0 5 ≤ 16) && decide (ms.eraseDups.length = ms.length) &&
         (List.range 16).all fun k => if k < wf (w 2) 0 5 then decide (field k < 2 ^ 14) else field k == 0
     | _ => w 2 == 0 && (List.range 16).all fun k => field k == 0)

/-- `mcgset`. -/
def execMcgset (h : Hdr) (d a b : GReg) (s : State) : Host.Outcome State Fault Refusal :=
  issue .e h
    (fun i s =>
      let c := s.core i
      let g := (gread c a).toNat
      if 4096 ≤ g then status s i d 7
      else withOwnRec s i d (gread c b) 7 fun s ws =>
        if !groupOk ws then status s i d 7
        else
          let o := ownerNow c
          match groupOf s g with
          | some x =>
            if x.owner ≠ o then status s i d 6
            else if x.inflight ≠ 0 then status s i d 1
            else status (s.onEng fun e =>
              { e with groups := if groupType ws = 0 then mdel e.groups g
                  else mput e.groups g { owner := o, words := ws, inflight := 0 } }) i d 0
          | none =>
            status (if groupType ws = 0 then s
              else s.onEng fun e => { e with groups := mput e.groups g { owner := o, words := ws, inflight := 0 } }) i d 0) s

/-! ## Running a copy (R265, R269, R270) -/

def setCopy (s : State) (c : Copy) : State :=
  s.onEng fun e => { e with copies := e.copies.map fun x => if x.id == c.id then c else x }

/-- Whether a sluice runs a copy. -/
def sluiceBusy (s : State) (die k : Nat) : Bool :=
  s.eng.copies.any fun c => dieOf c.core == die && c.st == .running k

/-- SLUICE_TAKE_COMMAND: the copy at the head of a core's FIFO goes to a free sluice of its die. DESIGN CHOICE, log 35. -/
def execSluiceTakeCommand (s : State) : Host.Outcome State Fault Refusal :=
  let i := s.arg.core
  let k := s.arg.id
  .next (match (s.core i).sched.fifo with
    | [] => s
    | id :: rest =>
      match copyOf s id with
      | none => s.onSched i fun d => { d with fifo := rest }
      | some c =>
        if dieOf i ≠ s.arg.unit || !dieOn s (dieOf i) || 16 ≤ k || s.rcv.fences.sluices.contains (sluiceUnit (dieOf i) k) ||
            sluiceBusy s (dieOf i) k then s
        else
          let s := s.onSched i fun d => { d with fifo := rest }
          match c.st with
          | .queued => setCopy s { c with st := .running k }
          | _ => s)

/-- Bytes written from an address on, line by line. -/
def writeLines (s : State) (p : Place) (owner : Nat) : Nat → List Byte → State
  | 0, _ => s
  | n + 1, bs =>
    if bs.isEmpty then s
    else
      let k := 64 - p.addr % 64
      writeLines (performWrite s p (bs.take k) owner) (p.plus k) owner n (bs.drop k)

def writeRun (s : State) (p : Place) (owner : Nat) (bs : List Byte) : State := writeLines s p owner (bs.length / 64 + 2) bs

def touchLines (s : State) (p : Place) (n cls : Nat) : State :=
  (List.range ((p.addr + n - 1) / 64 - p.addr / 64 + 1)).foldl (fun s k => readTouch s (p.plus (64 * k)) cls) s

/-- The place in the walk: addresses of the next byte of the source and of the destination. -/
def Copy.srcAt (c : Copy) : Word :=
  match c.shape, c.shapeSrc with
  | some h, true => elemAddr c.src h (c.done / h.esize)
  | _, _ => c.src + W c.done

def Copy.dstAt (c : Copy) (d : Word) : Word :=
  match c.shape, c.shapeDst with
  | some h, true => elemAddr d h (c.done / h.esize)
  | _, _ => d + W c.done

/-- Bytes of the next piece: to the next 64 KiB boundary of either side, or one element of a shape. DESIGN CHOICE, log 35. -/
def Copy.piece (c : Copy) : Nat :=
  match c.shape with
  | some h => h.esize
  | none =>
    let room := fun (a : Word) => 65536 - a.toNat % 65536
    min (c.len - c.done) (c.dsts.foldl (fun m d => min m (room (c.dstAt d))) (room c.srcAt))

/-- Units of service of the next piece: the 64-byte units that it begins (R323). -/
def Copy.units (c : Copy) (n : Nat) : Nat := (c.done + n + 63) / 64 - (c.done + 63) / 64

/-- Units that the running copies of a die wait for, by class. -/
def copyUnits (s : State) (d : Nat) : List (Nat × Nat) :=
  s.eng.copies.filterMap fun c =>
    match c.st with
    | .running _ => if dieOf c.core = d then some (s.classOf c.owner, c.units (c.len - c.done)) else none
    | _ => none

/-- FILL of a slot: the watermark as the command's destination pointer gives it (R270). -/
def Copy.fill (c : Copy) : Nat :=
  match c.shape, c.shapeDst with
  | some h, true =>
    if c.len ≤ c.done then wf (elemAddr c.dst h (h.count - 1)) 0 56 + h.esize else wf (c.dstAt c.dst) 0 56
  | _, _ => wf c.dst 0 56 + c.done

def setFill (s : State) (c : Copy) (busy fault : Bool) : State :=
  match c.wm with
  | none => s
  | some k => s.onSched c.core fun d =>
      { d with wm := vset d.wm k.val { vget d.wm .reset k.val with busy := busy, fault := fault, fill := c.fill } }

/-- A copy stops: nothing at or beyond its watermark is written (R265). -/
def stopCopy (s : State) (c : Copy) (sub : Nat) (ea : Word) : State :=
  setCopy s { c with st := .stopped (engineVal sub (W (lockBase c.core ea))) }

/-- Destinations of the next piece after their checks, or the failure. DEDUCED, log 36. -/
def dstPlaces (s : State) (g : Agent) (c : Copy) (n : Nat) : List Word → State × Except (Nat × Word) (List Place)
  | [] => (s, .ok [])
  | d :: ds =>
    let ea := c.dstAt d
    match engineCheck s g ea n 1 with
    | (s, .error sub) => (s, .error (sub, ea))
    | (s, .ok (_, p)) =>
      if s.eng.locks.any fun l => l.copy != c.id && rangesMeet l.base l.len p.lockKey n then (s, .error (5, ea))
      else if fencedArray s p.addr then (logPoison s (some c.core) p.addr 3 c.owner c.src 0, .error (9, ea))
      else match dstPlaces s g c n ds with
        | (s, .ok ps) => (s, .ok (p :: ps))
        | x => x

/-- COPY_SEGMENT (R265, R291): the next piece of a running copy, once its units are granted (R324), is checked and written, or the
copy stops. DESIGN CHOICE, log 35; DEDUCED, log 36. -/
def execCopySegment (s : State) : Host.Outcome State Fault Refusal :=
  .next (match copyOf s s.arg.id with
    | none => s
    | some c =>
      match c.st with
      | .running k =>
        let die := dieOf c.core
        let n := c.piece
        if c.len ≤ c.done || storesBefore (s.core c.core) c.out || !granted s die 1 c.owner (c.units n) then s
        else
          let g : Agent := { unit := sluiceUnit die k, owner := c.owner, die, core := some c.core }
          (match engineCheck s g c.srcAt n 0 with
           | (s, .error sub) => stopCopy s c sub c.srcAt
           | (s, .ok (_, p)) =>
             match dstPlaces s g c n c.dsts with
             | (s, .error (sub, ea)) => stopCopy s c sub ea
             | (s, .ok ps) =>
               if engineBusy s p n false || ps.any (fun q => placeBusy s q || migrationLocked q) then s
               else match poisonCode s p.addr n with
                 | some code => stopCopy (logPoison s (some c.core) (poisonAddr s p.addr n) code c.owner c.src 0) c 9 c.srcAt
                 | none =>
                   let bs := placeBytes s p n
                   let s := touchLines s p n (s.classOf c.owner)
                   let s := spendUnits (ps.foldl (fun s q => writeRun s q c.owner bs) s) die 1 c.owner (c.units n)
                   let c := { c with done := c.done + n }
                   setFill (setCopy s c) c true false)
      | _ => s)

/-! ## Completion of a copy -/

/-- Bytes that an outstanding read has still to read, as locks name them. -/
def readKeys (i : Nat) (o : Out) : List (Nat × Nat) :=
  match o.op with
  | .load p _ dst _ => [(p.lockKey, if dst.pair then 16 else dst.bytes)]
  | .lda p dst => [(p.lockKey, dst.bytes)]
  | .vload x => x.elems.filterMap fun (_, _, p, v) => if v.isNone then some (p.lockKey, x.es) else none
  | .acq p _ => [(p.lockKey, 144)]
  | .sigrd p _ j => [(p.lockKey + 8 + 8 * j, 8)]
  | .acc (.load ..) => (pendingSpans o).map fun m => (tcmBase i + m.1, m.2)
  | .gang .. => (pendingSpans o).map fun m => (tcmBase i + m.1, m.2)
  | _ => []

/-- The copy has a destination lock over bytes at or above its watermark within [a, a + n). -/
def waitsOn (s : State) (id a n : Nat) : Bool :=
  s.eng.locks.any fun l =>
    l.copy == id && l.dst && rangesMeet a n l.base l.len && decide (lockMark s l < a + n)

/-- Reads that wait for a copy that has stopped complete with its fault (R83, R178, R269). -/
def failReaders (s : State) (id : Nat) (v : Word) : State :=
  s.cores.foldl (fun s (i, _) =>
    let c := s.core i
    let s := if c.cache.wmWait = some (id, none) then s.onCache i fun k => { k with wmWait := some (id, some v) } else s
    c.iss.outs.foldl (fun s o =>
      match o.op with
      | .watermark k none p ea dst na =>
        if k = id then s.onCore i fun c => setOut c { o with op := .watermark k (some v) p ea dst na } else s
      | _ =>
        if (readKeys i o).any fun r => waitsOn s id r.1 r.2 then
          { s.failOut i o.id 0x0D v with arrivals := s.arrivals.filter fun a => !(a.core == i && a.id == o.id) }
        else s) s) s

/-- Bytes read ahead by streams that wait for a stopped copy hold its fault (R167). DEDUCED, log 29. -/
def failStreams (s : State) (id : Nat) (v : Word) : State :=
  s.cores.foldl (fun s (i, _) =>
    let c := s.core i
    (List.range 8).foldl (fun s q =>
      match vget c.regs.q .unbound q with
      | .stream false base h pos ahead =>
        let e := pos + ahead.length
        if ahead.length < 8 && e < h.count && waitsOn s id (lockBase i (elemAddr base h e)) h.esize then
          setQ s i q (.stream false base h pos (ahead ++ [.fault 0x0D v]))
        else s
      | _ => s) s) s

/-- The destination lines of a command join the issuer's WSIG, while its firing runs (R227). -/
def joinWsig (s : State) (i firing : Nat) (lines : List Nat) : State :=
  if ((s.core i).firing.map (·.num)) = some firing then
    s.onRegs i fun r => { r with wsig := lines.foldl sigAdd r.wsig }
  else s

/-- Lines of a paged range. -/
def pagedLines (i : Nat) (ea : Word) (len : Nat) : List Nat :=
  match decodeAddr i (wf ea 0 56) with
  | some (.paged va) => (List.range ((va + len - 1) / 64 - va / 64 + 1)).map (va / 64 + ·)
  | _ => []

/-- Lines of a copy's destination: for a shape, those of its elements. -/
def Copy.dstLines (c : Copy) : List Nat :=
  match c.shape, c.shapeDst with
  | some h, true => (List.range h.count).flatMap fun e => pagedLines c.core (elemAddr c.dst h e) h.esize
  | _, _ => c.dsts.flatMap fun d => pagedLines c.core d c.len

/-- Words of a notify record (R266). -/
def notifyWords (s : State) (i : Nat) (w0 w1 val dst : Word) (len : Nat) : List Word :=
  [w0, w1, val, dst, W len, W (modY i * 2 ^ 24 + modX i * 2 ^ 16 + s.ownMod), 0, 0]

/-- What completes with a copy: its instruction once all its copies have, with the first fault. -/
def finishOut (s : State) (c : Copy) (v : Option Word) : State :=
  match findOut (s.core c.core) c.out with
  | none => s
  | some o =>
    match o.op with
    | .copy cs f =>
      let cs := cs.filter (· != c.id)
      let f := match f with | some x => some x | none => v
      if cs.isEmpty then
        (match f with
         | some x => s.failOut c.core o.id 0x0D x
         | none => s.complete c.core o.id)
      else s.onCore c.core fun k => setOut k { o with op := .copy cs f }
    | _ => s

/-- The end of a copy, `v` the fault with which it stopped (R265, R267, R270, R274). -/
def endCopy (s : State) (c : Copy) (v : Option Word) : State :=
  let s := match v with | some x => failStreams (failReaders s c.id x) c.id x | none => s
  let firing := match findOut (s.core c.core) c.out with | some o => o.firing | none => 0
  let s := s.onEng fun e =>
    { e with copies := e.copies.filter (·.id != c.id), locks := e.locks.filter (·.copy != c.id) }
  let s := groupFlight s c.mgroup (-1)
  let s := setFill s c false v.isSome
  let s := if v.isNone then joinWsig s c.core firing c.dstLines else s
  let s := match c.halo with
    | some (j, side) => if v.isNone then wakeCore (s.onSched j fun d => { d with mboxIn := d.mboxIn ++ [side] }) j else s
    | none => s
  let s := finishOut s c v
  match c.notify with
  | some (ch, h) =>
    edgeAdd s c.core
      { ch, kind := .notify, item := .data (notifyWords s c.core h c.src (v.getD 0) c.dst c.len) none, owner := c.owner
        ref_ := 0 }
  | none => s

/-- COPY_COMPLETE (R265). A state copy of a splice is completed by the splice itself (R329). -/
def execCopyComplete (s : State) : Host.Outcome State Fault Refusal :=
  .next (match copyOf s s.arg.id with
    | none => s
    | some c =>
      if c.splice.isSome then s
      else match c.st with
        | .running _ => if c.len ≤ c.done then endCopy s c none else s
        | .stopped v => endCopy s c (some v)
        | .queued => s)

/-- NOTIFY_RECORD_PLACE (R266, R443). -/
def execNotifyRecordPlace (s : State) : Host.Outcome State Fault Refusal :=
  .next (match placeEdge s s.arg.core s.arg.id .notify with | some (s, _) => s | none => s)

end Sys2Proof.Machine
end

