-- ==== Sys2Proof/Machine/Remote.lean ====
section
/-! DEFINITION. Remote operations (R283 to R286, R290) and three-party reads (R292 to R294): `rld`, `rst`, `ramo`, `rdx`, and
the packets that carry them. -/

namespace Sys2Proof.Machine

/-! ## rld, rst and ramo at issue (R285) -/

/-- The body of a remote operation of `n` bytes: kind of packet, what it carries, the destination of the answer. -/
def remoteBody (kind : RemoteKind) (pk n size op : Nat) (w32 : Bool) (a b : GReg) (val : CoreSt → Word)
    (dst : CoreSt → Option LoadDst) (i : Nat) (s : State) : Eff :=
  let c := s.core i
  let ea := gread c a
  if ea.toNat % n ≠ 0 then .trap s 0x05 ea
  else if !injRoom s i 1 then .wait s
  else
    let m := wf (gread c b) 0 14
    let p : Packet :=
      { request s i (ownerNow c) pk m c.iss.opCount with addr := ea, val := val c, len := n, size, op, w32 }
    let s := match kind, decodeAddr i (wf ea 0 56) with
      | .rld, _ => s
      | _, some (.paged va) => addWsig s i va
      | _, _ => s
    let s := sendReq s p (some i)
    let r : RemoteOp :=
      { kind, dst := dst c, left := 1, vals := [], faults := [], addr := ea, rfmt := 0, rop := 0, members := [(m, ea)]
        group := none, lines := [] }
    .done s (.out (.remote r) .remote (dst c).isSome false)

/-- The code of R78. -/
def Size.code : Size → Nat
  | .n8 => 0 | .n16 => 1 | .n32 => 2 | .n64 => 3 | .s8 => 4 | .s16 => 5 | .s32 => 6

/-- `rld`. -/
def execRld (h : Hdr) (d a b : GReg) (sz : Size) (s : State) : Host.Outcome State Fault Refusal :=
  issue .e h
    (remoteBody .rld 1 (Size.bytes sz) (Size.code sz) 0 false a b (fun _ => 0) fun c =>
      some { d := gdest c d 0, bytes := Size.bytes sz, signed := Size.signed sz, pair := false }) s

/-- `rst`. -/
def execRst (h : Hdr) (a b c : GReg) (sz : Size) (s : State) : Host.Outcome State Fault Refusal :=
  issue .e h (remoteBody .rst 3 (Size.bytes sz) (Size.code sz) 0 false a b (fun k => lowBytes (Size.bytes sz) (gread k c)) fun _ => none) s

/-- `ramo`: relaxed. -/
def execRamo (h : Hdr) (d a b c : GReg) (op : AmoOp) (w32 : Bool) (s : State) : Host.Outcome State Fault Refusal :=
  issue .e h
    (remoteBody .ramo 5 (wBytes w32) 0 (AmoOp.code op) w32 a b (fun k => lowBytes (wBytes w32) (gread k c)) fun k =>
      some { d := gdest k d 0, bytes := wBytes w32, signed := false, pair := false }) s

/-! ## Requests at their target (R285) -/

/-- The agent of a request at this module's edge (R392): the PLB and the walker of the die that takes the packet.
DEDUCED, log 45. -/
def edgeAgent (p : Packet) (core : Option Nat) : Agent :=
  { unit := edgeUnit p.die, owner := p.owner, die := p.die, core, src := p.addr }

/-- A request that fails at this edge is answered with its SUB. -/
def refuseReq (s : State) (p : Packet) (sub : Nat) : State :=
  sendAnswer s { answer s p (answerKind p.kind) with sub := sub }

/-- Memory that no write reaches: a fenced tussock's (R423). -/
def fencedMem (s : State) (p : Place) : Bool := fencedArray s p.addr

/-- A request taken at the edge: its checks, the waits of its location (the packet stays), poison, then `k`. -/
def atTarget (s : State) (kind need : Nat) (write : Bool) (k : State → Packet → Place → State) : State :=
  match takePkt s s.arg.id kind with
  | none => s
  | some (p, t) =>
    match engineCheck t (edgeAgent p none) p.addr p.len need with
    | (t, .error sub) => refuseReq t p sub
    | (t, .ok (_, pl)) =>
      if engineBusy t pl p.len write then s
      else if write && lockedW t pl.lockKey p.len then refuseReq t p 5
      else if fencedMem t pl then refuseReq t p 9
      else match (if kind = 3 then none else poisonCode t pl.addr p.len) with
        | some code => refuseReq (logPoison t none (poisonAddr t pl.addr p.len) code p.owner p.addr 0) p 9
        | none => k t p pl

/-- RLDQ: a read at the target. -/
def execRldq (s : State) : Host.Outcome State Fault Refusal :=
  .next (atTarget s 1 0 false fun s p pl =>
    let v := W (ofLe (placeBytes s pl p.len))
    sendAnswer (readTouch s pl (s.classOf p.owner)) { answer s p 2 with val := v })

/-- WRQ: a write at the target. -/
def execWrq (s : State) : Host.Outcome State Fault Refusal :=
  .next (atTarget s 3 1 true fun s p pl =>
    sendAnswer (performWrite s pl (leBytes p.len p.val.toNat) p.owner) (answer s p 4))

/-- AMQ: an indivisible read and write at the target. -/
def execAmq (s : State) : Host.Outcome State Fault Refusal :=
  .next (atTarget s 5 3 true fun s p pl =>
    let old := ofLe (placeBytes s pl p.len)
    let s := match atomicNew p.op p.len old p.val.toNat 0 with
      | some v => performWrite s pl (leBytes p.len v) p.owner
      | none => readTouch s pl (s.classOf p.owner)
    sendAnswer s { answer s p 6 with val := W old })

/-! ## Answers at the issuer -/

/-- One more value of an aperture load in the group's format (R290). -/
def combine (rfmt rop a b : Nat) : Nat :=
  let op := match rfmt, rop with
    | 0, 1 => 4 | 0, 2 => 5 | 1, 1 => 6 | 1, 2 => 7 | 2, 1 => 10 | 2, 2 => 11 | 3, 1 => 10 | 3, 2 => 11
    | 2, _ => 9 | 3, _ => 9 | _, _ => 0
  (atomicNew op (rfmtBytes rfmt) a b 0).getD a

/-- The value that a remote operation returns: the one answer, or the members' values as they arrived. -/
def remoteValue (r : RemoteOp) : Word :=
  match r.kind, r.vals with
  | .apLoad, v :: vs => W (vs.foldl (fun a b => combine r.rfmt r.rop a b.toNat) v.toNat)
  | _, v :: _ => v
  | _, [] => 0

/-- A remote operation ends: with the fault of its first failing member, or with its result. What its firing no longer
wants writes no register. DEDUCED, log 39. -/
def finishRemote (s : State) (i : Nat) (o : Out) (r : RemoteOp) : State :=
  let s := groupFlight s r.group (-1)
  match r.faults with
  | f :: fs =>
    let f := fs.foldl (fun b x => if x.1 < b.1 then x else b) f
    s.failOut i o.id 0x0D f.2
  | [] =>
    let s := joinWsig s i o.firing r.lines
    let now := ((s.core i).firing.map (·.num)) == some o.firing
    let ws := match r.dst with | some d => loadWrites d (leBytes (if d.pair then 16 else d.bytes) (remoteValue r).toNat) | none => []
    s.completeWith i o.id (if now then ws else []) 0

/-- SUB of a member's fault as the operation reports it: an aperture access names RSRC, RDST or LOCKED for a failing
member (R290); what the edge finds keeps its SUB. -/
def memberSub (k : RemoteKind) (sub : Nat) : Nat :=
  match k with
  | .apLoad => if sub = 2 ∨ sub = 3 ∨ sub = 4 then 1 else sub
  | .apStore => if sub = 1 ∨ sub = 3 ∨ sub = 4 then 2 else sub
  | _ => sub

/-- 100 µs in core cycles (R3). DEDUCED, log 39. -/
def timeoutCycles : Nat := 400000

/-- 100 µs have passed since cycle `t`: no answer counts any more (R286). DEDUCED, log 39. -/
def lateNow (s : State) (t : Nat) : Bool := decide (t + timeoutCycles ≤ s.now)

/-- A remote operation completes with TIMEOUT (R286). DEDUCED, log 39. -/
def timeoutRemote (s : State) (i : Nat) (o : Out) (r : RemoteOp) : State :=
  finishRemote s i o { r with faults := [(0, engineVal 6 r.addr)] }

/-- An answer to a remote operation reaches its issuer; one that nothing waits for, or that comes too late, is discarded
(R286). DEDUCED, log 39. -/
def takeAnswer (s : State) (kind : Nat) (ok : RemoteKind → Bool) : State :=
  match takePkt s s.arg.id kind with
  | none => s
  | some (p, s) =>
    let i := pktCore p
    match remoteOf s i p.xid with
    | none => s
    | some (o, r) =>
      if !ok r.kind then s
      else
        if lateNow s o.cyc then timeoutRemote s i o r
        else
        let k := r.members.findIdx fun m => m.1 == p.srcMod && m.2 == p.addr
        let r := { r with left := r.left - 1 }
        let r : RemoteOp := if p.sub = 0 then { r with vals := r.vals ++ [p.val] }
          else { r with faults := r.faults ++ [(k, engineVal (memberSub r.kind p.sub) p.addr)] }
        if r.left = 0 then finishRemote s i o r else s.onCore i fun c => setOut c { o with op := .remote r }

/-- RLDP. -/
def execRldp (s : State) : Host.Outcome State Fault Refusal :=
  .next (takeAnswer s 2 fun k => match k with | .rld => true | .apLoad => true | _ => false)

/-- WRP. -/
def execWrp (s : State) : Host.Outcome State Fault Refusal :=
  .next (takeAnswer s 4 fun k => match k with | .rst => true | .apStore => true | _ => false)

/-- AMP. -/
def execAmp (s : State) : Host.Outcome State Fault Refusal := .next (takeAnswer s 6 fun k => k == .ramo)

/-! ## rdx (R292, R293) -/

/-- The recipients of an `rdx`: module, destination, and the core that the destination is decoded as or must lie in. -/
def rdxMembers (req : Nat) (rec grp : List Word) : List (Nat × Word × Option Nat) :=
  let w := fun k => rec.getD k 0
  match wf (w 3) 14 2 with
  | 0 => [(wf (w 3) 0 14, w 1, some (coreAt (wf (w 3) 16 8) (wf (w 3) 24 8)))]
  | 1 => [(wf (w 3) 0 14, w 1, none)]
  | _ =>
    if groupType grp = 1 then (groupCores grp).map fun c => (req, W (tcmBase c) + w 1, some c)
    else (groupMods grp).map fun m => (m, grp.getD 1 0 + w 1, none)

/-- Reserved values and combinations that give status 7. -/
def rdxMalformed (s : State) (i : Nat) (ws : List Word) : Bool :=
  let w := fun k => ws.getD k 0
  let kind := wf (w 3) 14 2
  wf (w 2) 46 18 != 0 || wf (w 3) 55 9 != 0 || wf (w 3) 44 4 != 0 || w 6 != 0 || w 7 != 0 || kind == 3 ||
    wf (w 2) 0 32 == 0 || decide (2 ^ 24 < wf (w 2) 0 32) || (wb (w 3) 49 && !wb (w 3) 48) ||
    (wb (w 3) 48 && kind != 0) ||
    (kind == 0 && (decide (191 < wf (w 3) 16 8) || decide (134 < wf (w 3) 24 8))) ||
    (kind == 2 && (wf (w 3) 0 14 != 0 || match groupOf s (wf (w 3) 32 12) with
      | some g => g.owner != ownerNow (s.core i)
      | none => true))

/-- REQ of an `rdx` packet (R279). -/
def rdxReq (s : State) (i : Nat) (w3 : Word) : Word :=
  W (s.ownMod + modX i * 2 ^ 16 + modY i * 2 ^ 24 + wf w3 14 2 * 2 ^ 32 + wf w3 32 12 * 2 ^ 34 + wf w3 48 2 * 2 ^ 48 +
    wf w3 50 5 * 2 ^ 50)

/-- `rdx`. -/
def execRdx (h : Hdr) (d a : GReg) (s : State) : Host.Outcome State Fault Refusal :=
  issue .e h
    (fun i s =>
      withOwnRec s i d (gread (s.core i) a) 7 fun s ws =>
        let w := fun k => ws.getD k 0
        let len := wf (w 2) 0 32
        if rdxMalformed s i ws then status s i d 7
        else if (w 0).toNat % 8 ≠ 0 ∨ (w 1).toNat % 8 ≠ 0 ∨ len % 8 ≠ 0 then status s i d 2
        else if !injRoom s i 1 then status s i d 1
        else
          let c := s.core i
          let g := if wf (w 3) 14 2 = 2 then some (wf (w 3) 32 12) else none
          let grp := g.bind fun k => (groupOf s k).map (·.words)
          let ms := rdxMembers s.ownMod ws (grp.getD [])
          let lines := fun (m : Nat × Word × Option Nat) => pagedLines i m.2.1 len
          let s := ms.foldl (fun s m => if m.1 = s.ownMod then l1Drop s i fun l => (lines m).contains l else s) s
          let s := groupFlight s g 1
          let p : Packet :=
            { request s i (ownerNow c) 9 (wf (w 2) 32 14) c.iss.opCount with
              addr := w 0, val := w 1, len := 64, req := rdxReq s i (w 3), group := grp, data := bytesOfWords ws }
          let s := sendReq s p (some i)
          let r : RemoteOp :=
            { kind := .rdx, dst := none, left := ms.length, vals := [], faults := [], addr := w 0, rfmt := 0, rop := 0
              members := ms.map fun m => (m.1, m.2.1), group := g, lines := (ms.flatMap lines).eraseDups }
          .done s (.begun [gdest (s.core i) d 0] (.remote r) .engine)) s

/-! ## An rdx at its source module -/

/-- Pieces of the source: to the next 64 KiB boundary of the source or of the destination (R265). -/
def rdxPieces (src dst : Nat) : Nat → Nat → Nat → List (Nat × Nat)
  | 0, _, _ => []
  | fuel + 1, off, len =>
    if len ≤ off then []
    else
      let n := min (len - off) (min (65536 - (src + off) % 65536) (65536 - (dst + off) % 65536))
      (off, n) :: rdxPieces src dst fuel (off + n) len

/-- The source read piece by piece: bytes read so far, and the fault that ends it; `none` where a read must wait. -/
def rdxRead (s : State) (p : Packet) (src : Word) : List (Nat × Nat) → Option (State × List Byte × Option Word)
  | [] => some (s, [], none)
  | (off, n) :: ps =>
    let ea := src + W off
    match engineCheck s (edgeAgent p none) ea n 0 with
    | (s, .error sub) => some (s, [], some (engineVal sub ea))
    | (s, .ok (_, pl)) =>
      if engineBusy s pl n false then none
      else match poisonCode s pl.addr n with
        | some code => some (logPoison s none (poisonAddr s pl.addr n) code p.owner src 0, [], some (engineVal 9 ea))
        | none =>
          (rdxRead (touchLines s pl n (s.classOf p.owner)) p src ps).map fun (t, bs, f) => (t, placeBytes s pl n ++ bs, f)

/-- An answer to the requester of an `rdx`. -/
def rdxAnswer (_ : State) (p : Packet) (kind srcMod sub : Nat) (addr base : Word) : Packet :=
  { p with
    kind, dstMod := wf p.req 0 14, srcMod, dy := p.sy, dx := p.sx, data := [], len := 0, group := none, sub, addr
    val := base }

/-- The edge that cannot send a transfer fails its recipient, at the first byte that is not written (R259, R293).
DEDUCED, log 40. -/
def refuseXdt (s : State) (p : Packet) (m : Nat × Word × Option Nat) (ea : Word) (sub : Nat) : State :=
  sendAnswer s (rdxAnswer s p 11 m.1 sub (W (lockBase (m.2.2.getD 0) ea)) m.2.1)

/-- The parts of a transfer for one recipient: split at 1 KiB boundaries of its destination. The last part of a whole
transfer carries the request record. An edge that refuses a part refuses the rest with it. DEDUCED, log 40. -/
def sendParts (s : State) (p : Packet) (m : Nat × Word × Option Nat) (rec : List Byte) (total : Nat) :
    Nat → Nat → List Byte → State
  | 0, _, _ => s
  | fuel + 1, off, bs =>
    if bs.isEmpty then s
    else
      let dst := m.2.1 + W off
      let n := min bs.length (1024 - dst.toNat % 1024)
      let last := off + n = total
      let (y, x) := match m.2.2 with | some c => (modY c, modX c) | none => (0, 0)
      let q : Packet :=
        { p with
          kind := 10, dstMod := m.1, srcMod := s.ownMod, dy := y, dx := x, addr := (wordsLe 1 (rec.take 8)).getD 0 0 + W off
          len := n, val := dst, remain := total - off - n, sub := 0
          data := bs.take n ++ if last then rec else [] }
      match sendPkt s q none with
      | .ok t => sendParts t p m rec total fuel (off + n) (bs.drop n)
      | .error sub => refuseXdt s p m dst sub

/-- The record alone, for a recipient that is notified of the source's fault (CTR). -/
def sendFaultNote (s : State) (p : Packet) (m : Nat × Word × Option Nat) (rec : List Byte) (f : Word) : State :=
  let (y, x) := match m.2.2 with | some c => (modY c, modX c) | none => (0, 0)
  match sendPkt s
      { p with
        kind := 10, dstMod := m.1, srcMod := s.ownMod, dy := y, dx := x, addr := W (wf f 0 56), len := 0, val := m.2.1
        remain := 0, sub := wf f 56 8, data := rec } none with
  | .ok t => t
  | .error _ => s

/-- XRQ: the source is checked and read; the pieces before the first that fails are sent. -/
def execXrq (s : State) : Host.Outcome State Fault Refusal :=
  .next (match takePkt s s.arg.id 9 with
    | none => s
    | some (p, t) =>
      let rec_ := wordsLe 8 p.data
      let w := fun k => rec_.getD k 0
      let len := wf (w 2) 0 32
      let wait := p.srcMod == s.ownMod && match remoteOf s (pktCore p) p.xid with
        | some (o, _) => storesBefore (s.core (pktCore p)) o.id
        | none => false
      if wait then s
      else match rdxRead t p (w 0) (rdxPieces (w 0).toNat (w 1).toNat (len / 8 + 1) 0 len) with
        | none => s
        | some (t, bs, f) =>
          let ms := rdxMembers (wf p.req 0 14) rec_ (p.group.getD [])
          let t := ms.foldl (fun t m => sendParts t p m p.data len (len / 8 + 1) 0 bs) t
          match f with
          | none => t
          | some f =>
            let t := if wb (w 3) 49 then ms.foldl (fun t m => sendFaultNote t p m p.data f) t else t
            sendAnswer t (rdxAnswer t p 12 t.ownMod (wf f 56 8) (W (wf f 0 56)) (w 1)))

/-! ## An rdx at a recipient -/

/-- A word of a part at its destination: written, or the fault that drops it; `none` where it must wait. DEDUCED, log 40. -/
def rdxWord (s : State) (p : Packet) (core : Option Nat) (inTcm : Bool) (ea : Word) (bs : List Byte) :
    Option (State × Option Word) :=
  let bad := fun (t : State) (sub : Nat) => some (t, some (engineVal sub (W (lockBase (core.getD 0) ea))))
  match engineCheck s (edgeAgent p (if inTcm then none else core)) ea 8 1 with
  | (s, .error sub) => bad s sub
  | (s, .ok (l, pl)) =>
    let other := inTcm && (match l with | .tcm c _ => core != some c | _ => true)
    if other then bad s 2
    else if placeBusy s pl || migrationLocked pl then none
    else if lockedW s pl.lockKey 8 then bad s 5
    else if fencedMem s pl then bad s 9
    else some (performWrite s pl bs p.owner, none)

/-- The words of a part, with the first fault. DEDUCED, log 40. -/
def rdxWords (s : State) (p : Packet) (core : Option Nat) (inTcm : Bool) (ea : Word) : Nat → List Byte → Option (State × Option Word)
  | 0, _ => some (s, none)
  | n + 1, bs =>
    match rdxWord s p core inTcm ea (bs.take 8) with
    | none => none
    | some (s, f) =>
      (rdxWords s p core inTcm (ea + 8) n (bs.drop 8)).map fun (t, g) => (t, match f with | some x => some x | none => g)

/-- The first fault that earlier parts of the same transfer have met here. DEDUCED, log 40. -/
def rdxEarlier (s : State) (p : Packet) (base : Word) (total : Nat) : Option Word :=
  (s.eng.rdxBad.find? fun x =>
    x.1 == wf p.req 0 14 && x.2.1 == pktCore p && x.2.2.1 == p.xid && decide ((x.2.2.2.1 - base).toNat < total)).map (·.2.2.2.2)

/-- The last part of a transfer: the notify record and the acknowledgement (R293 step 3). DEDUCED, log 40. -/
def rdxLast (s : State) (p : Packet) (rec : List Word) (base : Word) (f : Option Word) : State :=
  let w := fun k => rec.getD k 0
  let total := wf (w 2) 0 32
  let s := s.onEng fun e => { e with rdxBad := e.rdxBad.filter fun x =>
    !(x.1 == wf p.req 0 14 && x.2.1 == pktCore p && x.2.2.1 == p.xid && decide ((x.2.2.2.1 - base).toNat < total)) }
  let k := coreAt (wf (w 3) 16 8) (wf (w 3) 24 8)
  let note := wb (w 3) 48 && (f.isNone || wb (w 3) 49) && coreOn s k
  let s := if note then
      edgeAdd s k
        { ch := wf (w 3) 50 5, kind := .notify
          item := .data [w 4, w 5, f.getD 0, w 1, W total, W (wf p.req 0 32), 0, 0] none, owner := p.owner, ref_ := 0 }
    else s
  if p.len = 0 then s
  else sendAnswer s (rdxAnswer s p 11 s.ownMod (wf (f.getD 0) 56 8) (W (wf (f.getD (W (wf base 0 56))) 0 56)) base)

/-- XDT: a part of an `rdx` at a recipient's edge. DEDUCED, log 40. -/
def execXdt (s : State) : Host.Outcome State Fault Refusal :=
  .next (match takePkt s s.arg.id 10 with
    | none => s
    | some (p, t) =>
      let rkind := wf p.req 32 2
      let inTcm := rkind == 2 && groupType (p.group.getD []) == 1
      let core := if rkind = 0 ∨ inTcm then some (coreAt p.dx p.dy) else none
      if p.len = 0 then rdxLast t p (wordsLe 8 p.data) p.val (some (engineVal p.sub p.addr))
      else match rdxWords t p core inTcm p.val (p.len / 8) (p.data.take p.len) with
        | none => s
        | some (t, f) =>
          if p.remain ≠ 0 then
            match f with
            | none => t
            | some v => t.onEng fun e => { e with rdxBad := e.rdxBad ++ [(wf p.req 0 14, pktCore p, p.xid, p.val, v)] }
          else
            let rec_ := wordsLe 8 (p.data.drop p.len)
            let total := wf (rec_.getD 2 0) 0 32
            let base := p.val + W p.len - W total
            rdxLast t p rec_ base (match rdxEarlier t p base total with | some v => some v | none => f))

/-! ## The end of an rdx -/

/-- XAK: one recipient has answered. -/
def execXak (s : State) : Host.Outcome State Fault Refusal :=
  .next (match takePkt s s.arg.id 11 with
    | none => s
    | some (p, s) =>
      match remoteOf s (pktCore p) p.xid with
      | none => s
      | some (o, r) =>
        if r.kind ≠ .rdx then s
        else if lateNow s o.cyc then timeoutRemote s (pktCore p) o r
        else
          let k := r.members.findIdx fun m => m.1 == p.srcMod && m.2 == p.val
          let r := { r with
            left := r.left - 1
            faults := if p.sub = 0 then r.faults else r.faults ++ [(k, engineVal p.sub p.addr)] }
          if r.left = 0 then finishRemote s (pktCore p) o r
          else s.onCore (pktCore p) fun c => setOut c { o with op := .remote r })

/-- XSF: the source's fault leaves nothing to wait for, and comes before every recipient's. -/
def execXsf (s : State) : Host.Outcome State Fault Refusal :=
  .next (match takePkt s s.arg.id 12 with
    | none => s
    | some (p, s) =>
      match remoteOf s (pktCore p) p.xid with
      | none => s
      | some (o, r) =>
        if r.kind ≠ .rdx then s
        else if lateNow s o.cyc then timeoutRemote s (pktCore p) o r
        else finishRemote s (pktCore p) o { r with faults := [(0, engineVal p.sub p.addr)] })

end Sys2Proof.Machine
end

