-- ==== Sys2Proof/Machine/Lode.lean ====
section
/-! DEFINITION. Lode engines (R275 to R277, R382), records that travel to a channel (R276, R339, R340), and the timeout of
remote operations (R286). -/

namespace Sys2Proof.Machine

def Lode.blank : Lode := { jobs := [], seq := 0 }
def lodeOf (s : State) (u : Nat) : Lode := (mget? s.eng.lodes u).getD Lode.blank
def onLode (s : State) (u : Nat) (f : Lode → Lode) : State := s.onEng fun e => { e with lodes := mput e.lodes u (f (lodeOf s u)) }

/-- The key of the lists of a die that no engine has taken. -/
def lodeWaiting (die : Nat) : Nat := 1000 + die

/-! ## lodeq (R275) -/

/-- `lodeq`: the statuses in the order of R264, as far as a send list can meet them. DESIGN CHOICE, log 78. -/
def execLodeq (h : Hdr) (d a b : GReg) (ch : Fin 32) (s : State) : Host.Outcome State Fault Refusal :=
  issue .e h
    (fun i s =>
      let c := s.core i
      let ea := gread c a
      let n := (gread c b).toNat
      match (if n < 1 ∨ 4096 < n then none else ownRecOff i ea 32 (32 * n)) with
      | none => status s i d 7
      | some off =>
        if !recvChannel s i ch.val then status s i d 7
        else
          let v := rangeVerdict s i (ownerNow c) ea (32 * n) 0 false
          let k : Lock := { copy := s.eng.copyCount, core := i, op := c.iss.opCount, dst := false, base := tcmBase i + off, len := 32 * n }
          if v ≠ 0 then status s i d (W v)
          else if locksClash s [k] then status s i d 4
          else if !locksFit s (dieOf i) [k] then status s i d 1
          else
            let j : LodeJob :=
              { core := i, out := c.iss.opCount, owner := ownerNow c, base := W (tcmBase i + off), count := n, ch := ch.val
                lock := k.copy, next := 0, pending := [], returning := 0, noted := none }
            let s := s.onEng fun e => { e with locks := e.locks ++ [k], copyCount := e.copyCount + 1 }
            let s := onLode s (lodeWaiting (dieOf i)) fun l => { l with jobs := l.jobs ++ [j] }
            .done s (.begun [gdest (s.core i) d 0] .lode .engine)) s

/-! ## The state of a list -/

/-- A list, with the engine that has it. -/
def findJob (s : State) (core out : Nat) : Option (Nat × LodeJob) :=
  firstSome (fun (u, l) => (l.jobs.find? fun (j : LodeJob) => j.core == core && j.out == out).map (u, ·)) s.eng.lodes

def putJob (s : State) (u : Nat) (j : LodeJob) : State :=
  onLode s u fun l => { l with jobs := l.jobs.map fun x => if x.core == j.core && x.out == j.out then j else x }

/-- The tag completes when every entry is done or returned, with the first noted SUB. DEDUCED, log 38. -/
def settleJob (s : State) (core out : Nat) : State :=
  match findJob s core out with
  | none => s
  | some (u, j) =>
    if j.next < j.count || !j.pending.isEmpty || j.returning ≠ 0 then s
    else
      let s := onLode s u fun l => { l with jobs := l.jobs.filter fun x => !(x.core == core && x.out == out) }
      let s := s.onEng fun e => { e with locks := e.locks.filter (·.copy != j.lock) }
      match j.noted with
      | some v => s.failOut core out 0x0D v
      | none => s.complete core out

/-- DEDUCED, log 38. -/
def LodeJob.note (j : LodeJob) (sub : Nat) (addr : Word) : LodeJob :=
  { j with noted := match j.noted with | some v => some v | none => some (engineVal sub addr) }

/-! ## Entries (R276) -/

/-- The zero fields of a destination word. -/
def lodeZeros (w : Word) : Bool := wf w 37 26 == 0 && wf w 14 2 == 0

/-- The destination word of an entry, when it is well formed. -/
def lodeDest (w : Word) : Option Word :=
  if wb w 63 && lodeZeros w then
    let x := W (wf w 0 37)
    (desig x).map fun _ => x
  else none

/-- The second destination: none given, or a well-formed one. DEDUCED, log 38. -/
def lodeAlt (w : Word) : Option (Option Word) :=
  if wb w 63 then (lodeDest w).map some else if lodeZeros w then some none else none

/-- A record leaves for a destination, with the next SEQ of the engine. DEDUCED, log 38. -/
def injectRecord (s : State) (u : Nat) (j : LodeJob) (e : LodePend) (dst : Word) : State :=
  let x := 2 ^ 31 + s.eng.xid % 2 ^ 31
  let p : Packet :=
    { request s j.core j.owner 7 (wf dst 0 14) 0 with
      xid := x, seq := (lodeOf s u).seq % 2 ^ 32, dy := wf dst 24 8, dx := wf dst 16 8, addr := dst, len := 64
      data := bytesOfWords e.words, loose := e.second }
  let s := s.onEng fun k => { k with xid := k.xid + 1 }
  let s := onLode s u fun l => { l with seq := l.seq + 1 }
  let s := putJob s u { j with pending := j.pending ++ [{ e with xid := x, at_ := s.now }] }
  sendReq s p none

/-- The entries that the lists of a die's engines have still to process, by class. -/
def lodeUnits (s : State) (d : Nat) : List (Nat × Nat) :=
  ((lodeWaiting d :: (List.range 4).map (lodeUnit d)).flatMap fun u => (lodeOf s u).jobs).map fun j =>
    (s.classOf j.owner, j.count - j.next)

/-- The next entry of a list, once its unit is granted (R324): read, and its record sent to its first destination. An entry that is
malformed, or whose record cannot be read, fails and sends nothing. DEDUCED, log 38. -/
def processEntry (s : State) (u die : Nat) (j : LodeJob) : State :=
  let i := j.core
  let a := j.base.toNat + 32 * j.next
  let ws := wordsLe 4 (readBytes s.mem a 32)
  let w := fun k => ws.getD k 0
  let addr := W (lockBase i (w 0))
  let fail := fun (s : State) (sub : Nat) =>
    settleJob (putJob (spendUnits s die 3 j.owner 1) u { LodeJob.note j sub addr with next := j.next + 1 }) i j.out
  if storesBefore (s.core i) j.out || placeBusy s (.array a) || !granted s die 3 j.owner 1 then s
  else match poisonCode s a 32 with
    | some code => fail (logPoison s (some i) (poisonAddr s a 32) code j.owner (w 0) 0) 9
    | none =>
      match lodeDest (w 1), lodeAlt (w 2) with
      | some d1, some d2 =>
        if w 3 ≠ 0 ∨ (w 0).toNat % 64 ≠ 0 then fail s 11
        else match engineCheck s { unit := u, owner := j.owner, die, core := some i, src := w 0 } (w 0) 64 0 with
          | (s, .error sub) => fail s (if sub = 9 then 9 else 1)
          | (t, .ok (_, pl)) =>
            if engineBusy t pl 64 false then s
            else match poisonCode t pl.addr 64 with
              | some code => fail (logPoison t (some i) (poisonAddr t pl.addr 64) code j.owner (w 0) 0) 9
              | none =>
                let rec_ := wordsLe 8 (placeBytes t pl 64)
                let t := spendUnits (readTouch t pl (t.classOf j.owner)) die 3 j.owner 1
                injectRecord t u { j with next := j.next + 1 }
                  { xid := 0, entry := j.next, second := false, addr, alt := d2, words := rec_, at_ := 0 } d1
      | _, _ => fail s 11

/-- LODE_ENTRY_PROCESS: engine `id` of die `unit` processes an entry of the list that it has, or takes the die's next
list. -/
def execLodeEntryProcess (s : State) : Host.Outcome State Fault Refusal :=
  let die := s.arg.unit
  let u := lodeUnit die s.arg.id
  .next (if 4 ≤ s.arg.id || !dieOn s die || s.rcv.fences.lodes.contains u then s
    else match (lodeOf s u).jobs.find? fun j => decide (j.next < j.count) with
      | some j => processEntry s u die j
      | none =>
        match (lodeOf s (lodeWaiting die)).jobs with
        | [] => s
        | j :: js =>
          let s := onLode s (lodeWaiting die) fun l => { l with jobs := js }
          let s := onLode s u fun l => { l with jobs := l.jobs ++ [j] }
          processEntry s u die j)

/-! ## Records at their channel (R339) -/

/-- Status of R339 for a record at its channel, with DETAIL for status 7, and what it does. DESIGN CHOICE, log 78. -/
def placeRecord (s : State) (i ch owner : Nat) (ws : List Word) : State × Nat × Nat :=
  if !coreOn s i || s.rcv.fences.cores.contains i then (s, 7, 10)
  else match chanOf s i ch with
    | none =>
      (match mget? (s.core i).sched.torn ch with
       | some o => if ownerGone s o then (s.discard i ws 5 o, 7, 7) else (s, 2, 0)
       | none => (s, 2, 0))
    | some c =>
      if ownerGone s c.owner then (s.discard i ws 5 c.owner, 7, 7)
      else if c.owner ≠ owner then (s, 3, 0)
      else if c.room = 0 then (s, 1, 0)
      else match c.task, admitFail c.codeb (ws.getD 0 0) with
        | true, some r => (s.discard i ws r c.owner, 6, 0)
        | _, _ => (pushItem s i ch (.data ws none), 0, 0)

/-- SUB of an answer to a record: full is no failure, and an unbound or foreign channel, or a failed admission, is
REFUSED (R276). -/
def recSub (st detail : Nat) : Nat :=
  match st with | 0 => 0 | 1 => 0 | 7 => detail | _ => 11

/-- RECQ: a record reaches its channel and is answered. VAL of the answer carries the status of R339. -/
def execRecq (s : State) : Host.Outcome State Fault Refusal :=
  .next (match takePkt s s.arg.id 7 with
    | none => s
    | some (p, s) =>
      let (s, st, detail) := placeRecord s (coreAt p.dx p.dy) (wf p.addr 32 5) p.owner (wordsLe 8 p.data)
      sendAnswer s { answer s p 8 with sub := recSub st detail, val := W st })

/-- The status that an answer carries; an edge that could not send the record answers with its SUB alone. -/
def recStatus (p : Packet) : Nat := if p.val = 0 ∧ p.sub ≠ 0 then 7 else p.val.toNat

/-- A lode engine receives an answer to an entry (R276); a fenced one sends nothing to a second destination (R423). A record of an owner that is being torn down is dropped and counted when it
is due to be returned (R410). DEDUCED, log 38. -/
def lodeAnswer (s : State) (u : Nat) (j : LodeJob) (e : LodePend) (st sub : Nat) : State :=
  let j := { j with pending := j.pending.filter (·.xid != e.xid) }
  let back := fun (j : LodeJob) =>
    if ownerGone s j.owner then
      settleJob (putJob { s with owners := { s.owners with droprec := s.owners.droprec + 1 } } u j) j.core j.out
    else settleJob (edgeAdd (putJob s u { j with returning := j.returning + 1 }) j.core
      { ch := j.ch, kind := .lode, item := .data e.words none, owner := j.owner, ref_ := j.out }) j.core j.out
  match st with
  | 0 => settleJob (putJob s u j) j.core j.out
  | 6 => settleJob (putJob s u (LodeJob.note j 11 e.addr)) j.core j.out
  | 1 =>
    (match e.second || s.rcv.fences.lodes.contains u, e.alt with
     | false, some d => injectRecord (putJob s u j) u j { e with second := true, alt := none } d
     | _, _ => back j)
  | _ => back (LodeJob.note j (if sub = 0 then 11 else sub) e.addr)

/-- The list and the entry that wait for an answer. -/
def findPend (s : State) (xid : Nat) : Option (Nat × LodeJob × LodePend) :=
  firstSome (fun (u, l) =>
    firstSome (fun (j : LodeJob) => (j.pending.find? fun (e : LodePend) => e.xid == xid).map fun e => (u, j, e)) l.jobs) s.eng.lodes

/-- The operation of a core that waits for the answer to a `send`. -/
def sendOf (s : State) (i xid : Nat) : Option (Out × GReg) :=
  match (s.core i).iss.outs.find? (fun o => o.id % 2 ^ 31 == xid) with
  | some o => (match o.op with | .send d => some (o, d) | _ => none)
  | none => none

/-- The answer to a `send` writes its status (R336, R339), for the firing that issued it. -/
def finishSend (s : State) (i : Nat) (o : Out) (d : GReg) (st sub : Nat) : State :=
  s.completeWith i o.id [gdest (s.core i) d (statusWord st (if st = 7 then sub else 0) 0)] 0

/-- An answer to a record (kind 8): to the engine or the core that waits for it. -/
def recordAnswer (s : State) (lodeOnly : Bool) : State :=
  match takePkt s s.arg.id 8 with
  | none => s
  | some (p, t) =>
    if p.xid < 2 ^ 31 then
      (if lodeOnly then s
       else match sendOf t (pktCore p) p.xid with
         | some (o, d) =>
           if lateNow t o.cyc then finishSend t (pktCore p) o d 7 6 else finishSend t (pktCore p) o d (recStatus p) p.sub
         | none => t)
    else match findPend t p.xid with
      | some (u, j, e) => if lateNow t e.at_ then lodeAnswer t u j e 7 6 else lodeAnswer t u j e (recStatus p) p.sub
      | none => t

/-- RECP. -/
def execRecp (s : State) : Host.Outcome State Fault Refusal := .next (recordAnswer s false)

/-- LODE_ANSWER. -/
def execLodeAnswer (s : State) : Host.Outcome State Fault Refusal := .next (recordAnswer s true)

/-- LODE_RETURN_PLACE (R276, R443). -/
def execLodeReturnPlace (s : State) : Host.Outcome State Fault Refusal :=
  let i := s.arg.core
  .next (match placeEdge s i s.arg.id .lode with
    | none => s
    | some (s, e) =>
      match findJob s i e.ref_ with
      | none => s
      | some (u, j) => settleJob (putJob s u { j with returning := j.returning - 1 }) i e.ref_)

/-! ## Timeouts (R286) -/

/-- Every entry of a list that has had no answer within 100 µs of its injection. -/
def timeoutEntries (s : State) (xids : List Nat) : State :=
  xids.foldl (fun s x => match findPend s x with | some (u, j, e) => lodeAnswer s u j e 7 6 | none => s) s

/-- REMOTE_TIMEOUT: a remote operation, `send` or lode entry without an answer completes with TIMEOUT. DEDUCED, log 39. -/
def execRemoteTimeout (s : State) : Host.Outcome State Fault Refusal :=
  let i := s.arg.core
  .next (match findOut (s.core i) s.arg.id with
    | none => s
    | some o =>
      let late := lateNow s o.cyc
      match o.op with
      | .remote r => if late then timeoutRemote s i o r else s
      | .send d => if late then finishSend s i o d 7 6 else s
      | .lode =>
        (match findJob s i o.id with
         | none => s
         | some (_, j) =>
           timeoutEntries s ((j.pending.filter fun e => lateNow s e.at_).map (·.xid)))
      | _ => s)

end Sys2Proof.Machine
end

