-- ==== Sys2Proof/Machine/Ports.lean ====
section
/-! DEFINITION. Causeway ports (R26, R278 to R282): packets as flits, frames, training, keys, replay and fencing. -/

namespace Sys2Proof.Machine

/-! ## Packets as flits (R279) -/

def padFlit (bs : List Byte) : List Byte := bs ++ List.replicate ((64 - bs.length % 64) % 64) 0

/-- Data as it travels: the data of an `rdx` part and its request record fill flits of their own. -/
def pktData (p : Packet) : List Byte :=
  if p.kind = 10 then padFlit (p.data.take p.len) ++ padFlit (p.data.drop p.len) else padFlit p.data

/-- LEN of the header: the data bytes of the packet. -/
def pktLen (p : Packet) : Nat := if p.kind = 10 then p.len else p.data.length

def chunks : Nat → List Byte → List (List Byte)
  | 0, _ => []
  | n + 1, bs => if bs.isEmpty then [] else bs.take 64 :: chunks n (bs.drop 64)

def pktHead (p : Packet) : List Word :=
  [ W (p.kind * 2 ^ 56 + (pktData p).length / 64 * 2 ^ 51 + b2n p.group.isSome * 2 ^ 50 + p.dstMod * 2 ^ 34 + p.srcMod * 2 ^ 20),
    W (p.dy * 2 ^ 56 + p.dx * 2 ^ 48 + p.sy * 2 ^ 40 + p.sx * 2 ^ 32 + p.owner * 2 ^ 16 + p.world * 2 ^ 8),
    W (p.xid * 2 ^ 32 + p.seq), p.addr,
    W (pktLen p + p.op * 2 ^ 32 + b2n p.w32 * 2 ^ 36 + p.size * 2 ^ 37 + p.sub * 2 ^ 40), p.val, p.req, W p.remain ]

def pktFlits (p : Packet) : List (List Byte) :=
  [bytesOfWords (pktHead p)] ++ (match p.group with | some g => [bytesOfWords (g.take 8)] | none => []) ++
    chunks 17 (pktData p)

/-- Flits that a packet with this header flit has. -/
def flitCount (head : List Byte) : Nat :=
  let w0 := (wordsLe 1 head).getD 0 0
  1 + wf w0 50 1 + wf w0 51 5

/-- Bytes of the access that a request names. -/
def reqBytes (kind size : Nat) (w32 : Bool) : Nat := if kind = 5 then (if w32 then 4 else 8) else 2 ^ (size % 4)

/-- A packet from all of its flits. -/
def pktOf (flits : List (List Byte)) : Packet :=
  let ws := wordsLe 8 (flits.headD [])
  let w := fun k => ws.getD k 0
  let kind := wf (w 0) 56 8
  let grp := wb (w 0) 50
  let body := (flits.drop (if grp then 2 else 1)).flatten
  let n := wf (w 4) 0 32
  let up := (n + 63) / 64 * 64
  { kind, dstMod := wf (w 0) 34 14, srcMod := wf (w 0) 20 14, dy := wf (w 1) 56 8, dx := wf (w 1) 48 8, sy := wf (w 1) 40 8
    sx := wf (w 1) 32 8, owner := wf (w 1) 16 16, world := wf (w 1) 8 8, xid := wf (w 2) 32 32, seq := wf (w 2) 0 32
    addr := w 3
    len := if kind = 1 ∨ kind = 3 ∨ kind = 5 then reqBytes kind (wf (w 4) 37 3) (wb (w 4) 36) else n
    op := wf (w 4) 32 4, w32 := wb (w 4) 36, size := wf (w 4) 37 3, sub := wf (w 4) 40 8, val := w 5, req := w 6
    remain := wf (w 7) 0 32
    group := if grp then some (wordsLe 8 (flits.getD 1 [])) else none
    data := if kind = 10 then body.take n ++ body.drop up else body.take n }

/-- KIND values that a receiving edge knows. -/
def knownKind (k : Nat) : Bool := decide (1 ≤ k) && decide (k ≤ 13)

/-! ## Frames (R280) -/

def frameAad (fseq ack : BitVec 16) : List Byte := leBytes 2 fseq.toNat ++ leBytes 2 ack.toNat

def frameCrc (flit gtag : List Byte) (fseq ack : BitVec 16) : BitVec 32 :=
  BitVec.ofNat 32 (crc32c (flit ++ gtag ++ frameAad fseq ack))

def frameOf (flit gtag : List Byte) (fseq ack : Nat) : Frame :=
  let f := BitVec.ofNat 16 fseq
  let a := BitVec.ofNat 16 ack
  { flit, gtag, fseq := f, ack := a, fcrc := frameCrc flit gtag f a }

/-- The last FSEQ received in order. -/
def Port.lastIn (q : Port) : Nat := (q.rxSeq + 2 ^ 15 - 1) % 2 ^ 15

/-- A frame in state ACTIVE: encrypted under the transmit key with frame count `n`. DESIGN CHOICE, log 11; DEDUCED, log 41. -/
def sealFrame (q : Port) (k : LinkKey) (n fseq : Nat) (flit : List Byte) : Frame :=
  let fs := fseq + b2n q.epoch * 2 ^ 15
  let (ct, tag) := Config.gcmSeal k.key k.salt n (frameAad (BitVec.ofNat 16 fs) (BitVec.ofNat 16 q.lastIn)) flit
  frameOf ct tag fs q.lastIn

/-- The training flit of a port. -/
def trainFlit (s : State) (p : Nat) : List Byte :=
  bytesOfWords [W (13 * 2 ^ 56 + s.ownMod * 2 ^ 20), 1, W (p * 2 ^ 16 + s.ownMod), 0, 0, 0, 0, 0]

def putFrame (s : State) (p : Nat) (f : Frame) : State := s.onEng fun e => { e with out := e.out ++ [(p, f)] }

/-- An `rdx` request leaves when the earlier stores of its core have been performed (R227). -/
def pktReady (s : State) (p : Packet) : Bool :=
  if p.kind = 9 ∧ p.srcMod = s.ownMod then
    match remoteOf s (pktCore p) p.xid with
    | some (o, _) => !storesBefore (s.core (pktCore p)) o.id
    | none => true
  else true

def freeInj (s : State) (c : Option Nat) : State :=
  match c with | some i => s.onCache i fun k => { k with injq := k.injq - 1 } | none => s

/-- A buffered frame as it is sent again. DEDUCED, log 41. -/
def Port.resealed (q : Port) (x : TxFrame) : Frame := sealFrame { q with epoch := x.epoch } x.key x.key.count x.fseq x.flit

/-- The frames not acknowledged are sent again, from the buffer (R280). DEDUCED, log 41. -/
def replayFrames (s : State) (p : Nat) : State :=
  let q := portOf s p
  let s := q.replay.foldl (fun s x => putFrame s p (q.resealed x)) s
  match q.replay.getLast? with
  | none => s
  | some x => onPort s p fun q => { q with replays := q.replays + W q.replay.length, replayAt := some (s.now, x.fseq) }

/-- The frames not acknowledged take the first counts of a new key. DEDUCED, log 41. -/
def Port.rekeyed (q : Port) (k : LinkKey) : Port :=
  { q with
    replay := q.replay.zipIdx.map fun (x, j) => { x with key := { k with count := k.count + j }, epoch := q.epoch }
    tx := some { k with count := k.count + q.replay.length } }

/-- A change of a port's state; a link that becomes ACTIVE replays under its new key what was not acknowledged before (R280).
DEDUCED, log 41. -/
def changePort (s : State) (p : Nat) (f : Port → Port) : State :=
  let q := f (portOf s p)
  match (portOf s p).st, q.st, q.tx with
  | .active, _, _ => onPort s p fun _ => q
  | _, .active, some k => replayFrames (onPort s p fun _ => q.rekeyed k) p
  | _, _, _ => onPort s p fun _ => q

/-- Flits that wait at the injection ports of a die, by class. -/
def flitUnits (s : State) (d : Nat) : List (Nat × Nat) :=
  (s.eng.ports.filter fun x => portDie x.1 == d).flatMap fun x =>
    x.2.txq.zipIdx.map fun (e, j) => (s.classOf e.1.owner, (pktFlits e.1).length - if j = 0 then x.2.txFlit else 0)

/-- The next flit of a port's queue as a frame, once its unit is granted (R324). A packet does not leave ahead of an earlier one whose
order at its location it keeps (R283). DEDUCED, log 41 and 69. -/
def sendFlit (s : State) (p : Nat) (q : Port) (k : LinkKey) : State :=
  let may := fun (x : Packet) => granted s (portDie p) 2 x.owner 1
  let first := fun (x : Packet) (j : Nat) => !(q.txq.take j).any fun (y, _) => before y x
  let ready := if q.txFlit = 0 then (q.txq.zipIdx.findIdx? fun ((x, _), j) => pktReady s x && may x && first x j)
    else q.txq.head?.bind fun (x, _) => if may x then some 0 else none
  match ready with
  | none => s
  | some j =>
    match q.txq[j]? with
    | none => s
    | some (x, core) =>
      let fl := pktFlits x
      let flit := fl.getD q.txFlit []
      let s := putFrame (spendUnits s (portDie p) 2 x.owner 1) p (sealFrame q k k.count q.txSeq flit)
      let last := decide (fl.length ≤ q.txFlit + 1)
      let s := onPort s p fun q =>
        { q with
          tx := some { k with count := k.count + 1 }
          txSeq := (q.txSeq + 1) % 2 ^ 15
          replay := q.replay ++ [{ fseq := q.txSeq, flit, key := k, epoch := q.epoch }]
          txq := if last then q.txq.eraseIdx j else (x, core) :: q.txq.eraseIdx j
          txFlit := if last then 0 else q.txFlit + 1 }
      if last then freeInj s core else s

/-- FRAME_SEND. DEDUCED, log 41. -/
def execFrameSend (s : State) : Host.Outcome State Fault Refusal :=
  let p := s.arg.unit
  let q := portOf s p
  .next (match q.st with
    | .train => if q.trainGood < 1024 then putFrame s p (frameOf (trainFlit s p) (List.replicate 16 0) q.txSeq q.lastIn) else s
    | .active =>
      (match q.tx with
       | none => s
       | some k =>
         if q.halted || decide (2 ^ 32 ≤ k.count) then s
         else if s.arg.id ≠ 0 then replayFrames s p
         else if 512 ≤ q.replay.length then s
         else sendFlit s p q k)
    | _ => s)

/-- FRAME_COUNT_LIMIT (R281). -/
def execFrameCountLimit (s : State) : Host.Outcome State Fault Refusal :=
  .next (onPort s s.arg.unit fun q =>
    match q.tx with
    | some k => if 2 ^ 32 ≤ k.count then { q with halted := true } else q
    | none => q)

/-! ## Fencing -/

/-- The bank of a port (R426). -/
def portBank (p : Nat) : Nat := 512 * portDie p + 385 + p % 16

/-- A packet takes another port; one that no route carries now is lost (R278), but a request answers NOROUTE (R282).
DEDUCED, log 39. -/
def reroute (s : State) (x : Packet) (c : Option Nat) : State :=
  if (match x.kind with | 1 | 3 | 5 | 7 | 9 => true | _ => false) then sendReq s x c else (routePkt s x c).getD s

/-- A port is fenced: its waiting packets take other ports, and what was on its way is lost (R278, R282, ERRCODE 14 of
R419). DEDUCED, log 39 and 60. -/
def fencePort (s : State) (p : Nat) : State :=
  let q := portOf s p
  let s := onPort s p fun q =>
    { q with st := .fenced, txq := [], txFlit := 0, replay := [], replayAt := none, tx := none, rx := none, rxOld := none, rxFlits := [] }
  let s := s.mcLog
    { bank := portBank p, code := 14, cls := 1, owner := 0, addr := none, core := none, unit := 0, fenced := true, stest := false
      poison := false, synd := 0, misc0 := 0, misc1 := 0 }
  (q.txq.zipIdx).foldl (fun s ((x, c), j) =>
    let s := freeInj s c
    if j = 0 ∧ q.txFlit ≠ 0 then s else reroute s x c) s

/-- REPLAY_TIMEOUT. -/
def execReplayTimeout (s : State) : Host.Outcome State Fault Refusal :=
  .next (match (portOf s s.arg.unit).replayAt, (portOf s s.arg.unit).st with
    | some (at_, _), .active => if at_ + timeoutCycles ≤ s.now then fencePort s s.arg.unit else s
    | _, _ => s)

/-! ## States of a port (R280, R281) -/

/-- A port back in AUTH, without keys. The flits of a packet that has arrived in part stay, as its other frames are replayed.
DEDUCED, log 41. -/
def Port.toAuth (q : Port) : Port := { q with st := .auth, tx := none, rx := none, rxOld := none, blockSet := [] }

def Port.toTrain (q : Port) : Port :=
  { q with
    st := .train, tx := none, rx := none, rxOld := none, blockSet := [], rxFlits := [], peer := none, trainGood := 0, txSeq := 0, rxSeq := 0
    replay := [], replayAt := none }

/-- The state that TARGET, training and keys allow. -/
def Port.advance (q : Port) : Port :=
  let q := if q.st = .train ∧ q.peer.isSome ∧ 2 ≤ q.target.val then { q with st := .auth } else q
  if q.st = .auth ∧ q.target = 3 ∧ q.tx.isSome ∧ q.rx.isSome then { q with st := .active } else q

/-- A write of PORTCTL. No port leaves DOWN while the module has no number, and none trains in minimal mode (R18, R434). -/
def Port.control (q : Port) (may : Bool) (v : Word) : Port :=
  let t : Fin 4 := Fin.ofNat 4 (wf v 0 2)
  let q := { q with target := t, rekey := q.rekey || wb v 8 }
  match q.st, t with
  | .fenced, _ => q
  | _, 0 => { q.toTrain with st := .down }
  | .down, _ => if may then q.toTrain else q
  | .train, _ => q.advance
  | _, 1 => q.toTrain
  | .active, 2 => q.toAuth
  | _, _ => q.advance

/-- DEDUCED, log 74. -/
def portMay (s : State) : Bool := s.modnum.isSome && !s.boot.minimal

def portctl (t : Nat) (s : State) : State :=
  if wf s.arg.v 0 2 = t ∧ s.arg.unit < 128 then changePort s s.arg.unit fun q => q.control (portMay s) s.arg.v else s

/-- PORTCTL_DOWN. -/
def execPortctlDown (s : State) : Host.Outcome State Fault Refusal := .next (portctl 0 s)
/-- PORTCTL_TRAIN. -/
def execPortctlTrain (s : State) : Host.Outcome State Fault Refusal := .next (portctl 1 s)
/-- PORTCTL_AUTH. -/
def execPortctlAuth (s : State) : Host.Outcome State Fault Refusal := .next (portctl 2 s)
/-- PORTCTL_ACTIVE. -/
def execPortctlActive (s : State) : Host.Outcome State Fault Refusal := .next (portctl 3 s)

/-- REKEY: a write of 1 to REKEY, with whatever TARGET the write holds. -/
def execRekey (s : State) : Host.Outcome State Fault Refusal :=
  .next (if wb s.arg.v 8 then portctl (wf s.arg.v 0 2) s else s)

/-- PEER_LINK_DOWN (R439): the link is down until it is trained again. -/
def execPeerLinkDown (s : State) : Host.Outcome State Fault Refusal :=
  .next (onPort s s.arg.unit fun q => if q.st = .fenced then q else { q.toTrain with st := .down })

/-! ## Keys (R281) -/

/-- Words of the key block that a full pair of keys and salts takes. -/
def keyWords : List Nat := [0, 1, 2, 3, 4, 8, 9, 10, 11, 12]

def blockKey (b : Vector Word 16) (k : Nat) : BitVec 256 :=
  BitVec.ofNat 256 (ofLe (bytesOfWords ((List.range 4).map fun j => vget b 0 (k + j))))

/-- Both keys are installed: EPOCH toggles, and the frame counts start at zero. -/
def Port.install (q : Port) : Port :=
  let key := fun k => ({ key := blockKey q.block k, salt := BitVec.ofNat 32 (vget q.block 0 (k + 4)).toNat, count := 0 } : LinkKey)
  { q with
    tx := some (key 0), rxOld := q.rx, rx := some (key 8), epoch := !q.epoch, blockSet := []
    halted := false, rekey := false, block := Vector.replicate 16 0 }.advance

/-- KEY_BLOCK_WRITE: the keys are installed once every register of the block has been written. DESIGN CHOICE, log 42. -/
def execKeyBlockWrite (s : State) : Host.Outcome State Fault Refusal :=
  let k := s.arg.off / 8
  .next (if 128 ≤ s.arg.unit || !keyWords.contains k then s
    else changePort s s.arg.unit fun q =>
      if q.st = .auth ∨ q.st = .active then
        let q := { q with block := vset q.block k s.arg.v, blockSet := if q.blockSet.contains k then q.blockSet else k :: q.blockSet }
        if keyWords.all q.blockSet.contains then q.install else q
      else q)

/-! ## Frames received -/

/-- An ACK frees the frames up to it. DEDUCED, log 41. -/
def Port.takeAck (q : Port) (ack : Nat) : Port :=
  match q.replay.findIdx? (·.fseq == ack) with
  | none => q
  | some j =>
    { q with
      replay := q.replay.drop (j + 1)
      replayAt := match q.replayAt with
        | some (t, fs) => if (q.replay.take (j + 1)).any (·.fseq == fs) then none else some (t, fs)
        | none => none }

/-- A management flit (R280, R281). DESIGN CHOICE, log 78. -/
def mgmtFlit (s : State) (p : Nat) (flit : List Byte) : State :=
  let ws := wordsLe 8 flit
  let w := fun k => ws.getD k 0
  match wf (w 1) 0 8 with
  | 1 =>
    onPort s p fun q =>
      if q.st = .train then
        let n := q.trainGood + 1
        if 1024 ≤ n then { q with trainGood := n, peer := some (wf (w 2) 0 14, wf (w 2) 16 7) }.advance
        else { q with trainGood := n }
      else q
  | 2 => onPort s p fun q => { q with spdm := q.spdm ++ [(flit.drop 10).take (wf (w 1) 8 8)] }
  | _ => s

/-- A flit of a packet; a whole packet goes to this module's edge, and one of a reserved KIND is counted. -/
def takeFlit (s : State) (p : Nat) (flit : List Byte) : State :=
  let fl := (portOf s p).rxFlits ++ [flit]
  if fl.length < flitCount (fl.headD []) then onPort s p fun q => { q with rxFlits := fl }
  else
    let s := onPort s p fun q => { q with rxFlits := [] }
    let x := pktOf fl
    if x.kind = 13 then mgmtFlit s p (fl.headD [])
    else if !knownKind x.kind then onPort s p fun q => { q with badpkt := q.badpkt + 1 }
    else if x.dstMod ≠ s.ownMod then s
    else s.onEng fun e => { e with net := e.net ++ [{ x with die := portDie p }] }

/-- Cycles of one second (R3). -/
def secondCycles : Nat := 4000000000

/-- A frame that fails authentication: dropped, the link back in AUTH; the fourth within one second fences the port. -/
def authFail (s : State) (p : Nat) : State :=
  let fails := (portOf s p).fails.filter (fun t => decide (s.now < t + secondCycles)) ++ [s.now]
  let s := onPort s p fun q => { q.toAuth with authfail := q.authfail + 1, fails := fails }
  if 4 ≤ fails.length then fencePort s p else s

/-- The count of frames under which a received frame was sealed, from the distance of its FSEQ to the next one in order: behind it
a duplicate, ahead of it a frame behind a loss. None where the key cannot tell: a duplicate from under an earlier key, or a frame of a
new key whose first frame has not arrived. DEDUCED, log 41. -/
def frameCount (k : LinkKey) (d : Nat) (first : Bool) : Option Nat :=
  if 2 ^ 14 ≤ d then (if 2 ^ 15 - d ≤ k.count then some (k.count - (2 ^ 15 - d)) else none)
  else if first && d != 0 then none
  else some (k.count + d)

/-- A frame whose check sums hold, in state ACTIVE: authenticated before anything of it counts. DESIGN CHOICE, log 11. -/
def activeFrame (s : State) (p : Nat) (f : Frame) : State :=
  let q := portOf s p
  let new := f.fseq.getLsbD 15 == q.epoch
  match (if new then q.rx else q.rxOld) with
  | none => authFail s p
  | some k =>
    let d := (fld f.fseq.toNat 0 15 + 2 ^ 15 - q.rxSeq) % 2 ^ 15
    match frameCount k d (new && q.rxOld.isSome) with
    | none => s
    | some n =>
      match Config.gcmOpen k.key k.salt n (frameAad f.fseq f.ack) f.flit f.gtag with
      | none => authFail s p
      | some flit =>
        let s := onPort s p fun q => q.takeAck (fld f.ack.toNat 0 15)
        let s := if new then onPort s p fun q => { q with rxOld := none } else s
        if d ≠ 0 then s
        else
          let s := onPort s p fun q =>
            { q with
              rxSeq := (q.rxSeq + 1) % 2 ^ 15
              rx := if new then q.rx.map fun k => { k with count := k.count + 1 } else q.rx
              rxOld := if new then q.rxOld else q.rxOld.map fun k => { k with count := k.count + 1 } }
          takeFlit s p flit

/-- A frame at a port. DEDUCED, log 41. -/
def receiveFrame (s : State) (p : Nat) (f : Frame) : State :=
  let q := portOf s p
  let isMgmt := wf ((wordsLe 1 f.flit).getD 0 0) 56 8 == 13
  match q.st with
  | .down | .fenced => s
  | st =>
    if frameCrc f.flit f.gtag f.fseq f.ack ≠ f.fcrc then
      onPort s p fun q => { q with crcerr := q.crcerr + 1, trainGood := if q.peer.isSome then q.trainGood else 0 }
    else match st with
      | .active => activeFrame s p f
      | .auth =>
        let s := onPort s p fun q => q.takeAck (fld f.ack.toNat 0 15)
        if isMgmt then mgmtFlit s p f.flit else s
      | _ => if isMgmt then mgmtFlit s p f.flit else s

/-- FRAME_RECEIVE. -/
def execFrameReceive (s : State) : Host.Outcome State Fault Refusal :=
  .next (match s.arg.frame with | some f => receiveFrame s s.arg.unit f | none => s)

/-- A frame that carries a management flit of a subtype, in plaintext. -/
def isMgmtFrame (s : State) (sub : Nat) (f : Frame) : Bool :=
  let ws := wordsLe 2 f.flit
  (portOf s s.arg.unit).st != .active && wf (ws.getD 0 0) 56 8 == 13 && wf (ws.getD 1 0) 0 8 == sub

/-- MGMT_TRAINING. -/
def execMgmtTraining (s : State) : Host.Outcome State Fault Refusal :=
  .next (match s.arg.frame with | some f => if isMgmtFrame s 1 f then receiveFrame s s.arg.unit f else s | none => s)

/-- MGMT_SPDM. DESIGN CHOICE, log 42. -/
def execMgmtSpdm (s : State) : Host.Outcome State Fault Refusal :=
  .next (match s.arg.frame with | some f => if isMgmtFrame s 2 f then receiveFrame s s.arg.unit f else s | none => s)

/-- BADPKT: a packet of a reserved KIND. -/
def execBadpkt (s : State) : Host.Outcome State Fault Refusal :=
  .next (match s.arg.pkt with
    | some x => if knownKind x.kind then s else onPort s s.arg.unit fun q => { q with badpkt := q.badpkt + 1 }
    | none => s)

end Sys2Proof.Machine
end

