-- ==== Sys2Proof/Machine/Ctl.lean ====
section
/-! DEFINITION. Control and system instructions, group 0 (R58 to R67), with the change of owner (R393, R394) and
the rate check of `end` (R310). -/

namespace Sys2Proof.Machine

def firingPc (c : CoreSt) : Word := match c.firing with | some f => f.pc | none => 0

/-- The target of a relative transfer (R36, R60). -/
def relTarget (c : CoreSt) (off : BitVec 32) : Word := pcPlus (firingPc c) off.toInt

/-- A transfer to a register's content, which must be a good program counter (R37, R61). -/
def jumpReg (a : GReg) (i : Nat) (s : State) : Eff :=
  let v := gread (s.core i) a
  if badPc v then .trap s 0x02 v else .done s (.jump v [])

/-- A conditional relative transfer with the writes that it makes either way (R63). -/
def branchIf (taken : Bool) (off : BitVec 32) (ws : List RegWrite) (i : Nat) (s : State) : Eff :=
  if taken then .done s (.jump (relTarget (s.core i) off) ws) else .done s (.fixed 1 ws 0)

/-- `nop` (R59). -/
def execNop (h : Hdr) (s : State) : Host.Outcome State Fault Refusal :=
  issue .none h (fun _ s => .done s .plain) s

/-- `br` (R60). -/
def execBr (h : Hdr) (off : BitVec 32) (s : State) : Host.Outcome State Fault Refusal :=
  issue .none h (fun i s => .done s (.jump (relTarget (s.core i) off) [])) s

/-- `brx` (R61). -/
def execBrx (h : Hdr) (a : GReg) (s : State) : Host.Outcome State Fault Refusal := issue .none h (jumpReg a) s

/-- `call` (R60): the link is the program counter of linear index L + 1. -/
def execCall (h : Hdr) (d : GReg) (off : BitVec 32) (s : State) : Host.Outcome State Fault Refusal :=
  issue .none h
    (fun i s =>
      let c := s.core i
      .done s (.jump (relTarget c off) [gdest c d (pcPlus (firingPc c) 1)])) s

/-- `ret` (R61). -/
def execRet (h : Hdr) (a : GReg) (s : State) : Host.Outcome State Fault Refusal := issue .none h (jumpReg a) s

/-- `loop` (R63): D := D - 1, taken if the new D is not zero. -/
def execLoop (h : Hdr) (d : GReg) (off : BitVec 32) (s : State) : Host.Outcome State Fault Refusal :=
  issue .none h
    (fun i s =>
      let v := gread (s.core i) d - 1
      branchIf (v != 0) off [gdest (s.core i) d v] i s) s

/-- `loop.gt` (R63). -/
def execLoopGt (h : Hdr) (a : GReg) (off : BitVec 32) (s : State) : Host.Outcome State Fault Refusal :=
  issue .none h (fun i s => branchIf (decide (0 < (gread (s.core i) a).toInt)) off [] i s) s

/-- `loop.nz` (R63). -/
def execLoopNz (h : Hdr) (a : GReg) (off : BitVec 32) (s : State) : Host.Outcome State Fault Refusal :=
  issue .none h (fun i s => branchIf (gread (s.core i) a != 0) off [] i s) s

/-! ## end -/

/-- Records that input i counts as consumed: ⌈w / 8⌉ (R310). -/
def consumed (f : Firing) (i : Nat) : Nat := (vget f.reads 0 i + 7) / 8

/-- The input or output whose count differs from its rate, inputs first (R310). -/
def rateMismatch (f : Firing) (a : Actor) : Option Nat :=
  match (List.range 4).find? (fun i => match vget a.ins none i with
      | some (_, rate) => consumed f i != rate
      | none => false) with
  | some i => some i
  | none =>
    ((List.range 4).find? fun j => match vget a.outs none j with
      | some (_, _, rate) => vget f.sent 0 j != rate || !(vget f.outWords [] j).isEmpty
      | none => false).map (16 + ·)

/-- The records that the firing read leave its inputs (R299). -/
def consumeInputs (s : State) (i : Nat) (a : Actor) : State :=
  a.ins.toList.foldl (fun s x =>
    match x with
    | none => s
    | some (ch, rate) => s.onSched i fun d =>
        { d with chans := match mget? d.chans ch with
            | some k => mput d.chans ch { k with items := k.items.drop rate }
            | none => d.chans }) s

/-- Successful firings of a binding (R380). -/
def countFired (s : State) (i slot : Nat) : State :=
  s.onSched i fun d =>
    { d with actors := match mget? d.actors slot with
        | some a => mput d.actors slot { a with fired := a.fired + 1 }
        | none => d.actors }

/-- Stores that a handler left undecided are sent and the faulting store is dropped, as for a fault that arrives
after `end` (R365). DEDUCED, log 23. -/
def sendHeld (s : State) (i : Nat) : State :=
  s.onCore i fun c =>
    let held := c.traps.sring.filterMap fun r => if r.held && r.st != 3 then r.ent else none
    { c with
      cache := { c.cache with wb := held.map (fun e => { e with held := false, sent := false }) ++ c.cache.wb }
      traps := { c.traps with sring := c.traps.sring.map fun r => { r with held := false, ent := none } } }

/-- A successful end (R299). -/
def finishFiring (s : State) (i : Nat) : State :=
  match (s.core i).firing with
  | none => s
  | some f =>
    let s := sendHeld s i
    match f.kind with
    | .actor slot =>
      (match actorOf (s.core i) slot with
       | none => closeFiring s i
       | some a =>
         match rateMismatch f a with
         | some n => s.abort i 0x15 (W n) f.pc
         | none => closeFiring (countFired (returnReservations (consumeInputs s i a) i slot) i slot) i)
    | _ => closeFiring s i

/-- `end` (R64). -/
def execFin (h : Hdr) (s : State) : Host.Outcome State Fault Refusal :=
  issue .none h
    (fun i s =>
      let c := s.core i
      if endWaits c then .wait s
      else match lateFault c allTags with
        | some (t, f) => .done (deliverLate s i t f) .moved
        | none => .done (finishFiring s i) .moved) s

/-- `trapi` (R65). -/
def execTrapi (h : Hdr) (imm : BitVec 32) (s : State) : Host.Outcome State Fault Refusal :=
  issue .none h (fun _ s => .trap s 0x03 (imm.setWidth 64)) s

/-! ## System registers (R66, R67) -/

/-- COREID (R14, R17). DESIGN CHOICE, log 9. -/
def coreId (s : State) (i : Nat) : Word :=
  let y := rowOf i
  let prow := if (Config.disabledRow (dieOf i)).val ≤ y then y + 1 else y
  W (prow * 2 ^ 46 + s.modnum.getD 0 * 2 ^ 32 + colOf i * 2 ^ 26 + y * 2 ^ 20 + dieOf i * 2 ^ 16 + modY i * 2 ^ 8 +
    modX i)

/-- A frame word of the handler, or the core's own register (R363). DEDUCED, log 68. -/
def trapReg (s : State) (i k : Nat) : Word :=
  let c := s.core i
  if inHandler c then
    let w := frameWord s i k
    if k = 0 then W (wf w 0 8) else w
  else match k with
    | 0 => W c.traps.cause
    | 1 => c.traps.val
    | _ => c.traps.tpc

/-- The error that a read of TRAPCAUSE, TRAPVAL or TRAPPC meets in the frame (R363, R420). -/
def framePoisonOf (s : State) (i n : Nat) : Option (Nat × Nat) :=
  if inHandler (s.core i) && decide (8 ≤ n) && decide (n ≤ 10) then framePoison s i (n - 8) 1 else none

/-- The value of a system register; `none` where no read is permitted (R67). -/
def sysRead (s : State) (i n : Nat) : Option Word :=
  let c := s.core i
  match c.firing with
  | none => none
  | some f =>
    match n with
    | 0x00 => some (coreId s i)
    | 0x01 => some (W f.owner)
    | 0x02 => some (W (s.worldOf f.owner))
    | 0x03 => some f.codeb
    | 0x04 => some (W (budgetLeft s f))
    | 0x05 => some (W c.regs.fpstat.toNat)
    | 0x06 => some (W c.regs.vgrant)
    | 0x07 => some (W f.stage)
    | 0x08 => if supState c then some (trapReg s i 0) else none
    | 0x09 => if supState c then some (trapReg s i 1) else none
    | 0x0A => if supState c then some (trapReg s i 2) else none
    | 0x0B => some (W c.cache.seqHead)
    | 0x0C => some 16384
    | 0x0D => some c.cache.hintDrop
    | 0x0E => some c.sched.stlscope
    | 0x0F => some (W s.now)
    | 0x10 => some (W s.timeUs)
    | _ => none

/-- `sysrd` (R66): latency 1; a read that is not permitted traps SYSREG. -/
def execSysrd (h : Hdr) (d : GReg) (n : BitVec 12) (s : State) : Host.Outcome State Fault Refusal :=
  issue .none h
    (fun i s =>
      match sysRead s i n.toNat with
      | some v =>
        match framePoisonOf s i n.toNat with
        | some e => containEff s i e.1 e.2
        | none => .done s (.fixed 1 [gdest (s.core i) d v] 0)
      | none => .trap s 0x04 (n.setWidth 64)) s

/-- Writes of TRAPCAUSE, TRAPVAL and TRAPPC: the frame in a handler, the core's registers otherwise (R363).
DESIGN CHOICE, log 5; DEDUCED, log 68. -/
def setTrapReg (s : State) (i k : Nat) (v : Word) : State :=
  if inHandler (s.core i) then
    let a := frameAddr i + 8 * k
    if k = 0 then s.putArray a [v.setWidth 8] else s.putWord a v
  else s.onTraps i fun t =>
    match k with
    | 0 => { t with cause := wf v 0 8 }
    | 1 => { t with val := v }
    | _ => { t with tpc := v }

/-- `syswr` to HINTDROP and the trap registers; any other number here permits no write (R67). -/
def execSyswr (h : Hdr) (a : GReg) (n : BitVec 12) (s : State) : Host.Outcome State Fault Refusal :=
  issue .none h
    (fun i s =>
      let v := gread (s.core i) a
      let k := n.toNat
      if k = 0x0D then .done (s.onCache i fun c => { c with hintDrop := v }) .plain
      else if 0x08 ≤ k ∧ k ≤ 0x0A ∧ supState (s.core i) then .done (setTrapReg s i (k - 8) v) .plain
      else .trap s 0x04 (n.setWidth 64)) s

/-- Decode tables of another owner become EMPTY, and those that another owner is still loading will be (R122, R394). -/
def emptyTables (s : State) (i owner : Nat) : State :=
  let s := s.onIss i fun k =>
    { k with outs := k.outs.map fun o =>
        match o.op with
        | .dtload t d 0 c4 _ => if o.owner = owner then o else { o with op := .dtload t d 0 c4 [] }
        | _ => o }
  s.onMtx i fun m => { m with dt := m.dt.map fun t => if t.owner = owner then t else .empty }

/-- The new owner is allowed (R393). -/
def ownerAllowed (s : State) (c : CoreSt) (f : Firing) (o : Nat) : Bool :=
  let sw := fun k => wf (readWord s.mem (s.tableOf f.owner + 8 * (k / 4))) (16 * (k % 4)) 16
  s.live o &&
    (o == f.owner || o == f.startOwner || supState c ||
      (s.live f.owner && s.worldOf o == s.worldOf f.owner && (List.range 8).any fun k => sw k == o))

/-- `syswr OWNER` (R393, R394). -/
def execSyswrOwner (h : Hdr) (a : GReg) (s : State) : Host.Outcome State Fault Refusal :=
  issue .none h
    (fun i s =>
      let c := s.core i
      let v := gread c a
      match c.firing with
      | none => .wait s
      | some f =>
        if wf v 16 48 ≠ 0 ∨ ownerAllowed s c f (wf v 0 16) = false then .trap s 0x04 1
        else
          let s := s.onFiring i fun f => { f with owner := wf v 0 16 }
          .done (if supState c then s else emptyTables s i (wf v 0 16)) .plain) s

/-- `syswr FPSTAT` (R67, R119): the five flags, and those of the results written in the same cycle. DEDUCED, log 21. -/
def execSyswrFpstat (h : Hdr) (a : GReg) (s : State) : Host.Outcome State Fault Refusal :=
  issue .none h
    (fun i s =>
      .done (s.onRegs i fun r =>
        { r with fpstat := (gread (s.core i) a).setWidth 5 ||| (if r.landed.1 = s.now then r.landed.2 else 0) }) .plain) s

/-- `syswr STLSCOPE` (R315). -/
def execSyswrStlscope (h : Hdr) (a : GReg) (s : State) : Host.Outcome State Fault Refusal :=
  issue .none h
    (fun i s =>
      let v := gread (s.core i) a
      withScope v s fun _ => .done (s.onSched i fun d => { d with stlscope := v }) .plain) s

end Sys2Proof.Machine
end

