-- ==== Sys2Proof/Machine/Sched.lean ====
section
/-! DEFINITION. The scheduler (R298, R301, R307, R313 to R320, R375): how a firing starts, arming, selection, stealing, idling,
launch records (R332 to R334) and mailbox counters (R347). -/

namespace Sys2Proof.Machine

/-! ## Control words (R301) -/

def ctlPin (w : Word) : Bool := wb w 63
def ctlClass (w : Word) : Nat := wf w 58 5
def ctlPrio (w : Word) : Nat := wf w 54 4
def ctlOwner (w : Word) : Nat := wf w 32 16
/-- Reserved values of a control word, apart from PRIO and OWNER. -/
def ctlBad (w : Word) : Bool := decide (18 ≤ ctlClass w) || wf w 48 6 != 0
/-- Budget of a BCLASS; 0 inherits. -/
def classBudget (b inherit : Nat) : Nat := if b = 0 then inherit else 2 ^ (9 + b)

/-! ## Which cores select -/

/-- The row of a core among the module's 405. -/
def rowIdx (i : Nat) : Nat := 45 * dieOf i + rowOf i

/-- The core's tussock is under test (R432). -/
def heldByTest (s : State) (i : Nat) : Bool :=
  match mget? s.rcv.tests (dieOf i) with
  | some t => decide (t.phase ≠ .idle) && decide (t.phase ≠ .failed) && (match t.queue with | (u, _) :: _ => u == tusOf i | [] => false)
  | none => false

/-- The core may start a firing now: it is there, between firings, not fenced, stopped or under test. -/
def maySelect (s : State) (i : Nat) : Bool :=
  coreOn s i && (s.core i).firing.isNone && (s.core i).stopped.isNone && !s.rcv.fences.cores.contains i && !heldByTest s i

/-- A withheld row takes steps 1 and 2 only (R440, R441). -/
def rowWithheld (s : State) (i : Nat) : Bool :=
  (s.power.withholding || s.power.throttled) && s.power.withheld.contains (rowIdx i)

/-! ## Starting a firing (R298) -/

/-- What a firing starts from. -/
structure Start where
  kind : FKind
  pc : Word
  owner : Nat
  codeb : Word
  prio : Nat
  budget : Nat
  stage : Nat
  sup : Bool
  /-- Words 1 to 7 of the causing record, and g8. -/
  words : List Word
  g8 : Word
  union : Sig
  q : Vector QBind 8
  deriving DecidableEq, Repr

def noStreams : Vector QBind 8 := Vector.replicate 8 .unbound

def Regs.start (x : Start) : Regs :=
  { Regs.reset with
    g := Vector.ofFn fun k => if k.val = 0 then 0 else if k.val < 8 then x.words.getD (k.val - 1) 0 else if k.val = 8 then x.g8 else 0
    q := x.q, isig := x.union }

/-- A firing starts: registers and flags of R298, tags free, rings empty (R373), decode tables of other owners emptied except
by a supervisor firing (R122), and a barrier union applied as an acquire (R233). DESIGN CHOICE, log 5. -/
def startFiring (s : State) (i : Nat) (x : Start) : State :=
  let n := (s.core i).sched.firings + 1
  let f : Firing :=
    { num := n, kind := x.kind, pc := x.pc, startOwner := x.owner, owner := x.owner, codeb := x.codeb, stage := x.stage
      prio := x.prio, budget := x.budget, budgetEnd := s.now + x.budget, ext := false, expired := false, start := s.now
      sup := x.sup, handler := false, reads := Vector.replicate 4 0, outWords := Vector.replicate 4 []
      sent := Vector.replicate 4 0 }
  let s := s.onCore i fun c =>
    { c with
      regs := Regs.start x
      firing := some f
      iss := { c.iss with next := max c.iss.next s.now, hist := [], tags := Vector.replicate 16 .free, pend := [] }
      cache := { c.cache with wmWait := none, walkFault := none }
      mtx := { c.mtx with gangFault := none }
      traps :=
        { c.traps with
          ready := [], counted := [], pending := none, abort := none, storeStop := false, cring := [], sring := [], cause := 0
          val := 0, tpc := 0 }
      sched := { c.sched with firings := n, idle := .running } }
  let s := if x.sup then s else emptyTables s i x.owner
  if x.union = 0 then s else sigDrop s i x.union (decide (640 < sigPop x.union))

/-! ## Arming (R307, R317) -/

/-- Data records ahead of the first marker. -/
def dataAhead0 (items : List ChItem) : Nat := (items.takeWhile fun x => match x with | .data .. => true | .marker _ => false).length

/-- Data records of a channel. -/
def dataCount (items : List ChItem) : Nat := (items.filter fun x => match x with | .data .. => true | .marker _ => false).length

/-- A firing of the actor is in flight. -/
def inFlight (s : State) (i slot : Nat) : Bool :=
  match (s.core i).firing with
  | some f => (match f.kind with | .actor k => k.val == slot | _ => false)
  | none => false

/-- The inputs of an actor hold what a firing reads. -/
def inputsReady (s : State) (i : Nat) (a : Actor) : Bool :=
  (List.range 4).all fun k =>
    match vget a.ins none k with
    | none => true
    | some (ch, rate) =>
      match chanOf s i ch with
      | none => false
      | some c => decide (rate ≤ if k = 0 then dataAhead0 c.items else dataCount c.items)

/-- Priority of the launch queue's head. -/
def launchPrio (l : Launch) : Nat :=
  let p := ctlPrio (l.words.getD 1 0)
  if p = 0 then 8 else p

/-- Priority of an item that could be armed, outputs apart: actor slots 0-15, task channels 16-47, the launch queue 48. -/
def itemPrio (s : State) (i item : Nat) : Option Nat :=
  let d := (s.core i).sched
  if item < 16 then
    match actorOf (s.core i) item with
    | some a =>
      if a.stopped || a.freeing || a.waits || a.perf.isSome || inFlight s i item || !inputsReady s i a then none else some a.prio
    | none => none
  else if item < 48 then
    match chanOf s i (item - 16) with
    | some c => if c.task && !c.paused && (match c.items with | .data .. :: _ => true | _ => false) then some c.prio else none
    | none => none
  else if item = 48 then d.launchq.head?.map launchPrio
  else none

/-- Room for every output of an actor: the reservations made, or none (R307). -/
def reserveOuts (s : State) (i slot : Nat) (a : Actor) : List Nat → Option State
  | [] => some s
  | j :: js =>
    match vget a.outs none j with
    | none => reserveOuts s i slot a js
    | some (k, ch, rate) =>
      match chanOf s k ch with
      | none => none
      | some c =>
        if c.task || c.owner ≠ a.owner || decide (c.room < rate) then none
        else reserveOuts (onChan s k ch fun c => { c with reserved := c.reserved ++ [(i, slot, j, rate)] }) i slot a js

/-- An item becomes armed. DEDUCED, log 55. -/
def armItem (s : State) (i item : Nat) : State :=
  if (mget? (s.core i).sched.armed item).isSome then s
  else match itemPrio s i item with
    | none => s
    | some _ =>
      let t := if item < 16 then
          match actorOf (s.core i) item with
          | some a => reserveOuts s i item a [0, 1, 2, 3]
          | none => none
        else some s
      match t with
      | none => s
      | some t => t.onSched i fun d => { d with armed := mput d.armed item (s.now, 0) }

/-- An item is no longer armed, and its reservations are returned. -/
def disarmItem (s : State) (i item : Nat) : State :=
  let s := if item < 16 then returnReservations s i item else s
  s.onSched i fun d => { d with armed := mdel d.armed item }

/-- Armed items whose condition no longer holds are disarmed; then every item that can arm does. DEDUCED, log 55. -/
def armAll (s : State) (i : Nat) : State :=
  let s := (s.core i).sched.armed.foldl (fun s (k, _) => if (itemPrio s i k).isNone then disarmItem s i k else s) s
  (List.range 49).foldl (fun s k => armItem s i k) s

/-- The scheduler tests arming on every core that has any state: an item's armed time starts in the cycle in which it becomes armed
(R307, R318). DEDUCED, log 55. -/
def armCores (s : State) : State :=
  (s.cores.map (·.1)).foldl (fun s i => if s.rcv.fences.cores.contains i then s else armAll s i) s

/-- Levels gained by aging (R318). DEDUCED, log 56. -/
def agedLevels (s : State) (since : Nat) : Nat := (s.now - since) / 2 ^ 20

/-- Effective priority of an armed item. DEDUCED, log 56. -/
def effPrio (s : State) (i item : Nat) : Option Nat :=
  match mget? (s.core i).sched.armed item, itemPrio s i item with
  | some (since, _), some p => some (min 14 (p + agedLevels s since))
  | _, _ => none

/-- AGING_TICK: the item is tested for arming, or has its levels counted. DEDUCED, log 56. -/
def execAgingTick (s : State) : Host.Outcome State Fault Refusal :=
  let i := s.arg.core
  let k := s.arg.id
  .next (match mget? (s.core i).sched.armed k with
    | none => armItem s i k
    | some (since, _) => s.onSched i fun d => { d with armed := mput d.armed k (since, min 14 (agedLevels s since)) })

/-! ## Selection (R316, R317) -/

/-- Items in the order in which a level's pointer searches. DEDUCED, log 55. -/
def searchOrder (last : Option Nat) : List Nat :=
  match last with
  | none => List.range 49
  | some k => (List.range 49).map fun j => (k + 1 + j) % 49

/-- The armed item that step 3 chooses, with its level. DEDUCED, log 55. -/
def chooseItem (s : State) (i : Nat) : Option (Nat × Nat) :=
  let lvls := (List.range 49).filterMap (effPrio s i)
  match lvls with
  | [] => none
  | l :: ls =>
    let top := ls.foldl max l
    ((searchOrder (mget? (s.core i).sched.rr top)).find? fun k => effPrio s i k == some top).map (·, top)

/-- Words 1 to 7 of a record. -/
def recWords (ws : List Word) : List Word := (List.range 7).map fun k => ws.getD (k + 1) 0

/-- Unions of the barrier tokens among the records that an actor's firing reads (R233). -/
def unionOf (s : State) (i : Nat) (a : Actor) : Sig :=
  a.ins.toList.foldl (fun u x =>
    match x with
    | none => u
    | some (ch, rate) =>
      match chanOf s i ch with
      | none => u
      | some c => (c.items.take rate).foldl (fun u y => match y with | .data _ (some v) => u ||| v | _ => u) u) 0

/-- q0 to q3 and q4 to q7 of an actor's firing (R308). -/
def actorStreams (a : Actor) : Vector QBind 8 :=
  Vector.ofFn fun k =>
    if k.val < 4 then (if (vget a.ins none k.val).isSome then .chanIn (Fin.ofNat 4 k.val) else .unbound)
    else (if (vget a.outs none (k.val - 4)).isSome then .chanOut (Fin.ofNat 4 (k.val - 4)) else .unbound)

def startActor (s : State) (i : Nat) (slot : Fin 16) (a : Actor) : State :=
  let head := match vget a.ins none 0 with
    | some (ch, _) => (match chanOf s i ch with
        | some c => (match c.items with | .data ws _ :: _ => ws | _ => [])
        | none => [])
    | none => []
  startFiring s i
    { kind := .actor slot, pc := a.handler, owner := a.owner, codeb := a.code, prio := a.prio, budget := a.budget, stage := a.stage
      sup := false, words := recWords head, g8 := W (0x00FF * 2 ^ 48 + a.stOff), union := unionOf s i a, q := actorStreams a }

/-- A record of a task channel becomes a task. -/
def startChan (s : State) (i : Nat) (ch : Fin 32) (c : Channel) : State :=
  match c.items with
  | .data ws u :: rest =>
    startFiring (onChan s i ch.val fun c => { c with items := rest }) i
      { kind := .chan ch, pc := ws.getD 0 0, owner := c.owner, codeb := c.codeb, prio := c.prio, budget := c.budget, stage := 0
        sup := false, words := recWords ws, g8 := 0, union := u.getD 0, q := noStreams }
  | _ => s

def startTask (s : State) (i : Nat) (words : List Word) (owner prio budget : Nat) : State :=
  startFiring s i
    { kind := .task, pc := words.getD 0 0, owner, codeb := 0, prio, budget, stage := 0, sup := false, words := recWords words
      g8 := 0, union := 0, q := noStreams }

/-- A supervisor firing (R357, R375). -/
def startSup (s : State) (i : Nat) (kind : FKind) (words : List Word) (owner budget : Nat) : State :=
  startFiring s i
    { kind, pc := words.getD 0 0, owner, codeb := (s.core i).sched.scodeb, prio := 15, budget, stage := 0, sup := true
      words := recWords words, g8 := 0, union := 0, q := noStreams }

def defaultBudget : Nat := 2 ^ 20

/-- The chosen item fires: its armed time ends and its level's pointer moves. -/
def fireItem (s : State) (i item level : Nat) : State :=
  let s := s.onSched i fun d => { d with armed := mdel d.armed item, rr := mput d.rr level item }
  if item < 16 then
    match actorOf (s.core i) item with | some a => startActor s i (Fin.ofNat 16 item) a | none => s
  else if item < 48 then
    match chanOf s i (item - 16) with | some c => startChan s i (Fin.ofNat 32 (item - 16)) c | none => s
  else match (s.core i).sched.launchq with
    | [] => s
    | l :: ls =>
      startTask (s.onSched i fun d => { d with launchq := ls }) i l.words l.owner (launchPrio l)
        (classBudget (ctlClass (l.words.getD 1 0)) defaultBudget)

/-- A pending request of step 1: started, or discarded when its handler is not admitted (R375). -/
def takePreempt (s : State) (i : Nat) (h w1 : Word) : State :=
  let d := (s.core i).sched
  let s := s.onSched i fun d => { d with preempt := none }
  let ws := [h, w1, 0, 0, 0, 0, 0, 0]
  if admitted d.scodeb h then startSup s i .preempt ws d.sowner defaultBudget else s.discard i ws 1 d.sowner

/-- The core finds nothing and idles; its first steal attempt is due at once, or with NOSTEAL never. -/
def goIdle (s : State) (i : Nat) : State :=
  s.onSched i fun d =>
    { d with idle := match d.idle with | .idle a b => .idle a b | _ => .idle s.now 0 }

/-- The owner under which a supervisor record runs: SOWNER as it stands for one that the core queued itself (R357, R366). -/
def supOwner (d : Sched) (l : Launch) : Nat := if l.queued then d.sowner else l.owner

/-- Steps 1 to 4 and 6 of R316; a withheld row takes steps 1 and 2 only (R440). -/
def selectFiring (s : State) (i : Nat) : State :=
  let d := (s.core i).sched
  match d.preempt, d.supq with
  | some (h, w1), _ => takePreempt s i h w1
  | none, l :: ls =>
    startSup (s.onSched i fun d => { d with supq := ls }) i .supRecord l.words (supOwner d l)
      (classBudget (ctlClass (l.words.getD 1 0)) defaultBudget)
  | none, [] =>
    if rowWithheld s i then s
    else
      let s := armAll s i
      match chooseItem s i with
      | some (k, lvl) => fireItem s i k lvl
      | none =>
        match (s.core i).sched.deque.getLast? with
        | some t => startTask (s.onSched i fun d => { d with deque := d.deque.dropLast }) i t.words t.owner t.prio t.budget
        | none => goIdle s i

/-- FIRING_SELECT. -/
def execFiringSelect (s : State) : Host.Outcome State Fault Refusal :=
  let i := s.arg.core
  .next (if !maySelect s i then s
    else match (s.core i).sched.idle with
      | .select => selectFiring s i
      | .idle _ _ => selectFiring s i
      | _ => s)

/-! ## Stealing and idling (R313 to R315, R319) -/

def unpinned (ts : List Task) : Nat := (ts.filter (!·.pin)).length

/-- The oldest unpinned entry leaves a deque. -/
def dropOldest : List Task → Option (Task × List Task)
  | [] => none
  | t :: ts => if t.pin then (dropOldest ts).map fun (x, r) => (x, t :: r) else some (t, ts)

/-- A victim whose deque yields an entry (R314, R356). -/
def stealable (s : State) (v : Nat) : Bool :=
  let d := (s.core v).sched
  !d.novictim && !s.rcv.fences.cores.contains v && decide (2 ≤ unpinned d.deque)

/-- A list of victims that R315 allows: other cores of the tussock, then of the rectangle in STLSCOPE. DESIGN CHOICE, log 57. -/
def victimsOk (s : State) (i : Nat) (vs : List Nat) : Bool :=
  let near := vs.takeWhile fun v => tusOf v == tusOf i
  let far := vs.drop near.length
  let sc := (s.core i).sched.stlscope
  vs.all (fun v => v != i && coreOn s v) && decide (near.length ≤ 7) && decide (far.length ≤ 16) &&
    far.all fun v => wf sc 32 2 == 0 && (rectOf sc).has v

/-- STEAL_ATTEMPT: step 5 of an idle core. DESIGN CHOICE, log 57. -/
def execStealAttempt (s : State) : Host.Outcome State Fault Refusal :=
  let i := s.arg.core
  .next (match (s.core i).sched.idle with
    | .idle since 0 =>
      if !maySelect s i || rowWithheld s i || (s.core i).sched.nosteal || !victimsOk s i s.arg.list then s
      else match s.arg.list.find? (stealable s) with
        | some v =>
          (match dropOldest (s.core v).sched.deque with
           | some (t, rest) => startTask (s.onSched v fun d => { d with deque := rest }) i t.words t.owner t.prio t.budget
           | none => s)
        | none => s.onSched i fun d => { d with idle := .idle since (s.now + 64) }
    | _ => s)

/-- IDLE_RETRY: step 5 is due again after 64 cycles. -/
def execIdleRetry (s : State) : Host.Outcome State Fault Refusal :=
  .next (s.onSched s.arg.core fun d =>
    match d.idle with
    | .idle since r => if r ≠ 0 ∧ r ≤ s.now then { d with idle := .idle since 0 } else d
    | _ => d)

/-- IDLE_GATE: after 4,096 idle cycles; a withheld row does not take step 6 (R440). -/
def execIdleGate (s : State) : Host.Outcome State Fault Refusal :=
  .next (if rowWithheld s s.arg.core then s
    else s.onSched s.arg.core fun d =>
      match d.idle with
      | .idle since _ => if since + 4096 ≤ s.now then { d with idle := .gated } else d
      | _ => d)

/-- CORE_WAKE. R319 names the arrivals that wake a gated core. An item that becomes armed without one (room returned
to an output, R299, or its channel bound, R349) wakes it too: DEDUCED, since R307 arms the actor and R349 has it wait no
longer. DEDUCED, log 55. -/
def execCoreWake (s : State) : Host.Outcome State Fault Refusal :=
  let i := s.arg.core
  .next (match (s.core i).sched.idle with
    | .waking _ => s.onSched i fun d => { d with idle := .select }
    | .gated => if (chooseItem (armAll s i) i).isSome then s.onSched i fun d => { d with idle := .select } else s
    | _ => s)

/-- The wake of a deque that has just reached two unpinned entries (R319). -/
def stealWake (s : State) (i : Nat) : State :=
  ((tussockCores (tusOf i)).filter (· != i)).foldl (fun s k =>
    match (s.core k).sched.idle with | .gated => wakeCore s k | _ => s) s

/-! ## Launch records (R332 to R334) -/

/-- A record that has passed its window's test waits for its queue; one for an owner that is torn down or being torn down is refused
there (R410). DEDUCED, log 49. -/
def enterWindow (s : State) (i : Nat) (l : Launch) : State :=
  if ownerGone s l.owner then s.discard i l.words 5 l.owner
  else wakeCore (s.onSched i fun d => { d with windowq := d.windowq ++ [l] }) i

/-- A record from the host window (R334). -/
def hostRecord (s : State) (i : Nat) (ws : List Word) : State :=
  let w1 := ws.getD 1 0
  let o := ctlOwner w1
  if s.hostown = 0 ∨ ¬ (o = 0 ∨ o = s.hostown) ∨ ctlPrio w1 = 15 then s.discard i ws 4 (if o = 0 then s.hostown else o)
  else enterWindow s i { words := ws, owner := s.hostown, sup := false }

/-- HOST_WINDOW_WRITE. -/
def execHostWindowWrite (s : State) : Host.Outcome State Fault Refusal :=
  let i := s.arg.off / 64
  .next (if s.arg.data.length = 64 ∧ s.arg.off % 64 = 0 ∧ coreOn s i then hostRecord s i (wordsLe 8 s.arg.data)
    else { s with windrop := s.windrop + 1 })

/-- A record from a reeve window (R334). -/
def reeveRecord (s : State) (i : Nat) (ws : List Word) : State :=
  let w1 := ws.getD 1 0
  if ctlOwner w1 = 0 then s.discard i ws 4 0
  else enterWindow s i { words := ws, owner := ctlOwner w1, sup := ctlPrio w1 == 15 }

/-- REEVE_WINDOW_WRITE: the record is sent with its word at offset 56. -/
def execReeveWindowWrite (s : State) : Host.Outcome State Fault Refusal :=
  let i := s.arg.core
  let k := s.arg.off / 8
  .next (if !coreOn s i || 8 ≤ k then s
    else
      let s := s.onSched i fun d => { d with window := vset d.window k s.arg.v }
      if k ≠ 7 then s
      else reeveRecord (s.onSched i fun d => { d with window := Vector.replicate 8 0 }) i (s.core i).sched.window.toList)

/-- The record's queue has room: 16 launch records, 16 supervisor records. -/
def launchRoom (d : Sched) (l : Launch) : Bool := decide ((if l.sup then d.supq else d.launchq).length < 16)

/-- Reason with which a launch record fails admission (R333), in the order of R341. -/
def launchFail (d : Sched) (l : Launch) : Option Nat :=
  let w1 := l.words.getD 1 0
  if ctlBad w1 || (ctlPrio w1 == 15 && !l.sup) then some 3 else admitFail (if l.sup then d.scodeb else 0) (l.words.getD 0 0)

/-- LAUNCH_ENQUEUE: the first waiting record whose queue has room enters it, or is discarded. DEDUCED, log 49. -/
def execLaunchEnqueue (s : State) : Host.Outcome State Fault Refusal :=
  let i := s.arg.core
  let d := (s.core i).sched
  .next (match d.windowq.find? (launchRoom d) with
    | none => s
    | some l =>
      let s := s.onSched i fun d => { d with windowq := dropFirst (launchRoom d) d.windowq }
      match (if ownerGone s l.owner then some 5 else launchFail d l) with
      | some r => s.discard i l.words r l.owner
      | none =>
        wakeCore (s.onSched i fun d =>
          if l.sup then { d with supq := d.supq ++ [l] } else { d with launchq := d.launchq ++ [l] }) i)

/-! ## Mailbox counters (R274, R347) -/

def sideOf (k : Nat) : Side := match k with | 0 => .n | 1 => .e | 2 => .s | _ => .w
def sideCode : Side → Nat | .n => 0 | .e => 1 | .s => 2 | .w => 3

/-- One arrival at a counter. -/
def countArrival (s : State) (i : Nat) (side : Side) : State :=
  let k := sideCode side
  let m := vget (s.core i).sched.mbox .reset k
  let v := m.value + 1
  if m.count ≠ 0 ∧ v = m.count then
    let r := (m.reached + 1) % 2 ^ 32
    let s := s.onSched i fun d => { d with mbox := vset d.mbox k { m with value := 0, reached := r } }
    edgeAdd s i
      { ch := m.ch, kind := .mailbox, item := .data [m.w0, W (r * 2 ^ 32 + k), 0, 0, 0, 0, 0, 0] none, owner := m.owner, ref_ := 0 }
  else s.onSched i fun d => { d with mbox := vset d.mbox k { m with value := v % 2 ^ 16 } }

/-- MAILBOX_COUNTER_ARRIVAL. -/
def execMailboxCounterArrival (s : State) : Host.Outcome State Fault Refusal :=
  let i := s.arg.core
  let side := sideOf s.arg.id
  .next (if (s.core i).sched.mboxIn.contains side then
      countArrival (s.onSched i fun d => { d with mboxIn := d.mboxIn.erase side }) i side
    else s)

/-- MAILBOX_RECORD_PLACE (R347, R443). -/
def execMailboxRecordPlace (s : State) : Host.Outcome State Fault Refusal :=
  .next (match placeEdge s s.arg.core s.arg.id .mailbox with | some (s, _) => s | none => s)

end Sys2Proof.Machine
end

