-- ==== Sys2Proof/Machine/Progress.lean ====
section
/-! DEFINITION. Group 10 (R335 to R350, R356): `send`, `spawn`, channels, actors, `stlcfg`. -/

namespace Sys2Proof.Machine

/-- The eight record registers from A on, read at issue (R339, R341). -/
def recRegs (c : CoreSt) (a : GReg) : List Word := (List.range 8).map fun k => greadN c (a.val + k)

/-- A designator of this module's core, MOD zero, that the module has (R338). -/
def localDesig (s : State) (w : Word) : Option Desig := (desigLocal w).bind fun d => if coreOn s d.core then some d else none

/-! ## send and spawn -/

/-- `send` (R339): a record for its channel; the answer writes D. -/
def execSend (h : Hdr) (d a b : GReg) (s : State) : Host.Outcome State Fault Refusal :=
  issue .e h
    (fun i s =>
      let c := s.core i
      let dst := gread c b
      match desig dst with
      | none => status s i d 4
      | some x =>
        let p : Packet :=
          { request s i (ownerNow c) 7 x.mod c.iss.opCount with
            dy := modY x.core, dx := modX x.core, addr := dst, len := 64, data := bytesOfWords (recRegs c a) }
        .done (sendReq s p none) (.out (.send d) .engine true false)) s

/-- The reason with which a `spawn` record is discarded (R341). -/
def spawnFail (f : Firing) (ws : List Word) : Option Nat :=
  let w1 := ws.getD 1 0
  if ctlBad w1 || ctlPrio w1 == 15 || (ctlOwner w1 != 0 && ctlOwner w1 != f.owner) then some 3
  else admitFail f.codeb (ws.getD 0 0)

/-- `spawn` (R341). -/
def execSpawn (h : Hdr) (d : PReg) (a : GReg) (s : State) : Host.Outcome State Fault Refusal :=
  issue .e h
    (fun i s =>
      let c := s.core i
      match c.firing with
      | none => .wait s
      | some f =>
        let ws := recRegs c a
        let w1 := ws.getD 1 0
        match spawnFail f ws with
        | some r => .done (s.discard i ws r f.owner) (.written [.p d false])
        | none =>
          if 64 ≤ c.sched.deque.length then .done s (.written [.p d true])
          else
            let t : Task :=
              { words := ws, owner := f.owner, prio := if ctlPrio w1 = 0 then f.prio else ctlPrio w1
                budget := classBudget (ctlClass w1) f.budget, pin := ctlPin w1 }
            let s := s.onSched i fun x => { x with deque := x.deque ++ [t] }
            let s := if unpinned (s.core i).sched.deque = 2 ∧ ¬ t.pin then stealWake s i else s
            .done s (.written [.p d false])) s

/-! ## Regions of a core's TCM (R305, R345) -/

/-- Regions that actors of a core hold. -/
def actorRegions (c : CoreSt) : List (Nat × Nat) :=
  c.sched.actors.flatMap fun (_, a) => [(a.stOff, a.stLen), (a.inhOff, a.inhLen)].filter fun r => r.2 != 0

/-- Rings of bound channels. -/
def boundRings (c : CoreSt) : List (Nat × Nat) := c.sched.chans.map fun (_, x) => (x.ring, 64 * x.cap)

/-- TCM that a new ring or region must not overlap. DESIGN CHOICE, log 53. -/
def takenTcm (c : CoreSt) : List (Nat × Nat) :=
  [(0x1F800, 0x100), (0x1F900, 0x300), (0x1FC00, 0x400)] ++ boundRings c ++ actorRegions c

def regionFree (taken : List (Nat × Nat)) (off len : Nat) : Bool :=
  len == 0 || !taken.any fun r => rangesMeet off len r.1 r.2

/-- Automatic placement: the highest multiple of the ring's size in the ring area that is free. -/
def autoRing (taken : List (Nat × Nat)) (size : Nat) : Option Nat :=
  ((List.range (0xC000 / size)).reverse.map fun k => 0x10000 + k * size).find? fun o => regionFree taken o size

/-- The owner's rights over TCM of a core, through its alias. Overlap with reserved TCM is another status (R345,
R349), and is not asked here. DEDUCED, log 45; DESIGN CHOICE, log 78. -/
def ownsTcm (s : State) (owner k off len : Nat) (needs : List Nat) : Bool :=
  let a := tcmBase k + off
  len == 0 ||
    s.live owner &&
      (List.range ((a + len - 1) / 65536 - a / 65536 + 1)).all fun j =>
        needs.all fun n => pointVerdict s owner (if j = 0 then a else (a / 65536 + j) * 65536) 0 n false false == 0

/-! ## chbind (R343 to R345) -/

def fieldXY (w : Word) : Option Nat :=
  if wf w 0 8 ≤ 191 ∧ wf w 8 8 ≤ 134 then some (coreAt (wf w 0 8) (wf w 8 8)) else none

/-- A channel record that keeps R343: target core, index, capacity, ring offset, PRIO, BCLASS. -/
def chanRec (s : State) (ws : List Word) (data : Bool) : Option (Nat × Nat × Nat × Nat × Nat × Nat) :=
  let w := fun k => ws.getD k 0
  let logcap := wf (w 0) 24 4
  let prio := wf (w 2) 0 4
  let bc := wf (w 2) 4 5
  if wf (w 0) 28 36 ≠ 0 ∨ logcap < 2 ∨ 8 < logcap ∨ wf (w 0) 21 3 ≠ 0 ∨ wf (w 1) 17 47 ≠ 0 ∨ wf (w 1) 0 17 % 64 ≠ 0 ∨
      wf (w 2) 9 55 ≠ 0 ∨ 17 < bc ∨ 14 < prio ∨ (data ∧ (bc ≠ 0 ∨ prio ≠ 0)) ∨ (ws.drop 3).any (· != 0) then none
  else match fieldXY (w 0) with
    | some k => if coreOn s k then some (k, wf (w 0) 16 5, 2 ^ logcap, wf (w 1) 0 17, prio, bc) else none
    | none => none

/-- Where a ring goes, if it can be placed. DESIGN CHOICE, log 53. -/
def placeRing (c : CoreSt) (off cap : Nat) : Option Nat :=
  if off = 0 then autoRing (takenTcm c) (64 * cap)
  else if off + 64 * cap ≤ 0x20000 ∧ regionFree (takenTcm c) off (64 * cap) then some off else none

/-- An empty channel. -/
def newChannel (task : Bool) (owner cap ring prio budget : Nat) (codeb : Word) (inputOf : Option Nat) : Channel :=
  { task, owner, cap, ring, items := [], reserved := [], paused := false, prio, budget, codeb, inputOf }

/-- A channel is bound: whose it was before no longer matters. -/
def bindChan (s : State) (k ch : Nat) (x : Channel) : State :=
  s.onSched k fun t => { t with chans := mput t.chans ch x, torn := mdel t.torn ch }

/-- `chbind` (R344). -/
def execChbind (h : Hdr) (d a : GReg) (data : Bool) (s : State) : Host.Outcome State Fault Refusal :=
  issue .e h
    (fun i s =>
      withRecord s i (gread (s.core i) a) fun s ws =>
        match chanRec s ws data, (s.core i).firing with
        | none, _ => status s i d 4
        | _, none => .wait s
        | some (k, ch, cap, off, prio, bc), some f =>
          if (chanOf s k ch).isSome then status s i d 5
          else match placeRing (s.core k) off cap with
            | none => status s i d 8
            | some ring =>
              if !ownsTcm s f.owner k ring (64 * cap) [1] then status s i d 3
              else
                let x := newChannel (!data) f.owner cap ring (if prio = 0 then f.prio else prio) (classBudget bc f.budget) f.codeb none
                status (bindChan s k ch x) i d 0) s

/-! ## chcfg (R346, R347) -/

/-- A bound channel that a `chcfg` may change, or the status that refuses it. -/
def chcfgChan (s : State) (i : Nat) (d a : GReg) (task : Bool) (k : Desig → Channel → Eff) : Eff :=
  match localDesig s (gread (s.core i) a) with
  | none => status s i d 4
  | some x =>
    match chanOf s x.core x.ch with
    | none => status s i d 2
    | some c =>
      if task && !c.task then status s i d 2
      else if c.owner ≠ ownerNow (s.core i) then status s i d 3
      else k x c

/-- A channel is unbound; the counters configured for it are cleared (R347), and what waits at its edge waits no longer (R443).
DESIGN CHOICE, log 78. -/
def unbindChan (s : State) (k ch : Nat) : State :=
  s.onSched k fun t =>
    { t with
      chans := mdel t.chans ch
      armed := mdel t.armed (16 + ch)
      edges := t.edges.map fun e => if e.ch = ch then { e with lost := true } else e
      mbox := t.mbox.map fun m => if m.owner ≠ 0 ∧ m.ch = ch then .reset else m }

/-- `chcfg.free`. -/
def execChcfgFree (h : Hdr) (d a : GReg) (s : State) : Host.Outcome State Fault Refusal :=
  issue .e h
    (fun i s =>
      chcfgChan s i d a false fun x c =>
        if c.inputOf.isSome || !c.items.isEmpty || c.reservedSlots ≠ 0 || (s.core x.core).sched.edges.any (·.ch == x.ch) then
          status s i d 5
        else status (unbindChan s x.core x.ch) i d 0) s

/-- `chcfg.pause`: the channel stops arming. -/
def execChcfgPause (h : Hdr) (d a : GReg) (s : State) : Host.Outcome State Fault Refusal :=
  issue .e h
    (fun i s =>
      chcfgChan s i d a true fun x _ =>
        let s := onChan s x.core x.ch fun c => { c with paused := true }
        status (s.onSched x.core fun t => { t with armed := mdel t.armed (16 + x.ch) }) i d 0) s

/-- `chcfg.resume`. -/
def execChcfgResume (h : Hdr) (d a : GReg) (s : State) : Host.Outcome State Fault Refusal :=
  issue .e h
    (fun i s =>
      chcfgChan s i d a true fun x _ => status (wakeCore (onChan s x.core x.ch fun c => { c with paused := false }) x.core) i d 0) s

/-- `chcfg.sched`. -/
def execChcfgSched (h : Hdr) (d a b : GReg) (s : State) : Host.Outcome State Fault Refusal :=
  issue .e h
    (fun i s =>
      let v := gread (s.core i) b
      let prio := wf v 0 4
      let bc := wf v 4 5
      if wf v 9 55 ≠ 0 ∨ prio < 1 ∨ 14 < prio ∨ bc < 1 ∨ 17 < bc then status s i d 4
      else chcfgChan s i d a true fun x _ =>
        status (onChan s x.core x.ch fun c => { c with prio := prio, budget := classBudget bc 0 }) i d 0) s

/-- `chcfg.mbox`. DESIGN CHOICE, log 78. -/
def execChcfgMbox (h : Hdr) (d a b c : GReg) (side : Side) (s : State) : Host.Outcome State Fault Refusal :=
  issue .e h
    (fun i s =>
      let v := gread (s.core i) b
      let w0 := gread (s.core i) c
      if wf v 16 48 ≠ 0 then status s i d 4
      else chcfgChan s i d a false fun x ch =>
        let new := fun (m : Mbox) => { m with count := wf v 0 16, ch := x.ch, w0 := w0, value := 0, owner := ch.owner }
        let k := sideCode side
        status (s.onSched x.core fun t => { t with mbox := vset t.mbox k (new (vget t.mbox .reset k)) }) i d 0) s

/-! ## Binding records (R348) -/

/-- Input `k` of a binding record: channel and rate. -/
def bindIn (ws : List Word) (k : Nat) : Option (Nat × Nat) :=
  let x := wf (ws.getD 5 0) (16 * k) 16
  if fld x 15 1 = 1 then some (fld x 0 5, fld x 8 7) else none

/-- Output `j`: core, channel and rate. -/
def bindOut (ws : List Word) (j : Nat) : Option (Nat × Nat × Nat) :=
  let x := wf (ws.getD (6 + j / 2) 0) (32 * (j % 2)) 32
  if fld x 31 1 = 1 then some (coreAt (fld x 0 8) (fld x 8 8), fld x 16 5, fld x 24 7) else none

def inOk (x : Nat) : Bool :=
  if fld x 15 1 = 1 then decide (1 ≤ fld x 8 7) && decide (fld x 8 7 ≤ 64) && fld x 5 3 == 0 else x == 0

def outOk (x : Nat) : Bool :=
  if fld x 31 1 = 1 then
    decide (1 ≤ fld x 24 7) && decide (fld x 24 7 ≤ 64) && fld x 21 3 == 0 && decide (fld x 0 8 ≤ 191) && decide (fld x 8 8 ≤ 134)
  else x == 0

def regionOk (w : Word) : Bool :=
  wf w 0 32 % 64 == 0 && wf w 32 32 % 64 == 0 && decide (wf w 0 32 + wf w 32 32 ≤ 0x20000)

/-- A binding record that keeps R348. -/
def bindOk (s : State) (ws : List Word) : Bool :=
  let w := fun k => ws.getD k 0
  let ins := (List.range 4).filterMap fun k => (bindIn ws k).map (·.1)
  let outs := (List.range 4).filterMap fun j => (bindOut ws j).map (·.1)
  wf (w 1) 40 24 != 0 && wf (w 2) 59 5 == 0 && wf (w 2) 28 4 == 0 && decide (2 ^ 10 ≤ wf (w 2) 32 27) &&
    decide (wf (w 2) 32 27 ≤ 2 ^ 26) && decide (1 ≤ wf (w 2) 24 4) && decide (wf (w 2) 24 4 ≤ 14) &&
    (match fieldXY (w 2) with | some k => coreOn s k | none => false) && regionOk (w 3) && regionOk (w 4) &&
    (wf (w 4) 32 32 != 0 || wf (w 4) 0 32 == 0) && (List.range 4).all (fun k => inOk (wf (w 5) (16 * k) 16)) &&
    (List.range 4).all (fun j => outOk (wf (w (6 + j / 2)) (32 * (j % 2)) 32)) && outs.all (coreOn s) &&
    decide (ins.eraseDups.length = ins.length)

def bindCore (ws : List Word) : Nat := coreAt (wf (ws.getD 2 0) 0 8) (wf (ws.getD 2 0) 8 8)

/-- The actor of a binding record. -/
def bindActor (owner : Nat) (ws : List Word) : Actor :=
  let w := fun k => ws.getD k 0
  { owner, handler := w 0, code := w 1, budget := wf (w 2) 32 27, prio := wf (w 2) 24 4, stage := wf (w 2) 16 8
    stOff := wf (w 3) 0 32, stLen := wf (w 3) 32 32, inhOff := wf (w 4) 0 32, inhLen := wf (w 4) 32 32
    ins := Vector.ofFn fun k => bindIn ws k.val, outs := Vector.ofFn fun j => bindOut ws j.val
    stopped := false, freeing := false, splicing := none, perf := none, waits := false, fired := 0 }

/-- The owner has X on every line of a code range, under the colour of the handler's pointer. DESIGN CHOICE, log 78. -/
def codeRights (s : State) (k owner : Nat) (handler code : Word) : Bool :=
  rangeVerdict s k owner (W (wf handler 56 8 * 2 ^ 56 + 64 * wf code 0 40)) (64 * wf code 40 24) 2 false == 0

/-- R and W on both regions of an actor on core `k`. -/
def regionRights (s : State) (k owner : Nat) (a : Actor) : Bool :=
  ownsTcm s owner k a.stOff a.stLen [0, 1] && ownsTcm s owner k a.inhOff a.inhLen [0, 1]

/-- Both regions are free on the core, and apart from each other. -/
def regionsFit (c : CoreSt) (a : Actor) : Bool :=
  regionFree (takenTcm c) a.stOff a.stLen && regionFree (takenTcm c) a.inhOff a.inhLen &&
    (a.stLen == 0 || a.inhLen == 0 || !rangesMeet a.stOff a.stLen a.inhOff a.inhLen)

def freeSlot (c : CoreSt) : Option Nat := (List.range 16).find? fun k => (actorOf c k).isNone

/-- Bytes of TCM set to zero. -/
def zeroTcm (s : State) (k off len : Nat) : State :=
  if len = 0 then s else writePlace s (.array (tcmBase k + off)) (List.replicate len 0) 0

/-- An actor takes a slot, and its inputs become its own. -/
def bindSlot (s : State) (k slot : Nat) (a : Actor) : State :=
  wakeCore (s.onSched k fun t =>
    { t with
      actors := mput t.actors slot a
      chans := t.chans.map fun (ch, x) =>
        (ch, if a.ins.toList.any (fun y => match y with | some (c, _) => c == ch | none => false) then { x with inputOf := some slot }
          else x) }) k

/-- `actbind` (R349). -/
def execActbind (h : Hdr) (d a : GReg) (s : State) : Host.Outcome State Fault Refusal :=
  issue .e h
    (fun i s =>
      withRecord s i (gread (s.core i) a) fun s ws =>
        if !bindOk s ws then status s i d 4
        else
          let o := ownerNow (s.core i)
          let k := bindCore ws
          let x := bindActor o ws
          let ins := x.ins.toList.filterMap fun y => y.map (·.1)
          match freeSlot (s.core k) with
          | none => status s i d 1
          | some slot =>
            if ins.any fun ch => match chanOf s k ch with | some c => c.task || c.inputOf.isSome | none => true then
              status s i d 2
            else if (ins.any fun ch => match chanOf s k ch with | some c => c.owner != o | none => true) ||
                !codeRights s k o x.handler x.code || !regionRights s k o x then status s i d 3
            else if !regionsFit (s.core k) x then status s i d 8
            else if !admitted x.code x.handler then status s i d 9
            else
              let s := zeroTcm (zeroTcm s k x.stOff x.stLen) k x.inhOff x.inhLen
              status (bindSlot s k slot x) i d (statusWord 0 0 slot)) s

/-- `actfree` (R350). -/
def execActfree (h : Hdr) (d a : GReg) (s : State) : Host.Outcome State Fault Refusal :=
  issue .e h
    (fun i s =>
      match localDesig s (gread (s.core i) a) with
      | none => status s i d 4
      | some x =>
        if 16 ≤ x.ch then status s i d 4
        else match actorOf (s.core x.core) x.ch with
          | none => status s i d 2
          | some k =>
            if k.owner ≠ ownerNow (s.core i) then status s i d 3
            else if k.splicing.isSome || k.perf.isSome then status s i d 5
            else if !inFlight s x.core x.ch then status (freeActor s x.core x.ch) i d 0
            else
              let s := s.onSched x.core fun t => { t with actors := mput t.actors x.ch { k with freeing := true } }
              if x.core = i then status s i d 0 else .done s (.out (.actfree d x.core x.ch) .engine true false)) s

/-! ## stlcfg (R356) -/

/-- `stlcfg`. -/
def execStlcfg (h : Hdr) (d a : GReg) (nosteal novictim setscope : Bool) (s : State) : Host.Outcome State Fault Refusal :=
  issue .e h
    (fun i s =>
      let c := s.core i
      let v := gread c a
      let go : Unit → Eff := fun _ =>
        let old := W (b2n c.sched.nosteal + 2 * b2n c.sched.novictim)
        .done (s.onSched i fun t =>
          { t with nosteal := nosteal, novictim := novictim, stlscope := if setscope then v else t.stlscope })
          (.written [gdest c d old])
      if setscope then withScope v s go else go ()) s

end Sys2Proof.Machine
end

