-- ==== Sys2Proof/Machine/Splice.lean ====
section
/-! DEFINITION. Splices (R325 to R331, R351 to R355, R379): `splice`, `splst`, and the events that move, perform and deliver
markers. -/

namespace Sys2Proof.Machine

/-! ## The issuing core's table (R352, R355) -/

/-- A splice's entry changes. -/
def spliceSet (s : State) (issuer num : Nat) (state outcome : Nat) : State :=
  s.onSched issuer fun t =>
    { t with splices := t.splices.map fun e => if e.num == num then { e with state := state, outcome := outcome } else e }

/-- The splice is among the core's 16 most recent (R355). -/
def spliceRecent (count num : Nat) : Bool := decide ((count + 2 ^ 32 - num) % 2 ^ 32 < 16)

/-- A new splice: those not delivered and the 16 most recent stay. -/
def spliceNew (t : Sched) (num : Nat) : Sched :=
  { t with
    splices := (t.splices ++ [({ num, state := 1, outcome := 0 } : SpliceEnt)]).filter fun e => e.state != 4 || spliceRecent num e.num
    spliceCount := num }

/-- Splices not yet delivered. -/
def undelivered (t : Sched) : Nat := (t.splices.filter fun e => e.state != 4).length

/-! ## Markers on the path -/

/-- Where the marker's status record goes, with its words (R354). -/
def statusRecord (m : Marker) : List Word :=
  let place := match m.where_ with
    | some (k, slot) => W (modY k * 2 ^ 24 + modX k * 2 ^ 16 + slot)
    | none => 0
  [m.shand, m.sword, W (m.stage * 2 ^ 16 + m.kind.val * 2 ^ 8 + (m.outcome.getD 7)), W m.num, place, 0, 0, 0]

/-- A splice whose marker has left core `i` is no longer in progress there (R329). -/
def leaveCore (s : State) (i : Nat) (m : Marker) : State :=
  s.onSched i fun t =>
    { t with actors := t.actors.map fun (k, a) =>
        (k, if a.splicing = some (m.num, m.issuer) then { a with splicing := none } else a) }

/-- A marker leaves the path at core `i` (R325): its status record is sent, with outcome 7 when it was never performed.
DEDUCED, log 54. -/
def leavePath (s : State) (i : Nat) (m : Marker) : State :=
  let s := spliceSet (leaveCore s i m) m.issuer m.num 3 (m.outcome.getD 7)
  match desig m.status with
  | none => s
  | some x =>
    edgeAdd s x.core
      { ch := x.ch, kind := .status, item := .data (statusRecord m) none, owner := m.owner, ref_ := m.issuer * 2 ^ 32 + m.num }

/-- Rate of the actor whose input 0 a channel is. -/
def inputZeroRate (s : State) (i ch : Nat) : Option Nat :=
  match chanOf s i ch with
  | none => none
  | some c =>
    match c.inputOf with
    | none => none
    | some slot =>
      match actorOf (s.core i) slot with
      | none => none
      | some a => match vget a.ins none 0 with | some (k, rate) => if k = ch then some rate else none | none => none

/-- The marker as it stands in a channel: failed with outcome 8 where the data records ahead do not fit the rate (R326).
DEDUCED, log 54. -/
def alignMarker (s : State) (i ch : Nat) (c : Channel) (m : Marker) : Marker :=
  match inputZeroRate s i ch with
  | some rate => if m.outcome.isNone && dataCount c.items % rate != 0 then { m with outcome := some 8 } else m
  | none => m

/-- A marker enters a channel that has room: input 0 of a stage, or a data channel that no actor has yet. Elsewhere the path
ends. DEDUCED, log 54. -/
def enterChan (s : State) (i ch : Nat) (c : Channel) (m : Marker) : State :=
  if c.task || (c.inputOf.isSome && (inputZeroRate s i ch).isNone) then leavePath s i m
  else
    let m := alignMarker s i ch c m
    let s := pushItem s i ch (.marker m)
    if m.outcome = some 8 then spliceSet s m.issuer m.num 3 8 else s

/-- A `splice` that waited for its marker's place is done (R337). -/
def spliceDone (s : State) (m : Marker) : State :=
  match (s.core m.issuer).iss.outs.find? fun o => match o.op with | .splice _ n => n == m.num | _ => false with
  | none => s
  | some o =>
    match o.op with
    | .splice d n => s.completeWith m.issuer o.id [gdest (s.core m.issuer) d (statusWord 0 0 n)] 0
    | _ => s

/-- MARKER_ENTER_INPUT: a marker that waits at a channel's edge enters it, or leaves the path where the channel is gone. -/
def execMarkerEnterInput (s : State) : Host.Outcome State Fault Refusal :=
  let i := s.arg.core
  let ch := s.arg.id
  .next (match edgeFind s i ch .marker with
    | none => s
    | some e =>
      match e.item with
      | .data .. => s
      | .marker m =>
        match (if e.lost then none else chanOf s i ch) with
        | none => spliceDone (leavePath (edgeDrop s i ch .marker) i m) m
        | some c => if c.room = 0 then s else spliceDone (enterChan (edgeDrop s i ch .marker) i ch c m) m)

/-! ## splice and splst -/

/-- A request that keeps R351. -/
def spliceOk (ws : List Word) : Bool :=
  let w := fun k => ws.getD k 0
  let kind := wf (w 0) 16 2
  wf (w 0) 18 46 == 0 && wf (w 0) 8 8 == 0 && kind != 3 && ((kind == 1) == (w 1 == 0)) &&
    (if wb (w 2) 63 then wf (w 2) 0 63 == 0 else (desigLocal (w 2)).isSome) && (desigLocal (w 3)).isSome && w 6 == 0 && w 7 == 0

/-- A binding record that its KIND allows. -/
def spliceBindOk (s : State) (kind : Nat) (b : List Word) : Bool :=
  kind == 1 || (bindOk s b &&
    (kind != 0 || ((bindIn b 0).isSome && (bindOut b 0).isSome && [1, 2, 3].all fun k => (bindIn b k).isNone)))

/-- The entry channel: core and index; `none` for a USEOUT without an output 0. -/
def spliceEntry (c : CoreSt) (w2 : Word) : Option (Nat × Nat) :=
  if wb w2 63 then
    match c.firing.map (·.kind) with
    | some (FKind.actor slot) => (actorOf c slot.val).bind fun a => (vget a.outs none 0).map fun x => (x.1, x.2.1)
    | _ => none
  else (desigLocal w2).map fun x => (x.core, x.ch)

/-- The checks of R352, and the marker's entry. DESIGN CHOICE, log 78. -/
def spliceBody (d : GReg) (i : Nat) (s : State) (ws b : List Word) : Eff :=
  let c := s.core i
  let w := fun k => ws.getD k 0
  let kind := wf (w 0) 16 2
  let o := ownerNow c
  if !spliceOk ws || !spliceBindOk s kind b then status s i d 4
  else match spliceEntry c (w 2), desigLocal (w 3) with
    | some (ek, ech), some sd =>
      if 16 ≤ undelivered c.sched then status s i d 1
      else match chanOf s ek ech, chanOf s sd.core sd.ch with
        | some ec, some sc =>
          if ec.owner ≠ o ∨ sc.owner ≠ o then status s i d 3
          else
            let num := (c.sched.spliceCount + 1) % 2 ^ 32
            let m : Marker :=
              { num, issuer := i, kind := Fin.ofNat 3 kind, stage := wf (w 0) 0 8, bind := b, status := w 3, shand := w 4
                sword := w 5, owner := o, outcome := none, done := false, where_ := none }
            let s := s.onSched i fun t => spliceNew t num
            if ec.room = 0 then
              .done (edgeAdd s ek { ch := ech, kind := .marker, item := .marker m, owner := o, ref_ := num })
                (.out (.splice d num) .engine true false)
            else status (enterChan s ek ech ec m) i d (statusWord 0 0 num)
        | _, _ => status s i d 2
    | _, _ => status s i d 4

/-- `splice`. -/
def execSplice (h : Hdr) (d a : GReg) (s : State) : Host.Outcome State Fault Refusal :=
  issue .e h
    (fun i s =>
      withRecord s i (gread (s.core i) a) fun s ws =>
        if ws.getD 1 0 = 0 then spliceBody d i s ws []
        else withRecord s i (ws.getD 1 0) fun s b => spliceBody d i s ws b) s

/-- `splst` (R355). -/
def execSplst (h : Hdr) (d a : GReg) (s : State) : Host.Outcome State Fault Refusal :=
  issue .e h
    (fun i s =>
      let c := s.core i
      let n := wf (gread c a) 0 32
      let v := match c.sched.splices.find? fun e => e.num == n && spliceRecent c.sched.spliceCount n with
        | some e => W (e.state + e.outcome * 2 ^ 8)
        | none => 0
      .done s (.written [gdest c d v])) s

/-! ## Forwarding (R325, R326, R330) -/

/-- The marker leaves a channel of core `i`. -/
def takeMarker (s : State) (i ch : Nat) (m : Marker) : State :=
  onChan s i ch fun c =>
    { c with items := dropFirst (fun x => match x with | .marker y => y.num == m.num && y.issuer == m.issuer | _ => false) c.items }

/-- A marker goes on from stage `a` of core `i`, whose input 0 is channel `ch`. -/
def forwardMarker (s : State) (i ch : Nat) (a : Actor) (m : Marker) : State :=
  match vget a.outs none 0 with
  | none => leavePath (takeMarker s i ch m) i m
  | some (k, dch, _) =>
    match chanOf s k dch with
    | none => leavePath (takeMarker s i ch m) i m
    | some c =>
      if c.room = 0 then s
      else
        let s := takeMarker s i ch m
        let s := if k = i then s else leaveCore s i m
        enterChan s k dch c m

/-- A marker that has failed orders nothing (R326). DEDUCED, log 54. -/
def Marker.failed (m : Marker) : Bool := match m.outcome with | some n => n != 0 | none => false

/-- A marker that the stage passes on: a failed one wherever it stands, but not ahead of the records of a stopped stage (R330);
otherwise, while no splice's effects are under way here, one at the head that does not name the stage or has been performed.
DEDUCED, log 54. -/
def markerToForward (a : Actor) (items : List ChItem) : Option Marker :=
  let failed := if a.stopped then none
    else firstSome (fun x => match x with | .marker m => if m.failed then some m else none | _ => none) items
  match failed, items with
  | some m, _ => some m
  | none, .marker m :: _ => if m.failed || (a.perf.isNone && (m.stage != a.stage || m.outcome.isSome)) then some m else none
  | none, _ => none

/-- MARKER_FORWARD. -/
def execMarkerForward (s : State) : Host.Outcome State Fault Refusal :=
  let i := s.arg.core
  .next (match actorOf (s.core i) s.arg.id with
    | none => s
    | some a =>
      match vget a.ins none 0 with
      | none => s
      | some (ch, _) =>
        match chanOf s i ch with
        | none => s
        | some c => match markerToForward a c.items with | some m => forwardMarker s i ch a m | none => s)

/-! ## Performing (R327 to R330) -/

/-- A marker changes in place. -/
def setMarker (s : State) (i ch : Nat) (m : Marker) : State :=
  onChan s i ch fun c =>
    { c with items := c.items.map fun x =>
        match x with | .marker y => if y.num == m.num && y.issuer == m.issuer then .marker m else x | x => x }

def onActor (s : State) (i slot : Nat) (f : Actor → Actor) : State :=
  s.onSched i fun t =>
    { t with actors := match mget? t.actors slot with | some a => mput t.actors slot (f a) | none => t.actors }

/-- The outcome is decided: the marker carries it on. DEDUCED, log 54. -/
def decide_ (s : State) (i slot ch : Nat) (m : Marker) (n : Nat) : State :=
  spliceSet (setMarker s i ch { m with outcome := some n, where_ := some (i, slot) }) m.issuer m.num 3 n

/-- The marker that a stage performs: at the head; at a stopped stage, in front of the records that the stage can no longer take
(R330). DEDUCED, log 54. -/
def markerToPerform (a : Actor) (items : List ChItem) : Option Marker :=
  let names := fun (m : Marker) => m.stage == a.stage && m.outcome.isNone
  match items with
  | .marker m :: _ => if names m then some m else none
  | _ =>
    if a.stopped then firstSome (fun x => match x with | .marker m => if names m then some m else none | _ => none) items
    else none

/-- S's former output-0 destination, when its channel is bound. -/
def outZero (s : State) (a : Actor) : Option (Nat × Nat × Nat × Channel) :=
  match vget a.outs none 0 with
  | none => none
  | some (k, ch, rate) => (chanOf s k ch).map fun c => (k, ch, rate, c)

/-- Rings for new channels of a core, placed in turn: (index, capacity) to (index, capacity, ring). DESIGN CHOICE, log 78. -/
def placeRings (c : CoreSt) (taken : List (Nat × Nat)) : List (Nat × Nat) → Option (List (Nat × Nat × Nat))
  | [] => some []
  | (ch, cap) :: xs =>
    if (mget? c.sched.chans ch).isSome then none
    else match autoRing taken (64 * cap) with
      | none => none
      | some r => (placeRings c ((r, 64 * cap) :: taken) xs).map ((ch, cap, r) :: ·)

/-- The new slot's regions and rings fit on its core. -/
def fitNew (s : State) (k : Nat) (a : Actor) (chans : List (Nat × Nat)) : Option (List (Nat × Nat × Nat)) :=
  let c := s.core k
  if !regionsFit c a then none
  else placeRings c ([(a.stOff, a.stLen), (a.inhOff, a.inhLen)].filter (·.2 != 0) ++ takenTcm c) chans

/-- Outcomes 3 and 4 for a new slot on core `k`. -/
def newSlotFail (s : State) (k owner : Nat) (a : Actor) : Option Nat :=
  if !codeRights s k owner a.handler a.code || !regionRights s k owner a then some 3
  else if !admitted a.code a.handler then some 4
  else none

def bindChans (s : State) (k owner : Nat) (cs : List (Nat × Nat × Nat)) : State :=
  s.onSched k fun t =>
    { t with
      chans := cs.foldl (fun m (ch, cap, r) => mput m ch (newChannel false owner cap r 0 0 0 none)) t.chans
      torn := cs.foldl (fun m (ch, _) => mdel m ch) t.torn }

/-- An insert (R329, R353). -/
def performInsert (s : State) (i slot ch : Nat) (a : Actor) (m : Marker) : State :=
  match outZero s a with
  | none => decide_ s i slot ch m 10
  | some (dk, dch, rate, dc) =>
    let k := bindCore m.bind
    let b := bindActor a.owner m.bind
    let nrate := match bindOut m.bind 0 with | some (_, _, r) => r | none => 1
    let nch := match bindIn m.bind 0 with | some (c, _) => c | none => 0
    let b := { b with outs := vset b.outs 0 (some (dk, dch, nrate)) }
    match freeSlot (s.core k) with
    | none => decide_ s i slot ch m 1
    | some n =>
      match fitNew s k b [(nch, dc.cap)] with
      | none => decide_ s i slot ch m 2
      | some cs =>
        match newSlotFail s k a.owner b with
        | some x => decide_ s i slot ch m x
        | none =>
          let s := bindSlot (bindChans (zeroTcm (zeroTcm s k b.stOff b.stLen) k b.inhOff b.inhLen) k a.owner cs) k n b
          let s := onActor s i slot fun a =>
            { a with outs := vset a.outs 0 (some (k, nch, rate)), splicing := some (m.num, m.issuer) }
          decide_ s i slot ch m 0

/-- A rebind on the same core. -/
def performRebind (s : State) (i slot ch : Nat) (a : Actor) (m : Marker) : State :=
  let handler := m.bind.getD 0 0
  let code := m.bind.getD 1 0
  if !codeRights s i a.owner handler code then decide_ s i slot ch m 3
  else if !admitted code handler then decide_ s i slot ch m 4
  else
    let s := onActor s i slot fun a =>
      { a with handler := handler, code := code, stopped := false, splicing := some (m.num, m.issuer) }
    decide_ s i slot ch m 0

/-- The effects of a remove or of a rebind to another core begin: the splice is performed here (R379), whatever becomes of the path.
DEDUCED, log 54. -/
def beginPerf (s : State) (i slot ch : Nat) (m : Marker) (p : Perf) : State :=
  let s := onActor s i slot fun a => { a with perf := some p, splicing := some (m.num, m.issuer) }
  spliceSet (setMarker s i ch { m with outcome := some 0, where_ := some (i, slot) }) m.issuer m.num 2 0

/-- Every output 0 that leads to channel (i, ch) leads to `to_` instead. -/
def redirect (s : State) (i ch : Nat) (to_ : Option (Nat × Nat)) : State :=
  s.cores.foldl (fun s (j, c) =>
    c.sched.actors.foldl (fun s (slot, a) =>
      match vget a.outs none 0 with
      | some (x, y, rate) =>
        if x == i && y == ch then onActor s j slot fun a => { a with outs := vset a.outs 0 (to_.map fun t => (t.1, t.2, rate)) } else s
      | none => s) s) s

/-- What a channel of core `i` still holds has nowhere to go: records are discarded (reason 6 of R304), markers leave the path.
DEDUCED, log 54. -/
def emptyChan (s : State) (i ch : Nat) : State :=
  match chanOf s i ch with
  | none => s
  | some c => c.items.foldl (fun s x =>
      match x with
      | .data ws _ => s.discard i ws 6 c.owner
      | .marker m => leavePath s i m) s

/-- S's slot and channels are freed. DEDUCED, log 54. -/
def freeStage (s : State) (i slot : Nat) (a : Actor) : State :=
  (a.ins.toList.filterMap fun x => x.map (·.1)).foldl (fun s c => unbindChan (emptyChan s i c) i c) (freeActor s i slot)

/-- A remove of a stage whose path ends there, with no state to hand on: the path then ends at its predecessor. DEDUCED, log 54. -/
def removeLast (s : State) (i slot ch : Nat) (a : Actor) (m : Marker) : State :=
  freeStage (redirect (decide_ s i slot ch m 0) i ch none) i slot a

/-- A remove (R329, R353): the successor is the actor whose input 0 is S's output-0 destination. DEDUCED, log 54. -/
def performRemove (s : State) (i slot ch : Nat) (a : Actor) (m : Marker) : State :=
  match outZero s a with
  | none => if 0 < a.stLen then decide_ s i slot ch m 5 else removeLast s i slot ch a m
  | some (k, dch, _, dc) =>
    let suc := if (inputZeroRate s k dch).isSome then dc.inputOf else none
    let inh := match suc.bind fun n => actorOf (s.core k) n with | some b => b.inhLen | none => 0
    if inh < a.stLen then decide_ s i slot ch m 5
    else
      let s := match suc with | some n => onActor s k n fun b => { b with waits := decide (a.stLen ≠ 0) } | none => s
      beginPerf s i slot ch m
        { core := k, slot := suc, rebind := false, copy := none, copied := decide (a.stLen = 0), pass := [(ch, k, dch)] }

/-- A rebind to another core. DEDUCED, log 54. -/
def performMove (s : State) (i slot ch : Nat) (a : Actor) (m : Marker) : State :=
  let k := bindCore m.bind
  let b : Actor := { a with handler := m.bind.getD 0 0, code := m.bind.getD 1 0, stopped := false, waits := true, fired := 0 }
  let chans := a.ins.toList.filterMap fun x =>
    match x with | some (c, _) => (chanOf s i c).map fun y => (c, y.cap) | none => none
  match freeSlot (s.core k) with
  | none => decide_ s i slot ch m 1
  | some n =>
    match fitNew s k b chans with
    | none => decide_ s i slot ch m 2
    | some cs =>
      match newSlotFail s k a.owner b with
      | some x => decide_ s i slot ch m x
      | none =>
        beginPerf (bindSlot (bindChans s k a.owner cs) k n b) i slot ch m
          { core := k, slot := some n, rebind := true, copy := none, copied := decide (a.stLen = 0)
            pass := chans.map fun x => (x.1, k, x.1) }

/-- A marker is performed: its checks in the order of R327. DEDUCED, log 54. -/
def beginMarker (s : State) (i slot ch : Nat) (a : Actor) (m : Marker) : State :=
  if a.splicing.isSome then decide_ s i slot ch m 6
  else match m.kind.val with
    | 0 => performInsert s i slot ch a m
    | 1 => performRemove s i slot ch a m
    | _ => if bindCore m.bind = i then performRebind s i slot ch a m else performMove s i slot ch a m

/-! ## The state copy -/

/-- The state copy of a splice: S's region to the successor's inheritance region, or to the new slot's state region. -/
def stateCopy (s : State) (i slot : Nat) (a : Actor) (p : Perf) : Copy :=
  let off := if p.rebind then a.stOff
    else match p.slot.bind fun n => actorOf (s.core p.core) n with | some b => b.inhOff | none => 0
  { Copy.blank s i with
    owner := a.owner, src := W (tcmBase i + a.stOff), dst := W (tcmBase p.core + off), len := a.stLen, splice := some (i, slot) }

/-- The effects are undone: outcome 9, and every binding as it was (R328). -/
def failPerf (s : State) (i slot ch : Nat) (p : Perf) (m : Marker) : State :=
  let s := if p.rebind then
      (match p.slot with
       | some n => p.pass.foldl (fun s (_, k, c) => unbindChan s k c)
           (s.onSched p.core fun t => { t with actors := mdel t.actors n })
       | none => s)
    else (match p.slot with | some n => onActor s p.core n fun b => { b with waits := false } | none => s)
  decide_ (onActor s i slot fun a => { a with perf := none }) i slot ch m 9

/-- The state copy is accepted, tried again while it is refused with status 1, or has ended. DEDUCED, log 54. -/
def stepCopy (s : State) (i slot ch : Nat) (a : Actor) (p : Perf) (m : Marker) : State :=
  match p.copy with
  | none =>
    let c := stateCopy s i slot a p
    if c.verdict s ≠ 0 ∨ locksClash s c.locks then failPerf s i slot ch p m
    else if 8 ≤ (s.core i).sched.fifo.length ∨ !locksFit s (dieOf i) c.locks then s
    else onActor (acceptCopies s i [c]) i slot fun a => { a with perf := some { p with copy := some c.id } }
  | some id =>
    match copyOf s id with
    | none => onActor s i slot fun a => { a with perf := some { p with copied := true } }
    | some c =>
      match c.st with
      | .stopped v => failPerf (endCopy s c (some v)) i slot ch p m
      | .running _ =>
        if c.len ≤ c.done then
          let s := endCopy s c none
          let s := if p.rebind then s
            else (match p.slot with | some n => onActor s p.core n fun b => { b with waits := false } | none => s)
          onActor s i slot fun a => { a with perf := some { p with copied := true } }
        else s
      | .queued => s

/-! ## Passing on the records (R329) -/

/-- Reservations at a channel by output 0 of the path's predecessors. -/
def pathReserved (c : Channel) : List (Nat × Nat × Nat × Nat) := c.reserved.filter fun r => r.2.2.1 == 0 && r.2.2.2 != 0

/-- The first item of a channel passes to its place in the new arrangement; `none` when it has none, or must wait for room. -/
def passItem (s : State) (i slot : Nat) (p : Perf) (m : Marker) (x : Nat × Nat × Nat) : Option State :=
  let (from_, k, dch) := x
  match chanOf s i from_, chanOf s k dch with
  | some c, some d =>
    (match c.items with
     | [] => none
     | it :: rest =>
       if d.room = 0 then none
       else
         let s := onChan s i from_ fun c => { c with items := rest }
         match it with
         | .marker y =>
           let own := y.num == m.num && y.issuer == m.issuer
           let y : Marker := if own then { y with outcome := some 0, where_ := some (i, slot) } else y
           let s := if own then spliceSet s y.issuer y.num 3 0 else s
           some (if p.rebind then pushItem s k dch (.marker y) else enterChan s k dch d y)
         | y => some (pushItem s k dch y))
  | _, _ => none

/-- A channel of S is empty, and its reservations are the path's and fit where they go. -/
def passedOn (s : State) (i ch : Nat) (x : Nat × Nat × Nat) : Bool :=
  match chanOf s i x.1, chanOf s x.2.1 x.2.2 with
  | some c, some d =>
    let n := if x.1 = ch then (pathReserved c).foldl (fun n r => n + r.2.2.2) 0 else 0
    c.items.isEmpty && decide (n ≤ d.room) && decide (c.reservedSlots = n)
  | _, _ => true

/-- A stage whose effects are under way passes its records into one of these channels of core `i`: they stay bound until it is done, so
that splices of neighbouring stages do not lose each other's records (R297, R330). DEDUCED, log 54. -/
def passesInto (s : State) (i : Nat) (chs : List Nat) : Bool :=
  s.cores.any fun (_, c) => c.sched.actors.any fun (_, a) =>
    match a.perf with
    | some p => p.pass.any fun x => x.2.1 == i && chs.contains x.2.2
    | none => false

/-- The predecessors of the path are redirected, with their reservations. -/
def redirectPath (s : State) (i ch : Nat) (x : Nat × Nat × Nat) : State :=
  if x.1 ≠ ch then s
  else
    let rs := match chanOf s i ch with | some c => pathReserved c | none => []
    let s := onChan s i ch fun c => { c with reserved := [] }
    redirect (onChan s x.2.1 x.2.2 fun c => { c with reserved := c.reserved ++ rs }) i ch (some x.2)

/-- Every record has passed: the path is redirected, S's slot and channels are freed, and the new stage may be armed, all at once, so
that no record enters S's input any more (R297, R331). DEDUCED, log 54. -/
def finishPerf (s : State) (i slot ch : Nat) (a : Actor) (p : Perf) : State :=
  let s := freeStage (p.pass.foldl (fun s x => redirectPath s i ch x) s) i slot a
  match p.slot with
  | some n => if p.rebind then wakeCore (onActor s p.core n fun b => { b with waits := false, splicing := none }) p.core else s
  | none => s

/-- One record passes on, or the effects end. DEDUCED, log 54. -/
def passOn_ (s : State) (i slot ch : Nat) (a : Actor) (p : Perf) (m : Marker) : State :=
  match firstSome (passItem s i slot p m) p.pass with
  | some t => t
  | none => if p.pass.all (passedOn s i ch) && !passesInto s i (p.pass.map (·.1)) then finishPerf s i slot ch a p else s

/-- MARKER_PERFORM: at a firing boundary of the stage, a marker that names it is performed, or the effects of one go on. -/
def execMarkerPerform (s : State) : Host.Outcome State Fault Refusal :=
  let i := s.arg.core
  let slot := s.arg.id
  .next (match actorOf (s.core i) slot with
    | none => s
    | some a =>
      if inFlight s i slot || (mget? (s.core i).sched.armed slot).isSome then s
      else match vget a.ins none 0 with
        | none => s
        | some (ch, _) =>
          match chanOf s i ch with
          | none => s
          | some c =>
            match a.perf, a.splicing with
            | none, _ => (match markerToPerform a c.items with | some m => beginMarker s i slot ch a m | none => s)
            | some p, some (num, issuer) =>
              let blank : Marker :=
                { num, issuer, kind := 1, stage := a.stage, bind := [], status := 0, shand := 0, sword := 0, owner := a.owner
                  outcome := none, done := false, where_ := none }
              let m := (firstSome (fun x => match x with
                | .marker m => if m.num == num && m.issuer == issuer then some m else none
                | _ => none) c.items).getD blank
              if !p.copied then stepCopy s i slot ch a p m else passOn_ s i slot ch a p m
            | some _, none => s)

/-- SPLICE_STATUS_PLACE (R354, R443): the splice is delivered. -/
def execSpliceStatusPlace (s : State) : Host.Outcome State Fault Refusal :=
  .next (match placeEdge s s.arg.core s.arg.id .status with
    | none => s
    | some (s, e) =>
      let issuer := e.ref_ / 2 ^ 32
      let num := e.ref_ % 2 ^ 32
      match (s.core issuer).sched.splices.find? (·.num == num) with
      | some x => spliceSet s issuer num 4 x.outcome
      | none => s)

end Sys2Proof.Machine
end

