-- ==== Sys2Proof/Machine/Isolation.lean ====
section
/-! DEFINITION. Group 11 and what stands beside it (R395 to R412): grants and revocations, table entries, regions and colours,
way masks, drops from PLBs, teardown, key slots, generations. -/

namespace Sys2Proof.Machine

/-! ## Tables in the rights area (R389, R396) -/

/-- The four words of an entry. -/
def entWords (e : RtEnt) : List Word :=
  [W e.base, W e.length, W (e.granter * 2 ^ 32 + e.world * 2 ^ 16 + e.colour * 2 ^ 8 + e.rights.toNat), 0]

def writeEnt (s : State) (o k : Nat) (ws : List Word) : State := s.onMem fun m => writeBytes m (entAddr s o k) (bytesOfWords ws)
def emptyEnt (s : State) (o k : Nat) : State := writeEnt s o k [0, 0, 0, 0]

/-- Slot `k` holds an empty entry: LENGTH 0. -/
def slotEmpty (s : State) (o k : Nat) : Bool := wf (readWord s.mem (entAddr s o k + 8)) 16 40 == 0
def firstEmpty (s : State) (o : Nat) : Option Nat := (List.range (s.capOf o)).find? (slotEmpty s o)

/-- Colour of a range in entries: 0 outside paged memory. -/
def rangeColour (base col : Nat) : Nat := if entKind base = some 0 then col else 0

def RtEnt.meets (e : RtEnt) (base len : Nat) : Bool := rangesMeet e.base e.length base len
def RtEnt.within (e : RtEnt) (base len : Nat) : Bool := decide (base ≤ e.base) && decide (e.base + e.length ≤ base + len)

/-- The OR of the RIGHTS of the entries that cover an address. -/
def rightsAt (es : List RtEnt) (a : Nat) : BitVec 5 := (es.filter (·.covers a)).foldl (fun r e => r ||| e.rights) 0

/-- Every granule of [base, base + len) has the rights: rights change only where an entry begins or ends. -/
def coveredBy (es : List RtEnt) (base len : Nat) (need : BitVec 5) : Bool :=
  let cuts := base :: (es.flatMap fun e => [e.base, e.base + e.length]).filter fun p => decide (base < p) && decide (p < base + len)
  cuts.all fun p => (rightsAt es p &&& need) == need

/-! ## Drops (R399) -/

/-- A drop of changed entries, or of an owner's or every entry, which `core`'s operation `out` waits for. DEDUCED, log 48. -/
def startDrop (s : State) (owner : Option Nat) (ents : Option (List (Nat × Nat × Nat × Nat))) (core : Option Nat) (out : Nat)
    (pinv : Bool) : State :=
  { s with
    drops := s.drops ++
      [{ n := s.dropCount, owner, ents, core, out, dropped := false, pinv, waits := [], stores := [] }]
    dropCount := s.dropCount + 1 }

/-- The PLB entry leaves under the drop. -/
def DropJob.hits (j : DropJob) (e : PlbEnt) : Bool :=
  match j.ents with
  | some es => es.any fun x => x.1 == e.owner && x.2.1 == e.slot
  | none => match j.owner with | some o => e.owner == o | none => true

/-- An access by `owner` to [a, a + n) started under a dropped entry. -/
def DropJob.covers (j : DropJob) (owner a n : Nat) : Bool :=
  match j.ents with
  | some es => es.any fun x => x.1 == owner && rangesMeet x.2.2.1 x.2.2.2 a n
  | none => match j.owner with | some o => owner == o | none => true

/-- Every PLB of the module loses what the drop names. DEDUCED, log 48. -/
def dropPlbs (s : State) (hits : PlbEnt → Bool) : State :=
  { s with
    cores := s.cores.map fun (i, c) =>
      (i, { c with cache := { c.cache with plb := c.cache.plb.filter fun e => !hits e } })
    eng := { s.eng with plbs := s.eng.plbs.map fun (u, p) => (u, p.filter fun e => !hits e) } }

/-- Bytes that an outstanding access of a core has still to read or write, as entries name them. -/
def accessKeys (i : Nat) (o : Out) : List (Nat × Nat) :=
  match o.op with
  | .vload x => x.elems.map fun (_, _, p, _) => (p.lockKey, x.es)
  | .vstore todo _ _ => todo.map fun (_, p, bs) => (p.lockKey, bs.length)
  | .watermark _ _ p _ dst _ => [(p.lockKey, if dst.pair then 16 else dst.bytes)]
  | .acc _ => []
  | .gang .. => []
  | _ => readKeys i o

/-- The drop is step 1 of a teardown (R410): no instruction and no PINV waits for it. DEDUCED, log 48. -/
def DropJob.teardown (j : DropJob) : Bool := j.core.isNone && !j.pinv

/-- The unperformed stores of a core that a drop waits for: a teardown does not wait for those held in the global-store ring or at
a migration-locked home (R410). DEDUCED, log 48. -/
def DropJob.waited (j : DropJob) (c : CoreSt) : List StoreEnt := if j.teardown then c.cache.wb.filter (!·.held) else unperformed c

/-- The drop reaches every PLB; the accesses that have started under the dropped entries are noted. DEDUCED, log 48. -/
def reachPlbs (s : State) (j : DropJob) : State × DropJob :=
  let waits := s.cores.flatMap fun (i, c) =>
    (c.iss.outs.filter fun o => (accessKeys i o).any fun r => j.covers o.owner r.1 r.2).map fun o => (i, o.id)
  let stores := s.cores.flatMap fun (i, c) =>
    ((j.waited c).filter fun e => j.covers e.owner e.place.lockKey (entSpan e).2).map fun e => (i, e.seq)
  (dropPlbs s j.hits, { j with dropped := true, waits, stores })

/-- Every access noted has finished: its data returned, or it was performed or discarded. -/
def DropJob.ended (s : State) (j : DropJob) : Bool :=
  j.dropped && !(j.waits.any fun x => (findOut (s.core x.1) x.2).isSome) &&
    !(j.stores.any fun x => (j.waited (s.core x.1)).any (·.seq == x.2))

/-- The drop is over: its instruction completes, or PINV clears BUSY. DEDUCED, log 48. -/
def endDrop (s : State) (j : DropJob) : State :=
  let s := { s with drops := s.drops.filter (·.n != j.n) }
  let s := if j.pinv then { s with owners := { s.owners with pinvBusy := false } } else s
  match j.core with | some i => s.complete i j.out | none => s

/-- An instruction that has written its status and waits for a drop. -/
def dropping (s : State) (i : Nat) (d : GReg) (v : Word) (owner : Option Nat) (ents : Option (List (Nat × Nat × Nat × Nat))) : Eff :=
  let n := s.dropCount
  .done (startDrop s owner ents (some i) (s.core i).iss.opCount false) (.begun [gdest (s.core i) d v] (.drop n) .engine)

/-! ## grant and revoke (R397, R398) -/

/-- What a target register names: an owner and a module. -/
def rightsTarget (s : State) (c : Word) : Option (Nat × Nat) :=
  if wf c 31 33 ≠ 0 ∨ wf c 0 16 = 0 ∨ (wb c 30 = false ∧ wf c 16 14 ≠ 0) then none
  else some (wf c 0 16, if wb c 30 then wf c 16 14 else s.ownMod)

/-- The SUB with which the edge cannot reach a module. DESIGN CHOICE, log 47. -/
def reachSub (s : State) (world m : Nat) : Option Nat :=
  if !onRoster s world m then some 8 else if (routePorts s m).isEmpty then some 10 else none

/-- Another module's answer: its tables are not part of this one, so the status is a free one among those that the rule
allows it; a module that does not answer is unreachable. DESIGN CHOICE, log 47. -/
def remoteRights (w : Word) (value : Bool) : Word :=
  match wf w 0 3 with
  | 0 => statusWord 0 0 (if value then wf w 8 8 else 0)
  | 1 => statusWord 2 0 0
  | 2 => statusWord 7 6 0
  | 3 => if value then statusWord 4 0 0 else statusWord 1 0 0
  | 4 => if value then statusWord 4 0 0 else statusWord 3 0 0
  | 5 => if value then statusWord 2 0 0 else statusWord 15 0 0
  | _ => statusWord 0 0 (if value then wf w 8 8 else 0)

/-- An action on a table, here or at another module. DESIGN CHOICE, log 47. -/
def rightsAct (s : State) (i : Nat) (d c : GReg) (bad value : Bool) (act : State → Nat → Eff) : Eff :=
  match rightsTarget s (gread (s.core i) c) with
  | none => status s i d 4
  | some (t, m) =>
    if bad then status s i d 4
    else if m = s.ownMod then
      (if !s.live t || s.tearing t then status s i d 2 else act s t)
    else
      match reachSub s (s.worldOf (ownerNow (s.core i))) m with
      | some sub => status s i d (statusWord 7 sub 0)
      | none =>
        let (s, w) := takeFree s
        status s i d (remoteRights w value)

/-- The granting of a range to an owner of this module. DEDUCED, log 46. -/
def grantTo (s : State) (i : Nat) (d : GReg) (base len col t : Nat) (rights : BitVec 5) : Eff :=
  let o := ownerNow (s.core i)
  let mine := ((tableEnts s o).map (·.2)).filter fun e => e.colour == col && e.meets base len
  let ws := (mine.map (·.world)).eraseDups
  if s.worldOf t ≠ s.worldOf o then status s i d 15
  else if !coveredBy mine base len (rights ||| 16) then status s i d 3
  else if 1 < ws.length then status s i d 15
  else match (tableEnts s t).find? fun x =>
      x.2.base == base && x.2.length == len && x.2.colour == col && x.2.granter == o with
    | some (k, e) => status (writeEnt s t k (entWords { e with rights := e.rights ||| rights })) i d 0
    | none => match firstEmpty s t with
      | none => status s i d 1
      | some k =>
        status (writeEnt s t k (entWords { base, length := len, rights, colour := col, world := ws.headD 0, granter := o })) i d 0

/-- `grant` (R397). DEDUCED, log 46. -/
def execGrant (h : Hdr) (d a b c : GReg) (rights : BitVec 5) (s : State) : Host.Outcome State Fault Refusal :=
  issue .e h
    (fun i s =>
      let k := s.core i
      let base := wf (gread k a) 0 56
      let len := (gread k b).toNat
      let bad := base % 65536 != 0 || len % 65536 != 0 || len == 0 || decide (2 ^ 56 < base + len) || mixedKinds base len
      rightsAct s i d c bad false fun s t =>
        grantTo s i d base len (rangeColour base (wf (gread k a) 56 8)) t rights) s

/-- The revocation of what OWNER granted to an owner of this module. DEDUCED, log 46. -/
def revokeFrom (s : State) (i : Nat) (d : GReg) (base len col t : Nat) (rights : BitVec 5) : Eff :=
  let o := ownerNow (s.core i)
  let mine := (tableEnts s t).filter fun x => x.2.granter == o && x.2.meets base len
  if mine.any fun x => !x.2.within base len then status s i d 4
  else
    let ch := mine.filter fun x => x.2.colour == col && (x.2.rights &&& rights) != 0
    let s := ch.foldl (fun s x =>
      let r := x.2.rights &&& ~~~rights
      if r = 0 then emptyEnt s t x.1 else writeEnt s t x.1 (entWords { x.2 with rights := r })) s
    let v := statusWord 0 0 ch.length
    if ch.isEmpty then status s i d v
    else dropping s i d v none (some (ch.map fun x => (t, x.1, x.2.base, x.2.length)))

/-- `revoke` (R398, R399). DEDUCED, log 46. -/
def execRevoke (h : Hdr) (d a b c : GReg) (rights : BitVec 5) (s : State) : Host.Outcome State Fault Refusal :=
  issue .e h
    (fun i s =>
      let k := s.core i
      let base := wf (gread k a) 0 56
      let len := (gread k b).toNat
      rightsAct s i d c false true fun s t => revokeFrom s i d base len (rangeColour base (wf (gread k a) 56 8)) t rights) s

/-! ## Generations (R408) -/

/-- MGEN increases: firmware ends the sessions of the older generation and discards their link keys.
DESIGN CHOICE, log 42; DEDUCED, log 50. -/
def nextGen (s : State) : State :=
  let s := { s with owners := { s.owners with mgen := s.owners.mgen + 1, sessionsEnded := s.owners.sessionsEnded + 1 } }
  s.onEng fun e =>
    { e with ports := e.ports.map fun (k, q) => (k, if q.tx.isSome ∨ q.rx.isSome then (if q.st = .active then q.toAuth else
        { q with tx := none, rx := none, rxOld := none }) else q) }

/-! ## rtwr and plbinv (R400, R401) -/

/-- The range meets a tussock memory whose accesses wait for a self-test (R432). DEDUCED, log 46. -/
def zeroWaits (s : State) (base len : Nat) : Bool :=
  s.rcv.tests.any fun (_, k) => k.queue.any fun (u, _) => underTest s (tusBase u) && rangesMeet (tusBase u) (2 ^ 20) base len

/-- Bytes of the TCM that holds `a` which do not read zero when nothing has written them (R304, R305). -/
def nextBytes (a : Nat) : List Nat :=
  match decodeAddr 0 a with
  | some (.tcm c _) => [tcmBase c + 0x1F908, tcmBase c + 0x1FC08]
  | _ => []

/-- A range of one TCM, tussock memory or staithe becomes zero, whatever stands in it (R400, R405); zeroed world descriptors are written
ones (R408). DEDUCED, log 46 and 50 and 76. -/
def zeroSram (s : State) (base len : Nat) : State :=
  let hit := fun (a : Nat) => decide (base ≤ a) && decide (a < base + len)
  let s := s.onMem fun m => ((nextBytes base).filter hit).foldl (fun m a => writeByte m a 0) (m.filter fun c => !hit c.1)
  let s := s.onRcv fun r => { r with poisonWords := r.poisonWords.filter fun w => !hit (8 * w) }
  if rangesMeet base len (worldDesc 1) (32 * 255) then nextGen s else s

/-- The image of an entry, as it keeps R389 apart from its WORLD; an image with LENGTH 0 is an empty entry. -/
inductive Image where
  | bad
  | empty
  | ent (e : RtEnt)
  deriving DecidableEq, Repr

/-- DEDUCED, log 46. -/
def imageOf (ws : List Word) : Image :=
  let w := fun k => ws.getD k 0
  let base := (w 0).toNat
  let len := (w 1).toNat
  let e : RtEnt :=
    { base, length := len, rights := BitVec.ofNat 5 (wf (w 2) 0 5), colour := wf (w 2) 8 8, world := wf (w 2) 16 8, granter := 0 }
  if base % 65536 ≠ 0 ∨ len % 65536 ≠ 0 ∨ 2 ^ 56 ≤ base ∨ 2 ^ 56 ≤ len ∨ wf (w 2) 24 40 ≠ 0 ∨ wf (w 2) 5 3 ≠ 0 ∨ w 3 ≠ 0 then .bad
  else if len = 0 then .empty
  else if oneKind base len ∧ (entKind base = some 0 ∨ e.colour = 0) then .ent e
  else .bad

/-- The new entry takes something from the old one (R400). -/
def lowers (old : RtEnt) (new : Option RtEnt) : Bool :=
  match new with
  | none => true
  | some e =>
    old.base != e.base || old.length != e.length || old.colour != e.colour || old.world != e.world ||
      (old.rights &&& ~~~e.rights) != 0

/-- The entry is written, its range zeroed, and the old entry dropped where the new one lowers it. DEDUCED, log 46. -/
def writeSlot (s : State) (i : Nat) (d : GReg) (o k : Nat) (nozero : Bool) (new : Option RtEnt) : Eff :=
  let old := tableEnt s o k
  let zero := fun (e : RtEnt) => !nozero && entKind e.base != some 0
  if new.any fun e => zero e && zeroWaits s e.base e.length then .wait s
  else
    let put := fun (u : State) (ws : List Word) => u.onMem fun m => writeBytes m (entAddr s o k) (bytesOfWords ws)
    let s := match new with
      | some e => put (if zero e then zeroSram s e.base e.length else s) (entWords e)
      | none => put s [0, 0, 0, 0]
    match old with
    | some x => if lowers x new then dropping s i d 0 none (some [(o, k, x.base, x.length)]) else status s i d 0
    | none => status s i d 0

/-- `rtwr` (R400). DEDUCED, log 46. -/
def execRtwr (h : Hdr) (d a b : GReg) (clear nozero : Bool) (s : State) : Host.Outcome State Fault Refusal :=
  issue .e h
    (needSup 0x2C2 fun i s =>
      let v := gread (s.core i) b
      let o := wf v 0 16
      let k := wf v 16 8
      let go := fun (s : State) (im : Image) =>
        if s.capOf o ≤ k then status s i d 4
        else if !s.live o then status s i d 2
        else match im with
          | .bad => status s i d 4
          | .empty => writeSlot s i d o k nozero none
          | .ent e => if e.world ≠ 0 ∧ e.world ≠ s.worldOf o then status s i d 15 else writeSlot s i d o k nozero (some e)
      if clear then go s .empty else withOwnBlock s i d (gread (s.core i) a) 32 4 fun s ws => go s (imageOf ws)) s

/-- `plbinv` (R401). DEDUCED, log 48. -/
def execPlbinv (h : Hdr) (d a : GReg) (mod : Bool) (s : State) : Host.Outcome State Fault Refusal :=
  issue .e h
    (fun i s =>
      let o := if a = 0 then none else some (wf (gread (s.core i) a) 0 16)
      if mod then
        (if supState (s.core i) then dropping s i d 0 o none else .trap s 0x04 (W 0x2C3))
      else
        status (s.onCache i fun c => { c with plb := c.plb.filter fun e => match o with | some o => e.owner != o | none => false })
          i d 0) s

/-! ## Regions and colours (R402 to R404) -/

/-- A region descriptor (R402). -/
structure Region where
  base : Nat
  len : Nat
  colour : Nat
  adv : Nat
  state : Nat
  holder : Nat
  deriving DecidableEq, Repr

def regionAddr (k : Nat) : Nat := rightsBase + 0x80000 + 32 * k

def regionAt (s : State) (k : Nat) : Region :=
  let w2 := readWord s.mem (regionAddr k + 16)
  { base := wf (readWord s.mem (regionAddr k)) 16 40 * 65536, len := wf (readWord s.mem (regionAddr k + 8)) 16 40 * 65536
    colour := wf w2 0 8, adv := wf w2 8 8, state := wf w2 16 2, holder := wf w2 32 16 }

def putRegion (s : State) (k : Nat) (r : Region) : State :=
  s.onMem fun m => writeBytes m (regionAddr k)
    (bytesOfWords [W r.base, W r.len, W (r.holder * 2 ^ 32 + r.state * 2 ^ 16 + r.adv % 256 * 2 ^ 8 + r.colour), 0])

/-- Records of `size` bytes in [base, base + bytes) that memory lists a byte of, by number. -/
def listedRecs (s : State) (base bytes size : Nat) : List Nat :=
  ((s.mem.filter fun c => decide (base ≤ c.1) && decide (c.1 < base + bytes)).map fun c => (c.1 - base) / size).eraseDups

/-- Descriptors that are not all zero; the others are FREE. -/
def listedRegions (s : State) : List (Nat × Region) :=
  (listedRecs s (rightsBase + 0x80000) 0x20000 32).map fun k => (k, regionAt s k)

def freeRegion (s : State) : Option Nat := (List.range 4096).find? fun k => (regionAt s k).state == 0

/-- Owners whose directory word is not zero. -/
def listedOwners (s : State) : List Nat := (listedRecs s rightsBase 0x80000 8).filter (s.live ·)

def Region.meets (r : Region) (base len : Nat) : Bool := rangesMeet r.base r.len base len

/-- `rgnnew` (R403). -/
def execRgnnew (h : Hdr) (d a b c : GReg) (rights : BitVec 5) (s : State) : Host.Outcome State Fault Refusal :=
  issue .e h
    (needSup 0x2C4 fun i s =>
      let base := (gread (s.core i) a).toNat
      let len := (gread (s.core i) b).toNat
      let o := wf (gread (s.core i) c) 0 16
      let rs := (listedRegions s).filter fun x => x.2.state != 0 && x.2.meets base len
      let same := rs.find? fun x => x.2.state == 2 && x.2.base == base && x.2.len == len
      let slot := match same with
        | some (k, r) => some (k, (r.colour + 1) % 256, r.adv + 1)
        | none => (freeRegion s).map (·, 0, 0)
      if base % 65536 ≠ 0 ∨ len % 65536 ≠ 0 ∨ len = 0 ∨ 0xF0 * 2 ^ 48 < base + len ∨ rights = 0 then status s i d 4
      else if rs.any (·.2.state == 3) then status s i d 14
      else if rs.any fun x => x.2.state == 1 || !(x.2.base == base && x.2.len == len) then status s i d 5
      else if !s.live o then status s i d 2
      else match slot, firstEmpty s o with
        | some (k, colour, adv), some e =>
          let s := putRegion s k { base, len, colour, adv, state := 1, holder := o }
          let s := writeEnt s o e (entWords { base, length := len, rights, colour, world := s.worldOf o, granter := 0 })
          status s i d (statusWord 0 0 colour)
        | _, _ => status s i d 1) s

/-- Every entry of every owner whose range meets the region. -/
def entriesMeeting (s : State) (base len : Nat) : List (Nat × Nat × Nat × Nat) :=
  (listedOwners s).flatMap fun o =>
    ((tableEnts s o).filter fun x => x.2.meets base len).map fun x => (o, x.1, x.2.base, x.2.length)

/-- `rgnfree` (R404). -/
def execRgnfree (h : Hdr) (d a : GReg) (s : State) : Host.Outcome State Fault Refusal :=
  issue .e h
    (needSup 0x2C5 fun i s =>
      match (listedRegions s).find? fun x => x.2.state == 1 && x.2.base == (gread (s.core i) a).toNat with
      | none => status s i d 4
      | some (k, r) =>
        let es := entriesMeeting s r.base r.len
        let s := es.foldl (fun s x => emptyEnt s x.1 x.2.1) s
        let s := putRegion s k { r with state := if r.adv = 255 then 3 else 2 }
        dropping s i d 0 none (some es)) s

/-! ## Way masks (R411, R412) -/

/-- `waym.set`. DEDUCED, log 51. -/
def execWaymSet (h : Hdr) (d a b : GReg) (dies : BitVec 9) (s : State) : Host.Outcome State Fault Refusal :=
  issue .e h
    (needSup 0x2C6 fun i s =>
      let cls := (gread (s.core i) a).toNat
      let m := gread (s.core i) b
      if 15 < cls ∨ wf m 16 48 ≠ 0 ∨ dies = 0 then status s i d 4
      else
        let set := fun (w : Map (Vector (BitVec 16) 16)) (k : Nat) =>
          if dies.getLsbD k then mput w k (vset ((mget? w k).getD (Vector.replicate 16 0xFFFF)) cls (BitVec.ofNat 16 m.toNat)) else w
        status (s.onHomes fun x => { x with ways := (List.range 9).foldl set x.ways }) i d 0) s

/-- `waym.rd`: the lines of a class in a mere. DEDUCED, log 51. -/
def execWaymRd (h : Hdr) (d a b : GReg) (s : State) : Host.Outcome State Fault Refusal :=
  issue .e h
    (needSup 0x2C6 fun i s =>
      let cls := (gread (s.core i) a).toNat
      let v := gread (s.core i) b
      if 15 < cls ∨ 719 < wf v 0 10 ∨ 8 < wf v 16 4 ∨ wf v 10 6 ≠ 0 ∨ wf v 20 44 ≠ 0 then status s i d 4
      else
        let ls := (mget? s.homes.meres (720 * wf v 16 4 + wf v 0 10)).getD []
        status s i d (W (ls.filter (·.cls == cls)).length)) s

/-! ## Writes that the generations count (R408) -/

/-- MGEN_WRITE. -/
def execMgenWrite (s : State) : Host.Outcome State Fault Refusal := .next (nextGen s)

/-- MEASURED_RANGE_WRITE: a write of world `id`'s measured range that has been performed is counted. DEDUCED, log 50. -/
def execMeasuredRangeWrite (s : State) : Host.Outcome State Fault Refusal :=
  let w := s.arg.id
  .next (if s.owners.measured.contains w then
      let s := { s with owners := { s.owners with measured := dropFirst (· == w) s.owners.measured } }
      let v := readWord s.mem (worldDesc w)
      nextGen (s.onMem fun m => writeWord m (worldDesc w) (W (wf v 32 32 * 2 ^ 32 + (wf v 0 32 + 1) % 2 ^ 32)))
    else s)

/-- KEY_SLOT_WRITE (R406): word 0 gives VALID and WORLD, words 1 to 4 the key pair; words 5 to 7 are zero. -/
def execKeySlotWrite (s : State) : Host.Outcome State Fault Refusal :=
  let k := s.arg.id
  let v := s.arg.v
  .next (if 256 ≤ k ∨ 8 ≤ s.arg.off then s
    else
      let old := (mget? s.owners.keys k).getD { valid := false, world := 0, key := Vector.replicate 4 0 }
      let new := if s.arg.off = 0 then { old with valid := wb v 63, world := wf v 0 8 }
        else { old with key := if s.arg.off ≤ 4 then vset old.key (s.arg.off - 1) v else old.key }
      nextGen { s with owners := { s.owners with keys := mput s.owners.keys k new } })

/-- RIGHTS_AREA_WRITE (R386, R396, R408): a reeve store of a word at an offset of the rights area. DEDUCED, log 50. -/
def execRightsAreaWrite (s : State) : Host.Outcome State Fault Refusal :=
  let o := s.arg.off
  .next (if 0x800000 < o + 8 ∨ o % 8 ≠ 0 then s
    else
      let s := s.onMem fun m => writeWord m (rightsBase + o) s.arg.v
      if 0xA0020 ≤ o ∧ o < 0xA2000 then nextGen s else s)

/-! ## PINV and teardown (R409, R410) -/

/-- PINV_WRITE: acts as `plbinv.mod`. DEDUCED, log 49. -/
def execPinvWrite (s : State) : Host.Outcome State Fault Refusal :=
  let v := s.arg.v
  .next (if !wb v 63 || s.owners.pinvBusy then s
    else
      let s := startDrop s (if wf v 0 16 = 0 then none else some (wf v 0 16)) none none 0 true
      { s with owners := { s.owners with pinvBusy := true } })

/-- A firing of the owner: under its OWNER, its trapped OWNER, or started by it. DEDUCED, log 49. -/
def firingOf (s : State) (i o : Nat) (f : Firing) : Bool :=
  f.owner == o || f.startOwner == o || (f.handler && wf (readWord s.mem (frameAddr i + 40)) 0 16 == o)

/-- The owner's firing on a core is aborted, and its tasks and launch records are discarded. -/
def drainCore (o : Nat) (s : State) (i : Nat) : State :=
  let s := match (s.core i).firing with
    | some f => if firingOf s i o f then s.abort i 0x10 0 f.pc else s
    | none => s
  let d := (s.core i).sched
  let lost := ((d.deque.filter (·.owner == o)).map (·.words)) ++ (((d.launchq ++ d.windowq).filter (·.owner == o)).map (·.words)) ++
    ((d.supq.filter (supOwner d · == o)).map (·.words))
  let s := s.onSched i fun d =>
    { d with
      deque := d.deque.filter (·.owner != o), launchq := d.launchq.filter (·.owner != o)
      supq := d.supq.filter (supOwner d · != o), windowq := d.windowq.filter (·.owner != o) }
  lost.foldl (fun s ws => s.discard i ws 5 o) s

/-- The owner's actors on a core are freed: at once, or at the boundary of a firing in flight. -/
def drainActors (o : Nat) (s : State) (i : Nat) : State :=
  (s.core i).sched.actors.foldl (fun s (k, a) =>
    if a.owner ≠ o then s
    else if inFlight s i k then s.onSched i fun d =>
      { d with actors := match mget? d.actors k with | some a => mput d.actors k { a with freeing := true } | none => d.actors }
    else freeActor s i k) s

/-- The owner's channels on a core are unbound, their records discarded, their markers off the path. -/
def drainChans (o : Nat) (s : State) (i : Nat) : State :=
  (s.core i).sched.chans.foldl (fun s (k, c) =>
    if c.owner ≠ o then s
    else
      let s := unbindChan (c.items.foldl (fun s it => match it with
        | .data ws _ => s.discard i ws 5 o
        | .marker m => leavePath s i m) s) i k
      s.onSched i fun d => { d with torn := mput d.torn k o }) s

/-- The owner's copies stop with GONE; a state copy of a splice ends with it. -/
def drainCopies (s : State) (o : Nat) : State :=
  s.eng.copies.foldl (fun s c =>
    if c.owner ≠ o then s
    else if c.splice.isSome then endCopy s c (some (engineVal 7 (W (lockBase c.core c.srcAt))))
    else match c.st with | .stopped _ => s | _ => stopCopy s c 7 c.srcAt) s

/-- The owner's send lists process no more entries; those not injected are dropped and counted. -/
def drainLists (s : State) (o : Nat) : State :=
  (s.eng.lodes.flatMap fun (u, l) => l.jobs.map (u, ·)).foldl (fun s (u, j) =>
    if j.owner ≠ o ∨ j.count ≤ j.next then s
    else
      let s := { s with owners := { s.owners with droprec := s.owners.droprec + W (j.count - j.next) } }
      settleJob (putJob s u { j with next := j.count }) j.core j.out) s

/-- Step 2 of R410. DEDUCED, log 49. -/
def drainOwner (s : State) (o : Nat) : State :=
  let is_ := s.cores.map (·.1)
  let s := is_.foldl (drainCore o) s
  let s := is_.foldl (drainActors o) s
  let s := is_.foldl (drainChans o) s
  drainLists (drainCopies s o) o

/-- What follows a drop that is over: after step 1 of a teardown, step 2 (R410). DEDUCED, log 49. -/
def dropDone (s : State) (j : DropJob) : State :=
  let s := endDrop s j
  if j.teardown then drainOwner s s.owners.tearOwner else s

/-- PLB_DROP: drop `id` reaches the PLBs; once the accesses under it have finished, it is over. DEDUCED, log 48. -/
def execPlbDrop (s : State) : Host.Outcome State Fault Refusal :=
  .next (match s.drops.find? (·.n == s.arg.id) with
    | none => s
    | some j =>
      let (s, j) := if j.dropped then (s, j) else reachPlbs s j
      if j.ended s then dropDone s j else { s with drops := s.drops.map fun x => if x.n == j.n then j else x })

def setDir (s : State) (o : Nat) (w : Word) : State := s.onMem fun m => writeWord m (rightsBase + 8 * o) w

/-- OTEAR_WRITE: step 1 begins, the revocation; step 2 follows when its drop is over. DEDUCED, log 49. -/
def execOtearWrite (s : State) : Host.Outcome State Fault Refusal :=
  let v := s.arg.v
  let o := wf v 0 16
  .next (if !wb v 63 then s
    else if s.owners.tearBusy || !s.live o then { s with owners := { s.owners with tearErr := true } }
    else
      let s := { s with owners := { s.owners with tearBusy := true, tearErr := false, tearOwner := o } }
      let s := setDir s o (s.dirWord o ||| 0x4000000000000000)
      let s := (List.range (s.capOf o)).foldl (fun s k => emptyEnt s o k) s
      startDrop s (some o) none none 0 false)

/-- Nothing of the owner is left running, and the drop of step 1 is over. DEDUCED, log 49. -/
def drained (s : State) (o : Nat) : Bool :=
  !(s.drops.any (·.teardown)) &&
  s.cores.all (fun (i, c) =>
    (match c.firing with | some f => !firingOf s i o f | none => true) && c.sched.actors.all (fun x => x.2.owner != o) &&
      c.iss.outs.all fun x => x.owner != o || !(match x.op with | .remote _ => true | .copy .. => true | .lode => true | _ => false)) &&
    s.eng.copies.all (·.owner != o) && s.eng.lodes.all fun (_, l) => l.jobs.all (·.owner != o)

/-- TEARDOWN_COMPLETE: step 3, once step 2 is over. DEDUCED, log 49. -/
def execTeardownComplete (s : State) : Host.Outcome State Fault Refusal :=
  .next (if !s.owners.tearBusy || s.drops.any (·.teardown) then s
    else
      let o := s.owners.tearOwner
      let s := drainOwner s o
      if !drained s o then s
      else
        let s := { s with weirs := s.weirs.filter fun x => x.2.owner != o }
        let s := s.onEng fun e => { e with groups := e.groups.filter fun x => x.2.owner != o }
        let s := (listedRegions s).foldl (fun s x =>
          if x.2.state = 1 ∧ x.2.holder = o then putRegion s x.1 { x.2 with state := 2 } else s) s
        let s := setDir s o (s.dirWord o &&& 0x3FFFFFFFFFFFFFFF)
        { s with owners := { s.owners with tearBusy := false } })

end Sys2Proof.Machine
end

