-- ==== Sys2Proof/Machine/Walk.lean ====
section
/-! DEFINITION. The walkers (R205 to R209), zero-pending lines (R213), shootdowns (R210 to R212), the migration switch (R214,
R215), and the arrival of code lines (R33). -/

namespace Sys2Proof.Machine

/-! ## Walks (R207, R209) -/

/-- WALK_STEP: walk `id` of die `unit` reads its next entry (R207). DEDUCED, log 43. -/
def execWalkStep (s : State) : Host.Outcome State Fault Refusal :=
  let d := s.arg.unit
  let n := s.arg.id
  .next (match (s.walker d).active[n]? with
    | none => s
    | some w =>
      match walkRead s d w.table w.lvl w.page w.path with
      | (s, .on t path) => s.onWalker d fun k => { k with active := k.active.set n { w with lvl := w.lvl - 1, table := t, path } }
      | (s, .done e) => giveAll s d n w e)

/-- ZP_BACKGROUND_ZERO (R213): a home writes zeros into a line that is still marked. -/
def execZpBackgroundZero (s : State) : Host.Outcome State Fault Refusal := .next (openZp s (64 * s.arg.id))

/-! ## Shootdowns (R210 to R212) -/

def largePage : Nat := 2 ^ 26

/-- The ranges that a shootdown covers (R211): its pages, and the large pages in use that overlap them. DEDUCED, log 44. -/
def covered (s : State) (first len : Nat) : List (Nat × Nat) :=
  (first, len) :: (s.homes.large.filter fun p => rangesMeet p largePage first len).map (·, largePage)

/-- A range meets one of the ranges. DEDUCED, log 44. -/
def meetsAny (rs : List (Nat × Nat)) (a n : Nat) : Bool := rs.any fun r => rangesMeet a n r.1 r.2

/-- Accesses of a core translated under a dropped entry that have not reached their home: operations, and stores that no home
holds. DEDUCED, log 44. -/
def oldAccesses (c : CoreSt) (rs : List (Nat × Nat)) : List Nat × List Nat :=
  let hit := fun (p : Place) (len : Nat) =>
    match p with | .global va _ _ _ _ => meetsAny rs va len | .array _ => false
  let ops := c.iss.outs.filter fun o =>
    match o.op with
    | .load p _ dst _ => hit p dst.bytes
    | .vload x => x.elems.any fun (_, _, p, v) => v.isNone && hit p x.es
    | .vstore todo _ _ => todo.any fun (_, p, bs) => hit p bs.length
    | .lda p dst => hit p dst.bytes
    | .acq p _ => hit p 144
    | .sigrd p _ _ => hit p 144
    | _ => false
  let stores := (unperformed c).filter fun e => hit e.place (entSpan e).2 && !(e.sent && e.held)
  (ops.map (·.id), stores.map (·.seq))

/-- Prefetches and code fetches on their way to covered lines, which a shootdown has marked (R84, R211). DEDUCED, log 44. -/
def oldReads (c : CoreSt) (rs : List (Nat × Nat)) : Bool :=
  c.cache.prefetches.any (fun p => meetsAny rs (64 * p.line) 64) || c.cache.ifetch.any fun f => meetsAny rs (64 * f.line) 64

/-- Translations, copies and code lines that the shootdown covers leave a core. DEDUCED, log 44. -/
def shootCore (rs : List (Nat × Nat)) (s : State) (i : Nat) : State :=
  let hit := fun (line : Nat) => meetsAny rs (64 * line) 64
  let s := s.onCache i fun c => { c with tlb := c.tlb.filter fun t => !meetsAny rs t.page t.size }
  icDrop (l1Drop s i hit) i hit

/-- Covered entries leave a walker, and its walks for covered pages start again (R212), with those for any page of a block that may
turn out to be one large page with a covered one (R211). DEDUCED, log 44. -/
def shootWalker (rs : List (Nat × Nat)) (k : Walker) : Walker :=
  let again := fun (w : Walk) =>
    if meetsAny rs (w.page / largePage * largePage) largePage then { w with lvl := 3, table := k.ptbase, path := [] }
    else { w with path := w.path.filter fun x => !meetsAny rs (w.page / levelSpan x.1 * levelSpan x.1) (levelSpan x.1) }
  { k with
    tcache := k.tcache.filter fun x => !meetsAny rs (x.2.1 * levelSpan x.1) (levelSpan x.1)
    active := k.active.map again, queue := k.queue.map again }

/-- The shootdown reaches every core and every walker (R211). DEDUCED, log 44. -/
def shoot (s : State) (d kind first len frame : Nat) : State :=
  let rs := covered s first len
  let waiting := (s.cores.map fun (i, c) => (i, oldAccesses c rs)).filter fun x => !x.2.1.isEmpty || !x.2.2.isEmpty || oldReads (s.core x.1) rs
  let s := (s.cores.map (·.1)).foldl (shootCore rs) s
  let s := { s with walkers := s.walkers.map fun (j, k) => (j, shootWalker rs k) }
  let s := s.onHomes fun h => { h with large := h.large.filter fun p => !rangesMeet p largePage first len }
  s.onWalker d fun k => { k with err := false, shoot := some { kind, first, count := len, waiting, frame, ranges := rs } }

/-- The migrating page: its leaf, address and translation, when it is valid with MLOCK = 1. -/
def lockedLeaf (s : State) (d va : Nat) : Option (Trans × Nat) :=
  match leafNow s (s.walker d).ptbase va 4 with
  | some (t, a) => if t.mlock then some (t, a) else none
  | none => none

/-- The switch (R215): the new frame's lines await forwarding, the leaf takes the new frame, and the page is shot down.
DEDUCED, log 44. -/
def switchPage (s : State) (d : Nat) : State :=
  let k := s.walker d
  let (s, ok) := touchEntries s k.ptbase k.sdva 4
  match if ok then lockedLeaf s d k.sdva else none with
  | none => s.onWalker d fun k => { k with err := true }
  | some (t, a) =>
    let e := readWord s.mem a
    let s := s.onHomes fun h => { h with awaiting := h.awaiting ++ [(k.sdpa / 64, t.size / 64)] }
    let s := s.putPhysLine a (leBytes 8 (W (fld e.toNat 0 16 + k.sdpa / 65536 * 65536) &&& ~~~(8 : Word)).toNat)
    shoot s d 2 t.page t.size k.sdpa

/-- A write of SDCTL (R210). DEDUCED, log 44. -/
def sdctlWrite (s : State) (d : Nat) (v : Word) : State :=
  let k := s.walker d
  let refuse := s.onWalker d fun k => { k with err := true }
  let keep := fun (s : State) => s.onWalker d fun k => { k with sdctl := W (wf v 16 16 * 2 ^ 16 + wf v 0 2) }
  if !wb v 63 then keep s
  else if k.shoot.isSome then refuse
  else match wf v 0 2 with
    | 0 => shoot (keep s) d 0 k.sdva (65536 * (wf v 16 16 + 1)) 0
    | 1 => shoot (keep s) d 1 0 (2 ^ 56) 0
    | 2 => if wf v 16 16 ≠ 0 then refuse else switchPage (keep s) d
    | _ => refuse

/-- A write of SDCTL with GO and this KIND. -/
def shootdown (kind : Nat) (s : State) : State :=
  if wb s.arg.v 63 && wf s.arg.v 0 2 == kind && dieOn s s.arg.unit then sdctlWrite s s.arg.unit s.arg.v else s

/-- SHOOTDOWN_PAGES. -/
def execShootdownPages (s : State) : Host.Outcome State Fault Refusal := .next (shootdown 0 s)
/-- SHOOTDOWN_ALL. -/
def execShootdownAll (s : State) : Host.Outcome State Fault Refusal := .next (shootdown 1 s)
/-- SHOOTDOWN_SWITCH. -/
def execShootdownSwitch (s : State) : Host.Outcome State Fault Refusal := .next (shootdown 2 s)

/-- An access has reached its home: it is done, or what it has still to read waits there for a copy (R269). DEDUCED, log 44. -/
def readAtHome (s : State) (c : CoreSt) (id : Nat) : Bool :=
  let waits := fun (p : Place) (n : Nat) => (blockedRead s p.lockKey n).isSome
  match findOut c id with
  | none => true
  | some o =>
    match o.op with
    | .watermark .. => true
    | .vload x => x.fault.isNone && x.elems.all fun (_, _, p, v) => v.isSome || waits p x.es
    | .lda p dst => waits p dst.bytes
    | .acq p _ => waits p 144
    | .sigrd p _ j => waits (p.plus (8 + 8 * j)) 8
    | _ => false

/-- The old accesses of a core have reached their homes. DEDUCED, log 44. -/
def reached (s : State) (rs : List (Nat × Nat)) (x : Nat × List Nat × List Nat) : Bool :=
  let c := s.core x.1
  let old := fun (line : Nat) => meetsAny rs (64 * line) 64
  !(c.cache.prefetches.any fun p => p.inval && old p.line) && !(c.cache.ifetch.any fun f => f.inval && old f.line) &&
  x.2.1.all (readAtHome s c) && !(x.2.2.any fun q => (unperformed c).any fun e => e.seq == q && !(e.sent && e.held))

/-- SHOOTDOWN_ACK: core `core` acknowledges the shootdown of die `unit` (R211). DEDUCED, log 44. -/
def execShootdownAck (s : State) : Host.Outcome State Fault Refusal :=
  let d := s.arg.unit
  .next (match (s.walker d).shoot with
    | none => s
    | some x =>
      s.onWalker d fun k =>
        { k with shoot := some { x with waiting := x.waiting.filter fun w => !(w.1 == s.arg.core && reached s x.ranges w) } })

/-- Stores that old homes hold for a page. -/
def heldIn (s : State) (first len : Nat) : List HeldStore := s.homes.held.filter fun h => rangesMeet h.va 1 first len

/-- SHOOTDOWN_COMPLETE (R211, R215). -/
def execShootdownComplete (s : State) : Host.Outcome State Fault Refusal :=
  let d := s.arg.unit
  .next (match (s.walker d).shoot with
    | none => s
    | some x =>
      if !x.waiting.isEmpty || (x.kind == 2 && !(heldIn s x.first x.count).isEmpty) then s
      else
        let s := if x.kind = 2 then
            s.onHomes fun h => { h with awaiting := dropFirst (· == (x.frame / 64, x.count / 64)) h.awaiting }
          else s
        s.onWalker d fun k => { k with shoot := none, done := (k.done + 1) % 2 ^ 32 })

/-! ## Forwarded stores (R215) -/

/-- The switch of a page under way. -/
def switching (s : State) (page : Nat) : Option Shootdown :=
  firstSome (fun (_, k) => match k.shoot with
    | some x => if x.kind == 2 && rangesMeet page 1 x.first x.count then some x else none
    | none => none) s.walkers

/-- A store of the migrating page as the new home takes it: its place in the new frame, no longer held. -/
def movedStore (x : Shootdown) (e : StoreEnt) : StoreEnt :=
  { e with
    held := false
    place := match e.place with
      | .global va _ key c _ => .global va (x.frame + (va - x.first)) key c false
      | p => p }

/-- A store whose turn at its home has come is performed there, whatever locks stand (R85, R215). DEDUCED, log 44. -/
def performEntry (s : State) (i : Nat) (e : StoreEnt) : State :=
  match e.op with
  | .bytes bs => performed (performWrite s e.place bs e.owner) i e.seq none
  | .atomic r => performAtomic s i e r
  | _ => performRecordOp s i e

/-- The store that a home holds, at the new home, its lines open to it alone; `none` when it has still to wait for an earlier access
of its core. DEDUCED, log 44. -/
def forwardStore (s : State) (x : Shootdown) (h : HeldStore) : Option State :=
  let i := h.core
  match (s.core i).cache.wb.find? (·.seq == h.seq) with
  | none => some (s.onHomes fun y => { y with held := dropFirst (· == h) y.held })
  | some e =>
    let t := s.onCache i fun c => { c with wb := c.wb.map fun y => if y.seq == h.seq then movedStore x e else y }
    let t := t.onHomes fun y => { y with awaiting := [], held := dropFirst (· == h) y.held }
    (atHome t i h.seq).map fun e => (performEntry t i e).onHomes fun y => { y with awaiting := s.homes.awaiting }

/-- MIGRATION_FORWARD: the first store held for the page `id` (its address) is performed at the new home. -/
def execMigrationForward (s : State) : Host.Outcome State Fault Refusal :=
  .next (match switching s s.arg.id with
    | none => s
    | some x =>
      match heldIn s x.first x.count with
      | [] => s
      | h :: _ => (forwardStore s x h).getD s)

/-! ## Code lines (R31, R33, R34) -/

/-- Lines of an instruction cache of 32 KiB. -/
def icLines : Nat := 512

/-- The bytes of a code line match its CRC. -/
def codeLineOk (bs : List Byte) : Bool := crc32c (bs.take 60) == ofLe (bs.drop 60)

/-- The second mismatch: logged with the program counter, and the firing that fetches the line is aborted. -/
def codeError (s : State) (i line : Nat) : State :=
  let (s, synd) := takeFree s
  let c := s.core i
  let pc := match c.firing with | some f => f.pc | none => W (64 * line)
  let s := s.mcLog
    { bank := tusBank i, code := 8, cls := 1, owner := ownerNow c, addr := some pc.toNat, core := some i, unit := 0
      fenced := false, stest := false, poison := false, synd, misc0 := pc, misc1 := 0 }
  match c.firing with
  | none => s
  | some f => if lineIdx f.pc = line then s.abort i 0x14 (W (tusBank i)) f.pc else s

/-- FETCH_LINE_RETURN. DESIGN CHOICE, log 14. -/
def execFetchLineReturn (s : State) : Host.Outcome State Fault Refusal :=
  let i := s.arg.core
  .next (match (s.core i).cache.ifetch with
    | none => s
    | some f =>
      let clear := fun (s : State) => s.onCache i fun c => { c with ifetch := none }
      if placeBusy s f.place then s
      else if f.inval then clear s
      else match poisonSpot s f.place.addr 64 with
        | some (a, code) => containNow (clear s) i a code
        | none =>
          let s := readTouch s f.place (s.classOf (ownerNow (s.core i)))
          let bs := placeBytes s f.place 64
          if !codeLineOk bs then
            (if f.tries = 0 then s.onCache i fun c => { c with ifetch := some { f with tries := 1 } } else codeError (clear s) i f.line)
          else
            let keep := match f.place with | .global _ _ _ c _ => c | _ => false
            let l : ICLine := { line := f.line, data := bs, expire := s.now + 16384 }
            (clear s).onCache i fun c =>
              if keep then { c with ic := (l :: c.ic.filter fun x => x.line != f.line && leased s i x.expire).take icLines }
              else { c with codeLine := some l })

end Sys2Proof.Machine
end

