-- ==== Sys2Proof/Machine/Recovery.lean ====
section
/-! DEFINITION. Recovery (R417 to R441): machine-check banks, errors, fences, self-test, power and temperature. -/

namespace Sys2Proof.Machine

/-! ## Banks (R426 to R430) -/

/-- A bank of the module. -/
def bankExists (b : Nat) : Bool := decide (b / 512 ≤ 8) && decide (b % 512 ≤ 423)

/-- A register of a bank; the port banks of die 4 read zero. -/
def bankReg (s : State) (b k : Nat) : Word :=
  if b / 512 = 4 ∧ 385 ≤ b % 512 ∧ b % 512 ≤ 400 then 0 else vget (s.bank b) 0 k

def putBank (s : State) (b : Nat) (f : Bank → Bank) : State :=
  s.onRcv fun r => { r with banks := mput r.banks b (f (s.bank b)) }

/-- `mcrd` (R430). -/
def execMcrd (h : Hdr) (d a : GReg) (k : Fin 8) (s : State) : Host.Outcome State Fault Refusal :=
  issue .none h
    (needSup 0x306 fun i s =>
      let b := wf (gread (s.core i) a) 0 16
      status s i d (if bankExists b then bankReg s b k.val else 0)) s

/-- VALID and OVER leave MCSTAT, and with CNT the counters their bank, as one action. -/
def clearBank (s : State) (b : Nat) (cnt : Bool) : State :=
  putBank s b fun x =>
    let x := vset x 0 (W (fld (vget x 0 0).toNat 0 62))
    if cnt then vset x 4 0 else x

/-- `mcclr` (R430). -/
def execMcclr (h : Hdr) (d a : GReg) (cnt : Bool) (s : State) : Host.Outcome State Fault Refusal :=
  issue .none h
    (needSup 0x307 fun i s =>
      let b := wf (gread (s.core i) a) 0 16
      if bankExists b then status (clearBank s b cnt) i d (bankReg s b 0) else status s i d 0) s

/-- MCSTAT_REEVE_WRITE. -/
def execMcstatReeveWrite (s : State) : Host.Outcome State Fault Refusal :=
  .next (if bankExists s.arg.unit then clearBank s s.arg.unit false else s)

/-- MCCOUNT_REEVE_WRITE. -/
def execMccountReeveWrite (s : State) : Host.Outcome State Fault Refusal :=
  .next (if bankExists s.arg.unit then putBank s s.arg.unit fun x => vset x 4 0 else s)

/-! ## The fault queue (R425) -/

/-- FQBASE_WRITE. -/
def execFqbaseWrite (s : State) : Host.Outcome State Fault Refusal :=
  let v := s.arg.v.toNat
  let ok := v % 2 ^ 18 == 0 && decide (v + 2 ^ 18 ≤ s.hbmEnd)
  .next (s.onRcv fun r => { r with fqbase := if ok then v else 0, fqhead := 0, fqtail := 0 })

/-- FQLOST_WRITE. -/
def execFqlostWrite (s : State) : Host.Outcome State Fault Refusal := .next (s.onRcv fun r => { r with fqlost := s.arg.v })

/-! ## Self-test (R431, R432) -/

/-- `stest` (R431). -/
def execStest (h : Hdr) (d a : GReg) (preempt : Bool) (s : State) : Host.Outcome State Fault Refusal :=
  issue .none h
    (needSup 0x308 fun i s =>
      match localDesig s (gread (s.core i) a) with
      | none => status s i d 4
      | some x =>
        let u := tusOf x.core
        let t := testOf s (u / 360)
        if s.rcv.fences.tussocks.contains u || t.stbuf == 0 then status s i d 5
        else if t.queue.any (·.1 == u) then status s i d 1
        else status (queueTest s u preempt) i d 0) s

/-- The eight cores are between firings, and no claim or lock is left (step 2). DEDUCED, log 59. -/
def quiesced (s : State) (u : Nat) : Bool :=
  (tussockCores u).all (fun i => (s.core i).firing.isNone && (s.core i).regs.vgrant == 0) && (s.pool u).queue.isEmpty &&
    !s.eng.locks.any fun l => rangesMeet l.base l.len (tusBase u) (2 ^ 20)

/-- `n` bytes at `dst` become those at `src`. DEDUCED, log 36. -/
def copyMem (m : Memory) (src dst n : Nat) : Memory :=
  let from_ := m.filter fun c => decide (src ≤ c.1) && decide (c.1 < src + n)
  let clear := m.filter fun c => !(decide (dst ≤ c.1) && decide (c.1 < dst + n))
  from_.foldl (fun m c => writeByte m (dst + (c.1 - src)) c.2) clear

/-- Lines of HBM replaced whole by physical writes through their meres: no zero-pending line, no key slot, no poison.
DEDUCED, log 36. -/
def freshLines (s : State) (pa n : Nat) : State :=
  let hit := fun (l : Nat) => decide (pa / 64 ≤ l) && decide (l < (pa + n) / 64)
  let s := (List.range (n / 64)).foldl (fun s k => dirtyMere (touchMere s (pa + 64 * k) 0) (pa / 64 + k)) s
  let s := s.onHomes fun h => { h with zp := h.zp.filter (!hit ·), lineKey := h.lineKey.filter fun x => !hit x.1 }
  s.onRcv fun r => { r with poisonWords := r.poisonWords.filter fun w => !hit (w / 8), poisonLines := r.poisonLines.filter fun x => !hit x.1 }

/-- A word of HBM is poisoned where it stands: in the mere that holds its line, or else its line. DEDUCED, log 36. -/
def poisonCopy (s : State) (w : Nat) : State :=
  s.onRcv fun r =>
    if s.homes.meres.any fun (_, ls) => ls.any (·.line == w / 8) then { r with poisonWords := w :: r.poisonWords }
    else { r with poisonLines := mput r.poisonLines (w / 8) 3 }

/-- Step 3: the tussock memory in STBUF, with its uncorrectable words poisoned in the copy. DEDUCED, log 36 and 59. -/
def saveTussock (s : State) (u buf : Nat) : State :=
  let b := tusBase u
  let s := freshLines (s.onMem fun m => copyMem m b buf (2 ^ 20)) buf (2 ^ 20)
  let copied := (s.rcv.poisonWords.filter fun w => decide (b ≤ 8 * w) && decide (8 * w < b + 2 ^ 20)).map fun w => (buf + (8 * w - b)) / 8
  copied.foldl poisonCopy s

/-- Core cycles of the 150 µs of step 4. -/
def patternCycles : Nat := 600000

/-- STEST_QUIESCED: the end of step 2, and step 3. DEDUCED, log 59. -/
def execStestQuiesced (s : State) : Host.Outcome State Fault Refusal :=
  let d := s.arg.unit
  let t := testOf s d
  .next (match t.phase, t.queue with
    | .quiesce, (u, _) :: _ =>
      if quiesced s u then
        let s := (tussockCores u).foldl (fun s i => s.onSched i fun x => { x with testReq := false }) (saveTussock s u t.stbuf)
        putTest s d { t with phase := .pattern (s.now + patternCycles) }
      else s
    | _, _ => s)

/-- What a test writes into its tussock's bank. -/
def testRec (u cls code : Nat) (fenced : Bool) (misc1 : Word) : McRec :=
  { bank := 512 * (u / 360) + u % 360, code, cls, owner := 0, addr := none, core := none, unit := 0, fenced, stest := true
    poison := false, synd := 0, misc0 := 0, misc1 }

/-! ## Fences (R423) -/

/-- A record of a fenced core goes to its fault mailbox. The spec lists no reason for it (R304). DESIGN CHOICE, log 20. -/
def discardFenced (s : State) (i : Nat) (ws : List Word) (owner : Nat) : State :=
  let (s, r) := takeFree s
  let n := s.owners.droprec
  let s := s.discard i ws (wf r 0 8) owner
  { s with owners := { s.owners with droprec := n } }

/-- The actors of a core stop; their reservations are returned. DEDUCED, log 60. -/
def stopActors (s : State) (i : Nat) : State :=
  let s := (s.core i).sched.actors.foldl (fun s (k, _) => returnReservations s i k) s
  s.onSched i fun d => { d with actors := d.actors.map fun (k, a) => (k, { a with stopped := true }), armed := [] }

/-- A core is fenced; `bank` logs the error. DEDUCED, log 60. -/
def fenceCore (bank : Nat) (pc : Word) (s : State) (i : Nat) : State :=
  let s := s.onRcv fun r => { r with fences := { r.fences with cores := if r.fences.cores.contains i then r.fences.cores else i :: r.fences.cores } }
  let s := if (s.core i).firing.isSome then s.abort i 0x14 (W bank) pc else s
  let s := stopActors s i
  let d := (s.core i).sched
  let recs := d.deque.map (fun t => (t.words, t.owner)) ++
    d.chans.flatMap fun (_, c) => c.items.filterMap fun x => match x with | .data ws _ => some (ws, c.owner) | .marker _ => none
  let s := s.onSched i fun d =>
    { d with
      deque := []
      chans := d.chans.map fun (k, c) =>
        (k, { c with items := c.items.filter fun x => match x with | .data .. => false | .marker _ => true }) }
  recs.foldl (fun s r => discardFenced s i r.1 r.2) s

/-- The firing of core `i` on a fenced tussock has its own program counter. DEDUCED, log 60. -/
def fenceTussock (s : State) (u : Nat) : State :=
  let s := s.onRcv fun r => { r with fences := { r.fences with tussocks := u :: r.fences.tussocks.filter (· != u) } }
  (tussockCores u).foldl (fun s i =>
    fenceCore (512 * (u / 360) + u % 360) (match (s.core i).firing with | some f => f.pc | none => 0) s i) s

/-- A sluice is fenced: what it runs stops with UNCORR. DEDUCED, log 60. -/
def fenceSluice (s : State) (d k : Nat) : State :=
  let s := s.onRcv fun r => { r with fences := { r.fences with sluices := sluiceUnit d k :: r.fences.sluices.filter (· != sluiceUnit d k) } }
  s.eng.copies.foldl (fun s c => if dieOf c.core == d && c.st == .running k then stopCopy s c 9 c.srcAt else s) s

/-- What a fenced lode engine notes for a list: UNCORR, at its next entry or else at the first record without an answer.
DEDUCED, log 38. -/
def LodeJob.uncorr (j : LodeJob) : LodeJob :=
  let a := if j.next < j.count then j.base + W (32 * j.next) else match j.pending with | e :: _ => e.addr | [] => j.base
  { j with next := j.count, noted := some (engineVal 9 a) }

/-- A lode engine is fenced: its lists stop with UNCORR, and those whose records are all answered and returned complete.
DEDUCED, log 60. -/
def fenceLode (s : State) (d k : Nat) : State :=
  let u := lodeUnit d k
  let s := s.onRcv fun r => { r with fences := { r.fences with lodes := u :: r.fences.lodes.filter (· != u) } }
  (lodeOf s u).jobs.foldl (fun s j => settleJob (putJob s u j.uncorr) j.core j.out) s

/-- A mere is fenced: of its dirty lines those in `lost` cannot be read any more and are poisoned in HBM, the others are written
back with the poison of their words; then it holds nothing. DEDUCED, log 60. -/
def fenceMere (s : State) (id : Nat) (lost : List Nat) : State :=
  let ls := (mget? s.homes.meres id).getD []
  let s := s.onRcv fun r => { r with fences := { r.fences with meres := id :: r.fences.meres.filter (· != id) } }
  let s := ls.foldl evictLine s
  let s := s.onRcv fun r =>
    { r with poisonLines := ls.foldl (fun p x => if x.dirty && lost.contains x.line then mput p x.line 5 else p) r.poisonLines }
  s.onHomes fun h => { h with meres := mdel h.meres id }

/-! ## Errors (R419, R421) -/

def ownerAt (s : State) (i : Option Nat) : Nat := match i with | some i => ownerNow (s.core i) | none => 0

/-- An error is logged. -/
def logError (s : State) (e : ErrInfo) (bank cls : Nat) (fenced poison : Bool) : State :=
  s.mcLog
    { bank, code := e.code, cls, owner := ownerAt s e.core, addr := e.addr, core := e.core, unit := e.unit % 256, fenced, stest := false
      poison, synd := e.synd, misc0 := e.misc0, misc1 := e.misc1 }

/-- Code 2: the clean copy that the event names is dropped (R419). The list gives its place: 0 L1, 1 instruction cache, 2 TLB, 3 a
PLB's entry of an owner and slot, and the unit of an engine's, 4 the translation cache's entry of a level and prefix.
DEDUCED, log 61. -/
def dropClean (s : State) (e : ErrInfo) (named : List Nat) : State :=
  let a := e.addr.getD 0
  let mine := fun (o k : Nat) (p : PlbEnt) => p.owner == o && p.slot == k
  match named, e.core with
  | [0], some i => s.onCache i fun c => { c with l1 := c.l1.filter (·.line != a / 64) }
  | [1], some i => s.onCache i fun c => { c with ic := c.ic.filter (·.line != a / 64) }
  | [2], some i => s.onCache i fun c => { c with tlb := c.tlb.filter fun t => !(decide (t.page ≤ a) && decide (a < t.page + t.size)) }
  | [3, o, k], some i => s.onCache i fun c => { c with plb := c.plb.filter (!mine o k ·) }
  | [3, o, k, u], none => s.onEng fun g => { g with plbs := g.plbs.map fun x => if x.1 = u then (u, x.2.filter (!mine o k ·)) else x }
  | [4, l, p], none => s.onWalker (e.bank / 512) fun w => { w with tcache := w.tcache.filter fun x => !(x.1 == l && x.2.1 == p) }
  | _, _ => s

/-- CORRECTED_ERROR: codes 1, 2 and 4, in the bank of the unit. -/
def execCorrectedError (s : State) : Host.Outcome State Fault Refusal :=
  .next (match s.arg.err with
    | none => s
    | some e =>
      if [1, 2, 4].contains e.code && bankExists e.bank && dieOn s (e.bank / 512) && e.core.all (coreOn s) then
        logError (if e.code = 2 then dropClean s e s.arg.list else s) e e.bank 0 false false
      else s)

/-- The consumer of a code line's error: its firing is aborted. DEDUCED, log 19 and 25. -/
def abortConsumer (s : State) (i bank : Nat) (pc : Word) : State :=
  if (s.core i).firing.isSome then s.abort i 0x14 (W bank) pc else s

/-- The instruction at `pc` of core `i` fails with the error after its issue checks: a late fault (R151, R190). An
outstanding instruction completes with it, and a fixed-latency result that is still due is not written. -/
def failReader (s : State) (i : Nat) (bank : Nat) (pc : Word) : State :=
  let c := s.core i
  match c.iss.outs.find? (·.pc == pc), c.firing with
  | some o, _ => s.containOut i o.id bank
  | none, none => s
  | none, some f =>
    let n := (c.traps.cring.find? (·.pc == pc)).map (·.n)
    let tag := ((c.iss.pend.find? fun p => some p.order == n).map (·.tag)).getD 0
    let s := s.onIss i fun k => { k with pend := k.pend.filter fun p => some p.order != n }
    let s := s.onCore i fun c => ringSet c n fun e => { e with st := 2, cause := 0x14, val := W bank, done := some s.now }
    arrive s i
      { cause := 0x14, val := W bank, pc, src := if n.isSome then 1 else 3, seq := n.getD 0, owner := f.owner, firing := f.num
        tag, store := false, at_ := s.now }

/-- The consumer of an error in a vector or matrix unit, by its program counter: the gang instruction of a member fails at its end,
and the members in `corrupt` have had their tile corrupted in a latch (R190); any other instruction completes with the error.
DEDUCED, log 30. -/
def failConsumer (s : State) (i : Nat) (bank : Nat) (pc : Word) (corrupt : List Nat) : State :=
  let fails := fun (g : Gang) => g.members.any fun (k, id, _) => k == i && ((findOut (s.core i) id).map (·.pc) == some pc)
  if s.gangs.any fails then
    { s with gangs := s.gangs.map fun g =>
        if fails g then { g with failed := i :: g.failed, bad := (corrupt.filter fun k => g.members.any (·.1 == k)) ++ g.bad } else g }
  else failReader s i bank pc

/-- The error with the ring index of the instruction that met it (R427). -/
def ofInstr (s : State) (i : Nat) (e : ErrInfo) : ErrInfo :=
  { e with misc1 := W (((((s.core i).traps.cring.find? (·.pc == e.misc0)).map (·.n)).map (ringIndex (s.core i))).getD 0) }

/-- Copies that have read the data stop with UNCORR. -/
def stopConsumers (s : State) (ids : List Nat) : State :=
  ids.foldl (fun s id => match copyOf s id with
    | some c => (match c.st with | .running _ => stopCopy s c 9 c.srcAt | _ => s)
    | none => s) s

/-- Codes 3 and 5 to 7: the word or line is poisoned. A word of a mere has a physical address. -/
def poisonData (s : State) (code a : Nat) : State :=
  s.onRcv fun r =>
    if code = 3 then { r with poisonWords := if r.poisonWords.contains (a / 8) then r.poisonWords else (a / 8) :: r.poisonWords }
    else { r with poisonLines := mput r.poisonLines (a / 64) code }

/-- The address of a poisoned word or line names memory of its kind. -/
def poisonable (s : State) (code a : Nat) : Bool :=
  if code = 3 then
    if (decodeAddr 0 a).any fun l => inRightsArea l 8 then false
    else if a < 2 ^ 40 then s.homes.meres.any fun (_, ls) => ls.any (·.line == a / 64)
    else match decodeAddr 0 a with
      | some (.tcm c o) => locOn s (.tcm c o)
      | some (.tussock t o) => locOn s (.tussock t o)
      | some (.staithe d o) => locOn s (.staithe d o)
      | _ => false
  else decide (a < s.hbmEnd)

/-- CONTAINED_ERROR: the effects of each code. Code 11 is the self-test's own. -/
def containedError (s : State) (e : ErrInfo) : State :=
  let d := e.bank / 512
  let k := e.bank % 512
  match e.code, e.addr, e.core with
  | 8, _, some i => abortConsumer (logError s e (tusBank i) 1 false false) i (tusBank i) e.misc0
  | 9, _, some i =>
    let s := logError s (ofInstr s i e) (tusBank i) 1 false false
    failConsumer (suspectTussock s (tusOf i)) i (tusBank i) e.misc0 s.arg.list
  | 10, _, some i => fenceCore (tusBank i) e.misc0 (logError s e (tusBank i) 1 true false) i
  | 12, _, _ =>
    if d ≤ 8 ∧ 362 ≤ k ∧ k ≤ 377 then fenceSluice (logError s e e.bank 1 true false) d (k - 362)
    else if d ≤ 8 ∧ 378 ≤ k ∧ k ≤ 381 then fenceLode (logError s e e.bank 1 true false) d (k - 378)
    else s
  | 13, _, _ =>
    if d ≤ 8 ∧ 402 ≤ k ∧ k ≤ 419 ∧ e.unit < 40 then
      fenceMere (logError s e e.bank 1 true false) (720 * d + 40 * (k - 402) + e.unit) s.arg.list
    else s
  | 14, _, _ =>
    if d ≤ 8 ∧ d ≠ 4 ∧ 385 ≤ k ∧ k ≤ 400 then fencePort s (16 * (if d < 4 then d else d - 1) + (k - 385)) else s
  | 17, _, some i =>
    let t := e.unit % 64
    let x := tileOf (s.core i) t
    let w := s.arg.off % 128
    let s := setTile s i t { x with poison := if x.poison.contains w then x.poison else w :: x.poison }
    failConsumer (logError s (ofInstr s i e) (tusBank i) 1 false true) i (tusBank i) e.misc0 []
  | 18, _, some i =>
    let s := s.onMtx i fun m => { m with dt := vset m.dt (e.unit % 2) .empty }
    failConsumer (logError s (ofInstr s i e) (tusBank i) 1 false false) i (tusBank i) e.misc0 []
  | c, some a, i =>
    if [3, 5, 6, 7].contains c && poisonable s c a then
      let s := poisonData s c a
      let b := bankOf s a
      let s1 := logError s e b 1 false true
      stopConsumers (match i with | some i => failReader s1 i b e.misc0 | none => s1) s.arg.list
    else s
  | _, _, _ => s

/-- CONTAINED_ERROR. -/
def execContainedError (s : State) : Host.Outcome State Fault Refusal :=
  .next (match s.arg.err with
    | none => s
    | some e => if e.core.all (coreOn s) && (!([12, 13, 14].contains e.code) || dieOn s (e.bank / 512)) then containedError s e else s)

/-! ## Fatal errors (R439) -/

/-- Everything stops: links go down, and the reeve cores of die 0 enter the report loop. DEDUCED, log 61. -/
def goFatal (s : State) (code : Nat) : State :=
  let reason := if code = 16 then 8 else 7
  let s := s.onEng fun e =>
    { e with ports := e.ports.map fun (p, q) => (p, if q.st = .fenced then q else { q.toTrain with st := .down }) }
  let s := s.onRcv fun r => { r with fatal := some code }
  { s with
    boot := { s.boot with st := .report reason, postDue := true, flash := { s.boot.flash with lastReason := reason } } }

/-- FATAL_ERROR: code 15 in the bank of its unit, or 16. DEDUCED, log 61. -/
def execFatalError (s : State) : Host.Outcome State Fault Refusal :=
  .next (match s.arg.err with
    | none => s
    | some e =>
      let unit := decide (e.bank / 512 ≤ 8) && decide (382 ≤ e.bank % 512) && decide (e.bank % 512 ≤ 384)
      if !dieOn s (e.bank / 512) then s
      else if e.code = 15 ∧ unit then goFatal (logError s e e.bank 2 false false) 15
      else if e.code = 16 ∧ bankExists e.bank then goFatal (logError s e e.bank 2 false false) 16
      else s)

/-! ## Self-test, steps 4 and 5 -/

/-- STBUF_WRITE: it also releases the tests that wait after a failure. -/
def execStbufWrite (s : State) : Host.Outcome State Fault Refusal :=
  let d := s.arg.unit
  let t := testOf s d
  .next (if !dieOn s d then s
    else
      let phase := match t.phase with | .failed => TestPhase.idle | p => p
      beginTest (putTest s d { t with stbuf := s.arg.v.toNat, phase := phase }) d)

/-- STEST_PATTERN_END: the slices, lane blocks and memory that failed, or a pass. DEDUCED, log 59. -/
def execStestPatternEnd (s : State) : Host.Outcome State Fault Refusal :=
  let d := s.arg.unit
  let t := testOf s d
  .next (match t.phase, t.queue with
    | .pattern until_, (u, _) :: rest =>
      if s.now < until_ then s
      else
        let bad := s.arg.off % 256 + s.arg.id % 256 * 2 ^ 8 + b2n (s.arg.v != 0) * 2 ^ 16
        if bad = 0 then putTest s d { t with phase := .restore }
        else fenceTussock ((putTest s d { t with queue := rest, phase := .failed }).mcLog (testRec u 1 11 true (W bad))) u
    | _, _ => s)

/-- A pass in the bank of the tussock, under R428; it is no error and is not counted. DEDUCED, log 59. -/
def logPass (s : State) (u : Nat) : State :=
  let r := testRec u 0 0 false 0
  let c := vget (s.bank r.bank) 0 4
  putBank (s.mcLog r) r.bank fun x => vset x 4 c

/-- Step 5: the tussock memory from STBUF; a line of the copy that an error has poisoned poisons the words that it restores.
DEDUCED, log 59. -/
def restoreTussock (s : State) (u buf : Nat) : State :=
  let b := tusBase u
  let hit := fun (a : Nat) => decide (buf ≤ a) && decide (a < buf + 2 ^ 20)
  let s := s.onMem fun m => copyMem m buf b (2 ^ 20)
  let ws := (s.rcv.poisonWords.filter fun w => hit (8 * w)) ++
    (s.rcv.poisonLines.filter fun (l, _) => hit (64 * l)).flatMap fun (l, _) => (List.range 8).map (8 * l + ·)
  let ws := (ws.map fun w => (b + (8 * w - buf)) / 8).eraseDups
  s.onRcv fun r => { r with poisonWords := (ws.filter fun w => !r.poisonWords.contains w) ++ r.poisonWords }

/-- STEST_RESTORE_DONE: step 5, the result, and the next test. DEDUCED, log 59. -/
def execStestRestoreDone (s : State) : Host.Outcome State Fault Refusal :=
  let d := s.arg.unit
  let t := testOf s d
  .next (match t.phase, t.queue with
    | .restore, (u, _) :: rest =>
      let s := logPass (restoreTussock s u t.stbuf) u
      let s := s.onRcv fun r => { r with fences := { r.fences with suspect := r.fences.suspect.filter (· != u) } }
      beginTest (putTest s d { t with queue := rest, phase := .idle }) d
    | _, _ => s)

/-! ## Power and temperature (R440, R441) DEDUCED, log 74. -/
def allRows (s : State) : List Nat := List.range (if s.boot.minimal then 45 else 405)

/-- The rows of the next window: no row twice running, unless every other row has been withheld. DESIGN CHOICE, log 65. -/
def windowOk (s : State) (rows : List Nat) : Bool :=
  rows.all fun r =>
    (allRows s).contains r &&
      (!s.power.withheld.contains r || (allRows s).all fun x => x == r || s.power.rotation.contains x)

/-- These rows are withheld from now on. DESIGN CHOICE, log 65. -/
def withhold (s : State) (rows : List Nat) : State :=
  let p := s.power
  let done := (allRows s).all fun r => p.rotation.contains r || rows.contains r
  { s with power := { p with withheld := rows, rotation := if done then rows else rows ++ p.rotation.filter fun r => !rows.contains r } }

/-- Core cycles of 1 ms. -/
def windowCycles : Nat := 4000000

/-- POWER_WINDOW: the mean power of the last window, and the rows of the next. DESIGN CHOICE, log 65. -/
def execPowerWindow (s : State) : Host.Outcome State Fault Refusal :=
  .next (if s.now < s.power.window + windowCycles || !windowOk s s.arg.list then s
    else
      let above := decide (s.power.pcap ≠ 0) && decide (s.power.pcap < s.arg.id)
      let s := { s with power := { s.power with pnow := s.arg.id, withholding := above, window := s.now } }
      withhold s (if above || s.power.throttled then s.arg.list else []))

/-- THERMAL_THROTTLE_ON: 95 °C is reached. DESIGN CHOICE, log 65. -/
def execThermalThrottleOn (s : State) : Host.Outcome State Fault Refusal :=
  .next (if s.arg.id < 95 || decide (110 ≤ s.arg.id) || !windowOk s s.arg.list then s
    else
      let s := { s with power := { s.power with tj := s.arg.id, throttled := true } }
      if s.power.withholding then s else withhold s s.arg.list)

/-- THERMAL_THROTTLE_OFF: TJMAX is below 90 °C. DESIGN CHOICE, log 65. -/
def execThermalThrottleOff (s : State) : Host.Outcome State Fault Refusal :=
  .next (if 90 ≤ s.arg.id then s
    else
      let s := { s with power := { s.power with tj := s.arg.id, throttled := false } }
      if s.power.withholding then s else withhold s [])

/-- THERMAL_FATAL: fatal error 16, logged in the bank that the event names. DEDUCED, log 61; DESIGN CHOICE, log 65. -/
def execThermalFatal (s : State) : Host.Outcome State Fault Refusal :=
  .next (if s.arg.id < 110 then s
    else
      let e : ErrInfo := { bank := s.arg.unit, code := 16, addr := none, core := none, unit := 0, synd := 0, misc0 := 0, misc1 := 0 }
      let s := { s with power := { s.power with tj := s.arg.id } }
      goFatal (if bankExists e.bank then logError s e e.bank 2 false false else s) 16)

end Sys2Proof.Machine
end

