-- ==== Sys2Proof/Machine/Boot.lean ====
section
/-! DEFINITION. Bring-up (R433 to R437), the host's and the reeve cores' registers (R6, R18, R438), token arbitration (R323, R324)
and the debugger's stops (R194, R197, R296, R320). -/

namespace Sys2Proof.Machine

/-! ## Bring-up -/

/-- The module after a reset: what lives outside it stays, module flash and the posts that it has sent. DESIGN CHOICE, log 3. -/
def resetModule (s : State) : State :=
  { State.reset with agenda := s.agenda, boot := { Boot.reset with flash := s.boot.flash, posts := s.boot.posts } }

/-- POWER_ON: step 1 of R433, and the choice of R434. -/
def execPowerOn (s : State) : Host.Outcome State Fault Refusal :=
  let s := resetModule s
  let n := s.boot.flash.fails
  .next { s with
    boot := { s.boot with st := .rom, minimal := decide (3 ≤ n), flash := { s.boot.flash with fails := (n + 1) % 2 ^ 64 } } }

/-- MODULE_RESET. -/
def execModuleReset (s : State) : Host.Outcome State Fault Refusal := .next (resetModule s)

/-- A start fails with a reason of R433; a status POST is due. DEDUCED, log 62. -/
def failStart (s : State) (r : Nat) : State :=
  { s with boot := { s.boot with st := .failed r, postDue := true, flash := { s.boot.flash with lastReason := r } } }

/-- BOOT_FETCH_FAILURE. -/
def execBootFetchFailure (s : State) : Host.Outcome State Fault Refusal :=
  .next (match s.boot.st with | .rom => failStart s 1 | _ => s)

/-- BRINGUP_FAILURE: an HBM stack, or a die of a full start. -/
def execBringupFailure (s : State) : Host.Outcome State Fault Refusal :=
  .next (match s.boot.st with
    | .firmware => if s.arg.v ≠ 0 then failStart s 5 else if s.boot.minimal then s else failStart s 4
    | _ => s)

/-- Core cycles of 900 s. -/
def bootCycles : Nat := 3600000000000

/-- BOOT_TIMEOUT. DEDUCED, log 62. -/
def execBootTimeout (s : State) : Host.Outcome State Fault Refusal :=
  .next (if s.now < s.boot.powerOn + bootCycles then s
    else match s.boot.st with
      | .rom => failStart s 6
      | .firmware => failStart s 6
      | _ => s)

/-! ### The boot image (R436) -/

/-- A segment entry: its 32 bytes and fields. -/
structure Segment where
  entry : List Byte
  paddr : Nat
  off : Nat
  len : Nat
  kind : Nat
  deriving DecidableEq, Repr

def slice (bs : List Byte) (off n : Nat) : List Byte := (bs.drop off).take n
def leAt (bs : List Byte) (off n : Nat) : Nat := ofLe (slice bs off n)

def imageSegs (bs : List Byte) : List Segment :=
  (List.range (min (leAt bs 24 4) (bs.length / 32))).map fun k =>
    let o := 64 + 32 * k
    { entry := slice bs o 32, paddr := leAt bs o 8, off := leAt bs (o + 8) 8, len := leAt bs (o + 16) 8, kind := leAt bs (o + 24) 1 }

/-- No two segments overlap. DEDUCED, log 62. -/
def segsApart : List Segment → Bool
  | [] => true
  | x :: xs => xs.all (fun y => !rangesMeet x.off x.len y.off y.len || x.len == 0 || y.len == 0) && segsApart xs

/-- A segment's contents lie between the segment table and SIG, and its destination in installed memory. DEDUCED, log 62. -/
def segOk (s : State) (bs : List Byte) (x : Segment) : Bool :=
  decide (64 + 32 * leAt bs 24 4 ≤ x.off) && decide (x.off + x.len ≤ bs.length - 96) && decide (x.paddr + x.len ≤ s.hbmEnd)

/-- The checks of R436 apart from the version. DESIGN CHOICE, log 11; DEDUCED, log 62. -/
def imageOk (s : State) (bs : List Byte) : Bool :=
  let segs := imageSegs bs
  slice bs 0 4 == [0x45, 0x39, 0x42, 0x49] && leAt bs 4 4 == 1 && leAt bs 16 8 == bs.length &&
    decide (64 + 32 * leAt bs 24 4 + 96 ≤ bs.length) && segs.all (segOk s bs) && segsApart segs && Config.signatureOk bs

/-- A page that a live world's measured range names has bytes in [pa, pa + n), under the page table of some die (R408).
DEDUCED, log 50. -/
def physMeasured (s : State) (pa n w : Nat) : Bool :=
  let base := (readWord s.mem (worldDesc w + 8)).toNat
  let len := (readWord s.mem (worldDesc w + 16)).toNat
  wb (readWord s.mem (worldDesc w)) 63 && len != 0 &&
    (List.range ((base + len - 1) / 65536 - base / 65536 + 1)).any fun k => (List.range 9).any fun d =>
      let va := (base / 65536 + k) * 65536
      match leafNow s (s.walker d).ptbase va 4 with
      | some (t, _) =>
        let lo := max base va
        rangesMeet (t.frame + (lo - t.page)) (min (base + len) (va + 65536) - lo) pa n
      | none => false

/-- Bytes written line by line to HBM. -/
def putLines (s : State) (pa : Nat) : Nat → List Byte → State
  | 0, _ => s
  | n + 1, bs =>
    if bs.isEmpty then s
    else
      let k := 64 - pa % 64
      putLines (s.putPhysLine pa (bs.take k)) (pa + k) n (bs.drop k)

/-- Bytes that the reeve cores or ROM write to HBM: each line performed at its home, and counted where a measured range holds it
(R202, R408). DEDUCED, log 50. -/
def putPhys (s : State) (pa : Nat) (bs : List Byte) : State :=
  let ws := (List.range 256).filter fun w => w != 0 && physMeasured s pa bs.length w
  putLines { s with owners := { s.owners with measured := s.owners.measured ++ ws } } pa (bs.length / 64 + 2) bs

/-- The measurement over the segments of a kind, each preceded by its entry. DESIGN CHOICE, log 11. -/
def measure (bs : List Byte) (kind : Nat) : BitVec 384 :=
  Config.sha384 (((imageSegs bs).filter (·.kind == kind)).flatMap fun x => x.entry ++ slice bs x.off x.len)

/-- The bytes of a range as its home gives them under the page table of die 0; `none` where a page is not mapped.
DESIGN CHOICE, log 11. -/
def rangeBytes (s : State) (va : Nat) : Nat → Option (List Byte)
  | 0 => some []
  | n + 1 =>
    match leafNow s (s.walker 0).ptbase va 4 with
    | some (t, _) => (rangeBytes s (va + 1) n).map (homeByte s (t.frame + (va - t.page)) t.key :: ·)
    | none => none

/-- Attestation evidence (R408). -/
structure Evidence where
  layers : List (BitVec 384)
  mgen : Word
  wgen : Nat
  sig : List Byte
  deriving DecidableEq, Repr

/-- The evidence for a live world: the digests of layers 0 to 3, the generations, and the signature by the key of the layer above.
DESIGN CHOICE, log 11. -/
def State.evidence (s : State) (w : Nat) : Option Evidence :=
  let v := readWord s.mem (worldDesc w)
  if !wb v 63 then none
  else (rangeBytes s (readWord s.mem (worldDesc w + 8)).toNat (readWord s.mem (worldDesc w + 16)).toNat).map fun bs =>
    let above := [Config.sha384 Config.identityKey, s.boot.layer1, s.boot.layer2]
    let layer3 := Config.sha384 bs
    let msg := leBytes 48 layer3.toNat ++ leBytes 8 s.owners.mgen.toNat ++ leBytes 4 (wf v 0 32)
    { layers := above ++ [layer3], mgen := s.owners.mgen, wgen := wf v 0 32, sig := Config.layerSign above msg }

/-- BOOT_IMAGE_FETCHED: step 3 of R433. DEDUCED, log 62. -/
def execBootImageFetched (s : State) : Host.Outcome State Fault Refusal :=
  let bs := s.arg.data
  .next (match s.boot.st with
    | .rom =>
      if !imageOk s bs then failStart s 2
      else if leAt bs 8 8 < Config.versionFloor then failStart s 3
      else
        let s := (imageSegs bs).foldl (fun s x => if x.len = 0 then s else putPhys s x.paddr (slice bs x.off x.len)) s
        { s with boot := { s.boot with st := .firmware, entry := leAt bs 32 8, layer1 := measure bs 0, layer2 := measure bs 1 } }
    | _ => s)

/-- BOOTOK_WRITE: step 5. FAILS returns to zero in a full start only; in minimal mode a POST is due. -/
def execBootokWrite (s : State) : Host.Outcome State Fault Refusal :=
  .next (match s.boot.st with
    | .firmware =>
      let b := { s.boot with st := .ok, okWritten := true }
      let full : Boot := { b with flash := { b.flash with fails := 0 } }
      let min : Boot := { b with postDue := true }
      { s with boot := if b.minimal then min else full }
    | _ => s)

/-- VSEC_CLEAR_WRITE (R435). -/
def execVsecClearWrite (s : State) : Host.Outcome State Fault Refusal :=
  .next (if wb s.arg.v 17 then { s with boot := { s.boot with flash := { s.boot.flash with fails := 0 } } } else s)

/-- Core cycles of 60 s. -/
def postCycles : Nat := 240000000000

/-- STATUS_POST (R435, R437): one that is due, or the next of the report loop. DEDUCED, log 62. -/
def execStatusPost (s : State) : Host.Outcome State Fault Refusal :=
  let b := s.boot
  let again := match b.st with | .report _ => decide (b.lastPost + postCycles ≤ s.now) | _ => false
  .next (if b.postDue || again then
      let p : Post :=
        { reason := b.flash.lastReason, fails := b.flash.fails, minimal := b.minimal
          id := Config.sha384 Config.identityKey, mgen := if b.okWritten then s.owners.mgen.toNat else 0 }
      { s with boot := { b with posts := b.posts ++ [p], postDue := false, lastPost := s.now } }
    else s)

/-! ## Registers of the host and of the reeve cores -/

/-- MODNUM_WRITE (R18): the first write with SET; the ports whose TARGET lets them leave DOWN (R280). -/
def execModnumWrite (s : State) : Host.Outcome State Fault Refusal :=
  .next (if s.modnum.isSome || !wb s.arg.v 63 then s
    else
      let s := { s with modnum := some (wf s.arg.v 0 14) }
      s.onEng fun e =>
        { e with ports := e.ports.map fun (p, q) =>
            (p, if q.st = .down ∧ q.target ≠ 0 ∧ ¬ s.boot.minimal then q.toTrain else q) })

/-- HOST_STATUS_WRITE (R438). DEDUCED, log 64. -/
def execHostStatusWrite (s : State) : Host.Outcome State Fault Refusal := .next { s with windrop := s.windrop + 1 }

/-- A word of a 512-byte field. -/
def putField (bs : List Byte) (off : Nat) (v : Word) : List Byte :=
  let bs := bs ++ List.replicate (512 - bs.length) 0
  bs.take off ++ leBytes 8 v.toNat ++ bs.drop (off + 8)

/-- A walker register (R210). DEDUCED, log 63. -/
def walkerReg (s : State) (d off : Nat) (v : Word) : State :=
  match off with
  | 0x00 => s.onWalker d fun k => { k with ptbase := wf v 13 27 * 2 ^ 13 }
  | 0x08 => s.onWalker d fun k => { k with sdva := wf v 16 40 * 2 ^ 16 }
  | 0x10 => s.onWalker d fun k => { k with sdpa := wf v 16 24 * 2 ^ 16 }
  | 0x18 => sdctlWrite s d v
  | 0x28 => s.onWalker d fun k => { k with walks := v }
  | 0x30 => s.onWalker d fun k => { k with badpte := v }
  | _ => s

/-- Registers from 0xFF_8100_0000 on: HOSTOWN, WINDROP and the quotas. DEDUCED, log 63. -/
def hostReg (s : State) (off : Nat) (v : Word) : State :=
  let d := off / 0x10000
  let o := off % 0x10000
  if off = 0 then { s with hostown := wf v 0 16 }
  else if off = 8 then { s with windrop := v }
  else if dieOn s d ∧ 0x100 ≤ o ∧ o < 0x300 then
    let k := (o - 0x100) / 128
    let s := startPeriods s d
    { s with quotas := mput s.quotas (4 * d + k) (vset (quotasOf s d k) ((o - 0x100) / 8 % 16) (wf v 0 32)) }
  else s

/-- A word of a core's supervisor binding (R357). -/
def bindingReg (s : State) (i k : Nat) (v : Word) : State :=
  if !coreOn s i then s
  else s.onSched i fun d =>
    match k with
    | 0 => { d with traph := v }
    | 1 => { d with scodeb := v }
    | 2 => { d with sowner := wf v 0 16 }
    | _ => d

/-- Registers from 0xFF_8600_0000 on: FQTAIL and PCAP. FQHEAD, PNOW and TJMAX are read only. DEDUCED, log 63. -/
def moduleReg (s : State) (off : Nat) (v : Word) : State :=
  if off = 0x10 then s.onRcv fun r => { r with fqtail := v.toNat }
  else if off = 0x100 then { s with power := { s.power with pcap := v.toNat } }
  else s

/-- Module flash (R437). -/
def flashReg (s : State) (off : Nat) (v : Word) : State :=
  let put := fun (f : Flash → Flash) => { s with boot := { s.boot with flash := f s.boot.flash } }
  if off = 0 then put fun f => { f with fails := v.toNat }
  else if off = 8 then put fun f => { f with lastReason := wf v 0 8 }
  else if 0x100 ≤ off ∧ off < 0x300 then put fun f => { f with bootUrl := putField f.bootUrl (off - 0x100) v }
  else if 0x300 ≤ off ∧ off < 0x500 then put fun f => { f with recUrl := putField f.recUrl (off - 0x300) v }
  else s

/-- Counters of a port (R280). DEDUCED, log 63. -/
def portReg (s : State) (p k : Nat) (v : Word) : State :=
  if 128 ≤ p ∨ !dieOn s (portDie p) then s
  else onPort s p fun q =>
    match k with
    | 2 => { q with replays := v }
    | 3 => { q with crcerr := v }
    | 4 => { q with authfail := v }
    | 5 => { q with badpkt := v }
    | _ => q

/-- Half of a route table entry (R282). -/
def routeReg (s : State) (off : Nat) (v : Word) : State :=
  let m := off / 16
  let old := ((mget? s.eng.routes m).getD 0).toNat
  let new := if off % 16 = 0 then old / 2 ^ 64 * 2 ^ 64 + v.toNat else v.toNat * 2 ^ 64 + old % 2 ^ 64
  s.onEng fun e => { e with routes := mput e.routes m (BitVec.ofNat 128 new) }

/-- REEVE_REGISTER_WRITE (R6): a word of a register without behaviour of its own, or of installed memory.
DEDUCED, log 63 and 64. -/
def execReeveRegisterWrite (s : State) : Host.Outcome State Fault Refusal :=
  let a := s.arg.off
  let v := s.arg.v
  let o := a % 2 ^ 24
  .next (if a % 8 ≠ 0 then s
    else if a < s.hbmEnd then putPhys s a (leBytes 8 v.toNat)
    else match a / 2 ^ 24 with
      | 0xFF80 => if dieOn s (o / 0x10000) then walkerReg s (o / 0x10000) (o % 0x10000) v else s
      | 0xFF81 => hostReg s o v
      | 0xFF82 => bindingReg s (o / 64) (o / 8 % 8) v
      | 0xFF83 => if o = 0x18 then { s with owners := { s.owners with droprec := v } } else s
      | 0xFF86 => moduleReg s o v
      | 0xFF87 => flashReg s o v
      | 0xFF88 => portReg s (o / 64) (o / 8 % 8) v
      | 0xFF89 => if o < 0x40000 then routeReg s o v else s
      | _ => s)

/-! ## Token arbitration (R323, R324) -/

/-- The requests that wait at a queue as (class, units): 64 bytes of a copy, a flit of a packet, an entry of a send list. What waits
at the HBM controllers is the event's to say. DEDUCED, log 52. -/
def unitsWaiting (s : State) (d k : Nat) : List (Nat × Nat) :=
  match k with
  | 0 => s.arg.list.map fun c => (c % 16, (arbOf s d 0).creditOf (c % 16) + 1)
  | 1 => copyUnits s d
  | 2 => flitUnits s d
  | _ => lodeUnits s d

/-- QUEUE_SERVE. DEDUCED, log 52. -/
def execQueueServe (s : State) : Host.Outcome State Fault Refusal :=
  let d := s.arg.unit
  let k := s.arg.off
  .next (if dieOn s d && decide (k < 4) then grantUnit s d k (unitsWaiting s d k) else s)

/-! ## The debugger (R194, R197, R296, R320) DEDUCED, log 66. -/
def Arrival.includes (a : Arrival) (i : Nat) : Bool := decide (a.x0 ≤ i) && decide (i < a.x0 + a.n)

/-- DEBUG_STOP: the counts of arrivals for gangs of the core stand still. DEDUCED, log 66; DESIGN CHOICE, log 71. -/
def execDebugStop (s : State) : Host.Outcome State Fault Refusal :=
  let i := s.arg.core
  .next (if !coreOn s i || (s.core i).stopped.isSome then s
    else
      let s := s.onCore i fun c => { c with stopped := some s.now }
      { s with arrivals := s.arrivals.map fun a => if a.includes i && a.hold.isNone && !a.expired s.now then { a with hold := some s.now } else a })

/-- A lease after a stop that began at `t`. DEDUCED, log 66. -/
def laterLease (t now expire : Nat) : Nat :=
  if expire ≤ t then expire else if t + 16384 < expire then now + 16384 else expire + (now - t)

/-- DEBUG_RESUME: leases, budget and the counts of gangs without another stopped member go on from where they stood.
DEDUCED, log 66; DESIGN CHOICE, log 71. -/
def execDebugResume (s : State) : Host.Outcome State Fault Refusal :=
  let i := s.arg.core
  .next (match (s.core i).stopped with
    | none => s
    | some t =>
      let s := s.onCore i fun c =>
        { c with
          stopped := none
          firing := c.firing.map fun f => { f with budgetEnd := if t ≤ f.budgetEnd then f.budgetEnd + (s.now - t) else f.budgetEnd }
          cache :=
            { c.cache with
              l1 := c.cache.l1.map fun (l : L1Line) => { l with expire := laterLease t s.now l.expire }
              ic := c.cache.ic.map fun (l : ICLine) => if l.expire = 0 then l else { l with expire := laterLease t s.now l.expire } } }
      let free := fun (a : Arrival) => (List.range a.n).all fun k => (s.core (a.x0 + k)).stopped.isNone
      { s with arrivals := s.arrivals.map fun a =>
          match a.hold with
          | some h => if free a then { a with at_ := a.at_ + (s.now - h), hold := none } else a
          | none => a })

end Sys2Proof.Machine
end

