-- ==== Sys2Proof/Machine/Int.lean ====
section
/-! DEFINITION. Integer instructions, groups 1 and 2 (R70 to R77). Moves that touch a stream are with the
streams. -/

namespace Sys2Proof.Machine

abbrev Out3 := Host.Outcome State Fault Refusal

/-- A typed two-operand instruction: the exact result of R71, formed by R69. -/
def intBin (h : Hdr) (lat : Nat) (d a b : GReg) (ty : IntTy) (sat : Bool) (f : Int → Int → Int) (s : State) : Out3 :=
  issueReg h lat
    (fun c => [gdest c d (resultOf ty sat (f (opnd ty (gread c a)) (opnd ty (gread c b))))]) s

/-- A 64-bit two-operand instruction. -/
def bitBin (h : Hdr) (d a b : GReg) (f : Word → Word → Word) (s : State) : Out3 :=
  issueReg h 1 (fun c => [gdest c d (f (gread c a) (gread c b))]) s

/-- A 64-bit one-operand instruction. -/
def bitUn (h : Hdr) (d a : GReg) (f : Word → Word) (s : State) : Out3 :=
  issueReg h 1 (fun c => [gdest c d (f (gread c a))]) s

/-- A typed immediate instruction, b := opnd(sext(IMM32, 32)) (R77). -/
def intImm (h : Hdr) (lat : Nat) (d a : GReg) (ty : IntTy) (sat : Bool) (imm : BitVec 32) (f : Int → Int → Int)
    (s : State) : Out3 :=
  issueReg h lat
    (fun c => [gdest c d (resultOf ty sat (f (opnd ty (gread c a)) (opnd ty (simm imm))))]) s

/-- floor(a × b / 2^w) (R71). -/
def mulHigh (ty : IntTy) (a b : Int) : Int := Int.fdiv (a * b) (2 ^ IntTy.width ty : Int)

/-- The shift amount bits(B, 5, 0). -/
def amount (b : Word) : Nat := wf b 0 6

/-- Field position of R73: lo and len, cut to 64 - lo. -/
def fieldLo (b : Word) : Nat := wf b 0 6
def fieldLen (b : Word) : Nat := min (wf b 8 7) (64 - fieldLo b)

/-- `bfx` (R73). -/
def fieldExtract (sign : Bool) (a b : Word) : Word :=
  let f := fld a.toNat (fieldLo b) (fieldLen b)
  if sign && decide (0 < fieldLen b) then sextN f (fieldLen b) else W f

/-- `bfi` (R73). -/
def fieldInsert (a b c : Word) : Word :=
  let m := W ((2 ^ fieldLen b - 1) * 2 ^ fieldLo b)
  (a &&& ~~~m) ||| ((c <<< fieldLo b) &&& m)

/-- Conditions of R75 on the low w bits. -/
def condHolds (c : Cond) (w : Nat) (a b : Word) : Bool :=
  let ua := fld a.toNat 0 w
  let ub := fld b.toNat 0 w
  let sa := toIntN ua w
  let sb := toIntN ub w
  match c with
  | .eq => ua == ub
  | .ne => ua != ub
  | .lt => decide (sa < sb)
  | .le => decide (sa ≤ sb)
  | .gt => decide (sb < sa)
  | .ge => decide (sb ≤ sa)
  | .ltn => decide (ua < ub)
  | .len => decide (ua ≤ ub)
  | .gtn => decide (ub < ua)
  | .gen => decide (ub ≤ ua)
  | .tst => (ua &&& ub) != 0
  | .ntst => (ua &&& ub) == 0

def CmpW.bits : CmpW → Nat
  | .w64 => 64 | .w32 => 32 | .w16 => 16 | .w8 => 8

/-! ## Group 1 -/

/-- `add` (R71). -/
def execAdd (h : Hdr) (d a b : GReg) (ty : IntTy) (sat : Bool) (s : State) : Out3 :=
  intBin h 1 d a b ty sat (· + ·) s

/-- `sub` (R71). -/
def execSub (h : Hdr) (d a b : GReg) (ty : IntTy) (sat : Bool) (s : State) : Out3 :=
  intBin h 1 d a b ty sat (· - ·) s

/-- `mul` (R71), 3 cycles (R50). -/
def execMul (h : Hdr) (d a b : GReg) (ty : IntTy) (sat : Bool) (s : State) : Out3 :=
  intBin h 3 d a b ty sat (· * ·) s

/-- `mulh` (R71). -/
def execMulh (h : Hdr) (d a b : GReg) (ty : IntTy) (s : State) : Out3 :=
  intBin h 3 d a b ty false (mulHigh ty) s

/-- `mulhn` (R71). -/
def execMulhn (h : Hdr) (d a b : GReg) (ty : IntTy) (s : State) : Out3 :=
  intBin h 3 d a b ty false (mulHigh ty) s

/-- `div` (R72), 20 cycles. -/
def execDiv (h : Hdr) (d a b : GReg) (ty : IntTy) (s : State) : Out3 :=
  intBin h 20 d a b ty false (quotOf ty) s

/-- `divn` (R72). -/
def execDivn (h : Hdr) (d a b : GReg) (ty : IntTy) (s : State) : Out3 :=
  intBin h 20 d a b ty false (quotOf ty) s

/-- `rem` (R72). -/
def execRem (h : Hdr) (d a b : GReg) (ty : IntTy) (s : State) : Out3 :=
  intBin h 20 d a b ty false remOf s

/-- `remn` (R72). -/
def execRemn (h : Hdr) (d a b : GReg) (ty : IntTy) (s : State) : Out3 :=
  intBin h 20 d a b ty false remOf s

/-- `and` (R71). -/
def execAnd (h : Hdr) (d a b : GReg) (s : State) : Out3 :=
  bitBin h d a b (· &&& ·) s

/-- `or` (R71). -/
def execOr (h : Hdr) (d a b : GReg) (s : State) : Out3 :=
  bitBin h d a b (· ||| ·) s

/-- `xor` (R71). -/
def execXor (h : Hdr) (d a b : GReg) (s : State) : Out3 :=
  bitBin h d a b (· ^^^ ·) s

/-- `andn`: A AND NOT B (R71). -/
def execAndn (h : Hdr) (d a b : GReg) (s : State) : Out3 :=
  bitBin h d a b (fun x y => x &&& ~~~y) s

/-- `orn`: A OR NOT B (R71). -/
def execOrn (h : Hdr) (d a b : GReg) (s : State) : Out3 :=
  bitBin h d a b (fun x y => x ||| ~~~y) s

/-- `shl` by bits(B, 5, 0) (R71). -/
def execShl (h : Hdr) (d a b : GReg) (s : State) : Out3 :=
  bitBin h d a b (fun x y => x <<< amount y) s

/-- `shr`, filling with zeros (R71). -/
def execShr (h : Hdr) (d a b : GReg) (s : State) : Out3 :=
  bitBin h d a b (fun x y => x >>> amount y) s

/-- `sra`, filling with bit 63 (R71). -/
def execSra (h : Hdr) (d a b : GReg) (s : State) : Out3 :=
  bitBin h d a b (fun x y => x.sshiftRight (amount y)) s

/-- `rol` (R71). -/
def execRol (h : Hdr) (d a b : GReg) (s : State) : Out3 :=
  bitBin h d a b (fun x y => x.rotateLeft (amount y)) s

/-- `clz` (R71). -/
def execClz (h : Hdr) (d a : GReg) (s : State) : Out3 :=
  bitUn h d a (fun x => W (clzN 64 x.toNat)) s

/-- `ctz` (R71). -/
def execCtz (h : Hdr) (d a : GReg) (s : State) : Out3 :=
  bitUn h d a (fun x => W (ctzN 64 x.toNat)) s

/-- `popc` (R71). -/
def execPopc (h : Hdr) (d a : GReg) (s : State) : Out3 :=
  bitUn h d a (fun x => W (popN 64 x.toNat)) s

/-- `min`, signed (R71). -/
def execMin (h : Hdr) (d a b : GReg) (ty : IntTy) (s : State) : Out3 :=
  intBin h 1 d a b ty false min s

/-- `max`, signed (R71). -/
def execMax (h : Hdr) (d a b : GReg) (ty : IntTy) (s : State) : Out3 :=
  intBin h 1 d a b ty false max s

/-- `minn`, unsigned (R71). -/
def execMinn (h : Hdr) (d a b : GReg) (ty : IntTy) (s : State) : Out3 :=
  intBin h 1 d a b ty false min s

/-- `maxn`, unsigned (R71). -/
def execMaxn (h : Hdr) (d a b : GReg) (ty : IntTy) (s : State) : Out3 :=
  intBin h 1 d a b ty false max s

/-- `abs` (R71): the exact |a|, wrapped or saturated by R69. -/
def execAbs (h : Hdr) (d a : GReg) (ty : IntTy) (sat : Bool) (s : State) : Out3 :=
  issueReg h 1 (fun c => [gdest c d (resultOf ty sat ((opnd ty (gread c a)).natAbs : Int))]) s

/-- `sext.n`, `n1` = n - 1 (R71). -/
def execSext (h : Hdr) (d a : GReg) (n1 : Fin 64) (s : State) : Out3 :=
  bitUn h d a (fun x => sextN x.toNat (n1.val + 1)) s

/-- `zext.n`, `n1` = n - 1 (R71). -/
def execZext (h : Hdr) (d a : GReg) (n1 : Fin 64) (s : State) : Out3 :=
  bitUn h d a (fun x => W (fld x.toNat 0 (n1.val + 1))) s

/-- `bfx` (R73). -/
def execBfx (h : Hdr) (d a b : GReg) (sign : Bool) (s : State) : Out3 :=
  bitBin h d a b (fieldExtract sign) s

/-- `bfi` (R73). -/
def execBfi (h : Hdr) (d a b c : GReg) (s : State) : Out3 :=
  issueReg h 1 (fun k => [gdest k d (fieldInsert (gread k a) (gread k b) (gread k c))]) s

/-- `mov` between g and p (R74). -/
def execMov (h : Hdr) (x : MovArg) (s : State) : Out3 :=
  issueReg h 1
    (fun c => match x with
      | .gg d a => [gdest c d (gread c a)]
      | .gp d a => [gdest c d (W (b2n (pread c a)))]
      | .pg d a => [.p d (gread c a != 0)]
      | .pp d a => [.p d (pread c a)]) s

/-- `cmp` (R75). -/
def execCmp (h : Hdr) (d : PReg) (a b : GReg) (c : Cond) (w : CmpW) (s : State) : Out3 :=
  issueReg h 1 (fun k => [.p d (condHolds c (CmpW.bits w) (gread k a) (gread k b))]) s

/-- `sel` (R71). -/
def execSel (h : Hdr) (d a b : GReg) (c : PReg) (s : State) : Out3 :=
  issueReg h 1 (fun k => [gdest k d (if pread k c then gread k a else gread k b)]) s

/-- `plog` (R76): bit (2·A + B) of the table. -/
def execPlog (h : Hdr) (d a b : PReg) (tt : BitVec 4) (s : State) : Out3 :=
  issueReg h 1 (fun c => [.p d (tt.getLsbD (2 * b2n (pread c a) + b2n (pread c b)))]) s

/-! ## Group 2 (R77) -/

/-- `addi`. -/
def execAddi (h : Hdr) (d a : GReg) (ty : IntTy) (sat : Bool) (imm : BitVec 32) (s : State) : Out3 :=
  intImm h 1 d a ty sat imm (· + ·) s

/-- `movi`: sext(IMM32, 32). -/
def execMovi (h : Hdr) (d : GReg) (imm : BitVec 32) (s : State) : Out3 :=
  issueReg h 1 (fun c => [gdest c d (simm imm)]) s

/-- `movi.n`: zext(IMM32, 32). -/
def execMoviN (h : Hdr) (d : GReg) (imm : BitVec 32) (s : State) : Out3 :=
  issueReg h 1 (fun c => [gdest c d (imm.setWidth 64)]) s

/-- `movh`: IMM32 above bits(A, 31, 0). -/
def execMovh (h : Hdr) (d a : GReg) (imm : BitVec 32) (s : State) : Out3 :=
  bitUn h d a (fun x => (imm.setWidth 64 <<< 32) ||| W (wf x 0 32)) s

/-- `lea`: the effective address of R47. -/
def execLea (h : Hdr) (d : GReg) (x : MemOp) (s : State) : Out3 :=
  issueReg h 1 (fun c => [gdest c d (effAddr c x)]) s

/-- `cmpi` (R75): on 64 bits against sext(IMM32, 32). -/
def execCmpi (h : Hdr) (d : PReg) (a : GReg) (c : Cond) (imm : BitVec 32) (s : State) : Out3 :=
  issueReg h 1 (fun k => [.p d (condHolds c 64 (gread k a) (simm imm))]) s

/-- `and` immediate. -/
def execAndImm (h : Hdr) (d a : GReg) (imm : BitVec 32) (s : State) : Out3 :=
  bitUn h d a (fun x => x &&& simm imm) s

/-- `or` immediate. -/
def execOrImm (h : Hdr) (d a : GReg) (imm : BitVec 32) (s : State) : Out3 :=
  bitUn h d a (fun x => x ||| simm imm) s

/-- `xor` immediate. -/
def execXorImm (h : Hdr) (d a : GReg) (imm : BitVec 32) (s : State) : Out3 :=
  bitUn h d a (fun x => x ^^^ simm imm) s

/-- `shl` immediate. -/
def execShlImm (h : Hdr) (d a : GReg) (n : Fin 64) (s : State) : Out3 :=
  bitUn h d a (fun x => x <<< n.val) s

/-- `shr` immediate. -/
def execShrImm (h : Hdr) (d a : GReg) (n : Fin 64) (s : State) : Out3 :=
  bitUn h d a (fun x => x >>> n.val) s

/-- `sra` immediate. -/
def execSraImm (h : Hdr) (d a : GReg) (n : Fin 64) (s : State) : Out3 :=
  bitUn h d a (fun x => x.sshiftRight n.val) s

/-- `mul` immediate, 3 cycles. -/
def execMulImm (h : Hdr) (d a : GReg) (ty : IntTy) (sat : Bool) (imm : BitVec 32) (s : State) : Out3 :=
  intImm h 3 d a ty sat imm (· * ·) s

end Sys2Proof.Machine
end

