-- ==== Sys2Proof/Machine/Traps.lean ====
section
/-! DEFINITION. Group 12 without the recovery instructions (R368 to R378), trap entry (R362), budget expiry (R367), and aborts
that wait (R300). -/

namespace Sys2Proof.Machine

/-- An instruction for handlers only traps SYSREG with its OPC elsewhere (R368). -/
def needHandler (opc : Nat) (body : Nat → State → Eff) (i : Nat) (s : State) : Eff :=
  if inHandler (s.core i) then body i s else .trap s 0x04 (W opc)

/-! ## tret and tabort (R370, R371) -/

/-- The faulting store whose sequence number ends in `seq` (a frame holds 32 bits of it, R363), kept in the ring, and the stores held behind it.
DEDUCED, log 23. -/
def kept (seq : Nat) (r : SRingEnt) : Bool :=
  r.ent.isSome && (r.held || (decide (r.st = 3) && r.seq % 2 ^ 32 == seq % 2 ^ 32))

/-- The kept stores that leave for their homes: all of them with REPLAY, else all but the faulting one. DEDUCED, log 23. -/
def resent (seq : Nat) (replay : Bool) (r : SRingEnt) : Bool :=
  kept seq r && (replay || !(decide (r.st = 3) && r.seq % 2 ^ 32 == seq % 2 ^ 32))

/-- The fate of the kept stores is decided (R370). DEDUCED, log 22 and 23. -/
def decideHeld (seq : Nat) (replay : Bool) (c : CoreSt) : CoreSt :=
  let go := (c.traps.sring.filter (resent seq replay)).filterMap (·.ent)
  { c with
    cache := { c.cache with wb := go.map (fun e => { e with held := false, sent := false }) ++ c.cache.wb }
    traps :=
      { c.traps with
        sring := c.traps.sring.map fun r =>
          if kept seq r then { r with held := false, ent := none, st := if resent seq replay r then 0 else r.st } else r } }

/-- A tag that the handler allocated has not completed (the fault of a tagged store may still be on its way), or a
fixed-latency result of the handler is not yet written: its registers, predicates and flags are the handler's, so it comes before
the restore. DEDUCED, log 22. -/
def handlerBusy (c : CoreSt) : Bool :=
  c.iss.outs.any (fun o => decide (c.traps.entryOp ≤ o.id) && o.tag != 0) ||
    c.traps.inbound.any (fun f => f.tag != 0 && (c.firing.map (·.num)) == some f.firing && decide (tagOf c f.tag = .outstanding)) ||
    !c.iss.pend.isEmpty

/-- `tret` takes its place in dynamic order as any instruction does. DEDUCED, log 22. -/
def passOn (s : State) (i : Nat) : State :=
  s.onIss i fun k => { k with hist := (s.now + 1) :: k.hist.take 14, next := s.now + 1, opCount := k.opCount + 1 }

/-- What an instruction that reads the frame does with what the read meets. -/
def onFrame (s : State) (i : Nat) (f : Firing) (err : Option (Nat × Nat)) (body : Firing → Eff) : Eff :=
  match err with
  | some e => .done (containFrame s i e f) .moved
  | none => body f

/-- An instruction that reads `n` words of the trap frame from word `k`; poison there aborts the firing (R419, R420). -/
def readFrame (s : State) (i k n : Nat) (body : Firing → Eff) : Eff :=
  match (s.core i).firing with
  | none => .wait s
  | some f => onFrame s i f (framePoison s i k n) body

/-- `tret` (R370). The kept stores are decided once; an attempt that then finds a tag outstanding waits. DEDUCED, log 22 and 23. -/
def execTret (h : Hdr) (next replay : Bool) (s : State) : Host.Outcome State Fault Refusal :=
  issue .none h
    (needHandler 0x300 fun i s => readFrame s i 2 10 fun _ =>
      let w := frameWord s i
      let s := if wb (w 11) 16 && !(s.core i).traps.decided then s.onCore i (decideHeld (wf (w 4) 0 32) replay) else s
      let s := s.onTraps i fun t => { t with decided := true }
      if handlerBusy (s.core i) then .wait s else .done (leaveTrap (passOn s i) i next) .moved) s

/-- `tabort` (R371). DEDUCED, log 23. -/
def execTabort (h : Hdr) (s : State) : Host.Outcome State Fault Refusal :=
  issue .none h
    (fun i s =>
      match (s.core i).firing with
      | none => .wait s
      | some f =>
        if f.handler then readFrame s i 0 4 fun _ =>
          let w := frameWord s i
          .done (s.abort i (wf (w 0) 0 8) (w 1) (w 3)) .moved
        else .done (s.abort i 0x03 0 f.pc) .moved) s

/-! ## wdset and cring (R372, R373) -/

/-- `wdset`. EXT is bit 17 of frame word 11 (R363), from which `tret` takes it back. -/
def execWdset (h : Hdr) (d a : GReg) (s : State) : Host.Outcome State Fault Refusal :=
  issue .none h
    (needHandler 0x309 fun i s => readFrame s i 11 1 fun f =>
      let n := (gread (s.core i) a).toNat
      let w := frameWord s i 11
      if wb w 17 || n == 0 || decide (f.budget < n) then status s i d 1
      else
        let s := s.onFiring i fun f => { f with budgetEnd := max f.budgetEnd s.now + n }
        status (s.putWord (frameAddr i + 88) (w ||| W (2 ^ 17))) i d 0) s

/-- A word of a coprocessor ring entry. A result on its way is outstanding until its cycle. -/
def cringWord (now start : Nat) (e : CRingEnt) (k : Nat) : Word :=
  let st := match e.st, e.done with | 1, some t => if now < t then 0 else 1 | x, _ => x.val
  match k with
  | 0 => e.pc
  | 1 => W (2 ^ 63 + e.cause * 2 ^ 8 + e.tag.val * 2 ^ 4 + st)
  | 2 => e.val
  | _ =>
    let done := if st = 0 then 0xFFFFFFFF else ((e.done.getD now) - start) % 2 ^ 32
    W (done * 2 ^ 32 + (e.issue - start) % 2 ^ 32)

/-- A word of a global-store ring entry. -/
def sringWord (e : SRingEnt) (k : Nat) : Word :=
  match k with
  | 0 => W e.seq
  | 1 => W (2 ^ 63 + e.logSize * 2 ^ 16 + e.cause * 2 ^ 8 + b2n e.held * 2 ^ 2 + e.st.val)
  | 2 => e.addr
  | _ => e.data

/-- `cring`. -/
def execCring (h : Hdr) (d a : GReg) (store : Bool) (k : Fin 4) (s : State) : Host.Outcome State Fault Refusal :=
  issue .none h
    (fun i s =>
      let c := s.core i
      let n := (gread c a).toNat
      let start := match c.firing with | some f => f.start | none => 0
      let v : Word :=
        if store then (match c.traps.sring.find? (·.seq == n) with | some e => sringWord e k.val | none => 0)
        else if 64 ≤ n then 0
        else match c.traps.cring[n]? with | some e => cringWord s.now start e k.val | none => 0
      .done s (.written [gdest c d v])) s

/-! ## Pre-emption (R374) -/

/-- A request is pending at the core, or on its way. -/
def preemptBusy (d : Sched) : Bool := d.preempt.isSome || !d.preemptIn.isEmpty || d.testReq

/-- `preq`. -/
def execPreq (h : Hdr) (d a b c : GReg) (s : State) : Host.Outcome State Fault Refusal :=
  issue .e h
    (needSup 0x303 fun i s =>
      let k := s.core i
      match localDesig s (gread k a) with
      | none => status s i d 4
      | some x =>
        if preemptBusy (s.core x.core).sched then status s i d 1
        else status (s.onSched x.core fun t => { t with preemptIn := t.preemptIn ++ [(gread k b, gread k c)] }) i d 0) s

/-- PREEMPT_REQUEST_ARRIVAL. -/
def execPreemptRequestArrival (s : State) : Host.Outcome State Fault Refusal :=
  let i := s.arg.core
  .next (match (s.core i).sched.preemptIn with
    | [] => s
    | r :: rs =>
      if (s.core i).sched.preempt.isSome then s
      else wakeCore (s.onSched i fun t => { t with preempt := some r, preemptIn := rs }) i)

/-! ## Context save (R376, R377) -/

/-- The parts of a save area: FIRING, TABLES, TILES. -/
structure Parts where
  tables : Bool
  tiles : Bool
  firing : Bool
  deriving DecidableEq, Repr

def Parts.code (p : Parts) : Nat := b2n p.tables + 2 * b2n p.tiles + 4 * b2n p.firing
def Parts.ofCode (n : Nat) : Parts := { tables := fld n 0 1 == 1, tiles := fld n 1 1 == 1, firing := fld n 2 1 == 1 }
def Parts.none_ (p : Parts) : Bool := !(p.tables || p.tiles || p.firing)
def firingBytes : Nat := 896
def tablesBytes : Nat := 2176
def tilesBytes : Nat := 66048
def Parts.length (p : Parts) : Nat :=
  64 + (if p.firing then firingBytes else 0) + (if p.tables then tablesBytes else 0) + (if p.tiles then tilesBytes else 0)
/-- Offsets of the sections. -/
def Parts.tablesAt (p : Parts) : Nat := 64 + if p.firing then firingBytes else 0
def Parts.tilesAt (p : Parts) : Nat := p.tablesAt + if p.tables then tablesBytes else 0
/-- Every part of `q` is a part of `p`. -/
def Parts.has (p q : Parts) : Bool := (!q.tables || p.tables) && (!q.tiles || p.tiles) && (!q.firing || p.firing)

def firingSection (s : State) (i : Nat) : List Byte :=
  let r := (s.core i).regs
  bytesOfWords ((r.g.toList.drop 1) ++ [0]) ++ readBytes s.mem (frameAddr i) 128 ++ leBytes 128 r.wsig.toNat ++ leBytes 128 r.isig.toNat

def DtState.ofCode : Nat → DtState | 1 => .c8 | 2 => .c4 | 3 => .c4p | _ => .empty

def tableBlock (t : DTable) : List Byte :=
  bytesOfWords [W t.st.code, W t.owner, 0, 0, 0, 0, 0, 0] ++
    ((t.ents.flatMap fun e => leBytes 4 e.toNat) ++ List.replicate (1024 - 4 * t.ents.length) 0)

def tablesSection (c : CoreSt) : List Byte := c.mtx.dt.toList.flatMap tableBlock

def tileBytes (t : Tile) : List Byte :=
  (t.elems.flatMap fun e => leBytes 4 e.toNat) ++ List.replicate (1024 - 4 * t.elems.length) 0

def tilesSection (c : CoreSt) : List Byte :=
  let ts := (List.range 64).map (tileOf c)
  bytesOfWords (ts.map fun t => W (match t.owner with | some o => o + 2 ^ 16 | none => 0)) ++ ts.flatMap tileBytes

/-- The sections as they are saved. -/
def saveSections (s : State) (i : Nat) (p : Parts) : List Byte :=
  (if p.firing then firingSection s i else []) ++ (if p.tables then tablesSection (s.core i) else []) ++
    (if p.tiles then tilesSection (s.core i) else [])

def areaHeader (s : State) (i : Nat) (p : Parts) (body : List Byte) : List Byte :=
  bytesOfWords [W (2 ^ 63 + p.code), W p.length, W (crc32c body), coreId s i, 0, 0, 0, 0]

def blocksOf : Nat → List Byte → List (List Byte)
  | 0, _ => []
  | n + 1, bs => bs.take 64 :: blocksOf n (bs.drop 64)

/-- A write of a save performed at its location; false when it fails there. DEDUCED, log 67. -/
def saveWrite (s : State) (i owner : Nat) (ea : Word) (bs : List Byte) : State × Bool :=
  match placeAt s i ea with
  | none => (s, false)
  | some p =>
    if lockedW s p.lockKey bs.length then (s, false)
    else if fencedMem s p then (logPoison s (some i) p.addr 3 owner (pcNow (s.core i)) 0, false)
    else (updateCopy (performWrite (dropAhead s i p.addr bs.length) p bs owner) i p bs, true)

/-- Sections written block by block, until one fails. DEDUCED, log 67. -/
def saveBlocks (i owner : Nat) : State → Word → List (List Byte) → State × Bool
  | s, _, [] => (s, true)
  | s, ea, b :: bs =>
    match saveWrite s i owner ea b with
    | (s, true) => saveBlocks i owner s (ea + 64) bs
    | x => x

/-- The first block of a save that reads a poisoned word of the accumulator store (R421). -/
def poisonedBlock (c : CoreSt) (p : Parts) : Option Nat :=
  if p.tiles then
    firstSome (fun t => (tileOf c t).poison.head?.map fun _ =>
        (p.tilesAt - 64 + 512 + 1024 * t) / 64 + ((tileOf c t).poison.foldl min 127) / 8) (List.range 64)
  else none

def logTilePoison (s : State) (i owner : Nat) : State :=
  let (s, synd) := takeFree s
  s.mcLog
    { bank := tusBank i, code := 17, cls := 1, owner, addr := none, core := some i, unit := 0, fenced := false, stest := false
      poison := true, synd, misc0 := pcNow (s.core i), misc1 := 0 }

/-- The save itself (R377): word 0 zero, the sections, the header. DEDUCED, log 67. -/
def saveArea (s : State) (i owner : Nat) (ea : Word) (p : Parts) : State × Bool :=
  let body := saveSections s i p
  let blocks := blocksOf (body.length / 64) body
  let hd := areaHeader s i p body
  match saveWrite s i owner ea (List.replicate 8 0) with
  | (s, false) => (s, false)
  | (s, true) =>
    match poisonedBlock (s.core i) p with
    | some n =>
      let (s, ok) := saveBlocks i owner s (ea + 64) (blocks.take n)
      (if ok then logTilePoison s i owner else s, false)
    | none =>
      match saveBlocks i owner s (ea + 64) blocks with
      | (s, true) => saveWrite s i owner ea hd
      | x => x

/-- Earlier instructions that use the tables or the accumulator store (R127, R185). -/
def matrixBusy (c : CoreSt) : Bool :=
  c.iss.outs.any (fun o => match o.op with | .gang .. => true | .acc _ => true | .dtload .. => true | _ => false) ||
    tableRead c 0 || tableRead c 1

/-- A block that a save or restore must wait for. -/
def areaBusy (s : State) (i : Nat) (ea : Word) (blocks : Nat) (write : Bool) : Bool :=
  (List.range blocks).any fun b =>
    match placeAt s i (ea + W (64 * b)) with
    | some p =>
      placeBusy s p ||
        (if write then migrationLocked p || (s.core i).cache.wb.any fun e =>
            decide (p.addr < (entSpan e).1 + (entSpan e).2) && decide ((entSpan e).1 < p.addr + 64)
          else false)
    | none => true

/-- `ctxsv` (R377). DEDUCED, log 67. -/
def execCtxsv (h : Hdr) (d a b : GReg) (tables tiles firing clear : Bool) (s : State) : Host.Outcome State Fault Refusal :=
  issue .e h
    (needSup 0x304 fun i s =>
      let c := s.core i
      let ea := gread c a
      let p : Parts := { tables, tiles, firing }
      if ea.toNat % 64 ≠ 0 ∨ p.none_ then status s i d 4
      else if firing && !inHandler c then status s i d 3
      else if (gread c b).toNat < p.length then status s i d (statusWord 10 0 p.length)
      else withRun s i ea 1 (p.length / 64) fun s =>
        if matrixBusy (s.core i) || areaBusy s i ea (p.length / 64) true then .wait s
        else readFrame s i 0 (if firing then 16 else 0) fun _ =>
          match saveArea s i (ownerNow (s.core i)) ea p with
          | (s, false) => status s i d 11
          | (s, true) =>
            status (if clear then s.onMtx i fun m => { m with dt := Vector.replicate 2 .empty, tiles := [] } else s) i d 0) s

/-! ## Context restore (R378) -/

/-- The table of a block of a save area. -/
def tableOf (bs : List Byte) : DTable :=
  let w := wordsLe 2 (bs.take 16)
  let st := DtState.ofCode (wf (w.getD 0 0) 0 2)
  let n := match st with | .empty => 0 | .c8 => 256 | _ => 16
  { st, owner := wf (w.getD 1 0) 0 16
    ents := (List.range n).map fun e => BitVec.ofNat 20 (ofLe ((bs.drop (64 + 4 * e)).take 4)) }

/-- The tiles of a section. -/
def tilesOf (bs : List Byte) : Map Tile :=
  (List.range 64).map fun t =>
    let w := (wordsLe 1 ((bs.drop (8 * t)).take 8)).getD 0 0
    let data := (bs.drop (512 + 1024 * t)).take 1024
    (t, { owner := if wb w 16 then some (wf w 0 16) else none
          elems := (List.range 256).map fun e => BitVec.ofNat 32 (ofLe ((data.drop (4 * e)).take 4)), poison := [] })

/-- The firing's registers, frame and signatures. -/
def loadFiringSection (s : State) (i : Nat) (bs : List Byte) : State :=
  let gs := wordsLe 63 bs
  let s := s.onRegs i fun r =>
    { r with
      g := Vector.ofFn fun k => if k.val = 0 then 0 else gs.getD (k.val - 1) 0
      wsig := BitVec.ofNat 1024 (ofLe ((bs.drop 0x280).take 128)), isig := BitVec.ofNat 1024 (ofLe ((bs.drop 0x300).take 128)) }
  s.putArray (frameAddr i) ((bs.drop 0x200).take 128)

/-- The saved frame is one of the current firing: OWNER, STAGE, SLOT and TASK agree. -/
def sameFiring (s : State) (i : Nat) (bs : List Byte) : Bool :=
  let x := (wordsLe 1 ((bs.drop (0x200 + 40)).take 8)).getD 0 0
  let y := frameWord s i 5
  wf x 0 16 == wf y 0 16 && wf x 24 13 == wf y 24 13

/-- The requested parts are loaded from an area of parts `p`. DEDUCED, log 67. -/
def loadParts (s : State) (i : Nat) (p q : Parts) (area : List Byte) : State :=
  let s := if q.firing then loadFiringSection s i (area.drop 64) else s
  let s := if q.tables then
      let bs := area.drop p.tablesAt
      s.onMtx i fun m => { m with dt := ⟨#[tableOf bs, tableOf (bs.drop 1088)], rfl⟩ }
    else s
  if q.tiles then s.onMtx i fun m => { m with tiles := tilesOf (area.drop p.tilesAt) } else s

/-- `blocks` blocks of the area, or the error that their read meets. -/
def readArea (s : State) (i : Nat) (ea : Word) (blocks : Nat) (k : State → List Byte → Eff) : Eff :=
  withRun s i ea 0 blocks fun s =>
    if matrixBusy (s.core i) || areaBusy s i ea blocks false then .wait s
    else fillRun s i ea blocks fun s => if runBusy s i ea blocks then .wait s
    else match runPoison s i ea blocks with
      | some (p, code) => containEff s i p code
      | none => k (touchBlocks s i ea blocks) ((List.range blocks).flatMap fun b => blockNow s i (ea + W (64 * b)))

/-- `ctxrs` (R378). DEDUCED, log 67. -/
def execCtxrs (h : Hdr) (d a : GReg) (tables tiles firing : Bool) (s : State) : Host.Outcome State Fault Refusal :=
  issue .e h
    (needSup 0x305 fun i s =>
      let ea := gread (s.core i) a
      let q : Parts := { tables, tiles, firing }
      if ea.toNat % 64 ≠ 0 ∨ q.none_ then status s i d 4
      else if firing && !inHandler (s.core i) then status s i d 3
      else readArea s i ea 1 fun s hd =>
        let w := wordsLe 8 hd
        let p := Parts.ofCode (wf (w.getD 0 0) 0 3)
        if !wb (w.getD 0 0) 63 || (w.getD 1 0).toNat != p.length || !p.has q then status s i d 12
        else readArea s i ea (p.length / 64) fun s area =>
          if crc32c (area.drop 64) ≠ wf (w.getD 2 0) 0 32 then status s i d 12
          else readFrame s i 5 (if firing then 1 else 0) fun _ =>
            if firing && !sameFiring s i (area.drop 64) then status s i d 13
            else status (loadParts s i p q area) i d 0) s

/-! ## Events of traps, budgets and aborts -/

/-- TRAP_ENTRY (R362): a pending trap, once what it waits for is over. DESIGN CHOICE, log 77. -/
def execTrapEntry (s : State) : Host.Outcome State Fault Refusal :=
  let i := s.arg.core
  let s := flushDue s i
  .next (match (s.core i).traps.pending with
    | none => s
    | some p => if quiet (s.core i) && (s.core i).stopped.isNone then enterTrap s i p else s)

/-- BUDGET_EXPIRY (R320, R321, R367). DEDUCED, log 24. -/
def execBudgetExpiry (s : State) : Host.Outcome State Fault Refusal :=
  let i := s.arg.core
  let s := flushDue s i
  let c := s.core i
  .next (match c.firing with
    | none => s
    | some f =>
      if !budgetOut s f || c.stopped.isSome || c.traps.abort.isSome then s
      else match c.traps.pending with
        | none => budgetOrder s i f (lateFault c [])
        | some p => if p.cause = 0x13 then s else noteBudget s i)

/-- FIRING_ABORT (R300, R191): an abort that waited for joined gang instructions. -/
def execFiringAbort (s : State) : Host.Outcome State Fault Refusal := .next (abortAfterGang s s.arg.core)

end Sys2Proof.Machine
end

