-- ==== Sys2Proof/Machine/Dispatch.lean ====
section
/-! DEFINITION. One arm for each constructor of `Instr`: a direct call of its meaning. -/

namespace Sys2Proof.Machine

def exec (i : Instr) (s : State) : Host.Outcome State Fault Refusal :=
  match i with
  | .nop h => Sys2Proof.Machine.execNop h s
  | .br h off => Sys2Proof.Machine.execBr h off s
  | .brx h a => Sys2Proof.Machine.execBrx h a s
  | .call h d off => Sys2Proof.Machine.execCall h d off s
  | .ret h a => Sys2Proof.Machine.execRet h a s
  | .loop h d off => Sys2Proof.Machine.execLoop h d off s
  | .loopGt h a off => Sys2Proof.Machine.execLoopGt h a off s
  | .loopNz h a off => Sys2Proof.Machine.execLoopNz h a off s
  | .fin h => Sys2Proof.Machine.execFin h s
  | .trapi h imm => Sys2Proof.Machine.execTrapi h imm s
  | .sysrd h d n => Sys2Proof.Machine.execSysrd h d n s
  | .syswr h a n => Sys2Proof.Machine.execSyswr h a n s
  | .syswrOwner h a => Sys2Proof.Machine.execSyswrOwner h a s
  | .syswrFpstat h a => Sys2Proof.Machine.execSyswrFpstat h a s
  | .syswrStlscope h a => Sys2Proof.Machine.execSyswrStlscope h a s
  | .add h d a b ty sat => Sys2Proof.Machine.execAdd h d a b ty sat s
  | .sub h d a b ty sat => Sys2Proof.Machine.execSub h d a b ty sat s
  | .mul h d a b ty sat => Sys2Proof.Machine.execMul h d a b ty sat s
  | .mulh h d a b ty => Sys2Proof.Machine.execMulh h d a b ty s
  | .mulhn h d a b ty => Sys2Proof.Machine.execMulhn h d a b ty s
  | .div h d a b ty => Sys2Proof.Machine.execDiv h d a b ty s
  | .divn h d a b ty => Sys2Proof.Machine.execDivn h d a b ty s
  | .rem h d a b ty => Sys2Proof.Machine.execRem h d a b ty s
  | .remn h d a b ty => Sys2Proof.Machine.execRemn h d a b ty s
  | .and h d a b => Sys2Proof.Machine.execAnd h d a b s
  | .or h d a b => Sys2Proof.Machine.execOr h d a b s
  | .xor h d a b => Sys2Proof.Machine.execXor h d a b s
  | .andn h d a b => Sys2Proof.Machine.execAndn h d a b s
  | .orn h d a b => Sys2Proof.Machine.execOrn h d a b s
  | .shl h d a b => Sys2Proof.Machine.execShl h d a b s
  | .shr h d a b => Sys2Proof.Machine.execShr h d a b s
  | .sra h d a b => Sys2Proof.Machine.execSra h d a b s
  | .rol h d a b => Sys2Proof.Machine.execRol h d a b s
  | .clz h d a => Sys2Proof.Machine.execClz h d a s
  | .ctz h d a => Sys2Proof.Machine.execCtz h d a s
  | .popc h d a => Sys2Proof.Machine.execPopc h d a s
  | .min h d a b ty => Sys2Proof.Machine.execMin h d a b ty s
  | .max h d a b ty => Sys2Proof.Machine.execMax h d a b ty s
  | .minn h d a b ty => Sys2Proof.Machine.execMinn h d a b ty s
  | .maxn h d a b ty => Sys2Proof.Machine.execMaxn h d a b ty s
  | .abs h d a ty sat => Sys2Proof.Machine.execAbs h d a ty sat s
  | .sext h d a n1 => Sys2Proof.Machine.execSext h d a n1 s
  | .zext h d a n1 => Sys2Proof.Machine.execZext h d a n1 s
  | .bfx h d a b sign => Sys2Proof.Machine.execBfx h d a b sign s
  | .bfi h d a b c => Sys2Proof.Machine.execBfi h d a b c s
  | .mov h x => Sys2Proof.Machine.execMov h x s
  | .movFromStream h d q => Sys2Proof.Machine.execMovFromStream h d q s
  | .movToStream h q a => Sys2Proof.Machine.execMovToStream h q a s
  | .cmp h d a b c w => Sys2Proof.Machine.execCmp h d a b c w s
  | .sel h d a b c => Sys2Proof.Machine.execSel h d a b c s
  | .plog h d a b tt => Sys2Proof.Machine.execPlog h d a b tt s
  | .addi h d a ty sat imm => Sys2Proof.Machine.execAddi h d a ty sat imm s
  | .movi h d imm => Sys2Proof.Machine.execMovi h d imm s
  | .moviN h d imm => Sys2Proof.Machine.execMoviN h d imm s
  | .movh h d a imm => Sys2Proof.Machine.execMovh h d a imm s
  | .lea h d x => Sys2Proof.Machine.execLea h d x s
  | .cmpi h d a c imm => Sys2Proof.Machine.execCmpi h d a c imm s
  | .andImm h d a imm => Sys2Proof.Machine.execAndImm h d a imm s
  | .orImm h d a imm => Sys2Proof.Machine.execOrImm h d a imm s
  | .xorImm h d a imm => Sys2Proof.Machine.execXorImm h d a imm s
  | .shlImm h d a n => Sys2Proof.Machine.execShlImm h d a n s
  | .shrImm h d a n => Sys2Proof.Machine.execShrImm h d a n s
  | .sraImm h d a n => Sys2Proof.Machine.execSraImm h d a n s
  | .mulImm h d a ty sat imm => Sys2Proof.Machine.execMulImm h d a ty sat imm s
  | .ld h d x sz na => Sys2Proof.Machine.execLd h d x sz na s
  | .st h d x sz => Sys2Proof.Machine.execSt h d x sz s
  | .ldp h d x na => Sys2Proof.Machine.execLdp h d x na s
  | .stp h d x => Sys2Proof.Machine.execStp h d x s
  | .pfhL1 h x => Sys2Proof.Machine.execPfhL1 h x s
  | .pfhHome h x => Sys2Proof.Machine.execPfhHome h x s
  | .cinvD h x => Sys2Proof.Machine.execCinvD h x s
  | .cinvI h x => Sys2Proof.Machine.execCinvI h x s
  | .cinvDa h => Sys2Proof.Machine.execCinvDa h s
  | .cinvIa h => Sys2Proof.Machine.execCinvIa h s
  | .lda h d a b w32 disp => Sys2Proof.Machine.execLda h d a b w32 disp s
  | .strl h d a b w32 disp => Sys2Proof.Machine.execStrl h d a b w32 disp s
  | .fence h c later earlier => Sys2Proof.Machine.execFence h c later earlier s
  | .acq h d a c => Sys2Proof.Machine.execAcq h d a c s
  | .rel h a b c => Sys2Proof.Machine.execRel h a b c s
  | .sigclr h a => Sys2Proof.Machine.execSigclr h a s
  | .sigrd h d a j => Sys2Proof.Machine.execSigrd h d a j s
  | .amo h d a b c op w32 ord => Sys2Proof.Machine.execAmo h d a b c op w32 ord s
  | .red h a b op w32 => Sys2Proof.Machine.execRed h a b op w32 s
  | .cas h d a b c w32 ord => Sys2Proof.Machine.execCas h d a b c w32 ord s
  | .bar h d a b c id ch => Sys2Proof.Machine.execBar h d a b c id ch s
  | .fadd h d a b f rm => Sys2Proof.Machine.execFadd h d a b f rm s
  | .fsub h d a b f rm => Sys2Proof.Machine.execFsub h d a b f rm s
  | .fmul h d a b f rm => Sys2Proof.Machine.execFmul h d a b f rm s
  | .fma h d a b c f rm => Sys2Proof.Machine.execFma h d a b c f rm s
  | .fms h d a b c f rm => Sys2Proof.Machine.execFms h d a b c f rm s
  | .fnma h d a b c f rm => Sys2Proof.Machine.execFnma h d a b c f rm s
  | .fdiv h d a b f rm => Sys2Proof.Machine.execFdiv h d a b f rm s
  | .fsqrt h d a f rm => Sys2Proof.Machine.execFsqrt h d a f rm s
  | .fmin h d a b f => Sys2Proof.Machine.execFmin h d a b f s
  | .fmax h d a b f => Sys2Proof.Machine.execFmax h d a b f s
  | .fsgn h d a b f op => Sys2Proof.Machine.execFsgn h d a b f op s
  | .fcmp h d a b f c => Sys2Proof.Machine.execFcmp h d a b f c s
  | .fclass h d a f => Sys2Proof.Machine.execFclass h d a f s
  | .fcvt h d a dst src rm => Sys2Proof.Machine.execFcvt h d a dst src rm s
  | .frnd h d a f rm => Sys2Proof.Machine.execFrnd h d a f rm s
  | .fscale h d a b f rm => Sys2Proof.Machine.execFscale h d a b f rm s
  | .vclaim h d tr min max => Sys2Proof.Machine.execVclaim h d tr min max s
  | .vrelease h => Sys2Proof.Machine.execVrelease h s
  | .vreleaseSp h d => Sys2Proof.Machine.execVreleaseSp h d s
  | .vadd h d a b mask vt op => Sys2Proof.Machine.execVadd h d a b mask vt op s
  | .vsub h d a b mask vt op => Sys2Proof.Machine.execVsub h d a b mask vt op s
  | .vmul h d a b mask vt op => Sys2Proof.Machine.execVmul h d a b mask vt op s
  | .vfma h d a b c mask vt op => Sys2Proof.Machine.execVfma h d a b c mask vt op s
  | .vmin h d a b mask vt => Sys2Proof.Machine.execVmin h d a b mask vt s
  | .vmax h d a b mask vt => Sys2Proof.Machine.execVmax h d a b mask vt s
  | .vsgn h d a b mask vt op => Sys2Proof.Machine.execVsgn h d a b mask vt op s
  | .vcmp h d a b mask vt c => Sys2Proof.Machine.execVcmp h d a b mask vt c s
  | .vsel h d a b c vt => Sys2Proof.Machine.execVsel h d a b c vt s
  | .vlog h x op => Sys2Proof.Machine.execVlog h x op s
  | .vsh h d a b mask vt op => Sys2Proof.Machine.execVsh h d a b mask vt op s
  | .vcvt h d a flush dst src rm => Sys2Proof.Machine.execVcvt h d a flush dst src rm s
  | .vdec h d a part c4 tab => Sys2Proof.Machine.execVdec h d a part c4 tab s
  | .venc h d a part c4 tab => Sys2Proof.Machine.execVenc h d a part c4 tab s
  | .vpack h d a b bf rm => Sys2Proof.Machine.execVpack h d a b bf rm s
  | .vunpk h d a part bf => Sys2Proof.Machine.execVunpk h d a part bf s
  | .vred h d a mask vt op => Sys2Proof.Machine.execVred h d a mask vt op s
  | .vscan h d a mask vt op => Sys2Proof.Machine.execVscan h d a mask vt op s
  | .vperm h d a b mask vt => Sys2Proof.Machine.execVperm h d a b mask vt s
  | .vbcast h d a mask vt => Sys2Proof.Machine.execVbcast h d a mask vt s
  | .vidx h d a b mask => Sys2Proof.Machine.execVidx h d a b mask s
  | .vsfu h d a mask op => Sys2Proof.Machine.execVsfu h d a mask op s
  | .vext h d a b vt => Sys2Proof.Machine.execVext h d a b vt s
  | .vins h d a b vt => Sys2Proof.Machine.execVins h d a b vt s
  | .vld h d x mask w => Sys2Proof.Machine.execVld h d x mask w s
  | .vst h d x mask w => Sys2Proof.Machine.execVst h d x mask w s
  | .vlds h d x mask w => Sys2Proof.Machine.execVlds h d x mask w s
  | .vsts h d x mask w => Sys2Proof.Machine.execVsts h d x mask w s
  | .vgath h d a b mask w => Sys2Proof.Machine.execVgath h d a b mask w s
  | .vscat h d a b mask w => Sys2Proof.Machine.execVscat h d a b mask w s
  | .sbind h d a b wr => Sys2Proof.Machine.execSbind h d a b wr s
  | .sunbind h d => Sys2Proof.Machine.execSunbind h d s
  | .mma h x y g => Sys2Proof.Machine.execMma h x y g s
  | .snz h x y g => Sys2Proof.Machine.execSnz h x y g s
  | .dtload h d a k => Sys2Proof.Machine.execDtload h d a k s
  | .accz h t logN => Sys2Proof.Machine.execAccz h t logN s
  | .accld h t a b => Sys2Proof.Machine.execAccld h t a b s
  | .accst h t a b => Sys2Proof.Machine.execAccst h t a b s
  | .accq h t a b c out => Sys2Proof.Machine.execAccq h t a b c out s
  | .accvRd h t v part => Sys2Proof.Machine.execAccvRd h t v part s
  | .accvWr h t v part => Sys2Proof.Machine.execAccvWr h t v part s
  | .cpyq h d a => Sys2Proof.Machine.execCpyq h d a s
  | .wmrd h d k => Sys2Proof.Machine.execWmrd h d k s
  | .lkrd h d a => Sys2Proof.Machine.execLkrd h d a s
  | .halo h d a => Sys2Proof.Machine.execHalo h d a s
  | .rld h d a b sz => Sys2Proof.Machine.execRld h d a b sz s
  | .rst h a b c sz => Sys2Proof.Machine.execRst h a b c sz s
  | .ramo h d a b c op w32 => Sys2Proof.Machine.execRamo h d a b c op w32 s
  | .rdx h d a => Sys2Proof.Machine.execRdx h d a s
  | .mcgset h d a b => Sys2Proof.Machine.execMcgset h d a b s
  | .lodeq h d a b ch => Sys2Proof.Machine.execLodeq h d a b ch s
  | .send h d a b => Sys2Proof.Machine.execSend h d a b s
  | .spawn h d a => Sys2Proof.Machine.execSpawn h d a s
  | .actbind h d a => Sys2Proof.Machine.execActbind h d a s
  | .actfree h d a => Sys2Proof.Machine.execActfree h d a s
  | .chbind h d a data => Sys2Proof.Machine.execChbind h d a data s
  | .chcfgFree h d a => Sys2Proof.Machine.execChcfgFree h d a s
  | .chcfgPause h d a => Sys2Proof.Machine.execChcfgPause h d a s
  | .chcfgResume h d a => Sys2Proof.Machine.execChcfgResume h d a s
  | .chcfgSched h d a b => Sys2Proof.Machine.execChcfgSched h d a b s
  | .chcfgMbox h d a b c side => Sys2Proof.Machine.execChcfgMbox h d a b c side s
  | .splice h d a => Sys2Proof.Machine.execSplice h d a s
  | .splst h d a => Sys2Proof.Machine.execSplst h d a s
  | .stlcfg h d a nosteal novictim setscope => Sys2Proof.Machine.execStlcfg h d a nosteal novictim setscope s
  | .grant h d a b c rights => Sys2Proof.Machine.execGrant h d a b c rights s
  | .revoke h d a b c rights => Sys2Proof.Machine.execRevoke h d a b c rights s
  | .rtwr h d a b clear nozero => Sys2Proof.Machine.execRtwr h d a b clear nozero s
  | .plbinv h d a mod => Sys2Proof.Machine.execPlbinv h d a mod s
  | .rgnnew h d a b c rights => Sys2Proof.Machine.execRgnnew h d a b c rights s
  | .rgnfree h d a => Sys2Proof.Machine.execRgnfree h d a s
  | .waymSet h d a b dies => Sys2Proof.Machine.execWaymSet h d a b dies s
  | .waymRd h d a b => Sys2Proof.Machine.execWaymRd h d a b s
  | .tret h next replay => Sys2Proof.Machine.execTret h next replay s
  | .tabort h => Sys2Proof.Machine.execTabort h s
  | .cring h d a store k => Sys2Proof.Machine.execCring h d a store k s
  | .preq h d a b c => Sys2Proof.Machine.execPreq h d a b c s
  | .ctxsv h d a b tables tiles firing clear => Sys2Proof.Machine.execCtxsv h d a b tables tiles firing clear s
  | .ctxrs h d a tables tiles firing => Sys2Proof.Machine.execCtxrs h d a tables tiles firing s
  | .mcrd h d a k => Sys2Proof.Machine.execMcrd h d a k s
  | .mcclr h d a cnt => Sys2Proof.Machine.execMcclr h d a cnt s
  | .stest h d a preempt => Sys2Proof.Machine.execStest h d a preempt s
  | .wdset h d a => Sys2Proof.Machine.execWdset h d a s
  | .powerOn => Sys2Proof.Machine.execPowerOn s
  | .moduleReset => Sys2Proof.Machine.execModuleReset s
  | .bootImageFetched => Sys2Proof.Machine.execBootImageFetched s
  | .bootokWrite => Sys2Proof.Machine.execBootokWrite s
  | .bootTimeout => Sys2Proof.Machine.execBootTimeout s
  | .vsecClearWrite => Sys2Proof.Machine.execVsecClearWrite s
  | .statusPost => Sys2Proof.Machine.execStatusPost s
  | .modnumWrite => Sys2Proof.Machine.execModnumWrite s
  | .reeveRegisterWrite => Sys2Proof.Machine.execReeveRegisterWrite s
  | .fetchLineReturn => Sys2Proof.Machine.execFetchLineReturn s
  | .icacheLeaseExpiry => Sys2Proof.Machine.execIcacheLeaseExpiry s
  | .l1LeaseExpiry => Sys2Proof.Machine.execL1LeaseExpiry s
  | .fixedLatencyWrite => Sys2Proof.Machine.execFixedLatencyWrite s
  | .loadDataReturn => Sys2Proof.Machine.execLoadDataReturn s
  | .writeBufferSend => Sys2Proof.Machine.execWriteBufferSend s
  | .storeAtHome => Sys2Proof.Machine.execStoreAtHome s
  | .homeAtomic => Sys2Proof.Machine.execHomeAtomic s
  | .syncRecordAtHome => Sys2Proof.Machine.execSyncRecordAtHome s
  | .lateFaultArrival => Sys2Proof.Machine.execLateFaultArrival s
  | .trapEntry => Sys2Proof.Machine.execTrapEntry s
  | .walkStep => Sys2Proof.Machine.execWalkStep s
  | .zpBackgroundZero => Sys2Proof.Machine.execZpBackgroundZero s
  | .shootdownPages => Sys2Proof.Machine.execShootdownPages s
  | .shootdownAll => Sys2Proof.Machine.execShootdownAll s
  | .shootdownSwitch => Sys2Proof.Machine.execShootdownSwitch s
  | .shootdownAck => Sys2Proof.Machine.execShootdownAck s
  | .shootdownComplete => Sys2Proof.Machine.execShootdownComplete s
  | .migrationForward => Sys2Proof.Machine.execMigrationForward s
  | .vclaimGrant => Sys2Proof.Machine.execVclaimGrant s
  | .streamReadaheadReturn => Sys2Proof.Machine.execStreamReadaheadReturn s
  | .rowBarrierArrival => Sys2Proof.Machine.execRowBarrierArrival s
  | .gangWithdrawal => Sys2Proof.Machine.execGangWithdrawal s
  | .mmaStepEnd => Sys2Proof.Machine.execMmaStepEnd s
  | .dtloadIndexBuilt => Sys2Proof.Machine.execDtloadIndexBuilt s
  | .sluiceTakeCommand => Sys2Proof.Machine.execSluiceTakeCommand s
  | .copySegment => Sys2Proof.Machine.execCopySegment s
  | .copyComplete => Sys2Proof.Machine.execCopyComplete s
  | .watermarkReadRelease => Sys2Proof.Machine.execWatermarkReadRelease s
  | .notifyRecordPlace => Sys2Proof.Machine.execNotifyRecordPlace s
  | .mailboxCounterArrival => Sys2Proof.Machine.execMailboxCounterArrival s
  | .mailboxRecordPlace => Sys2Proof.Machine.execMailboxRecordPlace s
  | .lodeEntryProcess => Sys2Proof.Machine.execLodeEntryProcess s
  | .lodeAnswer => Sys2Proof.Machine.execLodeAnswer s
  | .lodeReturnPlace => Sys2Proof.Machine.execLodeReturnPlace s
  | .rldq => Sys2Proof.Machine.execRldq s
  | .rldp => Sys2Proof.Machine.execRldp s
  | .wrq => Sys2Proof.Machine.execWrq s
  | .wrp => Sys2Proof.Machine.execWrp s
  | .amq => Sys2Proof.Machine.execAmq s
  | .amp => Sys2Proof.Machine.execAmp s
  | .recq => Sys2Proof.Machine.execRecq s
  | .recp => Sys2Proof.Machine.execRecp s
  | .xrq => Sys2Proof.Machine.execXrq s
  | .xdt => Sys2Proof.Machine.execXdt s
  | .xak => Sys2Proof.Machine.execXak s
  | .xsf => Sys2Proof.Machine.execXsf s
  | .mgmtTraining => Sys2Proof.Machine.execMgmtTraining s
  | .mgmtSpdm => Sys2Proof.Machine.execMgmtSpdm s
  | .badpkt => Sys2Proof.Machine.execBadpkt s
  | .frameReceive => Sys2Proof.Machine.execFrameReceive s
  | .replayTimeout => Sys2Proof.Machine.execReplayTimeout s
  | .portctlDown => Sys2Proof.Machine.execPortctlDown s
  | .portctlTrain => Sys2Proof.Machine.execPortctlTrain s
  | .portctlAuth => Sys2Proof.Machine.execPortctlAuth s
  | .portctlActive => Sys2Proof.Machine.execPortctlActive s
  | .rekey => Sys2Proof.Machine.execRekey s
  | .keyBlockWrite => Sys2Proof.Machine.execKeyBlockWrite s
  | .frameCountLimit => Sys2Proof.Machine.execFrameCountLimit s
  | .remoteTimeout => Sys2Proof.Machine.execRemoteTimeout s
  | .hostWindowWrite => Sys2Proof.Machine.execHostWindowWrite s
  | .reeveWindowWrite => Sys2Proof.Machine.execReeveWindowWrite s
  | .launchEnqueue => Sys2Proof.Machine.execLaunchEnqueue s
  | .hostStatusWrite => Sys2Proof.Machine.execHostStatusWrite s
  | .firingSelect => Sys2Proof.Machine.execFiringSelect s
  | .stealAttempt => Sys2Proof.Machine.execStealAttempt s
  | .idleRetry => Sys2Proof.Machine.execIdleRetry s
  | .idleGate => Sys2Proof.Machine.execIdleGate s
  | .coreWake => Sys2Proof.Machine.execCoreWake s
  | .agingTick => Sys2Proof.Machine.execAgingTick s
  | .budgetExpiry => Sys2Proof.Machine.execBudgetExpiry s
  | .firingAbort => Sys2Proof.Machine.execFiringAbort s
  | .tokenPeriodStart => Sys2Proof.Machine.execTokenPeriodStart s
  | .queueServe => Sys2Proof.Machine.execQueueServe s
  | .barArrivalAtWeir => Sys2Proof.Machine.execBarArrivalAtWeir s
  | .tokenDelivery => Sys2Proof.Machine.execTokenDelivery s
  | .markerEnterInput => Sys2Proof.Machine.execMarkerEnterInput s
  | .markerForward => Sys2Proof.Machine.execMarkerForward s
  | .markerPerform => Sys2Proof.Machine.execMarkerPerform s
  | .spliceStatusPlace => Sys2Proof.Machine.execSpliceStatusPlace s
  | .preemptRequestArrival => Sys2Proof.Machine.execPreemptRequestArrival s
  | .correctedError => Sys2Proof.Machine.execCorrectedError s
  | .containedError => Sys2Proof.Machine.execContainedError s
  | .fatalError => Sys2Proof.Machine.execFatalError s
  | .mcstatReeveWrite => Sys2Proof.Machine.execMcstatReeveWrite s
  | .mccountReeveWrite => Sys2Proof.Machine.execMccountReeveWrite s
  | .fqbaseWrite => Sys2Proof.Machine.execFqbaseWrite s
  | .fqlostWrite => Sys2Proof.Machine.execFqlostWrite s
  | .stbufWrite => Sys2Proof.Machine.execStbufWrite s
  | .stestQuiesced => Sys2Proof.Machine.execStestQuiesced s
  | .stestPatternEnd => Sys2Proof.Machine.execStestPatternEnd s
  | .stestRestoreDone => Sys2Proof.Machine.execStestRestoreDone s
  | .otearWrite => Sys2Proof.Machine.execOtearWrite s
  | .teardownComplete => Sys2Proof.Machine.execTeardownComplete s
  | .pinvWrite => Sys2Proof.Machine.execPinvWrite s
  | .mgenWrite => Sys2Proof.Machine.execMgenWrite s
  | .measuredRangeWrite => Sys2Proof.Machine.execMeasuredRangeWrite s
  | .keySlotWrite => Sys2Proof.Machine.execKeySlotWrite s
  | .plbDrop => Sys2Proof.Machine.execPlbDrop s
  | .powerWindow => Sys2Proof.Machine.execPowerWindow s
  | .thermalThrottleOn => Sys2Proof.Machine.execThermalThrottleOn s
  | .thermalThrottleOff => Sys2Proof.Machine.execThermalThrottleOff s
  | .thermalFatal => Sys2Proof.Machine.execThermalFatal s
  | .debugStop => Sys2Proof.Machine.execDebugStop s
  | .debugResume => Sys2Proof.Machine.execDebugResume s
  | .coprocessorCompletion => Sys2Proof.Machine.execCoprocessorCompletion s
  | .prefetchFill => Sys2Proof.Machine.execPrefetchFill s
  | .rightsAreaWrite => Sys2Proof.Machine.execRightsAreaWrite s
  | .bootFetchFailure => Sys2Proof.Machine.execBootFetchFailure s
  | .bringupFailure => Sys2Proof.Machine.execBringupFailure s
  | .frameSend => Sys2Proof.Machine.execFrameSend s
  | .peerLinkDown => Sys2Proof.Machine.execPeerLinkDown s

end Sys2Proof.Machine
end

