-- ==== Sys2Proof/Machine/Policy.lean ====
section
/-! DEFINITION. The model's default order of moves, taken when the agenda is empty: results that are due, then cores that can
issue, then what is pending inside the module, then the clock. -/

namespace Sys2Proof.Machine

def evCore (core id : Nat) : EvArg := { EvArg.none with core, id }
def evUnit (unit id : Nat) : EvArg := { EvArg.none with unit, id }

/-- A core with a result that is due. -/
def dueWrite (s : State) : Option Move :=
  (s.cores.find? fun (_, c) => c.iss.pend.any fun p => decide (p.due ≤ s.now)).map fun (i, _) =>
    .event .fixedLatencyWrite (evCore i 0)

/-- A core that may try to issue in this cycle. -/
def canIssue (s : State) (c : CoreSt) : Bool :=
  c.firing.isSome && decide (c.iss.next ≤ s.now) && c.stopped.isNone && c.traps.pending.isNone && c.traps.abort.isNone

def issueMove (s : State) : Option Move := (s.cores.find? fun (_, c) => canIssue s c).map fun (i, _) => .issue i

/-- The event that places a record waiting at a channel's edge. -/
def edgeEvent (k : EdgeKind) : Instr :=
  match k with
  | .token => .tokenDelivery
  | .notify => .notifyRecordPlace
  | .mailbox => .mailboxRecordPlace
  | .status => .spliceStatusPlace
  | .lode => .lodeReturnPlace
  | .marker => .markerEnterInput

/-- Events of a core's operations and stores. -/
def memEvents (i : Nat) (c : CoreSt) : List (Instr × EvArg) :=
  (c.cache.wb.flatMap fun e =>
    [(.storeAtHome, evCore i e.seq), (.homeAtomic, evCore i e.seq), (.syncRecordAtHome, evCore i e.id)]) ++
  (c.iss.outs.flatMap fun o =>
    [(.loadDataReturn, evCore i o.id), (.coprocessorCompletion, evCore i o.id), (.syncRecordAtHome, evCore i o.id),
     (.watermarkReadRelease, evCore i o.id), (.barArrivalAtWeir, evCore i o.id), (.remoteTimeout, evCore i o.id)]) ++
  (c.cache.prefetches.zipIdx.map fun (_, k) => (.prefetchFill, evCore i k)) ++
  (List.range 8).map fun q => (.streamReadaheadReturn, evCore i q)

/-- The victims that an idle core tries: the cores of its tussock, then cores of its steal rectangle that have a task to
yield (R315). -/
def stealList (s : State) (i : Nat) : List Nat :=
  (tussockCores (tusOf i)).filter (· != i) ++
    (((s.cores.map (·.1)).filter fun k => tusOf k != tusOf i && stealable s k && victimsOk s i [k]).take 16)

/-- Steal attempts of cores that have done nothing since reset, for the work of a core of their tussock. -/
def mateEvents (s : State) (i : Nat) : List (Instr × EvArg) :=
  if stealable s i then
    ((tussockCores (tusOf i)).filter fun k => !(s.cores.any fun e => e.1 == k)).map fun k =>
      (.stealAttempt, { evCore k 0 with list := stealList s k })
  else []

/-- Events of a core. -/
def coreEvents (s : State) (i : Nat) (c : CoreSt) : List (Instr × EvArg) :=
  [(.lateFaultArrival, evCore i 0), (.trapEntry, evCore i 0), (.firingAbort, evCore i 0), (.fetchLineReturn, evCore i 0),
   (.writeBufferSend, evCore i 0), (.rowBarrierArrival, evCore i 0), (.gangWithdrawal, evCore i 0),
   (.dtloadIndexBuilt, evCore i 0), (.preemptRequestArrival, evCore i 0), (.launchEnqueue, evCore i 0)] ++
  memEvents i c ++
  (c.sched.edges.map fun e => (edgeEvent e.kind, evCore i e.ch)) ++
  (c.sched.mboxIn.map fun x => (.mailboxCounterArrival, evCore i (sideCode x))) ++
  (c.sched.actors.flatMap fun (k, _) => [(.markerForward, evCore i k), (.markerPerform, evCore i k)]) ++
  [(.budgetExpiry, evCore i 0), (.coreWake, evCore i 0), (.idleRetry, evCore i 0), (.firingSelect, evCore i 0),
   (.stealAttempt, { evCore i 0 with list := stealList s i }), (.idleGate, evCore i 0)]

/-- The event of a packet at this module. -/
def packetEvent (p : Packet) : Instr :=
  match p.kind with
  | 1 => .rldq
  | 2 => .rldp
  | 3 => .wrq
  | 4 => .wrp
  | 5 => .amq
  | 6 => .amp
  | 7 => .recq
  | 8 => .recp
  | 9 => .xrq
  | 10 => .xdt
  | 11 => .xak
  | _ => .xsf

/-- Service of the queues of a die at which units wait (R324). -/
def queueEvents (s : State) : List (Instr × EvArg) :=
  (List.range 9).flatMap fun d => [1, 2, 3].filterMap fun k =>
    if (unitsWaiting s d k).isEmpty then none else some (.queueServe, { evUnit d 0 with off := k })

/-- Events of the shared units. -/
def unitEvents (s : State) : List (Instr × EvArg) :=
  (s.walkers.flatMap fun (d, k) =>
    (k.active.zipIdx.map fun (_, n) => (.walkStep, evUnit d n)) ++
      (match k.shoot with
       | some x => (x.waiting.map fun w => (.shootdownAck, { evUnit d 0 with core := w.1 })) ++ [(.shootdownComplete, evUnit d 0)]
       | none => [])) ++
  (s.homes.held.map fun h => (.migrationForward, evUnit 0 h.va)) ++
  (s.pools.map fun (t, _) => (.vclaimGrant, evUnit t 0)) ++
  (s.gangs.map fun g => (.mmaStepEnd, { EvArg.none with unit := rowIdx g.x0, core := g.x0, id := g.n })) ++
  (s.eng.copies.flatMap fun c =>
    (List.range 16).map (fun k => (.sluiceTakeCommand, { evUnit (dieOf c.core) k with core := c.core })) ++
      [(.copySegment, evUnit 0 c.id), (.copyComplete, evUnit 0 c.id)]) ++
  ((List.range 9).flatMap fun d => if s.eng.lodes.isEmpty then [] else (List.range 4).map fun k => (.lodeEntryProcess, evUnit d k)) ++
  queueEvents s ++
  (s.eng.net.zipIdx.map fun (p, k) => (packetEvent p, evUnit 0 k)) ++
  (s.eng.ports.flatMap fun (p, q) => if q.txq.isEmpty then [] else [(.frameSend, evUnit p 0)]) ++
  (s.drops.map fun j => (.plbDrop, evUnit 0 j.n)) ++
  (s.owners.measured.map fun w => (.measuredRangeWrite, evUnit 0 w)) ++
  (s.rcv.tests.flatMap fun (d, _) =>
    [(.stestQuiesced, evUnit d 0), (.stestPatternEnd, evUnit d 0), (.stestRestoreDone, evUnit d 0)]) ++
  [(.teardownComplete, .none), (.statusPost, .none)]

/-- The event has something to do. -/
def changes (s : State) (x : Instr × EvArg) : Bool :=
  let t := { s with arg := x.2 }
  match exec x.1 t with
  | .next u => decide (u ≠ t)
  | _ => false

/-- The first pending event that has something to do. -/
def pendingEvent (s : State) : Option Move :=
  (((s.cores.flatMap fun (i, c) => coreEvents s i c ++ mateEvents s i) ++ unitEvents s).find? (changes s)).map fun (e, a) => .event e a

/-- After a fatal error only the report loop goes on (R439). -/
def reportMove (s : State) : Move := if changes s (.statusPost, .none) then .event .statusPost .none else .tick

/-- The clock: what is due in this cycle at the row barriers (R196) and in the schedulers (R318), then the next cycle.
DEDUCED, log 55. -/
def clock (s : State) : State :=
  let s := if s.rcv.fatal.isSome then s else armCores (arriveAll s)
  { s with now := s.now + 1 }

/-- The move of an empty agenda. DESIGN CHOICE, log 2. -/
def nextMove (s : State) : Move :=
  if s.rcv.fatal.isSome then reportMove s
  else
    match dueWrite s with
    | some m => m
    | none => match issueMove s with
      | some m => m
      | none => (pendingEvent s).getD .tick

end Sys2Proof.Machine
end

