-- ==== Sys2Proof/Machine/Step.lean ====
section
/-! DEFINITION. One step: the move that the agenda names, or the default order's. -/

namespace Sys2Proof.Machine

/-- A core tries to issue its next instruction: fetch, decode, execute. -/
def stepCore (s : State) (i : Nat) : Host.Outcome State Fault Refusal :=
  let s := { s with cur := i }
  match preIssue s i with
  | some s => .next s
  | none =>
    match fetch s i with
    | .wait s => .next (stall s i)
    | .trap s cause => .next (fetchTrap s i cause)
    | .word s w =>
      match decode w with
      | .error e => .next (illop s i e)
      | .ok x => exec x s

/-- After a fatal error only these events happen (R439): power, reset, the report loop and the host's registers.
DEDUCED, log 61. -/
def afterFatal : Instr → Bool
  | .powerOn | .moduleReset | .statusPost | .vsecClearWrite | .hostStatusWrite => true
  | _ => false

/-- DESIGN CHOICE, log 1 and 2. -/
def doMove (s : State) (m : Move) : Host.Outcome State Fault Refusal :=
  match m with
  | .tick => .next (clock s)
  | .issue i => if s.rcv.fatal.isSome then .fault .fatalStop else stepCore s i
  | .event e a =>
    if (encode e).isSome || (s.rcv.fatal.isSome && !afterFatal e) then .next s
    else exec e { s with arg := a }

/-- One step of the module. DESIGN CHOICE, log 2; DEDUCED, log 61. -/
def step (s : State) : Host.Outcome State Fault Refusal :=
  match s.agenda with
  | m :: ms => doMove { s with agenda := ms } m
  | [] => doMove s (nextMove s)

/-- The program counter at which `withFetchWord` places a word on core 0 when no firing runs there. DESIGN CHOICE, log 4. -/
def loadPc : Word := 0x10000

/-- The firing that `withFetchWord` starts: owner 1, no code range, the default priority and budget of a launch
record (R334). DESIGN CHOICE, log 4. -/
def loadFiring (now : Nat) : Firing :=
  { num := 1, kind := .task, pc := loadPc, startOwner := 1, owner := 1, codeb := 0, stage := 0, prio := 8
    budget := 2 ^ 20, budgetEnd := now + 2 ^ 20, ext := false, expired := false, start := now, sup := false
    handler := false, reads := Vector.replicate 4 0, outWords := Vector.replicate 4 [], sent := Vector.replicate 4 0 }

/-- The state with a word placed where core 0 fetches next: its line in the instruction cache, the fetch checks
passing (a LIVE owner, an X entry in the PLB, a translation in the TLB, key slot 0 valid), and core 0 to issue.
DESIGN CHOICE, log 4. -/
def State.withFetchWord (s : State) (nbits w : Nat) : State :=
  let c := s.core 0
  let f := (c.firing.getD (loadFiring s.now))
  let f := if badPc f.pc then { f with pc := loadPc } else f
  let a := 64 * lineIdx f.pc
  let page := a / 65536 * 65536
  let bytes := List.replicate (10 * wf f.pc 0 3) 0 ++ leBytes 10 (w % 2 ^ (min nbits 80))
  let line : ICLine := { line := lineIdx f.pc, data := bytes, expire := s.now + 16384 }
  let ent : RtEnt := { base := page, length := 65536, rights := 4, colour := wf f.pc 56 8, world := 0, granter := 0 }
  let tr : Trans := { page, size := 65536, frame := 0, c := true, key := 0, mlock := false }
  let c' :=
    { c with
      firing := some { f with codeb := 0 }
      stopped := none
      iss := { c.iss with next := min c.iss.next s.now }
      cache :=
        { c.cache with
          ic := line :: c.cache.ic
          plb := { owner := f.owner, slot := 0, ent } :: c.cache.plb
          tlb := tr :: c.cache.tlb } }
  let dir : Word := W (2 ^ 63 + 0x140000)
  { (s.putCore 0 c') with
    homes := { s.homes with mem := writeWord s.homes.mem (rightsBase + 8 * f.owner) dir }
    owners := { s.owners with keys := mput s.owners.keys 0 { valid := true, world := 0, key := Vector.replicate 4 0 } }
    agenda := [.issue 0] }

end Sys2Proof.Machine
end

