-- ==== Sys2Proof/Safety.lean ====
section
/-! DEFINITION. What counts as a safe state and a safe run, in the terms that claims use. -/

namespace Sys2Proof.Machine

/-- Memory is in its canonical form. -/
def MemOk (s : State) : Prop := Memory.wf s.homes.mem = true

/-- The module has not stopped on a fatal error (R439). -/
def Running (s : State) : Prop := s.rcv.fatal = none

/-- Core `cur`, once the results that are due have reached their registers. -/
def begun (s : State) : State := flushDue s s.cur

/-- The core that issues, as its instruction reads it. -/
def issuer (s : State) : CoreSt := (begun s).core s.cur

/-- The firing `f` of core `cur` may issue an instruction with header `h` in this cycle, and its guard is true: the core
runs, BUDGET is not out, every wait of R39 to R42 is over, no late fault is to be delivered, and no earlier acquire or
fence holds back an access of class `k` (R242, R254). -/
def ready (k : WaitCls) (h : Hdr) (f : Firing) (s : State) : Bool :=
  decide ((issuer s).firing = some f) && !budgetOut (begun s) f && !mustWait (begun s) (issuer s) h &&
    (lateFault (issuer s) [h.tw0, h.tw1, h.ta]).isNone && guardTrue (issuer s) h && !orderWait (issuer s) k

/-- As `ready`, with a guard that is false (R46). -/
def readyOff (h : Hdr) (f : Firing) (s : State) : Bool :=
  decide ((issuer s).firing = some f) && !budgetOut (begun s) f && !mustWait (begun s) (issuer s) h &&
    (lateFault (issuer s) [h.tw0, h.tw1, h.ta]).isNone && !guardTrue (issuer s) h

/-- The next state of an instruction of groups 0 to 5 and 9 to 12 that issues, at the state `u` that its body leaves,
with the result `r`. -/
def retired (h : Hdr) (f : Firing) (s u : State) (r : Res) : Host.Outcome State Fault Refusal :=
  .next (settle u s.cur f h false r)

/-- The same for an instruction of groups 6 to 8, which enters the coprocessor dispatch ring. -/
def dispatched (h : Hdr) (f : Firing) (s u : State) (r : Res) : Host.Outcome State Fault Refusal :=
  .next (settle u s.cur f h true r)

/-! ## Results of integer instructions, in the words of R69 -/

/-- opnd(x) of R69: the low w bits of a register, read as the type says. -/
def operandInt (ty : IntTy) (x : Word) : Int :=
  if ty.signed then Int.bmod x.toNat (2 ^ IntTy.width ty) else (x.toNat % 2 ^ IntTy.width ty : Nat)

/-- The register value `x` is the result that R69 forms from the exact result `r`. -/
def IntResult (ty : IntTy) (sat : Bool) (r : Int) (x : Word) : Prop :=
  let w := IntTy.width ty
  let lo : Int := if ty.signed then -(2 ^ (w - 1)) else 0
  let hi : Int := if ty.signed then 2 ^ (w - 1) - 1 else 2 ^ w - 1
  let u := if sat then max lo (min r hi) else r
  if ty.signed then x.toInt = Int.bmod u (2 ^ w) else (x.toNat : Int) = u % 2 ^ w

/-! ## Products of floating operands, in the words of R117 -/

/-- The exact product of `x` and `y`, neither a NaN nor 0 and an infinity. -/
def ProductIs (x y p : FVal) : Prop :=
  match x, y with
  | .inf a, .inf b => p = .inf (a != b)
  | .inf a, .fin n m _ => m ≠ 0 ∧ p = .inf (a != n)
  | .fin n m _, .inf b => m ≠ 0 ∧ p = .inf (n != b)
  | .fin na ma ea, .fin nb mb eb => p = .fin (na != nb) (ma * mb) (ea + eb)
  | _, _ => False

/-! ## Program counters, in the words of R36 and R37 -/

/-- `t` is the program counter `off` instructions after `pc`: the linear index moves modulo 6 × 2^50, COLOUR stays, and the
SLOT is legal (R36). -/
def Moved (pc : Word) (off : Int) (t : Word) : Prop :=
  wf t 56 8 = wf pc 56 8 ∧ wf t 3 3 = 0 ∧ wf t 0 3 < 6 ∧
    ((wf t 6 50 * 6 + wf t 0 3 : Nat) : Int) = ((wf pc 6 50 * 6 + wf pc 0 3 : Nat) + off) % (6 * 2 ^ 50)

/-- A bad program counter (R37): SLOT 6 or 7, bits [5:3] not zero, or an address outside paged global memory. -/
def Bad (pc : Word) : Prop := 6 ≤ wf pc 0 3 ∨ wf pc 3 3 ≠ 0 ∨ 0xF0_0000_0000_0000 ≤ 64 * wf pc 6 50

/-! ## Vector elements, in the words of the scalar instructions -/

/-- In every state in which it issues with operands that read `x`, `y` and `z` in their low `w` bits, the scalar
instruction writes `v` into D, with the flags `fl`. -/
def ScalarGives (instr : Hdr → GReg → GReg → GReg → GReg → Instr) (w x y z : Nat) (v : Word) (fl : Flags) : Prop :=
  ∀ (h : Hdr) (f : Firing) (s : State) (d a b c : GReg), ready .none h f s = true →
    (gread (issuer s) a).toNat % 2 ^ w = x → (gread (issuer s) b).toNat % 2 ^ w = y →
    (gread (issuer s) c).toNat % 2 ^ w = z →
    ∃ lat, exec (instr h d a b c) s = retired h f s (begun s) (.fixed lat [gdest (issuer s) d v] fl)

/-- As `ScalarGives`, of an instruction that writes the predicate `q`. -/
def ScalarTests (instr : Hdr → PReg → GReg → GReg → Instr) (w x y : Nat) (q : Bool) (fl : Flags) : Prop :=
  ∀ (h : Hdr) (f : Firing) (s : State) (d : PReg) (a b : GReg), ready .none h f s = true →
    (gread (issuer s) a).toNat % 2 ^ w = x → (gread (issuer s) b).toNat % 2 ^ w = y →
    ∃ lat, exec (instr h d a b) s = retired h f s (begun s) (.fixed lat [.p d q] fl)

/-- One step of a floating reduction (R158): an absent side passes the other through; two values combine as the scalar sum, minimum
or maximum does. -/
def Combines (vt : VTy) (op : RedOp) (x y z : Option (Nat × Flags)) : Prop :=
  let fm := if vt = .f64 then FFmt.f64 else .f32
  let step := fun (h : Hdr) (d a b _c : GReg) => match op with
    | .add => Instr.fadd h d a b fm .rne
    | .min => .fmin h d a b fm
    | .max => .fmax h d a b fm
  match x, y with
  | some a, some b => ∃ r fl, (∀ c, ScalarGives step (if vt = .f64 then 64 else 32) a.1 b.1 c (BitVec.ofNat 64 r) fl) ∧
      z = some (r, a.2 ||| b.2 ||| fl)
  | some a, none => z = some a
  | none, y => z = y

/-- The binary tree of R158 over the elements `leaf`. -/
def TreeOver (vt : VTy) (op : RedOp) (leaf : Nat → Option Nat) (node : Nat → Nat → Option (Nat × Flags)) : Prop :=
  (∀ j, node 0 j = (leaf j).map fun x => (x, 0)) ∧ ∀ k j, Combines vt op (node k (2 * j)) (node k (2 * j + 1)) (node (k + 1) j)

/-- The blocks of R159 for the binary digits `k` to 0 of `n`, largest first from element `start` on, combined from left to right
onto `acc`, give `r`. -/
def PrefixOf (vt : VTy) (op : RedOp) (node : Nat → Nat → Option (Nat × Flags)) :
    Nat → Nat → Nat → Option (Nat × Flags) → Option (Nat × Flags) → Prop
  | 0, n, start, acc, r => if n % 2 = 1 then Combines vt op acc (node 0 start) r else r = acc
  | k + 1, n, start, acc, r =>
    if n / 2 ^ (k + 1) % 2 = 1 then
      ∃ b, Combines vt op acc (node (k + 1) (start / 2 ^ (k + 1))) b ∧ PrefixOf vt op node k n (start + 2 ^ (k + 1)) b r
    else PrefixOf vt op node k n start acc r

/-! ## Codes, in the words of R129 -/

/-- The value of entry `c` of a decode table (R112, R124). -/
def entryOf (ents : List (BitVec 20)) (c : Nat) : FVal := unpack fmt19 ((ents.getD c 0).toNat % 2 ^ 19)

/-- Code `c` is below `n`, and EXCL does not exclude it. -/
def Listed (ents : List (BitVec 20)) (n c : Nat) : Prop := c < n ∧ (ents.getD c 0).getLsbD 19 = false

/-- Code `c` is one of F. -/
def Encodable (ents : List (BitVec 20)) (n c : Nat) : Prop := Listed ents n c ∧ ∃ neg m e, entryOf ents c = .fin neg m e

/-- What R129 returns for a number or an infinity `x` that no equal entry takes: values count in units of 2^-149. -/
def EncodesNumber (ents : List (BitVec 20)) (n : Nat) (x : FVal) (c : Nat) (fl : Flags) : Prop :=
  let v := fun k => unitsOf (entryOf ents k)
  let mem := Encodable ents n
  let u := unitsOf x
  -- the code of F with the value `z`, of the sign of `x` where two have it
  let code := fun (z : Int) (k : Nat) =>
    mem k ∧ v k = z ∧ ((∃ j, mem j ∧ v j = z ∧ (entryOf ents j).neg? = x.neg?) → (entryOf ents k).neg? = x.neg?)
  ((∀ k, mem k → v k < u) → (∃ z, code z c ∧ ∀ k, mem k → v k ≤ z) ∧ fl = flOverflow ||| flInexact) ∧
  ((∀ k, mem k → u < v k) → (∃ z, code z c ∧ ∀ k, mem k → z ≤ v k) ∧ fl = flOverflow ||| flInexact) ∧
  ((∃ k, mem k ∧ v k = u) → code u c ∧ fl = 0) ∧
  ((∃ k, mem k ∧ v k < u) → (∃ k, mem k ∧ u < v k) → (∀ k, mem k → v k ≠ u) →
    ∃ zl zh lo hi, code zl lo ∧ code zh hi ∧ zl < u ∧ u < zh ∧ (∀ k, mem k → v k ≤ zl ∨ zh ≤ v k) ∧
      c = (if u - zl < zh - u then lo
        else if zh - u < u - zl then hi
        else if lo % 2 ≠ hi % 2 then (if lo % 2 = 0 then lo else hi)
        else if zl.natAbs < zh.natAbs then lo
        else if zh.natAbs < zl.natAbs then hi
        else if (entryOf ents lo).neg? = x.neg? then lo else hi) ∧
      fl = flInexact ||| (if u ≠ 0 ∧ v c = 0 then flUnderflow else 0))

/-- The code `c` and the flags `fl` that R129 gives the value `x` through a table of `n` codes. -/
def EncodesTo (ents : List (BitVec 20)) (n : Nat) (x : FVal) (c : Nat) (fl : Flags) : Prop :=
  let lowest := fun (good : FVal → Prop) =>
    Listed ents n c ∧ good (entryOf ents c) ∧ (∀ k, k < c → Listed ents n k → ¬ good (entryOf ents k)) ∧ fl = 0
  match x with
  | .nan _ =>
    ((∃ k, Listed ents n k ∧ (entryOf ents k).isNan = true) → lowest fun e => e.isNan = true) ∧
    ((∀ k, Listed ents n k → (entryOf ents k).isNan = false) → fl = flInvalid ∧ ∃ f, EncodesNumber ents n (.fin false 0 0) c f)
  | .inf s =>
    ((∃ k, Listed ents n k ∧ entryOf ents k = .inf s) → lowest fun e => e = .inf s) ∧
    ((∀ k, Listed ents n k → entryOf ents k ≠ .inf s) → EncodesNumber ents n x c fl)
  | .fin .. => EncodesNumber ents n x c fl

/-- What `accq` makes of the element `x` (R187): a code with the flags of the rounded product and of its encoding, or a value rounded
once. -/
def Quantised (out : AccqOut) (ents : List (BitVec 20)) (factor x : BitVec 32) (v : Nat) (fl : Flags) : Prop :=
  let p := fpMul (unpack fmt32 x.toNat) (unpack fmt32 factor.toNat)
  let coded := fun (n : Nat) => (∃ k, Encodable ents n k) →
    ∃ f, EncodesTo ents n (unpack fmt32 (roundPre fmt32 .rne p).1) v f ∧ fl = (roundPre fmt32 .rne p).2 ||| f
  match out with
  | .c8 _ => coded 256
  | .c4 _ => coded 16
  | .b16 rm => (v, fl) = roundPre fmtB16 rm p
  | .h16 rm => (v, fl) = roundPre fmtH16 rm p

/-! ## Blocks, in the words of R132 and R133 -/

/-- `k` is the value `v` in units of 2^q, truncated toward minus infinity; `cut` says that this changed it. -/
def KeepIs (q : Int) (v : FVal) (k : Int) (cut : Bool) : Prop :=
  match v with
  | .fin neg m e =>
    let x : Int := if neg then -(m : Int) else m
    let d : Int := 2 ^ (q - e).toNat
    if q ≤ e then k = x * 2 ^ (e - q).toNat ∧ cut = false
    else k * d ≤ x ∧ x < (k + 1) * d ∧ (cut = true ↔ k * d ≠ x)
  | _ => False

/-- floor(log2 |v|) of a finite value that is not zero. -/
def ExpIs (v : FVal) (x : Int) : Prop := ∃ neg m e, v = .fin neg m e ∧ m ≠ 0 ∧ x = m.log2 + e

/-- The sum of the finite values `vs` with one rounding (R132). -/
def SumIs (vs : List FVal) (r : Nat) (fl : Flags) : Prop :=
  let big := vs.filter fun v => !v.isZero
  if big = [] then r = fmt32.zero (vs.all fun v => v.neg?) ∧ fl = 0
  else ∃ (x : Int) (ks : List (Int × Bool)), (∃ v ∈ big, ExpIs v x) ∧ (∀ v ∈ big, ∀ y, ExpIs v y → y ≤ x) ∧
    ks.length = big.length ∧ (∀ p ∈ big.zip ks, KeepIs (x - 50) p.1 p.2.1 p.2.2) ∧
    let sticky := ks.any (·.2)
    let n : Int := 4 * (ks.map (·.1)).sum + (if sticky then 1 else 0)
    r = (roundVal fmt32 .rne (.fin (decide (n < 0)) n.natAbs (x - 52))).1 ∧
      fl = (roundVal fmt32 .rne (.fin (decide (n < 0)) n.natAbs (x - 52))).2 ||| (if sticky then flInexact else 0)

/-- block(acc, sA, sB, row, column) of the terms `ab` (R132, R133); without a term the element stays (R183). -/
def BlockIs (acc : Nat) (sa sb : FVal) (ab : List (FVal × FVal)) (r : Nat) (fl : Flags) : Prop :=
  let av := unpack fmt32 acc
  let ops := av :: sa :: sb :: ab.flatMap fun x => [x.1, x.2]
  let bad := ∃ x ∈ ab, ∃ s n e, FVal.inf s ∈ [sa, sb, x.1, x.2] ∧ FVal.fin n 0 e ∈ [sa, sb, x.1, x.2]
  let term := fun (x : FVal × FVal) (t : FVal) => ∃ p q, ProductIs sa sb p ∧ ProductIs p x.1 q ∧ ProductIs q x.2 t
  let infs := fun (s : Bool) => av = .inf s ∨ ∃ x ∈ ab, term x (.inf s)
  let invalid := (∃ y ∈ ops, y.isSig = true) ∨ bad ∨ (infs true ∧ infs false)
  (ab = [] → r = acc ∧ fl = 0) ∧
  (ab ≠ [] →
    (invalid → r = fmt32.nan ∧ fl = flInvalid) ∧
    (¬ invalid → (∃ y ∈ ops, y.isNan = true) → r = fmt32.nan ∧ fl = 0) ∧
    (¬ invalid → (∀ y ∈ ops, y.isNan = false) →
      (∀ s, infs s → r = fmt32.inf s ∧ fl = 0) ∧
      (¬ infs true → ¬ infs false → ∃ ts, ts.length = ab.length ∧ (∀ p ∈ ab.zip ts, term p.1 p.2) ∧ SumIs (av :: ts) r fl)))

/-- An entry of a table that paired mode takes (R125). -/
def Pairable (x : BitVec 20) : Prop :=
  let v := x.toNat % 2 ^ 19
  let man := v % 2 ^ 10
  let ex := v / 2 ^ 10 % 2 ^ 8
  (unpack fmt19 v).isNan = true ∨ (unpack fmt19 v).isInf = true ∨ (ex ≠ 0 ∧ man % 2 ^ 7 = 0) ∨
    (ex = 0 ∧ ∃ a, man % 2 ^ a = 0 ∧ man < 2 ^ (a + 4))

/-- The vector write `ls` gives every active element `j` of `n` the low bits of `v j`, and no other element anything. -/
def ElemsAre (w : Bool) (n : Nat) (act : Nat → Bool) (v : Nat → Word) (ls : List (Option Lane)) : Prop :=
  ls.length = (if w then 2 * n else n) ∧
  ∀ j, j < n →
    (w = false → ls[j]? = some (if act j then some ((v j).truncate 32) else none)) ∧
    (w = true → ls[2 * j]? = some (if act j then some ((v j).truncate 32) else none) ∧
      ls[2 * j + 1]? = some (if act j then some (((v j) >>> 32).truncate 32) else none))

/-- A flag of `all` is set exactly where some active element of the `n` raises it. -/
def FlagsAre (n : Nat) (act : Nat → Bool) (fl : Nat → Flags) (all : Flags) : Prop :=
  ∀ k, k < 5 → (all.getLsbD k = true ↔ ∃ j, j < n ∧ act j = true ∧ (fl j).getLsbD k = true)

/-! ## Records in memory -/

/-- An instruction of core `i` reads the record `ws` at `ea` (R337): the checks of R82 pass, nothing that the read waits for
is pending, the bytes are not poisoned, and the state is then `u`. -/
def RecordAt (s : State) (i : Nat) (ea : Word) (u : State) (ws : List Word) : Prop :=
  ∃ v l p, checkAccess s i ea 64 64 0 = .ok v l p ∧ bufBlocks (unperformed (v.core i)) p.addr 64 (v.core i).iss.opCount = false ∧
    placeBusy v p = false ∧ recordBusy (v.core i) p = false ∧ (∀ k x, (v.core i).cache.wmWait ≠ some (k, some x)) ∧
    blockedRead v p.lockKey 64 = none ∧
    let w := v.onCache i fun k => { k with wmWait := none }
    poisonCode w p.addr 64 = none ∧ u = readTouch w p (w.classOf (ownerNow (w.core i))) ∧ ws = wordsLe 8 (blockAt w i ea)

/-- A context restore by core `i` reads the bytes `bs` of `blocks` blocks at `ea` (R378): the checks of R82 pass, nothing that the
read waits for is pending, no byte is poisoned, and the state is then `u`. -/
def AreaAt (s : State) (i : Nat) (ea : Word) (blocks : Nat) (u : State) (bs : List Byte) : Prop :=
  ∃ v, checkRun s i ea 0 blocks = .ok v ∧ matrixBusy (v.core i) = false ∧ areaBusy v i ea blocks false = false ∧
    (∀ k x, (v.core i).cache.wmWait ≠ some (k, some x)) ∧
    let w := v.onCache i fun k => { k with wmWait := none }
    runBusy w i ea blocks = false ∧ runPoison w i ea blocks = none ∧ u = touchBlocks w i ea blocks ∧
    bs = (List.range blocks).flatMap fun b => blockNow w i (ea + BitVec.ofNat 64 (64 * b))

/-- An entry of owner `o` that covers address `a` is held in the PLB of core `c`. -/
def HeldAt (c : CoreSt) (o a : Nat) (e : RtEnt) : Prop := ∃ q ∈ c.cache.plb, q.owner = o ∧ q.ent = e ∧ e.covers a = true

/-- The table of owner `o` lists an entry that covers address `a`. -/
def ListedAt (s : State) (o a : Nat) (e : RtEnt) : Prop := (∃ k, (k, e) ∈ tableEnts s o) ∧ e.covers a = true

/-- A group 8 instruction of owner `o` that has come to the state `u`, and whose operand address `ea` lies in paged memory: COLOUR where every entry of the owner that
covers it has another colour (check 3 of R82), MXOPND else (R177). -/
def PagedOperandTraps (s u : State) (o : Nat) (ea : Word) (instr : Instr) : Prop :=
  ∀ va, decodeAddr s.cur (wf ea 0 56) = some (.paged va) →
    let traps := fun (cause : Nat) => ∃ v plb, v = u.onCache s.cur (fun k => { k with plb }) ∧
      exec instr s = .next (trap v s.cur cause ea)
    let covers := fun (e : RtEnt) => HeldAt (u.core s.cur) o va e ∨ ListedAt s o va e
    ((∀ e, covers e → e.colour ≠ wf ea 56 8) → (∃ e, ListedAt s o va e) → traps 0x0F) ∧
    ((∀ e, covers e → e.colour = wf ea 56 8) → traps 0x0A)

/-! ## Frames -/

/-- Memory reads the same at every address. -/
def SameMem (s t : State) : Prop := ∀ a, readByte t.mem a = readByte s.mem a

/-- Memory reads the same at every address but the `n` bytes from `a` on. -/
def SameMemBut (s t : State) (a n : Nat) : Prop := ∀ x, x < a ∨ a + n ≤ x → readByte t.mem x = readByte s.mem x

/-- Every core but `i` is as it was. -/
def SameCores (s t : State) (i : Nat) : Prop := ∀ j, j ≠ i → t.core j = s.core j

/-- The registers are as they were, but that streams may have given back elements read ahead, to read them again (R167, R217). -/
def Reread (r t : Regs) : Prop :=
  t = { r with q := t.q } ∧ ∀ k : Fin 8, t.q.get k = r.q.get k ∨
    ∃ base h pos ahead n, r.q.get k = .stream false base h pos ahead ∧ t.q.get k = .stream false base h pos (ahead.take n)

/-! ## Rounding, in the words of R115 and R116 -/

/-- Where a mode sends a magnitude that lies between two neighbours: to the lesser, to the greater, or to the nearer. -/
inductive Toward where
  | down | up | nearEven | nearAway
  deriving DecidableEq, Repr

/-- The five modes on a value of the sign `neg` (R115). -/
def toward (rm : Rm) (neg : Bool) : Toward :=
  match rm with
  | .rne => .nearEven
  | .rna => .nearAway
  | .rtz => .down
  | .rup => if neg then .down else .up
  | .rdn => if neg then .up else .down

/-- `k` units of size `u` are the magnitude `x` rounded to a multiple of `u`. -/
def RoundedTo (t : Toward) (x u k : Nat) : Prop :=
  match t with
  | .down => k * u ≤ x ∧ x < (k + 1) * u
  | .up => x ≤ k * u ∧ k * u < x + u
  | .nearEven => 2 * (k * u) ≤ 2 * x + u ∧ 2 * x ≤ 2 * (k * u) + u ∧
      ((2 * (k * u) = 2 * x + u ∨ 2 * x = 2 * (k * u) + u) → k % 2 = 0)
  | .nearAway => 2 * (k * u) ≤ 2 * x + u ∧ 2 * x < 2 * (k * u) + u

/-- The magnitude of the finite bits `b` in units of the smallest subnormal of the format (R112). -/
def magUnits (f : Fmt) (b : Nat) : Nat :=
  let man := b % 2 ^ f.mb
  let ex := b / 2 ^ f.mb
  if ex = 0 then man else (2 ^ f.mb + man) * 2 ^ (ex - 1)

/-- The bits `b` (without the sign) are the magnitude `x` / `d` of the smallest subnormal, rounded as `t` says: the next
representable value below or above it, or the nearest, a tie going to the even mantissa or away from zero. -/
def RoundedIn (f : Fmt) (t : Toward) (x d b : Nat) : Prop :=
  let v := fun c => magUnits f c * d
  match t with
  | .down => v b ≤ x ∧ ∀ c, c < f.infField → v c ≤ x → v c ≤ v b
  | .up => x ≤ v b ∧ ∀ c, c < f.infField → x ≤ v c → v b ≤ v c
  | .nearEven => ∀ c, c < f.infField → ((x : Int) - v b).natAbs ≤ ((x : Int) - v c).natAbs ∧
      (c ≠ b → ((x : Int) - v b).natAbs = ((x : Int) - v c).natAbs → b % 2 = 0)
  | .nearAway => ∀ c, c < f.infField → ((x : Int) - v b).natAbs ≤ ((x : Int) - v c).natAbs ∧
      (((x : Int) - v b).natAbs = ((x : Int) - v c).natAbs → v c ≤ v b)

/-- The magnitude `x` / `d` rounds above the largest finite value (R116). -/
def RoundsOver (f : Fmt) (t : Toward) (x d : Nat) : Prop :=
  let top := magUnits f (f.infField - 1) * d
  let next := magUnits f f.infField * d
  match t with
  | .down => next ≤ x
  | .up => top < x
  | .nearEven | .nearAway => top + next ≤ 2 * x

end Sys2Proof.Machine
end

