-- ==== Sys2Proof/Certificates/Slice0/Obligations.lean ====
section
/-! DEFINITION. The statements about the model. -/

open Sys2Proof Sys2Proof.Machine

/-- Decoding and encoding are inverse to each other (R38, R47 to R54): no bit of an encoding is dropped, and no two words
decode to one instruction. -/
def Obligations.DecodeAndEncodeAreInverse : Prop :=
  (∀ (i : Instr) (h : Hdr), i.hdr = some h → i.wf = true →
    ∃ w, encode i = some w ∧ w < 2 ^ 80 ∧ decode w = .ok i) ∧
  (∀ (w : Nat) (i : Instr), w < 2 ^ 80 → decode w = .ok i → i.wf = true ∧ encode i = some w)

/-- Words printed in the spec and their instructions. -/
def Obligations.SpecWordsDecode : Prop :=
  decode 0x1004_0008_2860_E000_0000 =
      .ok (.add { pd := 1, ta := 0, tw0 := 0, tw1 := 0, neg := false, pg := 2 } 5 6 7 .n64 false) ∧
  decode 0x3000_4000_2020_68C0_0008 =
      .ok (.ld { pd := 0, ta := 1, tw0 := 0, tw1 := 0, neg := false, pg := 0 } 4 ⟨2, 3, 2, 8⟩ .s32 false) ∧
  decode 0x0000_0000_0000_0000_0000 = .ok (.nop { pd := 0, ta := 0, tw0 := 0, tw1 := 0, neg := false, pg := 0 }) ∧
  decode 0x41C0_4000_3020_A000_4000 =
      .ok (.amo { pd := 0, ta := 1, tw0 := 0, tw1 := 0, neg := false, pg := 0 } 6 2 5 0 .min false .relaxed) ∧
  decode 0x40C0_8000_3830_0240_0000 =
      .ok (.acq { pd := 0, ta := 2, tw0 := 0, tw1 := 0, neg := false, pg := 0 } 7 3 9) ∧
  decode 0x8000_8000_8142_CA00_0000 =
      .ok (.mma { pd := 0, ta := 2, tw0 := 0, tw1 := 0, neg := false, pg := 0 } .c8 .c8 ⟨8, 10, 11, 20, .g4, false⟩) ∧
  decode 0x9000_C000_1080_0000_0000 = .ok (.cpyq { pd := 0, ta := 3, tw0 := 0, tw1 := 0, neg := false, pg := 0 } 2 8) ∧
  decode 0xA000_4000_1900_A000_0000 =
      .ok (.send { pd := 0, ta := 1, tw0 := 0, tw1 := 0, neg := false, pg := 0 } 3 16 5) ∧
  decode 0x1780_0003_20B0_0000_0000 =
      .ok (.movToStream { pd := 0, ta := 0, tw0 := 0, tw1 := 0, neg := false, pg := 0 } 4 11) ∧
  decode 0xB000_4000_28A1_6300_0001 =
      .ok (.grant { pd := 0, ta := 1, tw0 := 0, tw1 := 0, neg := false, pg := 0 } 5 10 11 12 1) ∧
  decode 0xC000_0000_0000_0000_1000 = .ok (.tret { pd := 0, ta := 0, tw0 := 0, tw1 := 0, neg := false, pg := 0 } true false)

/-- The order of the checks of R54 on four kinds of bad words, and TRAPVAL of R55. -/
def Obligations.BadWordsAreRefusedInOrder : Prop :=
  (∀ w : Nat, w < 2 ^ 80 → 13 ≤ fld w 76 4 → decode w = .error ⟨70, 10, fld w 70 10⟩) ∧
  (∀ w : Nat, (opcRow w).isSome = true → fld w 50 4 = 8 → decode w = .error ⟨50, 4, 8⟩) ∧
  (∀ w : Nat, fld w 76 4 = 1 → fld w 70 6 ≤ 33 → fld w 50 4 ≠ 8 → fld w 0 12 ≠ 0 →
    decode w = .error ⟨0, 12, fld w 0 12⟩) ∧
  (∀ w : Nat, fld w 76 4 = 1 → fld w 70 6 ≤ 33 → fld w 50 4 ≠ 8 → fld w 0 12 = 0 → 120 ≤ fld w 43 7 →
    decode w = .error ⟨43, 7, fld w 43 7⟩) ∧
  (∀ e : Ill, e.lo < 80 → e.width ≤ 32 → e.value < 2 ^ 32 →
    wf e.trapval 56 8 = 0 ∧ wf e.trapval 48 8 = e.lo ∧ wf e.trapval 40 8 = e.width ∧ wf e.trapval 32 8 = 0 ∧
      wf e.trapval 0 32 = e.value)

/-- A step runs the instruction that its fetch decodes. The agenda and the default order of moves are the model's choice
(log entry 2).
The model's own choices in it: log entries 1, 2 and 4. -/
def Obligations.StepRunsDecodedInstruction : Prop :=
  (∀ (s : State) (i : Nat) (ms : List Move) (f : Firing) (u : State) (l : Loc) (p : Place) (line : ICLine) (x : Instr),
    s.agenda = .issue i :: ms → s.rcv.fatal = none →
    let s1 := { s with agenda := ms, cur := i }
    preIssue s1 i = none → (s1.core i).firing = some f → inCodeb f.codeb f.pc = true →
    64 * wf f.pc 6 50 < 0xF0_0000_0000_0000 →
    checkAt s1 i (W (wf f.pc 56 8 * 2 ^ 56 + 64 * wf f.pc 6 50)) 64 2 = .ok u l p →
    icFind u i (wf f.pc 6 50) = some line →
    decode (ofLe ((line.data.drop (10 * wf f.pc 0 3)).take 10)) = .ok x →
    step s = exec x (icUse u i line)) ∧
  (∀ (s : State) (i : Nat) (ms : List Move) (f : Firing) (u v : State) (l : Loc) (p : Place) (line : ICLine) (x : Instr),
    s.agenda = .issue i :: ms → s.rcv.fatal = none →
    let s1 := { s with agenda := ms, cur := i }
    preIssue s1 i = none → (s1.core i).firing = some f → inCodeb f.codeb f.pc = true →
    64 * wf f.pc 6 50 < 0xF0_0000_0000_0000 →
    checkAt s1 i (W (wf f.pc 56 8 * 2 ^ 56 + 64 * wf f.pc 6 50)) 64 2 = .ok u l p →
    icFind u i (wf f.pc 6 50) = none → takeCodeLine u i (wf f.pc 6 50) = some (v, line) →
    decode (ofLe ((line.data.drop (10 * wf f.pc 0 3)).take 10)) = .ok x →
    step s = exec x v) ∧
  (∀ (s : State) (e : Instr) (a : EvArg) (ms : List Move),
    s.agenda = .event e a :: ms → e.hdr = none → s.rcv.fatal = none → step s = exec e { s with agenda := ms, arg := a }) ∧
  (∀ (s : State) (ms : List Move), s.agenda = .tick :: ms →
    (s.rcv.fatal = none → step s = .next { armCores (arriveAll { s with agenda := ms }) with now := s.now + 1 }) ∧
    (s.rcv.fatal ≠ none → step s = .next { s with agenda := ms, now := s.now + 1 })) ∧
  (∀ s : State, s.agenda = [] → step s = doMove s (nextMove s))

/-- Fetch and decode faults of a step. -/
def Obligations.StepTrapsOnBadFetch : Prop :=
  ∀ (s : State) (i : Nat) (ms : List Move) (f : Firing),
    s.agenda = .issue i :: ms → s.rcv.fatal = none →
    let s1 := { s with agenda := ms, cur := i }
    preIssue s1 i = none → (s1.core i).firing = some f →
    (inCodeb f.codeb f.pc = false → step s = .next (trap s1 i 0x17 f.pc)) ∧
    (inCodeb f.codeb f.pc = true → 0xF0_0000_0000_0000 ≤ 64 * wf f.pc 6 50 → step s = .next (trap s1 i 0x0E f.pc)) ∧
    (inCodeb f.codeb f.pc = true → 64 * wf f.pc 6 50 < 0xF0_0000_0000_0000 →
      (∀ (u : State) (cause : Nat) (g : Firing),
        checkAt s1 i (W (wf f.pc 56 8 * 2 ^ 56 + 64 * wf f.pc 6 50)) 64 2 = .bad u cause → (u.core i).firing = some g →
        step s = .next (trap u i cause g.pc)) ∧
      (∀ (u : State) (l : Loc) (p : Place) (line : ICLine) (e : Ill),
        checkAt s1 i (W (wf f.pc 56 8 * 2 ^ 56 + 64 * wf f.pc 6 50)) 64 2 = .ok u l p →
        icFind u i (wf f.pc 6 50) = some line →
        decode (ofLe ((line.data.drop (10 * wf f.pc 0 3)).take 10)) = .error e →
        step s = .next (trap (icUse u i line) i 0x01 e.trapval)))

/-- Reset values that the spec states.
The model's own choices in it: log entry 3 (the slots of the arrival mailbox read zero). -/
def Obligations.ResetLeavesStatedValues : Prop :=
  let z := State.reset
  z.modnum = none ∧ z.now = 0 ∧ z.hostown = 0 ∧
  (∀ i : Nat, i < 25920 →
    (∀ k : Fin 2, ((z.core i).mtx.dt.get k).st = .empty) ∧ (z.core i).mtx.tiles = [] ∧
    (∀ k : Fin 16, (z.core i).sched.wm.get k = { busy := false, fault := false, fill := 0, owner := 0 }) ∧
    (∀ k : Fin 4, ((z.core i).sched.mbox.get k).count = 0 ∧ ((z.core i).sched.mbox.get k).ch = 0 ∧
      ((z.core i).sched.mbox.get k).w0 = 0) ∧
    (z.core i).sched.traph = 0 ∧ (z.core i).sched.scodeb = 0 ∧ (z.core i).sched.sowner = 0 ∧
    (z.core i).sched.nosteal = false ∧ (z.core i).sched.novictim = false ∧
    rectOf (z.core i).sched.stlscope =
      { x0 := modX i / 8 * 8, y0 := modY i, x1 := modX i / 8 * 8 + 7, y1 := modY i } ∧
    (∀ b : Nat, b < 1024 → readByte z.mem (tcmBase i + 0x1FC00 + b) = if b = 8 then 1 else 0) ∧
    (∀ b : Nat, b < 0x300 → readByte z.mem (tcmBase i + 0x1F900 + b) = if b = 8 then 1 else 0)) ∧
  (∀ m : Nat, (mget? z.eng.routes m).getD 0 = 0) ∧ (∀ k : Nat, mget? z.owners.keys k = none) ∧
  z.rcv.fqbase = 0 ∧ z.rcv.fqhead = 0 ∧ z.rcv.fqtail = 0 ∧ z.rcv.fqlost = 0 ∧
  (∀ d k : Nat, vget (quotasOf z d k) 0 0 = 0xFFFF_FFFF ∧
    ∀ c : Nat, 0 < c → c < 16 → vget (quotasOf z d k) 0 c = 0)

/-- The invariant of `StepKeepsMemoryCanonical` holds at reset.
The model's own choices in it: log entry 3. -/
def Obligations.ResetMemoryIsCanonical : Prop := MemOk State.reset ∧ State.reset.mem = []

/-- The canonical form of memory is an invariant of every step of every agent.
The model's own choices in it: log entry 3. -/
def Obligations.StepKeepsMemoryCanonical : Prop := ∀ s t : State, MemOk s → step s = .next t → MemOk t

/-- Nothing is executed after a fatal error (R439).
The model's own choices in it: log entry 61. -/
def Obligations.FatalErrorStopsTheModule : Prop :=
  ∀ s : State, s.rcv.fatal ≠ none →
    (∀ i ms, s.agenda = .issue i :: ms → step s = .fault .fatalStop) ∧
    (∀ e a ms, s.agenda = .event e a :: ms → afterFatal e = false → step s = .next { s with agenda := ms }) ∧
    (s.agenda = [] → ∀ t, step s = .next t →
      t.cores = s.cores ∧ t.eng = s.eng ∧ t.walkers = s.walkers ∧ t.homes = s.homes ∧ t.rcv.fatal = s.rcv.fatal)

/-- Read after write, and nothing else changes.
The model's own choices in it: log entry 3. -/
def Obligations.MemoryReadsWhatWasWritten : Prop :=
  ∀ (m : Memory) (a : Nat) (bs : List Byte), Memory.wf m = true →
    Memory.wf (writeBytes m a bs) = true ∧
    (∀ k, k < bs.length → readByte (writeBytes m a bs) (a + k) = bs.getD k 0) ∧
    (∀ x, x < a ∨ a + bs.length ≤ x → readByte (writeBytes m a bs) x = readByte m x) ∧
    readBytes (writeBytes m a bs) a bs.length = bs ∧
    (∀ w : Word, readWord (writeWord m a w) a = w ∧
      ∀ k, k < 8 → readByte (writeWord m a w) (a + k) = BitVec.ofNat 8 (wf w (8 * k) 8))

/-- A guarded-off instruction has no effect but its place in dynamic order and its tag (R46). -/
def Obligations.FalseGuardOnlyAdvances : Prop :=
  ∀ (x : Instr) (h : Hdr) (f : Firing) (s : State), x.hdr = some h → readyOff h f s = true →
    ∃ t, exec x s = .next t ∧ SameMem s t ∧ SameCores s t s.cur ∧
      (t.core s.cur).regs = (issuer s).regs ∧ (t.core s.cur).cache = (issuer s).cache ∧
      (t.core s.cur).mtx = (issuer s).mtx ∧ (t.core s.cur).traps = (issuer s).traps ∧
      (∃ pc, Moved f.pc 1 pc ∧ (t.core s.cur).firing = some { f with pc := pc }) ∧
      (t.core s.cur).iss.hist = (s.now + 1) :: (issuer s).iss.hist.take 14 ∧
      (t.core s.cur).iss.next = s.now + 1 ∧
      (t.core s.cur).iss.outs = (issuer s).iss.outs ∧ (t.core s.cur).iss.pend = (issuer s).iss.pend ∧
      (∀ k : Fin 16, tagOf (t.core s.cur) k = if k = h.ta ∧ k ≠ 0 then .done else tagOf (issuer s) k)

/-- What holds an instruction back (R39 to R42). -/
def Obligations.WaitingInstructionDoesNotIssue : Prop :=
  ∀ (x : Instr) (h : Hdr) (f : Firing) (s : State), x.hdr = some h →
    (issuer s).firing = some f → s.now < f.budgetEnd → (issuer s).stopped = none →
    (issuer s).traps.pending = none → (issuer s).traps.abort = none → (issuer s).iss.next ≤ s.now →
    ((h.pd.val ≠ 0 ∧ s.now < (issuer s).iss.hist.getD (h.pd.val - 1) 0) ∨
      tagOf (issuer s) h.tw0 = .outstanding ∨ tagOf (issuer s) h.tw1 = .outstanding ∨
      tagOf (issuer s) h.ta = .outstanding ∨ (∃ o ∈ (issuer s).iss.outs, o.holds = true)) →
    ∃ t, exec x s = .next t ∧ SameMem s t ∧ SameCores s t s.cur ∧ (t.core s.cur).regs = (issuer s).regs ∧
      (t.core s.cur).firing = some f ∧ (t.core s.cur).iss.tags = (issuer s).iss.tags ∧
      (t.core s.cur).iss.outs = (issuer s).iss.outs ∧ (t.core s.cur).iss.next = s.now + 1

/-- Delivery of a late fault (R360), and its order with a BUDGET expiry (R367).
The model's own choices in it: log entries 22 and 24 (which comes first when the budget is out as well). -/
def Obligations.LateFaultComesBeforeIssue : Prop :=
  ∀ (x : Instr) (h : Hdr) (f : Firing) (s : State) (t : Fin 16) (lf : LateFault), x.hdr = some h →
    (issuer s).firing = some f → (issuer s).stopped = none →
    mustWait (begun s) (issuer s) h = false → lateFault (issuer s) [h.tw0, h.tw1, h.ta] = some (t, lf) →
    let delivered := ∃ (u : State) (p : PTrap), exec x s = .next (deliver u s.cur p) ∧ p.cause = lf.cause ∧ p.val = lf.val ∧
      p.pc = f.pc ∧ p.faultPc = lf.pc ∧ p.late = true ∧ p.tag = t ∧ p.src = lf.src ∧ u.homes = s.homes ∧ SameCores s u s.cur ∧
      (u.core s.cur).firing = some f ∧ (u.core s.cur).regs = (issuer s).regs ∧
      (t ≠ 0 → tagOf (u.core s.cur) t = .done) ∧ (t = 0 → (u.core s.cur).traps.ready = (issuer s).traps.ready.drop 1)
    (s.now < f.budgetEnd → delivered) ∧
    (f.budgetEnd ≤ s.now → lf.at_ < f.budgetEnd → delivered) ∧
    (f.budgetEnd ≤ s.now → f.budgetEnd ≤ lf.at_ → exec x s = .next (expireBudget (begun s) s.cur)) ∧
    ((t = 0 ∧ (issuer s).traps.ready.head? = some lf) ∨
      (t ≠ 0 ∧ t ∈ [h.tw0, h.tw1, h.ta] ∧ tagOf (issuer s) t = .faulted lf)) ∧
    (∀ k ∈ [h.tw0, h.tw1, h.ta], k ≠ 0 → ∀ y, tagOf (issuer s) k = .faulted y → lf.at_ ≤ y.at_)

/-- How the results of R50 reach their registers (R45).
The model's own choices in it: log entry 21. -/
def Obligations.FixedLatencyResultLands : Prop :=
  ∀ s : State, let i := s.arg.core
    let pend := (s.core i).iss.pend
    let due := pend.filter fun p => decide (p.due ≤ s.now)
    ∃ (t : State) (ps : List PendWrite) (l : Nat × Flags), exec .fixedLatencyWrite s = .next t ∧ SameMem s t ∧ SameCores s t i ∧
      ps.Perm due ∧ ps.Pairwise (fun p q => p.due ≤ q.due) ∧
      (∀ d, ps.filter (fun p => p.due == d) = due.filter fun p => p.due == d) ∧
      (t.core i).regs =
        { ps.foldl (fun r p => r.writeAll p.writes) (s.core i).regs with
          fpstat := due.foldl (fun x p => x ||| p.flags) (s.core i).regs.fpstat, landed := l } ∧
      (t.core i).iss.pend = (pend.filter fun p => decide (s.now < p.due)) ∧
      (∀ k : Fin 16, tagOf (t.core i) k =
        if k ≠ 0 ∧ tagOf (s.core i) k = .outstanding ∧ ∃ p ∈ due, p.tag = k then .done else tagOf (s.core i) k) ∧
      (t.core i).iss.outs = (s.core i).iss.outs ∧ (t.core i).iss.next = (s.core i).iss.next ∧
      (t.core i).iss.hist = (s.core i).iss.hist ∧
      (t.core i).cache = (s.core i).cache ∧ (t.core i).mtx = (s.core i).mtx ∧ (t.core i).traps = (s.core i).traps ∧
      (t.core i).sched = (s.core i).sched ∧ (t.core i).firing = (s.core i).firing ∧
      (due = [] → t.core i = s.core i)

/-- The register index space of R49, and the supervisor bank of R362. -/
def Obligations.ResultChangesItsRegisterOnly : Prop :=
  ∀ (c : CoreSt) (d r : GReg) (v : Word) (p q : PReg) (b : Bool) (m n : MReg) (k : BitVec 128),
    gread { c with regs := c.regs.write (gdest c d v) } r = (if r = d ∧ d ≠ 0 then v else gread c r) ∧
    ((c.firing.map (·.handler)).getD false = true → 48 ≤ d.val → (c.regs.write (gdest c d v)).g = c.regs.g) ∧
    ((c.firing.map (·.handler)).getD false = false → (c.regs.write (gdest c d v)).gs = c.regs.gs) ∧
    pread { c with regs := c.regs.write (.p p b) } q = (if q = p ∧ p ≠ 0 then b else pread c q) ∧
    gread { c with regs := c.regs.write (.p p b) } r = gread c r ∧
    (c.regs.write (gdest c d v)).p = c.regs.p ∧ (c.regs.write (gdest c d v)).v = c.regs.v ∧
    (c.regs.write (gdest c d v)).fpstat = c.regs.fpstat ∧
    vget (c.regs.write (.m m k)).m 0 n.val =
      if n = m then k &&& BitVec.ofNat 128 (2 ^ c.regs.vgrant - 1) else vget c.regs.m 0 n.val

/-- Trap entry (R362) and the trap frame (R363).
The model's own choices in it: log entries 22, 24, 68 and 77 (a stopped core). -/
def Obligations.PreciseTrapEntersHandler : Prop :=
  ∀ (s : State) (i cause : Nat) (val : Word) (f : Firing), MemOk s →
    (s.core i).firing = some f → f.handler = false → f.sup = false → cause < 0x14 ∨ cause = 0x17 →
    (s.core i).sched.traph ≠ 0 → admitted (s.core i).sched.scodeb (s.core i).sched.traph = true →
    (s.core i).traps.abort = none →
    let p : PTrap := { cause, val, pc := f.pc, faultPc := f.pc, late := false, tag := 0, src := 0, seq := 0, held := false }
    -- an expiry of the budget that the firing has not yet been told of
    let out := decide (f.budgetEnd ≤ s.now) && cause != 0x13 &&
      !(s.core i).traps.ready.any fun x => x.cause == 0x13 && x.at_ == f.budgetEnd
    let entered := fun (th sc : Word) (so : Nat) (u t : State) =>
      let w := fun k => readWord t.mem (tcmBase i + 0x1F800 + 8 * k)
      w 0 = W cause ∧ w 1 = val ∧ w 2 = f.pc ∧ w 3 = f.pc ∧ w 4 = 0 ∧
      (f.owner < 2 ^ 16 → s.worldOf f.owner < 2 ^ 8 → f.stage < 2 ^ 8 →
        wf (w 5) 0 16 = f.owner ∧ wf (w 5) 16 8 = s.worldOf f.owner ∧ wf (w 5) 24 8 = f.stage ∧
          wf (w 5) 32 4 = slotOf f.kind ∧ wf (w 5) 36 1 = b2n (isTask f.kind)) ∧
      w 6 = W (f.budgetEnd - s.now) ∧ w 7 = W f.budget ∧ w 8 = f.codeb ∧ wf (w 9) 0 5 = (s.core i).regs.fpstat.toNat ∧
      (∀ k : Fin 8, k ≠ 0 → wb (w 10) k.val = vget (s.core i).regs.p false k.val) ∧
      (∀ k, 12 ≤ k → k < 32 → w k = 0) ∧
      SameMemBut s t (tcmBase i + 0x1F800) 256 ∧ SameCores u t i ∧
      (∃ e, (t.core i).firing = some { f with
          handler := true, owner := so, codeb := sc, pc := th, budgetEnd := e
          expired := f.expired || out } ∧ f.budgetEnd ≤ e ∧ s.now + 4096 ≤ e ∧
          (s.now + 4096 ≤ f.budgetEnd → e = f.budgetEnd)) ∧
      (t.core i).regs.g = (s.core i).regs.g ∧ (t.core i).regs.p = (s.core i).regs.p ∧
      (t.core i).regs.v = (s.core i).regs.v ∧ (t.core i).regs.fpstat = (s.core i).regs.fpstat ∧
      (∀ k : Fin 16, vget (t.core i).regs.gs 0 k.val = if k = 0 then 0x00FF_0000_0001_F800 else 0)
    let b := (s.core i).sched
    (quiet (s.core i) = true → (out && f.expired) = false → entered b.traph b.scodeb b.sowner s (trap s i cause val)) ∧
    (quiet (s.core i) = true → (out && f.expired) = true → trap s i cause val = s.abort i 0x13 (W f.budget) f.pc) ∧
    (quiet (s.core i) = false → trap s i cause val = s.onTraps i fun t =>
      { t with pending := some { p with traph := b.traph, scodeb := b.scodeb, sowner := b.sowner } }) ∧
    (∀ th sc so, (s.core i).traps.pending = some { p with traph := th, scodeb := sc, sowner := so } → s.arg.core = i →
      (s.core i).stopped = none → quiet (s.core i) = true →
      ((out && f.expired) = false → ∃ t, exec .trapEntry s = .next t ∧ entered th sc so s t) ∧
      ((out && f.expired) = true → exec .trapEntry s = .next ((flushDue s i).abort i 0x13 (W f.budget) f.pc)))

/-- Aborts (R300) and where a trap becomes one (R361, R364).
The model's own choices in it: log entries 25 and 68 (the owner where the frame's word is poisoned). -/
def Obligations.UnhandledTrapAborts : Prop :=
  ∀ (s : State) (i cause : Nat) (val : Word) (f : Firing), (s.core i).firing = some f →
    let aborted := fun (c : Nat) (v pc : Word) (t : State) =>
      (t.core i).firing = none ∧ (t.core i).regs.vgrant = 0 ∧ (∀ k : Fin 8, (t.core i).regs.q.get k = .unbound) ∧
      (∀ k : Fin 16, tagOf (t.core i) k = .free) ∧ (t.core i).iss.pend = [] ∧
      (t.core i).cache.wb = (s.core i).cache.wb ∧
      (∀ slot a, f.kind = .actor slot → actorOf (s.core i) slot = some a → a.freeing = false →
        ∃ b, actorOf (t.core i) slot = some b ∧ b.stopped = true ∧ b.ins = a.ins) ∧
      (if s.rcv.fqbase = 0 ∨ (s.rcv.fqhead + 1) % 4096 = s.rcv.fqtail % 4096 then
          t.rcv.fqlost = s.rcv.fqlost + 1 ∧ SameMem s t
        else
          let q := 64 * (s.rcv.fqbase / 64 + s.rcv.fqhead)
          t.rcv.fqhead = (s.rcv.fqhead + 1) % 4096 ∧ SameMemBut s t q 64 ∧
          wf (readWord t.mem q) 0 8 = c % 256 ∧ readWord t.mem (q + 8) = v ∧ readWord t.mem (q + 16) = pc ∧
          wf (readWord t.mem (q + 24)) 0 16 =
            if f.handler then
              (if poisonAt s (tcmBase i + 0x1F828) 8 then 0 else wf (readWord s.mem (tcmBase i + 0x1F828)) 0 16)
            else f.owner % 2 ^ 16)
    (joinedGang (s.core i) = false → MemOk s → cause < 256 →
      (f.handler = true → cause ≠ 0x16 → aborted 0x16 (W cause) f.pc (trap s i cause val)) ∧
      (f.handler = false →
        f.sup = true ∨ cause = 0x14 ∨ cause = 0x15 ∨ (s.core i).sched.traph = 0 ∨
          admitted (s.core i).sched.scodeb (s.core i).sched.traph = false →
        aborted cause val f.pc (trap s i cause val)) ∧
      (∀ a, (s.core i).traps.abort = some a → s.arg.core = i → a.cause < 256 →
        ∃ t, exec .firingAbort s = .next t ∧ aborted a.cause a.val a.pc t)) ∧
    (joinedGang (s.core i) = true → (s.core i).traps.abort = none →
      (s.abort i cause val f.pc).core i = { s.core i with traps := { (s.core i).traps with
          abort := some { cause, val, pc := f.pc, bank := if cause = 0x14 then val.toNat else 0 } } })

/-- Group 12 instructions of a handler (R370 to R373).
The model's own choices in it: log entries 22, 23 and 68. -/
def Obligations.HandlerInstructions : Prop :=
  ∀ (h : Hdr) (f : Firing) (s : State) (d a : GReg) (next replay store : Bool) (k : Fin 4),
    ready .none h f s = true →
    let i := s.cur
    let w := fun k => readWord s.mem (tcmBase i + 0x1F800 + 8 * k)
    let target := if next then pcPlus (w 2) 1 else w 2
    let n := (gread (issuer s) a).toNat
    let decided := if wb (w 11) 16 && !(issuer s).traps.decided then decideHeld (wf (w 4) 0 32) replay (issuer s) else issuer s
    (f.handler = true → framePoison s i 2 10 = none → handlerBusy decided = false → ¬ Bad target →
      ∃ t, exec (.tret h next replay) s = .next t ∧ SameMem s t ∧ SameCores s t i ∧
        (t.core i).firing =
          some { f with handler := false, owner := wf (w 5) 0 16, codeb := w 8, ext := wb (w 11) 17, pc := target } ∧
        (t.core i).regs.g = (issuer s).regs.g ∧ (t.core i).regs.fpstat = BitVec.ofNat 5 (wf (w 9) 0 5) ∧
        (∀ p : Fin 8, p ≠ 0 → vget (t.core i).regs.p false p.val = wb (w 10) p.val) ∧
        (next = true → Moved (w 2) 1 target) ∧ (t.core i).cache.wb = decided.cache.wb ∧
        (wb (w 11) 16 = true → (issuer s).traps.decided = false → (t.core i).cache.wb =
          (((issuer s).traps.sring.filter (resent (wf (w 4) 0 32) replay)).filterMap (·.ent)).map
            (fun e => { e with held := false, sent := false }) ++ (issuer s).cache.wb) ∧
        (t.core i).traps.ready = (issuer s).traps.counted ++ (issuer s).traps.ready) ∧
    (f.handler = true → framePoison s i 2 10 = none → handlerBusy decided = false → Bad target →
      ∃ (u : State) (g : Firing), exec (.tret h next replay) s = .next (u.abort i 0x16 2 f.pc) ∧ u.homes = s.homes ∧
        (u.core i).firing = some g ∧ g.num = f.num ∧ g.handler = false) ∧
    (f.handler = false → exec (.tret h next replay) s = .next (trap (begun s) i 0x04 0x300)) ∧
    (f.handler = false → exec (.wdset h d a) s = .next (trap (begun s) i 0x04 0x309)) ∧
    (f.handler = true → framePoison s i 2 10 = none → handlerBusy decided = true →
      ∃ t, exec (.tret h next replay) s = .next t ∧ SameMem s t ∧ SameCores s t i ∧ (t.core i).firing = some f ∧
        (t.core i).cache.wb = decided.cache.wb ∧ (t.core i).traps.sring = decided.traps.sring ∧
        (t.core i).traps.decided = true) ∧
    (∀ e, f.handler = true →
      (framePoison s i 2 10 = some e → exec (.tret h next replay) s = .next (containFrame (begun s) i e f)) ∧
      (framePoison s i 0 4 = some e → exec (.tabort h) s = .next (containFrame (begun s) i e f)) ∧
      (framePoison s i 11 1 = some e → exec (.wdset h d a) s = .next (containFrame (begun s) i e f))) ∧
    (f.handler = true → framePoison s i 0 4 = none →
      exec (.tabort h) s = .next ((begun s).abort i (wf (w 0) 0 8) (w 1) (w 3))) ∧
    (f.handler = false → exec (.tabort h) s = .next ((begun s).abort i 0x03 0 f.pc)) ∧
    (f.handler = true → framePoison s i 11 1 = none → wb (w 11) 17 = false → 0 < n → n ≤ f.budget → MemOk s →
      ∃ u : State, exec (.wdset h d a) s = retired h f s u (.written [gdest (issuer s) d 0]) ∧
        (u.core i).firing = some { f with budgetEnd := f.budgetEnd + n } ∧ (u.core i).regs = (issuer s).regs ∧
        readWord u.mem (tcmBase i + 0x1F858) = w 11 ||| 0x20000 ∧ SameMemBut s u (tcmBase i + 0x1F858) 8 ∧ SameCores s u i) ∧
    (f.handler = true → framePoison s i 11 1 = none → wb (w 11) 17 = true ∨ n = 0 ∨ f.budget < n →
      exec (.wdset h d a) s = retired h f s (begun s) (.written [gdest (issuer s) d 1])) ∧
    exec (.cring h d a store k) s = retired h f s (begun s) (.written [gdest (issuer s) d
      (if store then
          match (issuer s).traps.sring.find? fun e => e.seq == n with
          | none => 0
          | some e => match k.val with
            | 0 => W e.seq
            | 1 => W (2 ^ 63 + e.logSize * 2 ^ 16 + e.cause * 2 ^ 8 + b2n e.held * 2 ^ 2 + e.st.val)
            | 2 => e.addr
            | _ => e.data
        else if 64 ≤ n then 0
        else match (issuer s).traps.cring[n]? with
          | none => 0
          | some e => cringWord s.now f.start e k.val)])

/-- Group 0 transfers (R59 to R65). `.jump` retires with a gap of two cycles (R62). -/
def Obligations.ControlTransfers : Prop :=
  ∀ (h : Hdr) (f : Firing) (s : State) (a d : GReg) (off : BitVec 32), ready .none h f s = true →
    let A := gread (issuer s) a
    let D := gread (issuer s) d
    let fixed := fun ws => retired h f s (begun s) (.fixed 1 ws 0)
    exec (.nop h) s = retired h f s (begun s) .plain ∧
    (∃ t, Moved f.pc off.toInt t ∧ exec (.br h off) s = retired h f s (begun s) (.jump t []) ∧
      (∃ l, Moved f.pc 1 l ∧ exec (.call h d off) s = retired h f s (begun s) (.jump t [gdest (issuer s) d l])) ∧
      exec (.loop h d off) s = (if D = 1 then fixed [gdest (issuer s) d 0]
        else retired h f s (begun s) (.jump t [gdest (issuer s) d (D - 1)])) ∧
      exec (.loopGt h a off) s = (if 0 < A.toInt then retired h f s (begun s) (.jump t []) else fixed []) ∧
      exec (.loopNz h a off) s = (if A = 0 then fixed [] else retired h f s (begun s) (.jump t []))) ∧
    (¬ Bad A → exec (.brx h a) s = retired h f s (begun s) (.jump A []) ∧
      exec (.ret h a) s = retired h f s (begun s) (.jump A [])) ∧
    (Bad A → exec (.brx h a) s = .next (trap (begun s) s.cur 0x02 A) ∧
      exec (.ret h a) s = .next (trap (begun s) s.cur 0x02 A)) ∧
    exec (.trapi h off) s = .next (trap (begun s) s.cur 0x03 (off.setWidth 64))

/-- What `retired` and `dispatched` leave: the frame of every fixed-latency instruction. Last, forms that complete so on every operand. -/
def Obligations.RetiringFrame : Prop :=
  (∀ (h : Hdr) (f : Firing) (s u : State) (lat : Nat) (ws : List RegWrite) (fl : Flags) (pc : Word) (cop : Bool),
    let i := s.cur
    let c := u.core i
    let frame := fun (t : State) =>
      t.homes = u.homes ∧ SameMem u t ∧ SameCores u t i ∧ (t.core i).regs = c.regs ∧ (t.core i).cache = c.cache ∧
        (t.core i).mtx = c.mtx ∧ (t.core i).sched = c.sched ∧ t.rcv = u.rcv ∧ t.eng = u.eng ∧
        (t.core i).iss.outs = c.iss.outs
    (∃ t, (if cop then dispatched h f s u (.fixed lat ws fl) else retired h f s u (.fixed lat ws fl)) = .next t ∧ frame t ∧
      (t.core i).iss.next = u.now + 1 ∧ (t.core i).iss.hist = (u.now + lat) :: c.iss.hist.take 14 ∧
      (t.core i).iss.pend = c.iss.pend ++
        [{ due := u.now + lat, order := c.iss.opCount, writes := ws, flags := fl, tag := h.ta }] ∧
      (∀ k : Fin 16, tagOf (t.core i) k = if k = h.ta ∧ k ≠ 0 then .outstanding else tagOf c k) ∧
      (∃ p, Moved f.pc 1 p ∧ (t.core i).firing = c.firing.map fun g => { g with pc := p }) ∧
      (cop = false → (t.core i).traps = c.traps) ∧
      (cop = true → (t.core i).traps.cring.length = min 64 (c.traps.cring.length + 1))) ∧
    (∃ t, retired h f s u (.jump pc ws) = .next t ∧ frame t ∧ (t.core i).iss.next = u.now + 2 ∧
      (t.core i).iss.pend = c.iss.pend ++
        [{ due := u.now + 1, order := c.iss.opCount, writes := ws, flags := 0, tag := h.ta }] ∧
      (t.core i).firing = (c.firing.map fun g => { g with pc := pc }) ∧ (t.core i).traps = c.traps)) ∧
  (∀ (h : Hdr) (f : Firing) (s : State) (d a b c : GReg) (p : PReg) (fm : FFmt) (rm : Rm) (sg : SgnOp) (fc : FCond) (dst src : CvtTy)
      (vd va ve : VReg) (vb : VG) (mask dm am bm : MReg) (vt : VTy) (op : VOp) (cond : VCond) (lg : LogOp) (sh : ShOp) (red : RedOp)
      (fn : SfuOp) (vdst vsrc : VCvtTy) (flush bf : Bool) (half : Fin 2), ready .none h f s = true →
    let retires := fun (instr : Instr) => ∃ lat ws fl, exec instr s = retired h f s (begun s) (.fixed lat ws fl)
    let computes := fun (instr : Instr) => ∃ ws fl, exec instr s = dispatched h f s (begun s)
        (.fixed (6 + ((issuer s).regs.vgrant + 31) / 32) ws fl) ∨ exec instr s = dispatched h f s (begun s) (.out (.cop ws fl) .none true false)
    let writes := fun (instr : Instr) => ∃ u, exec instr s = retired h f s u .plain
    (∀ instr ∈ [Instr.fadd h d a b fm rm, .fsub h d a b fm rm, .fmul h d a b fm rm, .fma h d a b c fm rm, .fms h d a b c fm rm,
        .fnma h d a b c fm rm, .fdiv h d a b fm rm, .fsqrt h d a fm rm, .fmin h d a b fm, .fmax h d a b fm, .fsgn h d a b fm sg,
        .fcmp h p a b fm fc, .fclass h d a fm, .fcvt h d a dst src rm, .frnd h d a fm rm, .fscale h d a b fm rm], retires instr) ∧
    ((issuer s).regs.vgrant ≠ 0 → ∀ instr ∈ [Instr.vadd h vd va vb mask vt op, .vsub h vd va vb mask vt op, .vmul h vd va vb mask vt op,
        .vfma h vd va vb ve mask vt op, .vmin h vd va vb mask vt, .vmax h vd va vb mask vt, .vsgn h vd va vb mask vt sg,
        .vcmp h dm va vb mask vt cond, .vsel h vd va vb am vt, .vlog h (.lanes vd va vb mask) lg, .vlog h (.masks dm am bm) lg,
        .vsh h vd va vb mask vt sh, .vcvt h vd va flush vdst vsrc rm, .vpack h vd va ve bf rm, .vunpk h vd va half bf,
        .vred h d va mask vt red, .vscan h vd va mask vt red, .vperm h vd va ve mask vt, .vbcast h vd a mask vt, .vidx h vd a b mask,
        .vext h d va b vt, .vins h vd a b vt, .vsfu h vd va mask fn], computes instr) ∧
    writes (.syswr h a 0x00D) ∧ writes (.syswrFpstat h a) ∧ (scopeOk (gread (issuer s) a) = true → writes (.syswrStlscope h a)) ∧
    ((gread (issuer s) a).toNat = f.owner → s.live f.owner = true → writes (.syswrOwner h a)))

/-- `end` (R64, R299, R310).
The model's own choices in it: log entry 23. -/
def Obligations.EndClosesFiring : Prop :=
  ∀ (h : Hdr) (f : Firing) (s : State), ready .none h f s = true →
    let i := s.cur
    let c := issuer s
    let closed := fun (t : State) =>
      (t.core i).firing = none ∧ (∀ k : Fin 16, tagOf (t.core i) k = .free) ∧ (t.core i).iss.pend = [] ∧
      (t.core i).regs.vgrant = 0 ∧ (∀ k : Fin 8, (t.core i).regs.q.get k = .unbound) ∧
      (∃ sent, (t.core i).cache.wb = sent ++ c.cache.wb ∧
        ((∀ e ∈ c.traps.sring, e.held = false) → sent = [])) ∧ SameMem s t
    (endWaits c = true → exec (.fin h) s = .next (stall (begun s) i)) ∧
    (endWaits c = false → lateFault c allTags = none →
      ((∀ slot, f.kind ≠ .actor slot) → ∃ t, exec (.fin h) s = .next t ∧ closed t) ∧
      (∀ slot a, f.kind = .actor slot → actorOf c slot = some a →
        (rateMismatch f a = none → a.freeing = false →
          ∃ t, exec (.fin h) s = .next t ∧ closed t ∧
            ∃ b, actorOf (t.core i) slot = some b ∧ b.fired = a.fired + 1 ∧ b.stopped = a.stopped) ∧
        (∀ n, rateMismatch f a = some n → ∃ u : State, u.homes = s.homes ∧
          exec (.fin h) s = .next (u.abort i 0x15 (W n) f.pc))))

/-- `sysrd` (R66, R67).
The model's own choices in it: log entries 19 and 68 (a poisoned word of the frame). -/
def Obligations.SystemRegisterReads : Prop :=
  ∀ (h : Hdr) (f : Firing) (s : State) (d : GReg), ready .none h f s = true →
    let i := s.cur
    let c := issuer s
    let reads := fun (n : BitVec 12) (v : Word) =>
      exec (.sysrd h d n) s = retired h f s (begun s) (.fixed 1 [gdest c d v] 0)
    (i < 25920 → s.modnum.getD 0 < 2 ^ 14 → ∃ v, reads 0x000 v ∧ wf v 0 8 = modX i ∧ wf v 8 8 = modY i ∧
      wf v 16 4 = dieOf i ∧ wf v 20 6 = rowOf i ∧ wf v 26 6 = colOf i ∧ wf v 32 14 = s.modnum.getD 0 ∧
      wf v 46 6 = (if rowOf i < (Config.disabledRow (dieOf i)).val then rowOf i else rowOf i + 1) ∧ wf v 52 12 = 0) ∧
    reads 0x001 (W f.owner) ∧ reads 0x002 (W (s.worldOf f.owner)) ∧ reads 0x003 f.codeb ∧
    reads 0x004 (W (f.budgetEnd - s.now)) ∧ reads 0x005 (W c.regs.fpstat.toNat) ∧ reads 0x006 (W c.regs.vgrant) ∧
    reads 0x007 (W f.stage) ∧ reads 0x00B (W c.cache.seqHead) ∧ reads 0x00C 16384 ∧ reads 0x00D c.cache.hintDrop ∧
    reads 0x00E c.sched.stlscope ∧ reads 0x00F (W s.now) ∧ reads 0x010 (W (s.now / 4000)) ∧
    (f.handler = true →
      (framePoison s i 0 1 = none → reads 0x008 (W (wf (readWord s.mem (tcmBase i + 0x1F800)) 0 8))) ∧
      (framePoison s i 1 1 = none → reads 0x009 (readWord s.mem (tcmBase i + 0x1F808))) ∧
      (framePoison s i 2 1 = none → reads 0x00A (readWord s.mem (tcmBase i + 0x1F810))) ∧
      (∀ k e, k < 3 → framePoison s i k 1 = some e →
        exec (.sysrd h d (BitVec.ofNat 12 (8 + k))) s = match containEff (begun s) i e.1 e.2 with
          | .done u r => retired h f s u r
          | .wait u => .next (stall u i)
          | .trap u cause val => .next (trap u i cause val))) ∧
    (f.handler = false → f.sup = true →
      reads 0x008 (W c.traps.cause) ∧ reads 0x009 c.traps.val ∧ reads 0x00A c.traps.tpc) ∧
    (∀ n : BitVec 12, 0x010 < n.toNat ∨ (8 ≤ n.toNat ∧ n.toNat ≤ 10 ∧ f.handler = false ∧ f.sup = false) →
      exec (.sysrd h d n) s = .next (trap (begun s) i 0x04 (n.setWidth 64)))

/-- `syswr` (R66, R67, R393, R394). -/
def Obligations.SystemRegisterWrites : Prop :=
  ∀ (h : Hdr) (f : Firing) (s : State) (a : GReg) (n : BitVec 12), ready .none h f s = true →
    let i := s.cur
    let c := issuer s
    let A := gread c a
    exec (.syswr h a 0x00D) s = retired h f s ((begun s).onCache i fun k => { k with hintDrop := A }) .plain ∧
    exec (.syswrFpstat h a) s = retired h f s ((begun s).onRegs i fun r => { r with
      fpstat := A.setWidth 5 ||| (if r.landed.1 = s.now then r.landed.2 else 0) }) .plain ∧
    (scopeOk A = true →
      exec (.syswrStlscope h a) s = retired h f s ((begun s).onSched i fun k => { k with stlscope := A }) .plain) ∧
    (scopeOk A = false → exec (.syswrStlscope h a) s = .next (trap (begun s) i 0x0C A)) ∧
    (f.handler = true → MemOk s → 8 ≤ n.toNat → n.toNat ≤ 10 →
      ∃ u : State, exec (.syswr h a n) s = retired h f s u .plain ∧ (∀ j, u.core j = (begun s).core j) ∧
        SameMemBut s u (tcmBase i + 0x1F800 + 8 * (n.toNat - 8)) (if n.toNat = 8 then 1 else 8) ∧
        (if n.toNat = 8 then wf (readWord u.mem (tcmBase i + 0x1F800)) 0 8 = wf A 0 8
          else readWord u.mem (tcmBase i + 0x1F800 + 8 * (n.toNat - 8)) = A)) ∧
    (f.handler = false → f.sup = true →
      exec (.syswr h a 0x008) s = retired h f s ((begun s).onTraps i fun t => { t with cause := wf A 0 8 }) .plain ∧
      exec (.syswr h a 0x009) s = retired h f s ((begun s).onTraps i fun t => { t with val := A }) .plain ∧
      exec (.syswr h a 0x00A) s = retired h f s ((begun s).onTraps i fun t => { t with tpc := A }) .plain) ∧
    (n.toNat ≠ 0x00D → n.toNat < 8 ∨ 10 < n.toNat ∨ (f.handler = false ∧ f.sup = false) →
      exec (.syswr h a n) s = .next (trap (begun s) i 0x04 (n.setWidth 64))) ∧
    let allowed := A.toNat < 2 ^ 16 ∧ s.live A.toNat = true ∧
      (A.toNat = f.owner ∨ A.toNat = f.startOwner ∨ f.handler = true ∨ f.sup = true ∨
        (s.live f.owner = true ∧ s.worldOf A.toNat = s.worldOf f.owner ∧
          ∃ k, k < 8 ∧ wf (readWord s.mem (s.tableOf f.owner + 8 * (k / 4))) (16 * (k % 4)) 16 = A.toNat))
    (allowed →
      ∃ u : State, exec (.syswrOwner h a) s = retired h f s u .plain ∧ u.homes = s.homes ∧ SameCores s u i ∧
        (u.core i).firing = some { f with owner := A.toNat } ∧ (u.core i).regs = c.regs ∧ (u.core i).cache = c.cache ∧
        (u.core i).traps = c.traps ∧ (u.core i).sched = c.sched ∧ (u.core i).mtx.tiles = c.mtx.tiles ∧
        (∀ k : Fin 2, (u.core i).mtx.dt.get k =
          if (c.mtx.dt.get k).owner = A.toNat ∨ f.handler = true ∨ f.sup = true then c.mtx.dt.get k else .empty)) ∧
    (¬ allowed → exec (.syswrOwner h a) s = .next (trap (begun s) i 0x04 1))

/-- R69 to R71 and R77 for the typed instructions other than division. -/
def Obligations.TypedIntegerResults : Prop :=
  ∀ (h : Hdr) (f : Firing) (s : State) (d a b : GReg) (ty : IntTy) (sat : Bool) (imm : BitVec 32), ready .none h f s = true →
    let A := operandInt ty (gread (issuer s) a)
    let B := operandInt ty (gread (issuer s) b)
    let I := operandInt ty (imm.signExtend 64)
    let answers := fun (x : Instr) (lat : Nat) (sat : Bool) (r : Int) =>
      ∃ v, IntResult ty sat r v ∧ exec x s = retired h f s (begun s) (.fixed lat [gdest (issuer s) d v] 0)
    answers (.add h d a b ty sat) 1 sat (A + B) ∧ answers (.sub h d a b ty sat) 1 sat (A - B) ∧
    answers (.mul h d a b ty sat) 3 sat (A * B) ∧
    answers (.mulh h d a b ty) 3 false (A * B / 2 ^ IntTy.width ty) ∧
    answers (.mulhn h d a b ty) 3 false (A * B / 2 ^ IntTy.width ty) ∧
    answers (.min h d a b ty) 1 false (min A B) ∧ answers (.max h d a b ty) 1 false (max A B) ∧
    answers (.minn h d a b ty) 1 false (min A B) ∧ answers (.maxn h d a b ty) 1 false (max A B) ∧
    answers (.abs h d a ty sat) 1 sat (A.natAbs : Int) ∧
    answers (.addi h d a ty sat imm) 1 sat (A + I) ∧ answers (.mulImm h d a ty sat imm) 3 sat (A * I)

/-- R72, for the signed pair and the unsigned pair. -/
def Obligations.DivisionR72 : Prop :=
  ∀ (h : Hdr) (f : Firing) (s : State) (d a b : GReg) (ty : IntTy), ready .none h f s = true →
    let A := operandInt ty (gread (issuer s) a)
    let B := operandInt ty (gread (issuer s) b)
    let int := fun (x : Word) => if ty.signed then x.toInt else (x.toNat : Int)
    let answer := fun (v : Word) => retired h f s (begun s) (.fixed 20 [gdest (issuer s) d v] 0)
    ∃ q r : Word,
      exec (.div h d a b ty) s = answer q ∧ exec (.divn h d a b ty) s = answer q ∧
      exec (.rem h d a b ty) s = answer r ∧ exec (.remn h d a b ty) s = answer r ∧
      (B = 0 → int q = (if ty.signed then -1 else 2 ^ IntTy.width ty - 1) ∧ int r = A) ∧
      (ty.signed = true → A = -2 ^ (IntTy.width ty - 1) → B = -1 → int q = A ∧ int r = 0) ∧
      (B ≠ 0 → ¬ (ty.signed = true ∧ A = -2 ^ (IntTy.width ty - 1) ∧ B = -1) →
        A = int q * B + int r ∧ (int r).natAbs < B.natAbs ∧ (int r = 0 ∨ (int r < 0 ↔ A < 0)))

/-- Group 1 and 2 instructions on 64 bits (R71, R73, R77). -/
def Obligations.BitInstructions : Prop :=
  ∀ (h : Hdr) (f : Firing) (s : State) (d a b c : GReg) (n : Fin 64) (imm : BitVec 32) (sign : Bool), ready .none h f s = true →
    let A := gread (issuer s) a
    let B := gread (issuer s) b
    let C := gread (issuer s) c
    let I : Word := imm.signExtend 64
    let k := wf B 0 6
    let lo := wf B 0 6
    let len := min (wf B 8 7) (64 - lo)
    let answers := fun (x : Instr) (p : Word → Prop) =>
      ∃ v, p v ∧ exec x s = retired h f s (begun s) (.fixed 1 [gdest (issuer s) d v] 0)
    let bits := fun (x : Instr) (g : Nat → Bool) => answers x fun v => ∀ j, j < 64 → v.getLsbD j = g j
    bits (.and h d a b) (fun j => A.getLsbD j && B.getLsbD j) ∧ bits (.or h d a b) (fun j => A.getLsbD j || B.getLsbD j) ∧
    bits (.xor h d a b) (fun j => A.getLsbD j != B.getLsbD j) ∧ bits (.andn h d a b) (fun j => A.getLsbD j && !B.getLsbD j) ∧
    bits (.orn h d a b) (fun j => A.getLsbD j || !B.getLsbD j) ∧
    bits (.andImm h d a imm) (fun j => A.getLsbD j && I.getLsbD j) ∧
    bits (.orImm h d a imm) (fun j => A.getLsbD j || I.getLsbD j) ∧
    bits (.xorImm h d a imm) (fun j => A.getLsbD j != I.getLsbD j) ∧
    bits (.shl h d a b) (fun j => decide (k ≤ j) && A.getLsbD (j - k)) ∧
    bits (.shlImm h d a n) (fun j => decide (n.val ≤ j) && A.getLsbD (j - n.val)) ∧
    bits (.shr h d a b) (fun j => A.getLsbD (j + k)) ∧ bits (.shrImm h d a n) (fun j => A.getLsbD (j + n.val)) ∧
    bits (.sra h d a b) (fun j => A.getLsbD (min (j + k) 63)) ∧
    bits (.sraImm h d a n) (fun j => A.getLsbD (min (j + n.val) 63)) ∧
    bits (.rol h d a b) (fun j => A.getLsbD ((j + 64 - k) % 64)) ∧
    answers (.clz h d a) (fun v => v.toNat ≤ 64 ∧ A.toNat < 2 ^ (64 - v.toNat) ∧ (v.toNat < 64 → 2 ^ (63 - v.toNat) ≤ A.toNat)) ∧
    answers (.ctz h d a) (fun v => v.toNat ≤ 64 ∧ (∀ j, j < v.toNat → A.getLsbD j = false) ∧
      (v.toNat < 64 → A.getLsbD v.toNat = true)) ∧
    answers (.popc h d a) (fun v => v.toNat = ((List.range 64).filter fun j => A.getLsbD j).length) ∧
    bits (.sext h d a n) (fun j => A.getLsbD (min j n.val)) ∧
    bits (.zext h d a n) (fun j => decide (j ≤ n.val) && A.getLsbD j) ∧
    bits (.bfx h d a b sign) (fun j =>
      if j < len then A.getLsbD (lo + j) else sign && decide (0 < len) && A.getLsbD (lo + len - 1)) ∧
    bits (.bfi h d a b c) (fun j => if lo ≤ j ∧ j < lo + len then C.getLsbD (j - lo) else A.getLsbD j)

/-- `plog` (R76). -/
def Obligations.PredicateLogic : Prop :=
  (∀ (h : Hdr) (f : Firing) (s : State) (d a b : PReg) (tt : BitVec 4), ready .none h f s = true →
    exec (.plog h d a b tt) s = retired h f s (begun s) (.fixed 1 [.p d
      (match pread (issuer s) a, pread (issuer s) b with
        | false, false => tt.getLsbD 0
        | false, true => tt.getLsbD 1
        | true, false => tt.getLsbD 2
        | true, true => tt.getLsbD 3)] 0)) ∧
  (∀ tt : BitVec 4, decode (0x61 * 2 ^ 70 + 105 * 2 ^ 43 + 106 * 2 ^ 36 + 107 * 2 ^ 29 + tt.toNat * 2 ^ 12) =
    .ok (.plog { pd := 0, ta := 0, tw0 := 0, tw1 := 0, neg := false, pg := 0 } 1 2 3 tt))

/-- R74, R75, `sel`, and the immediate forms of R77. -/
def Obligations.MovesComparesAndConstants : Prop :=
  ∀ (h : Hdr) (f : Firing) (s : State) (d a b : GReg) (p q : PReg) (c : Cond) (w : CmpW) (imm : BitVec 32) (x : MemOp),
    ready .none h f s = true →
    let A := gread (issuer s) a
    let B := gread (issuer s) b
    let I : Word := imm.signExtend 64
    let answer := fun (r : RegWrite) => retired h f s (begun s) (.fixed 1 [r] 0)
    let holds := fun (n : Nat) (x y : Word) =>
      let ux := x.toNat % 2 ^ n
      let uy := y.toNat % 2 ^ n
      let sx := Int.bmod x.toNat (2 ^ n)
      let sy := Int.bmod y.toNat (2 ^ n)
      match c with
      | .eq => decide (ux = uy)
      | .ne => decide (ux ≠ uy)
      | .lt => decide (sx < sy)
      | .le => decide (sx ≤ sy)
      | .gt => decide (sx > sy)
      | .ge => decide (sx ≥ sy)
      | .ltn => decide (ux < uy)
      | .len => decide (ux ≤ uy)
      | .gtn => decide (ux > uy)
      | .gen => decide (ux ≥ uy)
      | .tst => decide (∃ j : Fin 64, j.val < n ∧ x.getLsbD j = true ∧ y.getLsbD j = true)
      | .ntst => !decide (∃ j : Fin 64, j.val < n ∧ x.getLsbD j = true ∧ y.getLsbD j = true)
    let width := match w with
      | .w64 => 64
      | .w32 => 32
      | .w16 => 16
      | .w8 => 8
    exec (.mov h (.gg d a)) s = answer (gdest (issuer s) d A) ∧
    exec (.mov h (.gp d p)) s = answer (gdest (issuer s) d (if pread (issuer s) p then 1 else 0)) ∧
    exec (.mov h (.pg p a)) s = answer (.p p (decide (A ≠ 0))) ∧
    exec (.mov h (.pp p q)) s = answer (.p p (pread (issuer s) q)) ∧
    exec (.cmp h p a b c w) s = answer (.p p (holds width A B)) ∧
    exec (.cmpi h p a c imm) s = answer (.p p (holds 64 A I)) ∧
    exec (.sel h d a b p) s = answer (gdest (issuer s) d (if pread (issuer s) p then A else B)) ∧
    exec (.movi h d imm) s = answer (gdest (issuer s) d I) ∧
    exec (.moviN h d imm) s = answer (gdest (issuer s) d (imm.setWidth 64)) ∧
    (∃ v, exec (.movh h d a imm) s = answer (gdest (issuer s) d v) ∧ v.toNat = imm.toNat * 2 ^ 32 + A.toNat % 2 ^ 32) ∧
    (∃ v, exec (.lea h d x) s = answer (gdest (issuer s) d v) ∧
      (v.toNat : Int) = ((gread (issuer s) x.a).toNat + (gread (issuer s) x.b).toNat * 2 ^ x.s.val + x.disp.toInt) % 2 ^ 64)

/-- Rounding once (R115, R116). -/
def Obligations.RoundingIsCorrect : Prop :=
  ∀ (f : Fmt) (rm : Rm) (neg : Bool) (m : Nat) (e : Int), 2 ≤ f.eb → 1 ≤ f.mb → 0 < m →
    let lo := f.emin - f.mb
    let e0 := min e lo
    let x := m * 2 ^ (e - e0).toNat
    let d := 2 ^ (lo - e0).toNat
    let t := toward rm neg
    let r := roundFin f rm neg m e false
    let mag := r.1 % 2 ^ (f.eb + f.mb)
    r.1 = mag + (if neg then 2 ^ (f.eb + f.mb) else 0) ∧
    (RoundsOver f t x d →
      mag = (if t = .down then f.infField - 1 else f.infField) ∧ r.2 = flOverflow ||| flInexact) ∧
    (¬ RoundsOver f t x d →
      mag < f.infField ∧ RoundedIn f t x d mag ∧ (r.2.getLsbD 4 = true ↔ magUnits f mag * d ≠ x) ∧
      r.2.getLsbD 2 = false ∧ r.2.getLsbD 1 = false ∧ r.2.getLsbD 0 = false ∧
      (r.2.getLsbD 3 = true → r.2.getLsbD 4 = true ∧ x < 2 ^ f.mb * d) ∧
      (r.2.getLsbD 4 = true → x < (2 ^ f.mb - 1) * d → r.2.getLsbD 3 = true))

/-- Group 5 arithmetic (R116, R117, R138). -/
def Obligations.FloatingPointArithmetic : Prop :=
  ∀ (h : Hdr) (f : Firing) (s : State) (d a b c : GReg) (fm : FFmt) (rm : Rm), ready .none h f s = true →
    let F := FFmt.fmt fm
    let lat := if fm = .f64 then 6 else 4
    let x := unpack F ((gread (issuer s) a).toNat % 2 ^ F.width)
    let y := unpack F ((gread (issuer s) b).toNat % 2 ^ F.width)
    let z := unpack F ((gread (issuer s) c).toNat % 2 ^ F.width)
    let is := fun (i : Instr) (lat : Nat) (r : Nat × Flags) =>
      exec i s = retired h f s (begun s) (.fixed lat [gdest (issuer s) d (W r.1)] r.2)
    let fadd := Instr.fadd h d a b fm rm
    let fsub := Instr.fsub h d a b fm rm
    let fmul := Instr.fmul h d a b fm rm
    let fdiv := Instr.fdiv h d a b fm rm
    let fsqrt := Instr.fsqrt h d a fm rm
    let fused := [Instr.fma h d a b c fm rm, Instr.fms h d a b c fm rm, Instr.fnma h d a b c fm rm]
    -- every operand has a result
    (∀ i ∈ [fadd, fsub, fmul] ++ fused, ∃ r, is i lat r) ∧ (∃ r, is fdiv 14 r) ∧ (∃ r, is fsqrt 20 r) ∧
    -- NaN operands
    (x.isNan = true ∨ y.isNan = true →
      let r := (F.nan, if x.isSig = true ∨ y.isSig = true then flInvalid else 0)
      is fadd lat r ∧ is fsub lat r ∧ is fmul lat r ∧ is fdiv 14 r) ∧
    -- sums of finite values
    (∀ na ma ea nb mb eb, x = .fin na ma ea → y = .fin nb mb eb →
      let sum := fun (i : Instr) (nb : Bool) => ∃ n m e e0, e0 ≤ e ∧ e0 ≤ ea ∧ e0 ≤ eb ∧
        scaled n m e e0 = scaled na ma ea e0 + scaled nb mb eb e0 ∧
        (m = 0 → n = if ma = 0 ∧ mb = 0 ∧ na = nb then na else decide (rm = .rdn)) ∧
        is i lat (roundVal F rm (.fin n m e))
      sum fadd nb ∧ sum fsub (!nb) ∧ is fmul lat (roundVal F rm (.fin (na != nb) (ma * mb) (ea + eb))) ∧
      (mb = 0 → is fdiv 14 (if ma = 0 then (F.nan, flInvalid) else (F.inf (na != nb), flDivzero))) ∧
      (mb ≠ 0 → ma = 0 → is fdiv 14 (F.zero (na != nb), 0)) ∧
      (mb ≠ 0 → ma ≠ 0 → ∃ q k : Nat, 2 ^ (F.mb + 2) ≤ q ∧ q * mb ≤ ma * 2 ^ k ∧ ma * 2 ^ k < (q + 1) * mb ∧
        is fdiv 14 (roundFin F rm (na != nb) q (ea - eb - k) (decide (q * mb ≠ ma * 2 ^ k)))) ∧
      (∀ nc mc ec, z = .fin nc mc ec →
        let fusedSum := fun (i : Instr) (np nc : Bool) => ∃ n m e e0, e0 ≤ e ∧ e0 ≤ ea + eb ∧ e0 ≤ ec ∧
          scaled n m e e0 = scaled np (ma * mb) (ea + eb) e0 + scaled nc mc ec e0 ∧
          (m = 0 → n = if ma * mb = 0 ∧ mc = 0 ∧ np = nc then np else decide (rm = .rdn)) ∧
          is i lat (roundVal F rm (.fin n m e))
        fusedSum (.fma h d a b c fm rm) (na != nb) nc ∧ fusedSum (.fms h d a b c fm rm) (na != nb) (!nc) ∧
        fusedSum (.fnma h d a b c fm rm) (na == nb) nc)) ∧
    -- infinities
    (∀ p q, x = .inf p → y = .inf q →
      is fadd lat (if p = q then (F.inf p, 0) else (F.nan, flInvalid)) ∧
      is fsub lat (if p = q then (F.nan, flInvalid) else (F.inf p, 0)) ∧ is fmul lat (F.inf (p != q), 0) ∧
      is fdiv 14 (F.nan, flInvalid)) ∧
    (∀ p n m e, x = .inf p → y = .fin n m e →
      is fadd lat (F.inf p, 0) ∧ is fsub lat (F.inf p, 0) ∧ is fdiv 14 (F.inf (p != n), 0) ∧
      is fmul lat (if m = 0 then (F.nan, flInvalid) else (F.inf (p != n), 0))) ∧
    (∀ p n m e, x = .fin n m e → y = .inf p →
      is fadd lat (F.inf p, 0) ∧ is fsub lat (F.inf (!p), 0) ∧ is fdiv 14 (F.zero (n != p), 0) ∧
      is fmul lat (if m = 0 then (F.nan, flInvalid) else (F.inf (n != p), 0))) ∧
    -- fused: NaN operands, 0 times infinity, an infinite product, an infinite addend
    (x.isNan = true ∨ y.isNan = true → ∀ i ∈ fused,
      is i lat (F.nan, if x.isSig = true ∨ y.isSig = true ∨ z.isSig = true then flInvalid else 0)) ∧
    (∀ p n e, (x = .inf p ∧ y = .fin n 0 e) ∨ (x = .fin n 0 e ∧ y = .inf p) → ∀ i ∈ fused, is i lat (F.nan, flInvalid)) ∧
    (∀ p, ProductIs x y p → ∀ sg, z = .nan sg → ∀ i ∈ fused, is i lat (F.nan, if sg then flInvalid else 0)) ∧
    (∀ p, ProductIs x y (.inf p) →
      (∀ q, z = .inf q →
        is (.fma h d a b c fm rm) lat (if p = q then (F.inf p, 0) else (F.nan, flInvalid)) ∧
        is (.fms h d a b c fm rm) lat (if p = q then (F.nan, flInvalid) else (F.inf p, 0)) ∧
        is (.fnma h d a b c fm rm) lat (if p = q then (F.nan, flInvalid) else (F.inf q, 0))) ∧
      (∀ n m e, z = .fin n m e → is (.fma h d a b c fm rm) lat (F.inf p, 0) ∧
        is (.fms h d a b c fm rm) lat (F.inf p, 0) ∧ is (.fnma h d a b c fm rm) lat (F.inf (!p), 0))) ∧
    (∀ n m e q, ProductIs x y (.fin n m e) → z = .inf q → is (.fma h d a b c fm rm) lat (F.inf q, 0) ∧
      is (.fms h d a b c fm rm) lat (F.inf (!q), 0) ∧ is (.fnma h d a b c fm rm) lat (F.inf q, 0)) ∧
    -- roots
    (∀ sg, x = .nan sg → is fsqrt 20 (F.nan, if sg then flInvalid else 0)) ∧
    (∀ p, x = .inf p → is fsqrt 20 (if p then (F.nan, flInvalid) else (F.inf false, 0))) ∧
    (∀ n m e, x = .fin n m e → (m = 0 → is fsqrt 20 (F.zero n, 0)) ∧ (m ≠ 0 → n = true → is fsqrt 20 (F.nan, flInvalid)) ∧
      (m ≠ 0 → n = false → ∃ r k : Nat, 2 ^ (F.mb + 2) ≤ r ∧ r * r ≤ m * 2 ^ k ∧ m * 2 ^ k < (r + 1) * (r + 1) ∧
        (e - k) % 2 = 0 ∧ is fsqrt 20 (roundFin F rm false r ((e - k) / 2) (decide (r * r ≠ m * 2 ^ k)))))

/-- The group 5 instructions of R139 to R141, `frnd` and `fscale`. -/
def Obligations.FloatingPointSelectionAndConversion : Prop :=
  ∀ (h : Hdr) (f : Firing) (s : State) (d a b : GReg) (p : PReg) (fm : FFmt) (rm : Rm) (op : SgnOp) (c : FCond) (dst src : CvtTy),
    ready .none h f s = true →
    let F := FFmt.fmt fm
    let A := (gread (issuer s) a).toNat % 2 ^ F.width
    let B := (gread (issuer s) b).toNat % 2 ^ F.width
    let x := unpack F A
    let y := unpack F B
    let is := fun (i : Instr) (r : Nat × Flags) =>
      exec i s = retired h f s (begun s) (.fixed 4 [gdest (issuer s) d (W r.1)] r.2)
    let invalidIf := fun (q : Bool) => if q then flInvalid else 0
    let minMax := fun (r : Nat × Flags) => is (.fmin h d a b fm) r ∧ is (.fmax h d a b fm) r
    let top := 2 ^ (F.width - 1)
    let signOf := fun (v : Nat) => v / top
    -- minimum and maximum
    ((x.isSig = true ∨ y.isSig = true → minMax (F.nan, flInvalid)) ∧
      (x = .nan false → y = .nan false → minMax (F.nan, 0)) ∧
      (x = .nan false → y.isNan = false → minMax (B, 0)) ∧ (y = .nan false → x.isNan = false → minMax (A, 0)) ∧
      (x.isNan = false → y.isNan = false →
        (fpLt x y = true → is (.fmin h d a b fm) (A, 0) ∧ is (.fmax h d a b fm) (B, 0)) ∧
        (fpLt y x = true → is (.fmin h d a b fm) (B, 0) ∧ is (.fmax h d a b fm) (A, 0)) ∧
        (fpEq x y = true → is (.fmin h d a b fm) (if x.neg? then A else B, 0) ∧
          is (.fmax h d a b fm) (if x.neg? then B else A, 0)))) ∧
    -- sign copies
    (∃ v, is (.fsgn h d a b fm op) (v, 0) ∧ v % top = A % top ∧ v < 2 * top ∧
      signOf v = match op with
        | .cp => signOf B
        | .neg => 1 - signOf B
        | .xor => (signOf A + signOf B) % 2) ∧
    -- comparison
    exec (.fcmp h p a b fm c) s = retired h f s (begun s) (.fixed 4
      [.p p (if x.isNan = true ∨ y.isNan = true then decide (c = .ne ∨ c = .uo)
        else match c with
          | .eq => fpEq x y
          | .ne => !fpEq x y
          | .lt => fpLt x y
          | .le => fpLt x y || fpEq x y
          | .gt => fpLt y x
          | .ge => fpLt y x || fpEq x y
          | .uo => false
          | .or => true)]
      (invalidIf (match c with
        | .lt | .le | .gt | .ge => x.isNan || y.isNan
        | _ => x.isSig || y.isSig))) ∧
    -- classes
    is (.fclass h d a fm) (2 ^ (match x with
      | .inf true => 0
      | .fin true m _ => if m = 0 then 3 else if m < 2 ^ F.mb then 2 else 1
      | .fin false m _ => if m = 0 then 4 else if m < 2 ^ F.mb then 5 else 6
      | .inf false => 7
      | .nan true => 8
      | .nan false => 9), 0) ∧
    -- integral values and scaling
    (∀ sg, x = .nan sg → is (.frnd h d a fm rm) (F.nan, invalidIf sg) ∧ is (.fscale h d a b fm rm) (F.nan, invalidIf sg)) ∧
    (∀ q, x = .inf q → is (.frnd h d a fm rm) (F.inf q, 0) ∧ is (.fscale h d a b fm rm) (F.inf q, 0)) ∧
    (∀ n m e, x = .fin n m e →
      (∃ k : Nat, RoundedTo (toward rm n) (m * 2 ^ e.toNat) (2 ^ (-e).toNat) k ∧
        is (.frnd h d a fm rm) ((roundVal F rm (.fin n k 0)).1,
          if k * 2 ^ (-e).toNat = m * 2 ^ e.toNat then 0 else flInexact)) ∧
      is (.fscale h d a b fm rm) (roundVal F rm (.fin n m (e + (gread (issuer s) b).toInt)))) ∧
    -- conversions
    (match CvtTy.kind dst, CvtTy.kind src with
      | .inl D, .inl S => is (.fcvt h d a dst src rm) (roundVal D rm (unpack S ((gread (issuer s) a).toNat % 2 ^ S.width)))
      | .inl D, .inr (sg, w) =>
        let v : Int := if sg then Int.bmod (gread (issuer s) a).toNat (2 ^ w) else ((gread (issuer s) a).toNat % 2 ^ w : Nat)
        is (.fcvt h d a dst src rm) (roundVal D rm (.fin (decide (v < 0)) v.natAbs 0))
      | .inr (sg, w), .inl S =>
        let lo : Int := if sg then -(2 ^ (w - 1)) else 0
        let hi : Int := if sg then 2 ^ (w - 1) - 1 else 2 ^ w - 1
        let gives := fun (v : Int) (fl : Flags) => ∃ r : Word,
          (if sg then r.toInt = v else (r.toNat : Int) = v) ∧
          exec (.fcvt h d a dst src rm) s = retired h f s (begun s) (.fixed 4 [gdest (issuer s) d r] fl)
        (match unpack S ((gread (issuer s) a).toNat % 2 ^ S.width) with
          | .nan _ => gives 0 flInvalid
          | .inf n => gives (if n then lo else hi) flInvalid
          | .fin n m e => ∃ k : Nat, RoundedTo (toward rm n) (m * 2 ^ e.toNat) (2 ^ (-e).toNat) k ∧
              let v : Int := if n then -(k : Int) else k
              gives (min (max v lo) hi) (if v < lo ∨ hi < v then flInvalid
                else if k * 2 ^ (-e).toNat = m * 2 ^ e.toNat then 0 else flInexact))
      | .inr _, .inr _ => True)

/-- The checks of R82 in their order, in the words of R391.
The model's own choices in it: log entry 74 (memory that does not run in minimal mode does not exist). -/
def Obligations.AddressCheckOrder : Prop :=
  ∀ (h : Hdr) (f : Firing) (s : State) (d : GReg) (x : MemOp) (sz : Size) (na : Bool) (instr : Instr) (n need : Nat),
    ((instr, n, need) ∈ [(Instr.ld h d x sz na, Size.bytes sz, 0), (.ldp h d x na, 16, 0), (.st h d x sz, Size.bytes sz, 1),
      (.stp h d x, 16, 1)]) →
    ready (memCls x (if need = 0 then .l else .s) (issuer s)) h f s = true →
    let i := s.cur
    let ea := gread (issuer s) x.a + (gread (issuer s) x.b <<< x.s.val) + x.disp.signExtend 64
    let col := wf ea 56 8
    let w := s.worldOf f.owner
    let traps := fun (cause : Nat) => ∃ u : State, u.homes = s.homes ∧ SameCores s u i ∧
      (u.core i).regs = (issuer s).regs ∧ (u.core i).firing = some f ∧ exec instr s = .next (trap u i cause ea)
    -- entries of the owner that cover an address: held in the PLB, held in the table
    let held := HeldAt (issuer s) f.owner
    let listed := ListedAt s f.owner
    (ea.toNat % n ≠ 0 → traps 0x05) ∧
    (ea.toNat % n = 0 →
      (decodeAddr i (wf ea 0 56) = none → traps 0x0E) ∧
      (∀ l, decodeAddr i (wf ea 0 56) = some l → locOn s l = false → traps 0x0E) ∧
      (∀ l, decodeAddr i (wf ea 0 56) = some l → locOn s l = true → (∀ va, l ≠ .paged va) → (∀ g o, l ≠ .aperture g o) →
        (col ≠ 0 → traps 0x0F) ∧
        (col = 0 →
          (s.live f.owner = false ∨ (∃ o, l = .staithe 0 o ∧ 0x3800000 ≤ o) ∨
            ((∀ e, held (aliasOf l) e ∨ listed (aliasOf l) e → e.gives need = false) ∧
              ¬ ∃ o, l = .tcm i o ∧ reservedTcm s i o n = true ∧ need = 0 ∧ supState (issuer s) = true) → traps 0x10) ∧
          (s.live f.owner = true → inRightsArea l n = false → (∀ c o, l = .tcm c o → reservedTcm s c o n = false) →
            (∃ e, held (aliasOf l) e ∧ e.gives need = true) →
            (∀ e, held (aliasOf l) e → e.gives need = true → e.world ≠ w ∧ (e.world ≠ 0 ∨ need ≠ 0)) → traps 0x11))) ∧
      (∀ va, decodeAddr i (wf ea 0 56) = some (.paged va) →
        let asked := tlbFind (issuer s).cache.tlb va = none ∧ (issuer s).cache.walkFault = some (va / 65536)
        let found := fun (t : Trans) => tlbFind (issuer s).cache.tlb va = some t
        ((asked ∨ ∃ t, found t) → (∀ e, held va e ∨ listed va e → e.colour ≠ col) → (∃ e, listed va e) → traps 0x0F) ∧
        (asked → (∀ e, held va e ∨ listed va e → e.colour = col) → traps 0x0E) ∧
        (∀ t, found t → (∀ e, held va e ∨ listed va e → e.colour = col ∧ e.gives need = false) → traps 0x10) ∧
        (∀ t, found t → s.live f.owner = true → (∃ e, held va e ∧ e.colour = col ∧ e.gives need = true) →
          (∀ v, keyWorld s t.key = some v → v ≠ w ∧ (v ≠ 0 ∨ need ≠ 0)) → traps 0x11)))

/-- R79, R80 and R85 at the core's own arrays.
The model's own choices in it: log entry 29 (when an element read ahead is read again). -/
def Obligations.OwnMemoryAccess : Prop :=
  ∀ (h : Hdr) (f : Firing) (s u : State) (d : GReg) (x : MemOp) (sz : Size) (na : Bool) (l : Loc) (p : Place),
    let i := s.cur
    let c := issuer s
    let ea := effAddr c x
    let lat := match l with
      | .tcm .. => 3
      | _ => 5
    let quietAt := fun (n : Nat) => (u.core i).cache.wmWait = none ∧ ownLoadWait u p n = none ∧
      ownOverlap (u.core i) l n = false ∧ unperfOverlap (u.core i) p.addr n = false ∧
      readBefore (u.core i) c.iss.opCount p.addr n = false
    (ready .l h f s = true → ownFast i l = true →
      (∀ n, checkAccess (begun s) i ea n n 0 = .ok u l p → quietAt n → poisonCode u p.addr n = none →
        (n = Size.bytes sz → ∃ v t, (if Size.signed sz then v.toInt = Int.bmod (readNat s.mem (aliasOf l) n) (2 ^ (8 * n))
              else v.toNat = readNat s.mem (aliasOf l) n) ∧
          exec (.ld h d x sz na) s = retired h f s t (.fixed lat [gdest c d v] 0) ∧
          t.homes = s.homes ∧ SameCores s t i ∧ Reread c.regs (t.core i).regs) ∧
        (n = 16 → d.val % 2 = 0 → ∃ t, exec (.ldp h d x na) s = retired h f s t
            (.fixed lat [gdest c d (readWord s.mem (aliasOf l)), gdest c (d + 1) (readWord s.mem (aliasOf l + 8))] 0) ∧
          t.homes = s.homes ∧ SameCores s t i ∧ Reread c.regs (t.core i).regs))) ∧
    (ready .s h f s = true → ownFast i l = true → sz.store = true → MemOk s →
      let D := gread c d
      let D' := gread c (d + 1)
      (∀ n, checkAccess (begun s) i ea n n 1 = .ok u l p →
        (lockedW u p.lockKey n = true →
          (n = Size.bytes sz → exec (.st h d x sz) s = .next (trap u i 0x12 ea)) ∧
          (n = 16 → d.val % 2 = 0 → exec (.stp h d x) s = .next (trap u i 0x12 ea))) ∧
        (lockedW u p.lockKey n = false → quietAt n →
          let stored := fun (instr : Instr) (byte : Nat → Nat) => ∃ t, exec instr s = retired h f s t .plain ∧
            SameMemBut s t (aliasOf l) n ∧ (∀ k, k < n → readByte t.mem (aliasOf l + k) = BitVec.ofNat 8 (byte k)) ∧
            SameCores s t i ∧ Reread c.regs (t.core i).regs ∧
            (t.core i).cache.wb = c.cache.wb
          (n = Size.bytes sz → stored (.st h d x sz) fun k => wf D (8 * k) 8) ∧
          (n = 16 → d.val % 2 = 0 → stored (.stp h d x) fun k => if k < 8 then wf D (8 * k) 8 else wf D' (8 * k - 64) 8))))

/-- R83 to R85 beyond the core's own arrays.
The model's own choices in it: log entries 17, 29 and 73. -/
def Obligations.FarMemoryAccess : Prop :=
  ∀ (h : Hdr) (f : Firing) (s u : State) (d : GReg) (x : MemOp) (sz : Size) (na : Bool) (l : Loc) (p : Place),
    let i := s.cur
    let c := issuer s
    let ea := effAddr c x
    let dst := fun (n : Nat) (pair : Bool) (sg : Bool) =>
      ({ d := gdest c d 0, bytes := n, signed := sg, pair } : LoadDst)
    let n := Size.bytes sz
    let open_ := fun (c : CoreSt) => c.iss.outs.filter fun o => match o.op with
      | .fence .. => false
      | _ => true
    let out := fun (instr : Instr) (dst : LoadDst) => ∃ t, exec instr s = .next t ∧ t.homes = u.homes ∧ SameCores u t i ∧
      (t.core i).regs = c.regs ∧ open_ (t.core i) = open_ (u.core i) ++
        [{ id := c.iss.opCount, tag := h.ta, pc := f.pc, cyc := s.now, holds := h.ta == 0, acquires := false, cls := .load
           owner := f.owner, firing := f.num, inval := [], ring := none, op := .load p ea dst na, who := whoOf f }]
    (ready .l h f s = true → ownFast i l = false →
      (∀ m, checkAccess (begun s) i ea m m 0 = .ok u l p →
        ((∀ va pa k ml, p ≠ .global va pa k true ml) ∨ l1Find u i (lineOf p.lockKey) = none) →
        (m = n → out (.ld h d x sz na) (dst n false (Size.signed sz))) ∧ (m = 16 → out (.ldp h d x na) (dst 8 true false))) ∧
      (∀ va pa k ml line, checkAccess (begun s) i ea n n 0 = .ok u l p → p = .global va pa k true ml →
        l1Find u i (lineOf va) = some line → bufBlocks (unperformed (u.core i)) pa n c.iss.opCount = false →
        readBefore (u.core i) c.iss.opCount pa n = false → l1Poison line va n = none →
        ∃ t, exec (.ld h d x sz na) s = retired h f s t (.written (loadWrites (dst n false (Size.signed sz))
            (withBuffer (u.core i) c.iss.opCount pa ((line.data.drop (va % 64)).take n)))) ∧
          t.homes = u.homes ∧ Reread c.regs (t.core i).regs)) ∧
    (ready .s h f s = true → ownFast i l = false → sz.store = true →
      ∀ m, checkAccess (begun s) i ea m m 1 = .ok u l p →
      let enters := fun (instr : Instr) (bs : List Byte) =>
        (bufferFull (u.core i) = true → exec instr s = .next (stall u i)) ∧
        (bufferFull (u.core i) = false → ∃ t, exec instr s = .next t ∧ t.homes = u.homes ∧
          (∃ e : StoreEnt, (t.core i).cache.wb = (u.core i).cache.wb ++ [e] ∧ e.seq = (u.core i).cache.seqHead ∧ e.ea = ea ∧
            e.place = p ∧ e.op = .bytes bs ∧ e.sent = false ∧ e.owner = f.owner ∧ e.pc = f.pc) ∧
          (t.core i).cache.seqHead = (u.core i).cache.seqHead + 1 ∧
          (t.core i).regs.g = c.regs.g ∧ (t.core i).regs.p = c.regs.p ∧ (t.core i).regs.v = c.regs.v ∧
          (t.core i).regs.isig = c.regs.isig ∧
          (t.core i).regs.wsig = (match p with
            | .global va _ _ _ _ => sigAdd c.regs.wsig (va / 64)
            | .array _ => c.regs.wsig) ∧
          (∀ va pa k ml, p = .global va pa k true ml → (t.core i).cache.l1 = (u.core i).cache.l1.map fun y =>
            if y.line == va / 64 then
              { y with
                data := overlay (64 * y.line) y.data va bs
                poison := y.poison.filter fun q => !(va ≤ 64 * y.line + 8 * q.1 && 64 * y.line + 8 * q.1 + 8 ≤ va + bs.length) }
            else y))
      (m = n → enters (.st h d x sz) (leBytes n (gread c d).toNat)) ∧
      (m = 16 → d.val % 2 = 0 →
        enters (.stp h d x) (leBytes 8 (gread c d).toNat ++ leBytes 8 (gread c (d + 1)).toNat)))

/-- The way of a store after issue (R85, R204, R365).
The model's own choices in it: log entries 17, 23 and 77 (LOCKED before a migration's hold). -/
def Obligations.StoresReachTheirHome : Prop :=
  (∀ s : State, let i := s.arg.core
    ∀ e, sendable (s.core i) = some e →
      ∃ t, exec .writeBufferSend s = .next t ∧ t.homes = s.homes ∧ SameCores s t i ∧ (t.core i).regs = (s.core i).regs ∧
        e.sent = false ∧ e ∈ (s.core i).cache.wb ∧
        (t.core i).cache.wb = (s.core i).cache.wb.map fun y => if y.seq == e.seq then { y with sent := true } else y) ∧
  (∀ s : State, let i := s.arg.core
    ∀ (e : StoreEnt) (bs : List Byte), atHome s i s.arg.id = some e → e.op = .bytes bs → MemOk s →
      let locked := lockedFor s i e.id e.place.lockKey bs.length
      (locked = true → ∃ t, exec .storeAtHome s = .next t ∧ t.homes = s.homes ∧
        (∃ lf, (t.core i).traps.inbound = (s.core i).traps.inbound ++ [lf] ∧ lf.cause = 0x12 ∧ lf.val = e.ea ∧ lf.seq = e.seq ∧
          lf.pc = e.pc ∧ lf.src = 2 ∧ lf.firing = e.firing) ∧
        (∀ y ∈ (t.core i).cache.wb, y.seq ≠ e.seq)) ∧
      (locked = false → migrationLocked e.place = true →
        ∃ t, exec .storeAtHome s = .next t ∧ t.mem = s.mem ∧
          ({ core := i, seq := e.seq, va := e.place.lockKey } : HeldStore) ∈ t.homes.held) ∧
      (∀ a u o, locked = false → e.place = .array a → decodeAddr 0 a = some (.tussock u o) → u ∈ s.rcv.fences.tussocks →
        ∃ t, exec .storeAtHome s = .next t ∧ t.homes = s.homes ∧
          (∃ lf, (t.core i).traps.inbound = (s.core i).traps.inbound ++ [lf] ∧ lf.cause = 0x14 ∧ lf.seq = e.seq ∧ lf.pc = e.pc) ∧
          (∀ y ∈ (t.core i).cache.wb, y.seq ≠ e.seq)) ∧
      (∀ a, locked = false →
          (e.place = .array a ∧ (∀ u o, decodeAddr 0 a = some (.tussock u o) → u ∉ s.rcv.fences.tussocks)) ∨
          (∃ va k cc, e.place = .global va a k cc false ∧ a < 2 ^ 40 ∧ s.homes.zp.contains (a / 64) = false ∧
            mget? s.homes.lineKey (a / 64) = some (keyNum s k)) →
        ∃ t, exec .storeAtHome s = .next t ∧ SameMemBut s t a bs.length ∧
          (∀ k, k < bs.length → readByte t.mem (a + k) = bs.getD k 0) ∧ SameCores s t i ∧
          Reread (s.core i).regs (t.core i).regs ∧ (∀ y ∈ (t.core i).cache.wb, y.seq ≠ e.seq) ∧
          (∀ o, outOfSeq (s.core i) e.seq = some o → findOut (s.core i) o.id = some o → o.op = .stored e.seq none →
            findOut (t.core i) o.id = none ∧ (o.tag ≠ 0 → tagOf (t.core i) o.tag = .done)))) ∧
  (∀ s : State, let i := s.arg.core
    ∀ lf fs f, (s.core i).traps.inbound = lf :: fs → (s.core i).firing = some f → f.num = lf.firing →
      ∃ t, exec .lateFaultArrival s = .next t ∧ t.homes = s.homes ∧ (t.core i).traps.inbound = fs ∧
        (t.core i).regs = (s.core i).regs ∧
        (lf.tag ≠ 0 → tagOf (t.core i) lf.tag = .faulted { lf with at_ := s.now }) ∧
        (lf.tag = 0 → (t.core i).traps.ready = (s.core i).traps.ready ++ [{ lf with at_ := s.now }]))

/-- R83, R84, R86, R87, and the caches of R34 and R203.
The model's own choices in it: log entries 14, 16, 19, 72 and 73. -/
def Obligations.CachesAndReturns : Prop :=
  (∀ s : State, let i := s.arg.core
    ∀ (o : Out) (p : Place) (ea : Word) (dst : LoadDst) (na : Bool), findOut (s.core i) s.arg.id = some o →
      o.op = .load p ea dst na →
      let n := if dst.pair then 16 else dst.bytes
      let done := fun (t : State) (bs : List Byte) => SameCores s t i ∧
        Reread (((flushDue s i).core i).regs.writeAll (loadWrites dst bs)) (t.core i).regs ∧
        findOut (t.core i) o.id = none ∧ (o.tag ≠ 0 → tagOf (t.core i) o.tag = .done)
      blockedRead s p.lockKey n = none → loadWaits s i o p n = false → unperfOverlap (s.core i) p.addr n = false →
      (copyAt s i p = none → poisonCode s p.addr n = none →
        let u := readTouch s p (s.classOf o.owner)
        ∃ t, exec .loadDataReturn s = .next t ∧ t.homes = u.homes ∧ done t (placeBytes u p n) ∧
          (∀ a, p = .array a → t.homes = s.homes ∧ placeBytes u p n = readBytes s.mem a n)) ∧
      (∀ l, copyAt s i p = some l → l1Poison l p.lockKey n = none →
        ∃ t, exec .loadDataReturn s = .next t ∧ t.homes = s.homes ∧ done t ((l.data.drop (p.lockKey % 64)).take n))) ∧
  (∀ (h : Hdr) (f : Firing) (s : State) (x : MemOp), ready .none h f s = true →
    let i := s.cur
    let c := issuer s
    let line := wf (effAddr c x) 6 50
    let drops := fun (instr : Instr) (l1 ic : Nat → Bool) => ∃ t : State, exec instr s = retired h f s t .plain ∧
      t.homes = s.homes ∧ SameCores s t i ∧ (t.core i).regs = c.regs ∧ (t.core i).cache.wb = c.cache.wb ∧
      (t.core i).cache.l1 = c.cache.l1.filter (fun y => !l1 y.line) ∧ (t.core i).cache.ic = c.cache.ic.filter (fun y => !ic y.line) ∧
      (t.core i).cache.tlb = c.cache.tlb ∧ (t.core i).cache.plb = c.cache.plb ∧ (t.core i).traps = c.traps ∧
      (t.core i).sched = c.sched ∧ (t.core i).mtx = c.mtx ∧ (t.core i).firing = c.firing ∧
      (∀ o ∈ (t.core i).iss.outs, ∀ y ∈ missLines o, l1 y = true → y ∈ o.inval) ∧
      (∀ p ∈ (t.core i).cache.prefetches, l1 p.line = true → p.inval = true) ∧
      (∀ g, (t.core i).cache.ifetch = some g → ic g.line = true → g.inval = true)
    drops (.cinvD h x) (· == line) (fun _ => false) ∧ drops (.cinvI h x) (fun _ => false) (· == line) ∧
    drops (.cinvDa h) (fun _ => true) (fun _ => false) ∧ drops (.cinvIa h) (fun _ => false) (fun _ => true) ∧
    (∀ home u p, hintPlace (begun s) i (effAddr c x) = (u, some p) →
      exec (if home then .pfhHome h x else .pfhL1 h x) s = retired h f s (u.onCache i fun k => { k with prefetches :=
        k.prefetches ++ [{ line := p.lockKey / 64, place := p, home, inval := false }] }) .plain) ∧
    (∀ (home : Bool) (u : State), hintPlace (begun s) i (effAddr c x) = (u, none) →
      exec (if home then .pfhHome h x else .pfhL1 h x) s =
        retired h f s (u.onCache i fun k => { k with hintDrop := k.hintDrop + 1 }) .plain ∧
      (u.core i).cache.tlb = c.cache.tlb ∧ (u.core i).cache.plb = c.cache.plb ∧
      (u.walker (dieOf i)).tcache = (s.walker (dieOf i)).tcache) ∧
    (∀ home : Bool, (∀ va, decodeAddr i (wf (effAddr c x) 0 56) ≠ some (.paged va)) →
      exec (if home then .pfhHome h x else .pfhL1 h x) s =
        retired h f s ((begun s).onCache i fun k => { k with hintDrop := c.cache.hintDrop + 1 }) .plain)) ∧
  (∀ s : State, let i := s.arg.core
    (∀ p, (s.core i).cache.prefetches[s.arg.id]? = some p → placeBusy s p.place = false →
      ∃ t, exec .prefetchFill s = .next t ∧ SameCores s t i ∧
        t.homes = (readTouch s p.place (s.classOf (ownerNow (s.core i)))).homes ∧
        (t.core i).cache.prefetches = (s.core i).cache.prefetches.eraseIdx s.arg.id ∧
        (p.home = true ∨ p.inval = true → (t.core i).cache.l1 = (s.core i).cache.l1) ∧
        (p.home = false → p.inval = false → ∀ va pa k ml, p.place = .global va pa k true ml →
          ∃ bs ps, (t.core i).cache.l1.head? = some { line := va / 64, data := bs, expire := s.now + 16384, poison := ps })) ∧
    (∃ t, exec .l1LeaseExpiry s = .next t ∧ t.homes = s.homes ∧ SameCores s t i ∧
      (t.core i).cache.l1 = (s.core i).cache.l1.filter fun y =>
        !(y.line == s.arg.id && decide (y.expire ≤ ((s.core i).stopped.getD s.now)))) ∧
    (∃ t, exec .icacheLeaseExpiry s = .next t ∧ t.homes = s.homes ∧ SameCores s t i ∧
      (t.core i).cache.ic = (s.core i).cache.ic.filter fun y =>
        !(y.line == s.arg.id && decide (y.expire ≤ ((s.core i).stopped.getD s.now)))) ∧
    (∀ g va pa key cc ml, (s.core i).cache.ifetch = some g → g.place = .global va pa key cc ml → placeBusy s g.place = false →
      g.inval = false → poisonCode s pa 64 = none →
      let bs := placeBytes (readTouch s g.place (s.classOf (ownerNow (s.core i)))) g.place 64
      (crc32c (bs.take 60) = ofLe (bs.drop 60) → ∃ t, exec .fetchLineReturn s = .next t ∧ (t.core i).cache.ifetch = none ∧
        let line : ICLine := { line := g.line, data := bs, expire := s.now + 16384 }
        (if cc then (t.core i).cache.ic.head? = some line
          else (t.core i).cache.ic = (s.core i).cache.ic ∧ (t.core i).cache.codeLine = some line)) ∧
      (crc32c (bs.take 60) ≠ ofLe (bs.drop 60) → g.tries = 0 → ∃ t, exec .fetchLineReturn s = .next t ∧
        (t.core i).cache.ifetch = some { g with tries := 1 } ∧ (t.core i).cache.ic = (s.core i).cache.ic)))

/-- R241 to R248 and R254 at issue.
The model's own choices in it: log entries 18 and 27. -/
def Obligations.OrderingInstructions : Prop :=
  ∀ (h : Hdr) (f : Firing) (s u : State) (d a b : GReg) (w32 : Bool) (disp : BitVec 21) (later : BitVec 4)
    (earlier : BitVec 3) (j : Fin 32) (l : Loc) (p : Place),
    let i := s.cur
    let c := issuer s
    let n := if w32 then 4 else 8
    let ea := gread c a + disp.signExtend 64
    let rec_ := gread c a
    let v := gread c b
    let enters := fun (instr : Instr) (at_ : Word) (op : StoreOp) (rel : Option ScopeKind) (sync : Bool) (cls : OrdClass)
        (l1 : List L1Line) (wsig isig : Sig) =>
      (bufferFull c = true → exec instr s = .next (stall u i)) ∧
      (bufferFull c = false → ∃ (t : State) (e : StoreEnt),
        exec instr s = retired h f s t (.out (.stored (u.core i).cache.seqHead none) cls false false) ∧
        t.homes = u.homes ∧ SameCores u t i ∧ (t.core i).cache.wb = (u.core i).cache.wb ++ [e] ∧
        e.seq = (u.core i).cache.seqHead ∧ e.id = c.iss.opCount ∧ e.ea = at_ ∧ e.place = p ∧ e.op = op ∧ e.release = rel ∧
        e.sync = sync ∧ e.sent = false ∧ (t.core i).cache.seqHead = (u.core i).cache.seqHead + 1 ∧ (t.core i).cache.l1 = l1 ∧
        (t.core i).regs = { c.regs with q := (t.core i).regs.q, wsig, isig })
    let record := fun (k : WaitCls) (instr : Instr) (need : Nat) (good : Prop) =>
      ready k h f s = true →
        (rec_.toNat % 256 ≠ 0 → exec instr s = .next (trap (begun s) i 0x05 rec_)) ∧
        (rec_.toNat % 256 = 0 → (∀ va, decodeAddr i (wf rec_ 0 56) ≠ some (.paged va)) →
          exec instr s = .next (trap (begun s) i 0x0E rec_)) ∧
        ((∃ va, decodeAddr i (wf rec_ 0 56) = some (.paged va)) →
          checkAccess (begun s) i rec_ 144 256 need = .ok u l p → good)
    (scopeOk v = false →
      (ready .l h f s = true → exec (.lda h d a b w32 disp) s = .next (trap (begun s) i 0x0C v) ∧
        exec (.acq h d a b) s = .next (trap (begun s) i 0x0C v)) ∧
      (ready .s h f s = true → exec (.strl h d a b w32 disp) s = .next (trap (begun s) i 0x0C v) ∧
        exec (.rel h a d b) s = .next (trap (begun s) i 0x0C v)) ∧
      (ready .none h f s = true → exec (.fence h b later earlier) s = .next (trap (begun s) i 0x0C v))) ∧
    (scopeOk v = true →
      (ready .l h f s = true → checkAccess (begun s) i ea n n 0 = .ok u l p →
        (ownFast i l = true → ownOverlap (u.core i) l n = false) →
        exec (.lda h d a b w32 disp) s = retired h f s u
          (.out (.lda p { d := gdest c d 0, bytes := n, signed := false, pair := false }) .load true true)) ∧
      (ready .s h f s = true → checkAccess (begun s) i ea n n 1 = .ok u l p →
        let bs := leBytes n (gread c d).toNat
        (ownFast i l = true → lockedW u p.lockKey n = true → exec (.strl h d a b w32 disp) s = .next (trap u i 0x12 ea)) ∧
        ((ownFast i l = true → lockedW u p.lockKey n = false ∧ ownOverlap (u.core i) l n = false) →
          enters (.strl h d a b w32 disp) ea (.bytes bs) (some (scopeKind v)) true .store
            (match p with
              | .global va _ _ true _ => (u.core i).cache.l1.map fun y =>
                if y.line == va / 64 then
                  { y with
                    data := overlay (64 * y.line) y.data va bs
                    poison := y.poison.filter fun q => !(va ≤ 64 * y.line + 8 * q.1 && 64 * y.line + 8 * q.1 + 8 ≤ va + bs.length) }
                else y
              | _ => (u.core i).cache.l1)
            (match p with
              | .global va _ _ _ _ => sigAdd c.regs.wsig (va / 64)
              | .array _ => c.regs.wsig) c.regs.isig)) ∧
      record .l (.acq h d a b) 0 (exec (.acq h d a b) s = retired h f s u (.out (.acq p d) .load true true)) ∧
      record .s (.rel h a d b) 1 (enters (.rel h a d b) rec_ (.rel (gread c d) (c.regs.wsig ||| c.regs.isig))
        (some (scopeKind v)) true .store (u.core i).cache.l1 0 0) ∧
      (ready .none h f s = true → exec (.fence h b later earlier) s =
        retired h f s (begun s) (.out (.fence later earlier (scopeKind v)) .none false false))) ∧
    record .a (.sigclr h a) 1 (enters (.sigclr h a) rec_ .sigclr none false .atomic (u.core i).cache.l1 c.regs.wsig c.regs.isig) ∧
    record .a (.sigrd h d a j) 0 (exec (.sigrd h d a j) s = retired h f s u (.out (.sigrd p d j.val) .atomic true false))

/-- R249 to R252, at issue and at the location.
The model's own choices in it: log entries 17, 29 and 77 (LOCKED before a migration's hold). -/
def Obligations.AtomicInstructions : Prop :=
  (∀ (h : Hdr) (f : Firing) (s u : State) (d a b sc : GReg) (op : AmoOp) (w32 : Bool) (ord : Ord) (l : Loc) (p : Place),
    ready .a h f s = true →
    let i := s.cur
    let c := issuer s
    let n := if w32 then 4 else 8
    let ea := gread c a
    let low := fun w : Word => BitVec.ofNat 64 (w.toNat % 2 ^ (8 * n))
    let v := gread c sc
    let enters := fun (instr : Instr) (r : AtomicReq) (dst : Option GReg) (ord : Ord) =>
      (bufferFull (u.core i) = true → exec instr s = .next (stall u i)) ∧
      (bufferFull (u.core i) = false → ∃ (t : State) (e : StoreEnt),
        exec instr s = retired h f s t (.out (.stored (u.core i).cache.seqHead dst) .atomic dst.isSome
          (decide (ord = .acq ∨ ord = .ar))) ∧
        t.homes = u.homes ∧ SameCores u t i ∧ (t.core i).cache.wb = (u.core i).cache.wb ++ [e] ∧
        e.seq = (u.core i).cache.seqHead ∧ e.ea = ea ∧ e.place = p ∧ e.op = .atomic r ∧ e.sync = decide (ord ≠ .relaxed) ∧
        e.release = (if ord = .rel ∨ ord = .ar then some (scopeKind v) else none) ∧
        (t.core i).regs = { c.regs with
          q := (t.core i).regs.q
          wsig := match p with
            | .global va _ _ _ _ => sigAdd c.regs.wsig (va / 64)
            | .array _ => c.regs.wsig })
    let forms := fun (good : Instr → AtomicReq → Option GReg → Ord → Prop) =>
      good (.amo h d a b sc op w32 ord) { op := Machine.AmoOp.code op, bytes := n, operand := low (gread c b), expected := 0 } (some d) ord ∧
      good (.red h a b op w32) { op := Machine.AmoOp.code op, bytes := n, operand := low (gread c b), expected := 0 } none .relaxed ∧
      good (.cas h d a b sc w32 ord) { op := 12, bytes := n, operand := low (gread c b), expected := low (gread c d) } (some d) ord
    forms (fun instr r dst ord =>
      (ord ≠ .relaxed → scopeOk v = false → exec instr s = .next (trap (begun s) i 0x0C v)) ∧
      (ord = .relaxed ∨ scopeOk v = true → checkAccess (begun s) i ea n n 3 = .ok u l p →
        let busy := blockedRead u p.lockKey n ≠ none ∨ unperfOverlap (u.core i) p.addr n = true
        let fails := r.op = 12 ∧ readNat u.mem p.addr n ≠ r.expected.toNat
        (ownFast i l = true → lockedW u p.lockKey n = true →
          (r.op ≠ 12 ∨ (¬ busy ∧ ¬ fails) → exec instr s = .next (trap u i 0x12 ea)) ∧
          (r.op = 12 → busy → exec instr s = .next (stall u i))) ∧
        ((ownFast i l = true → (lockedW u p.lockKey n = false ∨ (fails ∧ ¬ busy)) ∧ ownOverlap (u.core i) l n = false) →
          enters instr r dst ord)))) ∧
  (∀ (s : State) (e : StoreEnt) (r : AtomicReq) (a n key : Nat) (o : Out) (d : Option GReg),
    let i := s.arg.core
    atHome s i s.arg.id = some e → e.op = .atomic r → MemOk s → r.bytes = n → n = 4 ∨ n = 8 → r.op ≤ 12 →
    (e.place = .array a ∧ key = a) ∨
      (∃ k cc ml, e.place = .global key a k cc ml ∧ a < 2 ^ 40 ∧ a % n = 0 ∧ s.homes.zp.contains (a / 64) = false ∧
        mget? s.homes.lineKey (a / 64) = some (keyNum s k)) →
    r.operand.toNat < 2 ^ (8 * n) → r.expected.toNat < 2 ^ (8 * n) → poisonCode s a n = none →
    outOfSeq (s.core i) e.seq = some o → findOut (s.core i) o.id = some o → o.op = .stored e.seq d →
    let old := readNat s.mem a n
    let b := r.operand.toNat
    let x := BitVec.ofNat (8 * n) old
    let y := BitVec.ofNat (8 * n) b
    let fails := r.op = 12 ∧ old ≠ r.expected.toNat
    let fm : FFmt := if n = 8 then .f64 else .f32
    let scalar := fun (instr : Hdr → GReg → GReg → GReg → GReg → Instr) (v : Nat) =>
      ∃ (w : Word) (fl : Flags), w.toNat = v ∧ ∀ z, ScalarGives instr (8 * n) old b z w fl
    (¬ fails → lockedFor s i e.id key n = true → ∃ t, exec .homeAtomic s = .next t ∧ t.homes = s.homes ∧
      ∃ lf, (t.core i).traps.inbound = (s.core i).traps.inbound ++ [lf] ∧ lf.cause = 0x12 ∧ lf.val = e.ea ∧ lf.seq = e.seq) ∧
    (¬ fails → lockedFor s i e.id key n = false → migrationLocked e.place = true →
      ∃ t, exec .homeAtomic s = .next t ∧ t.mem = s.mem ∧ ({ core := i, seq := e.seq, va := key } : HeldStore) ∈ t.homes.held) ∧
    (fails → blockedRead s key n ≠ none → exec .homeAtomic s = .next s) ∧
    ((¬ fails ∧ lockedFor s i e.id key n = false ∧ migrationLocked e.place = false) ∨ (fails ∧ blockedRead s key n = none) →
    ∃ t, exec .homeAtomic s = .next t ∧ SameMemBut s t a n ∧ SameCores s t i ∧
      (∀ k ∈ (t.core i).cache.wb, k.seq ≠ e.seq) ∧ findOut (t.core i) o.id = none ∧
      (o.tag ≠ 0 → tagOf (t.core i) o.tag = .done) ∧
      (∀ d', d = some d' → Reread (((flushDue s i).core i).regs.write (gdest (s.core i) d' (BitVec.ofNat 64 old))) (t.core i).regs) ∧
      (d = none → Reread (s.core i).regs (t.core i).regs) ∧
      (∀ k cc ml, e.place = .global key a k cc ml →
        (t.core i).cache.l1 = (s.core i).cache.l1.filter fun y => !(y.line == key / 64)) ∧
      (fails → SameMem s t) ∧
      (¬ fails → ∃ new : BitVec (8 * n), readNat t.mem a n = new.toNat ∧
        (r.op = 0 → new = x + y) ∧ (r.op = 1 → new = x &&& y) ∧ (r.op = 2 → new = x ||| y) ∧ (r.op = 3 → new = x ^^^ y) ∧
        (r.op = 4 → new.toInt = min x.toInt y.toInt) ∧ (r.op = 5 → new.toInt = max x.toInt y.toInt) ∧
        (r.op = 6 → new.toNat = min old b) ∧ (r.op = 7 → new.toNat = max old b) ∧ (r.op = 8 ∨ r.op = 12 → new = y) ∧
        (r.op = 9 → scalar (fun h d a b _ => .fadd h d a b fm .rne) new.toNat) ∧
        (r.op = 10 → scalar (fun h d a b _ => .fmin h d a b fm) new.toNat) ∧
        (r.op = 11 → scalar (fun h d a b _ => .fmax h d a b fm) new.toNat))))

/-- SYNC_RECORD_AT_HOME. The record lies at the physical address `pa` and the pointer address `va`.
The model's own choices in it: log entries 17 and 32. -/
def Obligations.SyncRecordsAtHome : Prop :=
  ∀ (s : State) (va pa key : Nat) (cc : Bool),
    let i := s.arg.core
    let p := Place.global va pa key cc false
    let hd := readNat s.mem (pa + 8) 8
    let sig := readNat s.mem (pa + 16) 128
    MemOk s → va % 256 = 0 → pa % 256 = 0 → pa + 256 ≤ 2 ^ 40 → poisonCode s pa 144 = none →
    (∀ k, k < 3 → s.homes.zp.contains (pa / 64 + k) = false ∧ ∀ x, mget? s.homes.lineKey (pa / 64 + k) = some x → x = keyNum s key) →
    (∀ (e : StoreEnt) (o : Out), e ∈ (s.core i).cache.wb → e.id = s.arg.id →
      (∀ y ∈ (s.core i).cache.wb, y.id = e.id → y = e) → atHome s i e.seq = some e → e.place = p →
      outOfSeq (s.core i) e.seq = some o → findOut (s.core i) o.id = some o → o.op = .stored e.seq none →
      let gone := fun (t : State) => (∀ y ∈ (t.core i).cache.wb, y.seq ≠ e.seq) ∧ findOut (t.core i) o.id = none ∧
        (o.tag ≠ 0 → tagOf (t.core i) o.tag = .done) ∧ Reread (s.core i).regs (t.core i).regs
      (∀ value sg, e.op = .rel value sg → lockedFor s i e.id va 144 = false →
        let all := BitVec.ofNat 1024 sig ||| sg
        let n := popN 1024 all.toNat
        ∃ t, exec .syncRecordAtHome s = .next t ∧ SameMemBut s t pa 144 ∧ gone t ∧ readWord t.mem pa = value ∧
          readNat t.mem (pa + 16) 128 = all.toNat ∧
          readNat t.mem (pa + 8) 8 = (hd + 1) % 2 ^ 32 + n * 2 ^ 32 + (if 640 < n then 1 else hd / 2 ^ 48 % 2) * 2 ^ 48) ∧
      (e.op = .sigclr → lockedFor s i e.id (va + 8) 136 = false →
        ∃ t, exec .syncRecordAtHome s = .next t ∧ SameMemBut s t (pa + 8) 136 ∧ gone t ∧
          readNat t.mem (pa + 8) 8 = hd % 2 ^ 32 ∧ readNat t.mem (pa + 16) 128 = 0)) ∧
    (∀ (o : Out) (d : GReg), findOut (s.core i) s.arg.id = some o → (∀ y ∈ (s.core i).cache.wb, y.id ≠ s.arg.id) →
      recordWaits s i o p = false →
      let done := fun (t : State) (x : Word) (isig : Sig) => SameMem s t ∧ SameCores s t i ∧ findOut (t.core i) o.id = none ∧
        (o.tag ≠ 0 → tagOf (t.core i) o.tag = .done) ∧
        Reread { ((flushDue s i).core i).regs.write (gdest (s.core i) d x) with isig } (t.core i).regs
      (o.op = .acq p d → syncBefore (s.core i) o.id = false → blockedRead s va 144 = none →
        ∃ t, exec .syncRecordAtHome s = .next t ∧ done t (readWord s.mem pa) ((s.core i).regs.isig ||| BitVec.ofNat 1024 sig) ∧
          (∀ y, y ∈ (t.core i).cache.l1 ↔ y ∈ (s.core i).cache.l1 ∧ hd / 2 ^ 48 % 2 = 0 ∧
            sigHit (BitVec.ofNat 1024 sig) y.line = false ∧ y.line / 4 ≠ va / 256) ∧
          ∀ (k : Fin 8) (base : Word) (sh : Shape) (pos : Nat) (ahead : List Ahead),
            (t.core i).regs.q.get k = .stream false base sh pos ahead → ahead = []) ∧
      (∀ j, o.op = .sigrd p d j → j ≤ 16 → sigrdWaits s i o.id (p.plus (8 + 8 * j)) = false → blockedRead s (va + 8 + 8 * j) 8 = none →
        ∃ t, exec .syncRecordAtHome s = .next t ∧ done t (readWord s.mem (pa + 8 + 8 * j)) (s.core i).regs.isig))

/-- R255 to R258.
The model's own choices in it: log entry 27. -/
def Obligations.Barriers : Prop :=
  (∀ (h : Hdr) (f : Firing) (s : State) (d a b c : GReg) (id : Fin 64) (ch : Fin 32), ready .e h f s = true →
    let i := s.cur
    let k := issuer s
    let v := gread k b
    let inside := wf v 32 2 = 0 ∧ (rectOf v).has i = true
    (scopeOk v = false → exec (.bar h d a b c id ch) s = .next (trap (begun s) i 0x0C v)) ∧
    (scopeOk v = true →
      (¬ inside → exec (.bar h d a b c id ch) s = retired h f s (begun s) (.written [gdest k d 1])) ∧
      (inside → recvChannel (begun s) i ch.val = false →
        exec (.bar h d a b c id ch) s = retired h f s (begun s) (.written [gdest k d 4])) ∧
      (inside → recvChannel (begun s) i ch.val = true →
        exec (.bar h d a b c id ch) s = retired h f s (begun s)
          (.out (.bar d v id.val ch.val (gread k a) (gread k c)) .barrier true false)))) ∧
  (∀ (s : State) (o : Out) (d : GReg) (scope w0 w1 : Word) (bar ch : Nat),
    let i := s.arg.core
    let r := rectOf scope
    let key := 64 * dieOf (coreAt r.x0 r.y0) + bar
    let n := (r.x1 - r.x0 + 1) * (r.y1 - r.y0 + 1)
    let sig := (s.core i).regs.wsig ||| (s.core i).regs.isig
    let q := W (wf scope 0 32)
    findOut (s.core i) s.arg.id = some o → o.op = .bar d scope bar ch w0 w1 →
    scopeWait (s.core i) o.id (scopeKind scope) anyMem = false → syncBefore (s.core i) o.id = false →
    let answers := fun (t : State) (st : Nat) (wsig : Sig) => exec .barArrivalAtWeir s = .next t ∧ t.homes = s.homes ∧
      Reread { ((flushDue s i).core i).regs.write (gdest (s.core i) d (BitVec.ofNat 64 st)) with wsig, isig := 0 } (t.core i).regs ∧
      findOut (t.core i) o.id = none ∧ (o.tag ≠ 0 → tagOf (t.core i) o.tag = .done)
    (∀ x, mget? s.weirs key = some x → x.owner ≠ o.owner ∨ x.rect ≠ q → ∃ t, answers t 2 sig ∧ t.weirs = s.weirs) ∧
    (∀ x, mget? s.weirs key = some x → x.owner = o.owner → x.rect = q → (∃ y ∈ x.arrived, y.1 = i) →
      ∃ t, answers t 3 sig ∧ t.weirs = s.weirs) ∧
    (∀ (before : List (Nat × Nat × Word × Word)) (u : Sig),
      (mget? s.weirs key = none ∧ before = [] ∧ u = 0) ∨
        mget? s.weirs key = some { owner := o.owner, rect := q, arrived := before, union := u } →
      (∀ y ∈ before, y.1 ≠ i) →
      ∃ t, answers t 0 0 ∧
        (before.length + 1 < n → t.weirCounts = s.weirCounts ∧ mget? t.weirs key = some
          { owner := o.owner, rect := q, arrived := before ++ [(i, ch, w0, w1)], union := u ||| sig }) ∧
        (n ≤ before.length + 1 →
          let count := (mget? s.weirCounts key).getD 0 + 1
          mget? t.weirs key = none ∧ mget? t.weirCounts key = some count ∧
          ∀ y ∈ before ++ [(i, ch, w0, w1)], ∃ e ∈ (t.core y.1).sched.edges, e.ch = y.2.1 ∧ e.kind = .token ∧ e.owner = o.owner ∧
            e.item = .data [y.2.2.1, y.2.2.2, BitVec.ofNat 64 (count % 2 ^ 32), BitVec.ofNat 64 n, 0, 0, 0, 0] (some (u ||| sig)))))

/-- R443 and the counters of R347. `reason` of an unbound channel, see R304.
The model's own choices in it: log entries 53 and 68 (a poisoned COUNT or NEXT). -/
def Obligations.EdgeRecords : Prop :=
  (∀ (s : State) (ev : Instr) (k : EdgeKind) (e : EdgeRec),
    (ev, k) ∈ [(.tokenDelivery, .token), (.notifyRecordPlace, .notify), (.mailboxRecordPlace, .mailbox),
      (.lodeReturnPlace, .lode), (.spliceStatusPlace, .status)] →
    let i := s.arg.core
    let ch := s.arg.id
    edgeFind s i ch k = some e →
    let gone := fun (o : Nat) => s.live o = false ∨ s.tearing o = true
    let counted := fun (t : State) => match ev with
      | .lodeReturnPlace => (match findJob t i e.ref_ with
        | none => t
        | some (u, x) => settleJob (putJob t u { x with returning := x.returning - 1 }) i e.ref_)
      | .spliceStatusPlace => (match (t.core (e.ref_ / 2 ^ 32)).sched.splices.find? (·.num == e.ref_ % 2 ^ 32) with
        | none => t
        | some x => spliceSet t (e.ref_ / 2 ^ 32) (e.ref_ % 2 ^ 32) 4 x.outcome)
      | _ => t
    let discards := fun (reason owner : Nat) =>
      exec ev s = .next (counted ((edgeDrop s i ch k).discard i (edgeWords e) reason owner))
    let homeless := (gone e.owner → discards 5 e.owner) ∧ (¬ gone e.owner → discards 6 e.owner)
    (chanOf s i ch = none → homeless) ∧
    (∀ c, chanOf s i ch = some c →
      (gone c.owner → discards 5 c.owner) ∧
      (¬ gone c.owner → e.lost = true ∨ c.owner ≠ e.owner → homeless) ∧
      (¬ gone c.owner → e.lost = false → c.owner = e.owner →
        (c.room = 0 → exec ev s = .next s) ∧
        (c.room ≠ 0 →
          (∀ r, c.task = true → admitFail c.codeb ((edgeWords e).getD 0 0) = some r → discards r c.owner) ∧
          (c.task = false ∨ admitFail c.codeb ((edgeWords e).getD 0 0) = none → ∃ t, exec ev s = .next (counted t) ∧
            t.homes = s.homes ∧ chanOf t i ch = some { c with items := c.items ++ [e.item] } ∧
            (t.core i).sched.edges = (edgeDrop s i ch k |>.core i).sched.edges))))) ∧
  (∀ (s : State) (i reason owner : Nat) (ws : List Word), MemOk s → ws.length = 8 →
    let b := tcmBase i + 0x1FC00
    let k := readNat s.mem (b + 8) 8
    let q := 64 * (s.rcv.fqbase / 64 + s.rcv.fqhead)
    let full := s.rcv.fqbase = 0 ∨ (s.rcv.fqhead + 1) % 4096 = s.rcv.fqtail % 4096
    1 ≤ k → k ≤ 15 → poisonCode s b 8 = none → (¬ full → q + 64 ≤ 2 ^ 40) →
    let t := s.discard i ws reason owner
    (poisonCode s (b + 8) 8 = none →
      (∀ a, a < b ∨ b + 0x400 ≤ a → full ∨ a < q ∨ q + 64 ≤ a → readByte t.mem a = readByte s.mem a) ∧
      readWord t.mem b = readWord s.mem b + 1 ∧
      readNat t.mem (b + 8) 8 = (if k = 15 then 1 else k + 1) ∧ (readByte t.mem (b + 0x0F + k)).toNat = reason % 256 ∧
      (∀ j, j < 8 → readWord t.mem (b + 64 * k + 8 * j) = ws.getD j 0)) ∧
    (poisonCode s (b + 8) 8 ≠ none → readWord t.mem b = readWord s.mem b + 1 ∧
      ∀ a, a < b ∨ b + 8 ≤ a → full ∨ a < q ∨ q + 64 ≤ a → readByte t.mem a = readByte s.mem a) ∧
    (full → t.rcv.fqlost = s.rcv.fqlost + 1 ∧ t.rcv.fqhead = s.rcv.fqhead) ∧
    (¬ full → t.rcv.fqlost = s.rcv.fqlost ∧ t.rcv.fqhead = (s.rcv.fqhead + 1) % 4096 ∧
      readWord t.mem q = 0x418 ∧ readWord t.mem (q + 8) = BitVec.ofNat 64 reason ∧ readWord t.mem (q + 16) = ws.getD 0 0 ∧
      wf (readWord t.mem (q + 24)) 0 16 = owner % 2 ^ 16 ∧ readWord t.mem (q + 56) = 0) ∧
    t.owners.droprec = s.owners.droprec + (if reason = 5 then 1 else 0)) ∧
  (∀ s : State, let i := s.arg.core
    let side := sideOf s.arg.id
    let m := vget (s.core i).sched.mbox .reset (sideCode side)
    side ∈ (s.core i).sched.mboxIn →
    ∃ t, exec .mailboxCounterArrival s = .next t ∧ t.homes = s.homes ∧
      (t.core i).sched.mboxIn = (s.core i).sched.mboxIn.erase side ∧
      (m.value + 1 ≠ m.count → (t.core i).sched.edges = (s.core i).sched.edges ∧
        vget (t.core i).sched.mbox .reset (sideCode side) = { m with value := (m.value + 1) % 2 ^ 16 }) ∧
      (m.value + 1 = m.count →
        let r := (m.reached + 1) % 2 ^ 32
        vget (t.core i).sched.mbox .reset (sideCode side) = { m with value := 0, reached := r } ∧
        ∃ e, (t.core i).sched.edges = (s.core i).sched.edges ++ [e] ∧ e.ch = m.ch ∧ e.kind = .mailbox ∧
          e.item = .data [m.w0, BitVec.ofNat 64 (r * 2 ^ 32 + sideCode side), 0, 0, 0, 0, 0, 0] none))

/-- R142 to R147.
The model's own choices in it: log entry 26. -/
def Obligations.VectorClaims : Prop :=
  (∀ (h : Hdr) (f : Firing) (s : State) (d : GReg) (try_ : Bool) (mn mx : Fin 16), ready .none h f s = true →
    let i := s.cur
    let c := issuer s
    let t := tusOf i
    let free := 128 - (tussockCores t).foldl (fun n k => n + ((begun s).core k).regs.vgrant) 0
    let claim := Instr.vclaim h d try_ mn mx
    (f.handler = true → exec claim s = .next (trap (begun s) i 0x16 0x1800000) ∧
      exec (.vrelease h) s = .next (trap (begun s) i 0x16 0x1810000) ∧
      exec (.vreleaseSp h d) s = .next (trap (begun s) i 0x16 0x1810000)) ∧
    (f.handler = false →
      (c.regs.vgrant ≠ 0 → exec claim s = .next (trap (begun s) i 0x07 1)) ∧
      (c.regs.vgrant = 0 → (∀ o ∈ c.iss.outs, ∀ d a b, o.op ≠ .claim d a b) →
        (((begun s).pool t).queue = [] → 16 * mn.val ≤ free →
          ∃ g u, g % 16 = 0 ∧ g ≤ 16 * mx.val ∧ g ≤ free ∧ (∀ k, k % 16 = 0 → k ≤ 16 * mx.val → k ≤ free → k ≤ g) ∧
            exec claim s = dispatched h f s u (.written [gdest c d (BitVec.ofNat 64 g)]) ∧ u.homes = s.homes ∧
            SameCores s u i ∧ (u.core i).regs = { c.regs with
              v := Vector.replicate 32 (List.replicate g 0)
              m := Vector.replicate 8 0
              vgrant := g
              vmin := 16 * mn.val }) ∧
        (((begun s).pool t).queue ≠ [] ∨ free < 16 * mn.val →
          (try_ = true → exec claim s = dispatched h f s (begun s) (.written [gdest c d 0])) ∧
          (try_ = false → ∃ u, exec claim s = .next u ∧ (u.core i).firing = some f ∧ (u.core i).regs = c.regs ∧
            (u.pool t).queue = ((begun s).pool t).queue ++
              [{ core := i, id := c.iss.opCount, min := 16 * mn.val, max := 16 * mx.val }]))) ∧
      (vectorBusy (begun s) c = true → exec (.vrelease h) s = .next (stall (begun s) i) ∧
        exec (.vreleaseSp h d) s = .next (stall (begun s) i)) ∧
      (vectorBusy (begun s) c = false →
        (∃ u, exec (.vrelease h) s = dispatched h f s u .plain ∧ u.homes = s.homes ∧ SameCores s u i ∧
          (u.core i).regs.vgrant = 0 ∧ (u.core i).regs.g = c.regs.g) ∧
        (i ∉ ((begun s).pool t).shrink →
          exec (.vreleaseSp h d) s = dispatched h f s (begun s) (.written [gdest c d (BitVec.ofNat 64 c.regs.vgrant)])) ∧
        (i ∈ ((begun s).pool t).shrink → ∃ u,
          exec (.vreleaseSp h d) s = dispatched h f s u (.written [gdest c d (BitVec.ofNat 64 c.regs.vmin)]) ∧
          SameCores s u i ∧ (u.core i).regs.vgrant = c.regs.vmin ∧ (u.core i).regs.g = c.regs.g ∧
          (u.core i).regs.v = c.regs.v.map (·.take c.regs.vmin))))) ∧
  (∀ (s : State) (q : Claim) (qs : List Claim) (f : Firing) (o : Out) (d : GReg) (mn mx : Nat),
    let t := s.arg.unit
    let free := 128 - (tussockCores t).foldl (fun n k => n + (s.core k).regs.vgrant) 0
    let c := s.core q.core
    (s.pool t).queue = q :: qs → c.firing = some f → findOut c q.id = some o → o.op = .claim d mn mx →
    (free < q.min ∨ c.stopped ≠ none ∨ c.traps.pending ≠ none ∨ c.traps.abort ≠ none → exec .vclaimGrant s = .next s) ∧
    (q.min ≤ free → c.stopped = none → c.traps.pending = none → c.traps.abort = none → ∃ u g, exec .vclaimGrant s = .next u ∧ g % 16 = 0 ∧ g ≤ mx ∧ g ≤ free ∧
      (∀ k, k % 16 = 0 → k ≤ mx → k ≤ free → k ≤ g) ∧ (u.pool t).queue = qs ∧ u.homes = s.homes ∧ SameCores s u q.core ∧
      findOut (u.core q.core) q.id = none ∧
      (u.core q.core).regs = { (((flushDue s q.core).core q.core).regs.write (gdest c d (BitVec.ofNat 64 g))) with
        v := Vector.replicate 32 (List.replicate g 0)
        m := Vector.replicate 8 0
        vgrant := g
        vmin := mn } ∧
      ∃ g', (u.core q.core).firing = some g' ∧ Moved f.pc 1 g'.pc ∧ g' = { f with pc := g'.pc }))

/-- R149 to R154. The integer and floating forms are those that decode. -/
def Obligations.VectorElementwise : Prop :=
  ∀ (h : Hdr) (f : Firing) (s : State) (d a e : VReg) (b : VG) (mask dm am bm : MReg) (vt : VTy) (op : VOp) (rm : Rm)
    (sat : Bool) (fm : FFmt) (sg : SgnOp) (cond : VCond) (lg : LogOp) (sh : ShOp), ready .none h f s = true →
    let c := issuer s
    let g := c.regs.vgrant
    let w := decide (vt = .f64)
    let n := if w then g / 2 else g
    let bits := if w then 64 else 32
    let el := fun (r : VReg) (j : Nat) =>
      let ls := vget c.regs.v [] r.val
      if w then (ls.getD (2 * j) 0).toNat + 2 ^ 32 * (ls.getD (2 * j + 1) 0).toNat else (ls.getD j 0).toNat
    let elB := fun (j : Nat) =>
      match b with
      | .v r => el r j
      | .g r => (gread c r).toNat % 2 ^ bits
    let maskBit := fun (m : MReg) (j : Nat) => (vget c.regs.m 0 m.val).getLsbD j
    let act := fun (j : Nat) => decide (mask = 0) || maskBit mask j
    let all := fun (_ : Nat) => true
    let leaves := fun (instr : Instr) (ws : List RegWrite) (fl : Flags) =>
      exec instr s = dispatched h f s (begun s)
        (if w then .out (.cop ws fl) .none true false else .fixed (6 + (g + 31) / 32) ws fl)
    let lanes := fun (instr : Instr) (act : Nat → Bool) (good : Nat → Word → Flags → Prop) =>
      ∃ (v : Nat → Word) (fl : Nat → Flags) (ls : List (Option Lane)) (total : Flags),
        (∀ j, j < n → act j = true → good j (v j) (fl j)) ∧ ElemsAre w n act v ls ∧ FlagsAre n act fl total ∧
        leaves instr [.v d ls] total
    let ty := if vt = .s32 then IntTy.s32 else IntTy.n32
    let int := fun (x : Nat) => operandInt ty (BitVec.ofNat 64 x)
    (g = 0 → ∀ instr ∈ [Instr.vadd h d a b mask vt op, .vsub h d a b mask vt op, .vmul h d a b mask vt op,
        .vfma h d a b e mask vt op, .vmin h d a b mask vt, .vmax h d a b mask vt, .vsgn h d a b mask vt sg,
        .vcmp h dm a b mask vt cond, .vsel h d a b am vt, .vlog h (.lanes d a b mask) lg, .vlog h (.masks dm am bm) lg,
        .vsh h d a b mask vt sh], exec instr s = .next (trap (begun s) s.cur 0x07 0)) ∧
    (g ≠ 0 →
      ((vt = .f32 ∧ fm = .f32) ∨ (vt = .f64 ∧ fm = .f64) →
        lanes (.vadd h d a b mask vt (.fp rm)) act (fun j =>
          ScalarGives (fun h d a b _ => .fadd h d a b fm rm) bits (el a j) (elB j) 0) ∧
        lanes (.vsub h d a b mask vt (.fp rm)) act (fun j =>
          ScalarGives (fun h d a b _ => .fsub h d a b fm rm) bits (el a j) (elB j) 0) ∧
        lanes (.vmul h d a b mask vt (.fp rm)) act (fun j =>
          ScalarGives (fun h d a b _ => .fmul h d a b fm rm) bits (el a j) (elB j) 0) ∧
        lanes (.vfma h d a b e mask vt (.fp rm)) act (fun j =>
          ScalarGives (fun h d a b c => .fma h d a b c fm rm) bits (el a j) (elB j) (el e j)) ∧
        lanes (.vmin h d a b mask vt) act (fun j =>
          ScalarGives (fun h d a b _ => .fmin h d a b fm) bits (el a j) (elB j) 0) ∧
        lanes (.vmax h d a b mask vt) act (fun j =>
          ScalarGives (fun h d a b _ => .fmax h d a b fm) bits (el a j) (elB j) 0) ∧
        lanes (.vsgn h d a b mask vt sg) act (fun j =>
          ScalarGives (fun h d a b _ => .fsgn h d a b fm sg) bits (el a j) (elB j) 0) ∧
        (∃ (q : Nat → Bool) (fl : Nat → Flags) (total : Flags) (bs : BitVec 128),
          (∀ j, j < n → act j = true → ScalarTests (fun h d a b => .fcmp h d a b fm cond) bits (el a j) (elB j) (q j) (fl j)) ∧
          (∀ j, j < 128 → bs.getLsbD j = (decide (j < n) && act j && q j)) ∧ FlagsAre n act fl total ∧
          leaves (.vcmp h dm a b mask vt cond) [.m dm bs] total)) ∧
      (vt = .s32 ∨ vt = .n32 →
        let exact := fun (instr : Instr) (sat : Bool) (r : Nat → Int) =>
          lanes instr act fun j v fl => IntResult ty sat (r j) v ∧ fl = 0
        exact (.vadd h d a b mask vt (.int sat)) sat (fun j => int (el a j) + int (elB j)) ∧
        exact (.vsub h d a b mask vt (.int sat)) sat (fun j => int (el a j) - int (elB j)) ∧
        exact (.vmul h d a b mask vt (.int sat)) sat (fun j => int (el a j) * int (elB j)) ∧
        exact (.vfma h d a b e mask vt (.int sat)) sat (fun j => int (el a j) * int (elB j) + int (el e j)) ∧
        exact (.vmin h d a b mask vt) false (fun j => min (int (el a j)) (int (elB j))) ∧
        exact (.vmax h d a b mask vt) false (fun j => max (int (el a j)) (int (elB j))) ∧
        (cond ≠ .uo → cond ≠ .or → ∃ bs : BitVec 128,
          (∀ j, j < 128 → (bs.getLsbD j = true ↔ j < n ∧ act j = true ∧
            let p := int (el a j)
            let q := int (elB j)
            match cond with
            | .eq => p = q
            | .ne => p ≠ q
            | .lt => p < q
            | .le => p ≤ q
            | .gt => p > q
            | _ => p ≥ q)) ∧
          leaves (.vcmp h dm a b mask vt cond) [.m dm bs] 0)) ∧
      lanes (.vsel h d a b am vt) all (fun j v fl =>
        v.toNat % 2 ^ bits = (if maskBit am j then el a j else elB j) ∧ fl = 0) ∧
      (w = false →
        let bit := fun (x y : Bool) => match lg with
          | .and => x && y
          | .or => x || y
          | .xor => x != y
          | .andn => x && !y
          | .not => !x
        lanes (.vlog h (.lanes d a b mask) lg) act (fun j v fl => fl = 0 ∧
          ∀ k, k < 32 → v.getLsbD k = bit ((el a j).testBit k) ((elB j).testBit k)) ∧
        (∃ bs : BitVec 128, leaves (.vlog h (.masks dm am bm) lg) [.m dm bs] 0 ∧
          ∀ k, k < 128 → bs.getLsbD k = bit (maskBit am k) (maskBit bm k)) ∧
        lanes (.vsh h d a b mask vt sh) act (fun j v fl => fl = 0 ∧ ∀ k, k < 32 →
          let m := elB j % 32
          v.getLsbD k = match sh with
            | .shl => decide (m ≤ k) && (el a j).testBit (k - m)
            | .shr => (el a j).testBit (k + m)
            | .sra => (el a j).testBit (min (k + m) 31)
            | .rol => (el a j).testBit ((k + 32 - m) % 32))))

/-- R155 to R161, and the completion of a coprocessor result (R151).
The model's own choices in it: log entry 13. -/
def Obligations.VectorMovesAndReductions : Prop :=
  (∀ (h : Hdr) (f : Firing) (s : State) (d a e : VReg) (x y : GReg) (mask : MReg) (vt : VTy) (rm : Rm) (flush c4 bf : Bool)
      (dst src : VCvtTy) (part8 : Fin 8) (part2 tab : Fin 2) (op : RedOp) (fn : SfuOp), ready .none h f s = true →
    let c := issuer s
    let g := c.regs.vgrant
    let lane := fun (r : VReg) (j : Nat) => ((vget c.regs.v [] r.val).getD j 0).toNat
    let wide := fun (w : Bool) (r : VReg) (j : Nat) => if w then lane r (2 * j) + 2 ^ 32 * lane r (2 * j + 1) else lane r j
    let count := fun (w : Bool) => if w then g / 2 else g
    let act := fun (j : Nat) => decide (mask = 0) || (vget c.regs.m 0 mask.val).getLsbD j
    let all := fun (_ : Nat) => true
    let w := decide (vt = .f64)
    let leaves := fun (vl : Bool) (instr : Instr) (ws : List RegWrite) (fl : Flags) =>
      exec instr s = dispatched h f s (begun s)
        (if vl then .out (.cop ws fl) .none true false else .fixed (6 + (g + 31) / 32) ws fl)
    let lanes := fun (vl w : Bool) (instr : Instr) (act : Nat → Bool) (good : Nat → Word → Flags → Prop) =>
      ∃ (v : Nat → Word) (fl : Nat → Flags) (ls : List (Option Lane)) (total : Flags),
        (∀ j, j < count w → act j = true → good j (v j) (fl j)) ∧ ElemsAre w (count w) act v ls ∧
        FlagsAre (count w) act fl total ∧ leaves vl instr [.v d ls] total
    let half := if bf then fmtB16 else fmtH16
    let per := if c4 then 8 else 4
    let cb := if c4 then 4 else 8
    let value := fun (x : Word) => gdest c y x
    g ≠ 0 →
    -- conversions
    (let sw := decide (src = .f64)
      let dw := decide (dst = .f64)
      let cvt := fun (t : VCvtTy) => match t with
        | .f32 => CvtTy.f32
        | .f64 => .f64
        | .s32 => .s32
        | .n32 => .n32
        | .h16 => .h16
        | .b16 => .b16
      let n := count (sw || dw)
      dst ≠ src → ¬ ((src = .s32 ∨ src = .n32) ∧ (dst = .s32 ∨ dst = .n32)) → (flush = true → dst = .b16) →
      ∃ (v : Nat → Word) (fl : Nat → Flags) (ls : List (Option Lane)) (total : Flags),
        (∀ j, j < n →
          let x := match CvtTy.kind (cvt src) with
            | .inl S => some (unpack S (wide sw a j % 2 ^ S.width))
            | .inr _ => none
          let flushed := flush = true ∧ ∃ y, x = some y ∧ tinyB16 rm y = true
          (flushed → fl j = flUnderflow ||| flInexact ∧ ∀ y, x = some y → (v j).toNat = if y.neg? then 0x8000 else 0) ∧
          (¬ flushed → ScalarGives (fun h d a _ _ => .fcvt h d a (cvt dst) (cvt src) rm) (if sw then 64 else 32) (wide sw a j)
            0 0 (v j) (fl j))) ∧
        FlagsAre n all fl total ∧ leaves (sw || dw) (.vcvt h d a flush dst src rm) [.v d ls] total ∧
        (sw = false → ElemsAre dw n all v ls) ∧
        (sw = true → ls.length = g ∧ (∀ j, j < n → ls[j]? = some (some ((v j).truncate 32))) ∧
          ∀ j, n ≤ j → j < g → ls[j]? = some (some 0))) ∧
    -- codes
    (tableLoading c tab = false →
      (tableFits c4 (tableState c tab) = false →
        let v := BitVec.ofNat 64 (tab.val + 256 * (tableState c tab).code)
        exec (.vdec h d a part8 c4 tab) s = .next (trap (begun s) s.cur 0x06 v) ∧
        exec (.venc h d a part8 c4 tab) s = .next (trap (begun s) s.cur 0x06 v)) ∧
      (tableFits c4 (tableState c tab) = true →
        let ents := (tableOfCore c tab).ents
        lanes false false (.vdec h d a part8 c4 tab) all (fun j v fl => fl = 0 ∧
          let x := (ents.getD (lane a (part8.val * g / per + j / per) / 2 ^ (cb * (j % per)) % 2 ^ cb) 0).toNat % 2 ^ 19
          v.toNat = if x / 2 ^ 10 % 2 ^ 8 = 255 ∧ x % 2 ^ 10 ≠ 0 then 0x7FC00000 else x * 2 ^ 13) ∧
        ∃ (code : Nat → Nat) (fl : Nat → Flags) (ls : List (Option Lane)) (total : Flags),
          leaves false (.venc h d a part8 c4 tab) [.v d ls] total ∧ FlagsAre g all fl total ∧
          (∀ j, j < g → (∃ k, Encodable ents (if c4 then 16 else 256) k) →
            EncodesTo ents (if c4 then 16 else 256) (unpack fmt32 (lane a j)) (code j) (fl j)) ∧
          ls.length = part8.val * g / per + g / per ∧
          (∀ q, q < part8.val * g / per → ls[q]? = some none) ∧
          (∀ q, q < g / per → ∃ l : Lane, ls[part8.val * g / per + q]? = some (some l) ∧ ∀ k, k < per →
            l.toNat / 2 ^ (cb * k) % 2 ^ cb = code (per * q + k) % 2 ^ cb))) ∧
    -- packing
    lanes false false (.vunpk h d a part2 bf) all (fun j v fl =>
      (v.toNat, fl) = roundVal fmt32 .rne (unpack half (lane a (part2.val * g / 2 + j / 2) / 2 ^ (16 * (j % 2)) % 2 ^ 16))) ∧
    (∃ ls total, (∀ k, k < 5 → (total.getLsbD k = true ↔ ∃ r ∈ [a, e], ∃ j, j < 2 * (g / 2) ∧
        ((roundVal half rm (unpack fmt32 (lane r j))).2).getLsbD k = true)) ∧ leaves false (.vpack h d a e bf rm) [.v d ls] total ∧ ls.length = 2 * (g / 2) ∧
      ∀ j, j < g / 2 →
        let two := fun (r : VReg) => (roundVal half rm (unpack fmt32 (lane r (2 * j)))).1 +
          2 ^ 16 * (roundVal half rm (unpack fmt32 (lane r (2 * j + 1)))).1
        ls[j]? = some (some (BitVec.ofNat 32 (two a))) ∧ ls[g / 2 + j]? = some (some (BitVec.ofNat 32 (two e)))) ∧
    -- reductions and scans
    (let ty := if vt = .s32 then IntTy.s32 else IntTy.n32
      let ints := fun (m : Nat) => ((List.range m).filter act).map fun j => operandInt ty (BitVec.ofNat 64 (lane a j))
      let isRed := fun (xs : List Int) (v : Word) => match op with
        | .add => IntResult ty false xs.sum v
        | .min => ∃ r : Int, r ∈ xs ∧ (∀ z ∈ xs, r ≤ z) ∧ IntResult ty false r v
        | .max => ∃ r : Int, r ∈ xs ∧ (∀ z ∈ xs, z ≤ r) ∧ IntResult ty false r v
      (vt = .s32 ∨ vt = .n32 →
        (∃ v : Word, leaves true (.vred h y a mask vt op) [value v] 0 ∧ (ints (min g 128) ≠ [] → isRed (ints (min g 128)) v) ∧
          (ints (min g 128) = [] → v.toNat % 2 ^ 32 = match op with
            | .add => 0
            | .min => if vt = .s32 then 0x7FFFFFFF else 0xFFFFFFFF
            | .max => if vt = .s32 then 0x80000000 else 0)) ∧
        lanes true false (.vscan h d a mask vt op) act (fun j v fl => fl = 0 ∧ isRed (ints (j + 1)) v)) ∧
      (vt = .f32 ∨ vt = .f64 → ∃ node,
        TreeOver vt op (fun j => if j < count w && act j then some (wide w a j) else none) node ∧
        let F := VTy.fmt vt
        let out := fun (x : Nat × Flags) => match unpack F x.1 with
          | .nan sg => (F.nan, x.2 ||| (if sg then flInvalid else 0))
          | _ => x
        let r := match node (if w then 6 else 7) 0 with
          | some x => out x
          | none => (match op with
            | .add => 0
            | .min => F.inf false
            | .max => F.inf true, 0)
        leaves true (.vred h y a mask vt op) [value (BitVec.ofNat 64 r.1)] r.2 ∧
        lanes true w (.vscan h d a mask vt op) act (fun j v fl =>
          ∃ z, PrefixOf vt op node (g.log2 + 1) (j + 1) 0 none (some z) ∧ v = BitVec.ofNat 64 (out z).1 ∧ fl = (out z).2))) ∧
    -- moves
    lanes w w (.vperm h d a e mask vt) act (fun j v fl => fl = 0 ∧
      let k := lane e j % 128
      v.toNat = if k < count w then wide w a k else 0) ∧
    lanes w w (.vbcast h d x mask vt) act (fun _ v fl => fl = 0 ∧ v.toNat = (gread c x).toNat % 2 ^ (if w then 64 else 32)) ∧
    lanes false false (.vidx h d x y mask) act (fun j v fl => fl = 0 ∧ v.toNat = ((gread c x).toNat + j * (gread c y).toNat) % 2 ^ 32) ∧
    (let k := (gread c x).toNat % 128
     (∃ v, leaves w (.vext h y a x vt) [value v] 0 ∧ (count w ≤ k → v = 0) ∧
        (k < count w → if vt = .s32 then v.toInt = Int.bmod (lane a k) (2 ^ 32) else v.toNat = wide w a k)) ∧
      lanes w w (.vins h d y x vt) (fun j => decide (j = k)) (fun _ v fl => fl = 0 ∧
        v.toNat = (gread c y).toNat % 2 ^ (if w then 64 else 32))) ∧
    lanes true false (.vsfu h d a mask fn) act (fun j v fl =>
      let one := 0x3F800000
      let nan := 0x7FC00000
      let top := fun (n : Bool) => if n then 2 ^ 31 else 0
      let is := fun (z : Nat) (f : Flags) => v.toNat = z ∧ fl = f
      let q := unpack fmt32 (lane a j)
      (v.toNat, fl) = sfu fn (lane a j) ∧
      (∀ sg, q = .nan sg → is nan (if sg then flInvalid else 0)) ∧
      (∀ n, q = .inf n → match fn with
        | .rcp => is (top n) 0
        | .rsqrt => if n then is nan flInvalid else is 0 0
        | .exp2 => is (if n then 0 else 0x7F800000) 0
        | .log2 => if n then is nan flInvalid else is 0x7F800000 0
        | .sinpi | .cospi => is nan flInvalid
        | .tanh => is (top n + one) 0
        | .sigm => is (if n then 0 else one) 0) ∧
      (∀ n k, q = .fin n 0 k → match fn with
        | .rcp | .rsqrt => is (top n + 0x7F800000) flDivzero
        | .log2 => is 0xFF800000 flDivzero
        | .exp2 | .cospi => is one 0
        | .sinpi | .tanh => is (top n) 0
        | .sigm => is 0x3F000000 0) ∧
      (∀ m k, q = .fin true m k → m ≠ 0 → fn = .rsqrt ∨ fn = .log2 → is nan flInvalid) ∧
      (lane a j = one → fn = .log2 → is 0 0) ∧
      (∀ n m k, q = .fin n m k → m * 2 ^ k.toNat % 2 ^ (-k).toNat = 0 → fn = .sinpi → is (top n) 0) ∧
      (∀ n m k, q = .fin n m k → m * 2 ^ (k + 1).toNat % 2 ^ (-(k + 1)).toNat = 0 →
        m * 2 ^ (k + 1).toNat / 2 ^ (-(k + 1)).toNat % 2 = 1 → fn = .cospi → is 0 0) ∧
      (fn = .rcp → ∀ z, ScalarGives (fun h d a b _ => .fdiv h d a b .f32 .rne) 32 one (lane a j) z v fl) ∧
      (∀ m k, q = .fin false m k → m ≠ 0 → fn = .rsqrt → ∃ (r m' : Nat) (k' : Int),
        ((m' = m ∧ k' = k) ∨ (m' = 2 * m ∧ k' = k - 1)) ∧ k' % 2 = 0 ∧ 2 ^ 25 ≤ r ∧ r * r * m' ≤ 2 ^ 160 ∧
        2 ^ 160 < (r + 1) * (r + 1) * m' ∧
        (v.toNat, fl) = roundFin fmt32 .rne false r (-80 - k' / 2) (decide (r * r * m' ≠ 2 ^ 160))))) ∧
  (∀ (s : State) (o : Out) (ws : List RegWrite) (fl : Flags),
    let i := s.arg.core
    findOut (s.core i) s.arg.id = some o → o.op = .cop ws fl →
    ∃ t, exec .coprocessorCompletion s = .next t ∧ t.homes = s.homes ∧ SameCores s t i ∧
      (let r := ((flushDue s i).core i).regs
       (t.core i).regs = { r.writeAll ws with
          fpstat := r.fpstat ||| fl
          landed := if fl = 0 then r.landed else (s.now, if r.landed.1 = s.now then r.landed.2 ||| fl else fl) }) ∧
      findOut (t.core i) o.id = none ∧ (o.tag ≠ 0 → tagOf (t.core i) o.tag = .done))

/-- Group 7, and `mov` from and to q.
The model's own choices in it: log entries 17, 19, 28 and 29. -/
def Obligations.VectorMemoryAndStreams : Prop :=
  (∀ (h : Hdr) (f : Firing) (s : State) (d b : VReg) (x : MemOp) (a : GReg) (mask : MReg) (w : VW),
    let i := s.cur
    let c := issuer s
    let g := c.regs.vgrant
    let es := match w with
      | .w16 => 2
      | .w32 => 4
      | .w64 => 8
    let act := fun (j : Nat) => decide (mask = 0) || (vget c.regs.m 0 mask.val).getLsbD j
    let lane := fun (r : VReg) (j : Nat) => (vget c.regs.v [] r.val).getD j 0
    let els := fun (addr : Nat → Word) =>
      ((List.range (if w = .w64 then g / 2 else g)).filter act).map fun j => (j, addr j)
    let base := gread c x.a + x.disp.signExtend 64
    let stride := gread c x.b <<< x.s.val
    let unit := fun (j : Nat) => base + stride + BitVec.ofNat 64 (j * es)
    let strided := fun (j : Nat) => base + BitVec.ofNat 64 j * stride
    let gathered := fun (j : Nat) => gread c a + (lane b (if w = .w64 then 2 * j else j)).signExtend 64
    let loads := fun (instr : Instr) (gath : Bool) (addr : Nat → Word) =>
      let out := fun (u : State) (X : VecMem) => exec instr s = dispatched h f s u (.out (.vload X) .load true false)
      match checkElems (begun s) i es 0 (els addr) with
      | .wait u => exec instr s = .next (stall u i)
      | .bad u cause val => out u { elems := [], es, d, lanes := g, gather := gath, fault := some (cause, val) }
      | .ok u ys => (∀ y ∈ ys, ownFast i y.2.2.1 = true → ownOverlap (u.core i) y.2.2.1 es = false) →
          let home := gath && homeGather (u.core i) ys
          ∃ v, out v { elems := ys.map fun y => (y.1, y.2.1, y.2.2.2, if home then none else elemHit u i es y.2.2.2)
                       es, d, lanes := g, gather := home, fault := none } ∧
            v.homes = u.homes ∧ SameCores u v i ∧ (v.core i).regs = c.regs ∧
            (home = true → ∀ y ∈ ys, ∀ z ∈ (v.core i).cache.l1, z.line ≠ y.2.2.2.lockKey / 64)
    let stores := fun (instr : Instr) (addr : Nat → Word) =>
      let faults := fun (u : State) (cause : Nat) (val : Word) =>
        exec instr s = dispatched h f s u (.out (.vstore [] [] (some (cause, val))) .store false false)
      let byte := fun (j k : Nat) =>
        if w = .w64 then fld (lane d (2 * j + k / 4)).toNat (8 * (k % 4)) 8 else fld (lane d j).toNat (8 * k) 8
      match checkElems (begun s) i es 1 (els addr) with
      | .wait u => exec instr s = .next (stall u i)
      | .bad u cause val => faults u cause val
      | .ok u ys =>
        let own := ys.filter fun y => ownFast i y.2.2.1
        let far := ys.filter fun y => !ownFast i y.2.2.1
        let bytes := fun (y : Nat × Word × Loc × Place) => (List.range es).map fun m => BitVec.ofNat 8 (byte y.1 m)
        let k := if storesWait (u.core i) then 0 else min (63 - (u.core i).cache.wb.length) far.length
        (∀ y ys', own.filter (fun y => lockedW u y.2.2.2.lockKey es) = y :: ys' → exec instr s = .next (trap u i 0x12 y.2.1)) ∧
        (MemOk s → (∀ y ∈ own, lockedW u y.2.2.2.lockKey es = false ∧ ownOverlap (u.core i) y.2.2.1 es = false ∧
            unperfOverlap (u.core i) y.2.2.2.addr es = false ∧ readBefore (u.core i) c.iss.opCount y.2.2.2.addr es = false) →
          far = [] ∨ bufferFull (u.core i) = false →
          ∃ t seqs, exec instr s = dispatched h f s t (if far = [] then .plain
              else .out (.vstore ((far.drop k).map fun y => (y.2.1, y.2.2.2, bytes y)) seqs none) .store false false) ∧
            seqs.length = k ∧ SameCores s t i ∧ (t.core i).regs = { c.regs with q := (t.core i).regs.q, wsig := (t.core i).regs.wsig } ∧
            (far = [] → (t.core i).regs.wsig = c.regs.wsig) ∧
            (∀ y ∈ far, ∀ va pa k cc m, y.2.2.2 = .global va pa k cc m → sigHit (t.core i).regs.wsig (va / 64) = true) ∧
            (t.core i).cache.wb.map (fun e => (e.ea, e.place, e.op)) = (u.core i).cache.wb.map (fun e => (e.ea, e.place, e.op)) ++
              (far.take k).map (fun y => (y.2.1, y.2.2.2, .bytes (bytes y))) ∧
            (∀ n, (∀ y ∈ own, n < y.2.2.2.addr ∨ y.2.2.2.addr + es ≤ n) → readByte t.mem n = readByte u.mem n) ∧
            ∀ (k m : Nat) (y), own[k]? = some y → m < es →
              (∀ k' y', k < k' → own[k']? = some y' → y.2.2.2.addr + m < y'.2.2.2.addr ∨ y'.2.2.2.addr + es ≤ y.2.2.2.addr + m) →
              readByte t.mem (y.2.2.2.addr + m) = BitVec.ofNat 8 (byte y.1 m))
    let all := [(WaitCls.l, Instr.vld h d x mask w, 0x1C00000), (.s, .vst h d x mask w, 0x1C10000),
      (.l, .vlds h d x mask w, 0x1C20000), (.s, .vsts h d x mask w, 0x1C30000), (.l, .vgath h d a b mask w, 0x1C40000),
      (.s, .vscat h d a b mask w, 0x1C50000)]
    (∀ e ∈ all, ready e.1 h f s = true →
      (f.handler = true → exec e.2.1 s = .next (trap (begun s) i 0x16 e.2.2)) ∧
      (f.handler = false → g = 0 → exec e.2.1 s = .next (trap (begun s) i 0x07 0))) ∧
    (f.handler = false → g ≠ 0 →
      (ready .l h f s = true →
        ((base + stride).toNat % es ≠ 0 → exec (.vld h d x mask w) s = .next (trap (begun s) i 0x05 (base + stride))) ∧
        ((base + stride).toNat % es = 0 → loads (.vld h d x mask w) false unit) ∧
        (base.toNat % es ≠ 0 → exec (.vlds h d x mask w) s = .next (trap (begun s) i 0x05 base)) ∧
        (base.toNat % es = 0 → stride.toNat % es ≠ 0 →
          exec (.vlds h d x mask w) s = .next (trap (begun s) i 0x05 stride)) ∧
        (base.toNat % es = 0 → stride.toNat % es = 0 → loads (.vlds h d x mask w) false strided) ∧
        loads (.vgath h d a b mask w) true gathered) ∧
      (ready .s h f s = true →
        ((base + stride).toNat % es ≠ 0 → exec (.vst h d x mask w) s = .next (trap (begun s) i 0x05 (base + stride))) ∧
        ((base + stride).toNat % es = 0 → stores (.vst h d x mask w) unit) ∧
        (base.toNat % es ≠ 0 → exec (.vsts h d x mask w) s = .next (trap (begun s) i 0x05 base)) ∧
        (base.toNat % es = 0 → stride.toNat % es ≠ 0 →
          exec (.vsts h d x mask w) s = .next (trap (begun s) i 0x05 stride)) ∧
        (base.toNat % es = 0 → stride.toNat % es = 0 → stores (.vsts h d x mask w) strided) ∧
        stores (.vscat h d a b mask w) gathered))) ∧
  (∀ (s : State) (o : Out) (X : VecMem),
    let i := s.arg.core
    findOut (s.core i) s.arg.id = some o → o.op = .vload X → X.fault = none → X.es = 2 ∨ X.es = 4 ∨ X.es = 8 →
    let copy := fun (p : Place) => if X.gather then none else copyAt s i p
    (∀ e ∈ X.elems, e.2.2.2 = none → loadWaits s i o e.2.2.1 X.es = false ∧ blockedRead s e.2.2.1.lockKey X.es = none ∧
      unperfOverlap (s.core i) e.2.2.1.addr X.es = false ∧
      match copy e.2.2.1 with
        | some l => l1Poison l e.2.2.1.lockKey X.es = none
        | none => poisonCode s e.2.2.1.addr X.es = none) →
    ∃ (t : State) (v : Nat → Word) (ls : List (Option Lane)), exec .loadDataReturn s = .next t ∧ SameCores s t i ∧
      ElemsAre (decide (X.es = 8)) (if X.es = 8 then X.lanes / 2 else X.lanes) (fun j => X.elems.any (·.1 == j)) v ls ∧
      (∀ j e, X.elems.find? (·.1 == j) = some e →
        v j = BitVec.ofNat 64 (ofLe (e.2.2.2.getD (match copy e.2.2.1 with
          | some l => (l.data.drop (e.2.2.1.lockKey % 64)).take X.es
          | none => placeBytes s e.2.2.1 X.es)))) ∧
      Reread (((flushDue s i).core i).regs.write (.v X.d ls)) (t.core i).regs ∧
      findOut (t.core i) o.id = none ∧ (o.tag ≠ 0 → tagOf (t.core i) o.tag = .done)) ∧
  (∀ (h : Hdr) (f : Firing) (s : State) (d : QReg) (a b : GReg) (wr : Bool),
    let i := s.cur
    let c := issuer s
    let q := vget c.regs.q .unbound d.val
    let free := q = .unbound ∨ ∃ wr base sh pos ahead, q = .stream wr base sh pos ahead ∧ sh.count ≤ pos
    let noStream := BitVec.ofNat 64 (96 + d.val)
    let rebinds := fun (u t : State) (x : QBind) => t = u.onRegs i fun r => { r with q := vset r.q d.val x }
    let moves := fun (t : State) (x : QBind) => t.homes = s.homes ∧ SameCores s t i ∧
      ∃ r, Reread c.regs r ∧ t.core i = { c with regs := { r with q := vset r.q d.val x } }
    let byte := fun (k : Nat) => BitVec.ofNat 8 (wf (gread c a) (8 * k) 8)
    (ready .l h f s = true → f.handler = true → exec (.sbind h d a b wr) s = .next (trap (begun s) i 0x16 0x1C60000)) ∧
    (ready .l h f s = true → f.handler = false →
      (¬ free → exec (.sbind h d a b wr) s = .next (trap (begun s) i 0x08 noStream)) ∧
      (free → ∀ u ws, RecordAt (begun s) i (gread c b) u ws →
        match shapeOf ws 3 with
        | none => exec (.sbind h d a b wr) s = .next (trap u i 0x09 (gread c b))
        | some sh =>
          if shapeAligned sh (gread c a) = true then
            ∃ t, exec (.sbind h d a b wr) s = dispatched h f s t .plain ∧ rebinds u t (.stream wr (gread c a) sh 0 [])
          else exec (.sbind h d a b wr) s = .next (trap u i 0x09 (gread c b)))) ∧
    (ready .none h f s = true → f.handler = true → exec (.sunbind h d) s = .next (trap (begun s) i 0x16 0x1C70000)) ∧
    (ready .none h f s = true → f.handler = false →
      (free ∨ (∃ wr base sh pos ahead, q = .stream wr base sh pos ahead) →
        ∃ t, exec (.sunbind h d) s = dispatched h f s t .plain ∧ rebinds (begun s) t .unbound) ∧
      ((∃ k, q = .chanIn k) ∨ (∃ k, q = .chanOut k) → exec (.sunbind h d) s = .next (trap (begun s) i 0x08 noStream))) ∧
    (ready .l h f s = true →
      (free ∨ (∃ base sh pos ahead, q = .stream true base sh pos ahead) ∨ (∃ k, q = .chanOut k) →
        exec (.movFromStream h a d) s = .next (trap (begun s) i 0x08 noStream)) ∧
      (∀ base sh pos, pos < sh.count →
        (f.handler = false → q = .stream false base sh pos [] → exec (.movFromStream h a d) s = .next (stall (begun s) i)) ∧
        (f.handler = true → q = .stream false base sh pos [] →
          let n := sh.esize
          let ea := elemAddr base sh pos
          (∀ u cause, checkAccess (begun s) i ea n n 0 = .bad u cause →
            exec (.movFromStream h a d) s = .next (trap u i cause ea)) ∧
          (∀ u l p, checkAccess (begun s) i ea n n 0 = .ok u l p → ownFast i l = true → (u.core i).cache.wmWait = none →
            ownLoadWait u p n = none → ownOverlap (u.core i) l n = false → unperfOverlap (u.core i) p.addr n = false →
            readBefore (u.core i) c.iss.opCount p.addr n = false → poisonCode u p.addr n = none →
            ∃ t lat, exec (.movFromStream h a d) s = retired h f s t
                (.fixed lat [gdest c a (BitVec.ofNat 64 (readNat s.mem p.addr n))] 0) ∧ t.homes = s.homes ∧
              vget (t.core i).regs.q .unbound d.val = .stream false base sh (pos + 1) [])) ∧
        (∀ v rest, q = .stream false base sh pos (.elem v :: rest) → ∃ t, moves t (.stream false base sh (pos + 1) rest) ∧
          exec (.movFromStream h a d) s = retired h f s t (.written [gdest c a v])) ∧
        (∀ cause val rest, q = .stream false base sh pos (.fault cause val :: rest) →
          ∃ t, moves t (.stream false base sh (pos + 1) rest) ∧
            exec (.movFromStream h a d) s = retired h f s t (.out (.sfault cause val) .load true false)))) ∧
    (ready .none h f s = true →
      (∀ (k : Fin 4) (slot : Fin 16) (A : Actor) (ch : Nat) (rate : Nat) (C : Channel) (rec_ : List Word), q = .chanIn k → f.kind = .actor slot →
        actorOf c slot.val = some A → vget A.ins none k.val = some (ch, rate) →
        let w := vget f.reads 0 k.val
        (8 * rate ≤ w → exec (.movFromStream h a d) s = .next (trap (begun s) i 0x08 noStream)) ∧
        (w < 8 * rate → chanOf (begun s) i ch = some C → (dataAhead C.items)[w / 8]? = some rec_ → ∃ t,
          t = (begun s).onFiring i (fun f => { f with reads := vset f.reads k.val (w + 1) }) ∧
          exec (.movFromStream h a d) s = retired h f s t (.written [gdest c a (rec_.getD (w % 8) 0)])))) ∧
    (ready .s h f s = true →
      (free ∨ (∃ base sh pos ahead, q = .stream false base sh pos ahead) ∨ (∃ k, q = .chanIn k) →
        exec (.movToStream h d a) s = .next (trap (begun s) i 0x08 noStream)) ∧
      (∀ base sh pos ahead u l p, q = .stream true base sh pos ahead → pos < sh.count → MemOk s →
        sh.esize = 1 ∨ sh.esize = 2 ∨ sh.esize = 4 ∨ sh.esize = 8 →
        let n := sh.esize
        checkAccess (begun s) i (elemAddr base sh pos) n n 1 = .ok u l p → ownFast i l = true →
        (lockedW u p.lockKey n = true → exec (.movToStream h d a) s = .next (trap u i 0x12 (elemAddr base sh pos))) ∧
        (lockedW u p.lockKey n = false → ownOverlap (u.core i) l n = false → unperfOverlap (u.core i) p.addr n = false →
          readBefore (u.core i) c.iss.opCount p.addr n = false →
          ∃ t, exec (.movToStream h d a) s = retired h f s t .plain ∧ SameMemBut s t p.addr n ∧ SameCores s t i ∧
            (∀ k, k < n → readByte t.mem (p.addr + k) = byte k) ∧
            (t.core i).regs.g = c.regs.g ∧ vget (t.core i).regs.q .unbound d.val = .stream true base sh (pos + 1) [])) ∧
      (∀ base sh pos ahead u l p, q = .stream true base sh pos ahead → pos < sh.count →
        let n := sh.esize
        checkAccess (begun s) i (elemAddr base sh pos) n n 1 = .ok u l p → ownFast i l = false →
        (bufferFull (u.core i) = true → exec (.movToStream h d a) s = .next (stall u i)) ∧
        (bufferFull (u.core i) = false → ∃ t,
          exec (.movToStream h d a) s = retired h f s t (.out (.stored (u.core i).cache.seqHead none) .store false false) ∧
          t.homes = u.homes ∧ (t.core i).regs.g = c.regs.g ∧
          vget (t.core i).regs.q .unbound d.val = .stream true base sh (pos + 1) [] ∧
          (t.core i).cache.wb.map (fun e => (e.ea, e.place, e.op)) = (u.core i).cache.wb.map (fun e => (e.ea, e.place, e.op)) ++
            [(elemAddr base sh pos, p, .bytes (leBytes n (gread c a).toNat))]))) ∧
    (ready .e h f s = true →
      (∀ (j : Fin 4) (slot : Fin 16) (A : Actor) (k ch rate : Nat), q = .chanOut j → f.kind = .actor slot →
        actorOf c slot.val = some A → vget A.outs none j.val = some (k, ch, rate) →
        let splicing := c.iss.outs.any fun o => match o.op with
          | .splice .. => true
          | _ => false
        let rec_ := vget f.outWords [] j.val ++ [gread c a]
        let ws := vget f.outWords [] j.val
        let sent := vget f.sent 0 j.val
        (rate ≤ sent → exec (.movToStream h d a) s = .next (trap (begun s) i 0x08 noStream)) ∧
        (sent < rate → ws.length < 7 → ∃ t, exec (.movToStream h d a) s = retired h f s t .plain ∧
          t = (begun s).onFiring i fun f => { f with outWords := vset f.outWords j.val (ws ++ [gread c a]) }) ∧
        (sent < rate → 7 ≤ ws.length → splicing = true → exec (.movToStream h d a) s = .next (stall (begun s) i)) ∧
        (sent < rate → ws.length = 7 → splicing = false →
          let drops := fun (reason : Nat) => ∃ t u : State, exec (.movToStream h d a) s = retired h f s t .plain ∧
            u.homes = s.homes ∧ t = u.discard k rec_ reason A.owner
          (chanOf (begun s) k ch = none → drops 6) ∧
          (∀ C, chanOf (begun s) k ch = some C →
            let bad := if C.task then admitFail C.codeb (rec_.getD 0 0) else none
            (∀ r, bad = some r → drops r) ∧
            (bad = none → ∃ t D, exec (.movToStream h d a) s = retired h f s t .plain ∧ t.homes = s.homes ∧
              chanOf t k ch = some D ∧ D.items = C.items ++ [.data rec_ none])))))) ∧
  (∀ (s : State) (base : Word) (sh : Shape) (pos : Nat) (ahead : List Ahead),
    let i := s.arg.core
    let q := s.arg.id
    let ea := elemAddr base sh (pos + ahead.length)
    let adds := fun (x : Ahead) => ∃ t, exec .streamReadaheadReturn s = .next t ∧ SameCores s t i ∧
      vget (t.core i).regs.q .unbound q = .stream false base sh pos (ahead ++ [x])
    q < 8 → vget (s.core i).regs.q .unbound q = .stream false base sh pos ahead → pos + ahead.length < sh.count →
    ahead.length < 8 → inHandler (s.core i) = false →
    (∀ u cause, checkAccess s i ea sh.esize sh.esize 0 = .bad u cause → adds (.fault cause ea)) ∧
    (∀ u l p, checkAccess s i ea sh.esize sh.esize 0 = .ok u l p → placeBusy u p = false →
      ownOverlap (u.core i) l sh.esize = false → unperfOverlap (u.core i) p.addr sh.esize = false →
      readBefore (u.core i) (u.core i).iss.opCount p.addr sh.esize = false → blockedRead u p.lockKey sh.esize = none →
      (∀ L, copyAt u i p = some L →
        (∀ k code, l1Poison L p.lockKey sh.esize = some (k, code) → adds (.fault 0x14 (BitVec.ofNat 64 (bankOf u (p.addr + k))))) ∧
        (l1Poison L p.lockKey sh.esize = none → adds (.elem (BitVec.ofNat 64 (ofLe ((L.data.drop (p.lockKey % 64)).take sh.esize)))))) ∧
      (copyAt u i p = none →
        (∀ a code, poisonSpot u p.addr sh.esize = some (a, code) → adds (.fault 0x14 (BitVec.ofNat 64 (bankOf u a)))) ∧
        (poisonCode u p.addr sh.esize = none → adds (.elem (BitVec.ofNat 64 (ofLe (placeBytes u p sh.esize))))))))

/-- R184 to R188. `at_` is an operand in the core's own TCM.
The model's own choices in it: log entry 30 (among them the owner's rights to an operand). -/
def Obligations.AccumulatorInstructions : Prop :=
  (∀ (h : Hdr) (f : Firing) (s : State) (t : ATile) (a b e d : GReg) (out : AccqOut) (v : VReg) (part : Fin 16) (n : Fin 8)
      (x y : MFmt) (g : GangArg) (k : Fin 2) (off : Nat),
    let i := s.cur
    let c := issuer s
    let pair := 4 * x.code + y.code
    let st := (gread c b).toNat
    let ea := gread c a
    let loc := decodeAddr i (wf ea 0 56)
    let goes := fun (instr : Instr) (op : AccOp) (cls : OrdClass) (wr : Bool) =>
      exec instr s = dispatched h f s (begun s) (.out (.acc op) cls wr false)
    let stores := fun (v : State) (instr : Instr) (op : AccOp) =>
      ∃ u, exec instr s = dispatched h f s u (.out (.acc op) .store false false) ∧
        u = v.onRegs i fun r => { r with q := (u.core i).regs.q }
    let traps := fun (instr : Instr) (cause : Nat) (val : Word) => exec instr s = .next (trap (begun s) i cause val)
    let shaped := fun (row : Nat) => st % row = 0 ∧ row ≤ st ∧ off + 15 * st + row ≤ 2 ^ 17
    let at_ := fun (row : Nat) => loc = some (.tcm i off) ∧ wf ea 56 8 = 0 ∧ ea.toNat % row = 0 ∧ shaped row
    -- then the owner's right to each row
    let lacks := fun (instr : Instr) (row need : Nat) => ∀ u cause, checkSpans (begun s) i need (rowSpans ea st row) = .error (.bad u cause) →
      exec instr s = .next (trap u i cause ea)
    let holds := fun (row need : Nat) (u : State) => checkSpans (begun s) i need (rowSpans ea st row) = .ok u
    let operand := fun (instr : Instr) (row : Nat) =>
      (ea.toNat % row ≠ 0 → traps instr 0x05 ea) ∧
      (ea.toNat % row = 0 →
        (loc = none → traps instr 0x0E ea) ∧
        (∀ l, loc = some l → (∀ x, l ≠ .paged x) → (∀ x y, l ≠ .aperture x y) → wf ea 56 8 ≠ 0 → traps instr 0x0F ea) ∧
        PagedOperandTraps s (begun s) f.owner ea instr ∧
        (∀ l, loc = some l → (∀ x, l ≠ .paged x) → (wf ea 56 8 = 0 ∨ ∃ x y, l = .aperture x y) → (∀ o, l ≠ .tcm i o) →
          traps instr 0x0A ea) ∧
        (loc = some (.tcm i off) → wf ea 56 8 = 0 → ¬ shaped row → traps instr 0x0A ea))
    let len := match out with
      | .c8 _ => 16
      | .c4 _ => 8
      | _ => 32
    let open_ := f.handler = false ∧ matrixFull c = false ∧ c.mtx.gangFault = none
    (∀ q ∈ [(WaitCls.none, Instr.accz h t n, 0x211), (.l, .accld h t a b, 0x212), (.s, .accst h t a b, 0x213),
        (.s, .accq h t a b e out, 0x214), (.none, .accvRd h t v part, 0x215), (.none, .accvWr h t v part, 0x215),
        (.e, .mma h x y g, 0x200 + pair), (.e, .snz h x y g, 0x216), (.l, .dtload h d a k, 0x210)],
      ready q.1 h f s = true →
        (f.handler = true → exec q.2.1 s = .next (trap (begun s) i 0x16 (BitVec.ofNat 64 (q.2.2 * 2 ^ 16)))) ∧
        (f.handler = false → matrixFull c = true → exec q.2.1 s = .next (stall (begun s) i)) ∧
        (∀ w, f.handler = false → matrixFull c = false → c.mtx.gangFault = some w →
          exec q.2.1 s = dispatched h f s (begun s) (.out (.sfault 0x0B w) .none false false))) ∧
    (ready .none h f s = true → open_ →
      goes (.accz h t n) (.zero t.val (2 ^ n.val)) .none false ∧
      (c.regs.vgrant = 0 → traps (.accvRd h t v part) 0x07 0 ∧ traps (.accvWr h t v part) 0x07 0) ∧
      (c.regs.vgrant ≠ 0 → goes (.accvRd h t v part) (.toVec t.val v part.val c.regs.vgrant) .none true ∧
        goes (.accvWr h t v part) (.fromVec t.val (vget c.regs.v [] v.val) part.val) .none false)) ∧
    (ready .l h f s = true → open_ → operand (.accld h t a b) 64 ∧
      (at_ 64 → lacks (.accld h t a b) 64 0 ∧ ∀ u, holds 64 0 u →
        exec (.accld h t a b) s = dispatched h f s u (.out (.acc (.load t.val off st)) .load false false))) ∧
    (ready .s h f s = true → open_ →
      let lockedRow := fun (u : State) (instr : Instr) (row : Nat) => ∀ r, rowsLocked u i c.iss.opCount off st row = some r →
        exec instr s = .next (trap u i 0x12 (ea + BitVec.ofNat 64 (r * st)))
      operand (.accst h t a b) 64 ∧ operand (.accq h t a b e out) len ∧
      (at_ 64 → lacks (.accst h t a b) 64 1 ∧ ∀ u, holds 64 1 u → lockedRow u (.accst h t a b) 64 ∧
        (rowsLocked u i c.iss.opCount off st 64 = none → stores u (.accst h t a b) (.store t.val off st))) ∧
      (at_ len → lacks (.accq h t a b e out) len 1 ∧ ∀ u, holds len 1 u →
        let factor : BitVec 32 := if e = 0 then 0x3F800000 else (gread c e).truncate 32
        let quants := fun (ents : List (BitVec 20)) => lockedRow u (.accq h t a b e out) len ∧
          (rowsLocked u i c.iss.opCount off st len = none →
            stores u (.accq h t a b e out) (.quant t.val off st out factor ents))
        let table := fun (c4 : Bool) (tab : Fin 2) =>
          (tableLoading c tab = true → exec (.accq h t a b e out) s = .next (stall u i)) ∧
          (tableLoading c tab = false →
            (tableFits c4 (tableState c tab) = true → quants (tableOfCore c tab).ents) ∧
            (tableFits c4 (tableState c tab) = false →
              exec (.accq h t a b e out) s = .next (trap u i 0x06 (BitVec.ofNat 64 (tab.val + 256 * (tableState c tab).code)))))
        match out with
        | .c8 tab => table false tab
        | .c4 tab => table true tab
        | _ => quants []))) ∧
  (∀ (s : State) (o : Out) (op : AccOp),
    let i := s.arg.core
    let c := s.core i
    let elem := fun (c : CoreSt) (t e : Nat) =>
      match mget? c.mtx.tiles t with
      | some x => if x.owner = some o.owner then x.elems.getD e 0 else 0
      | none => 0
    findOut c s.arg.id = some o → o.op = .acc op →
    (matrixBefore c o = true → exec .coprocessorCompletion s = .next s) ∧
    (matrixBefore c o = false → MemOk s →
    let due := ((flushDue s i).core i).regs
    let ends := fun (u : State) (regs : Regs) (changed : Nat → Prop) => exec .coprocessorCompletion s = .next u ∧ SameCores s u i ∧
      findOut (u.core i) o.id = none ∧ (o.tag ≠ 0 → tagOf (u.core i) o.tag = .done) ∧ Reread regs (u.core i).regs ∧
      (∀ t, ¬ changed t → mget? (u.core i).mtx.tiles t = mget? c.mtx.tiles t)
    let row := fun (off st r : Nat) => tcmBase i + off + r * st
    let clean := fun (t : Nat) => (ownTile c t o.owner).poison = []
    (∀ t n, op = .zero t n → ∃ u, ends u c.regs (fun k => t ≤ k ∧ k < t + n) ∧ SameMem s u ∧
      ∀ k, t ≤ k → k < t + n → (tileOf (u.core i) k).owner = some o.owner ∧ ∀ e, elem (u.core i) k e = 0) ∧
    (∀ t off st, op = .load t off st →
      ((∃ r, r < 16 ∧ blockedRead s (row off st r) 64 ≠ none) → exec .coprocessorCompletion s = .next s) ∧
      ((∀ r, r < 16 → blockedRead s (row off st r) 64 = none ∧ poisonCode s (row off st r) 64 = none) →
        ∃ u, ends u c.regs (fun k => k = t) ∧ SameMem s u ∧
          ∀ e, e < 256 → elem (u.core i) t e = BitVec.ofNat 32 (readNat s.mem (row off st (e / 16) + 4 * (e % 16)) 4))) ∧
    (∀ t off st, op = .store t off st → 64 ≤ st → clean t →
      ∃ u, ends u c.regs (fun k => k = t) ∧ (∀ e, elem (u.core i) t e = elem c t e) ∧
        (∀ a, (∀ r, r < 16 → a < row off st r ∨ row off st r + 64 ≤ a) → readByte u.mem a = readByte s.mem a) ∧
        ∀ e, e < 256 → readNat u.mem (row off st (e / 16) + 4 * (e % 16)) 4 = (elem c t e).toNat) ∧
    (∀ t off st out factor ents, op = .quant t off st out factor ents → AccqOut.rowLen out ≤ st → clean t →
      ∃ (u : State) (v : Nat → Nat) (fl : Nat → Flags) (all : Flags),
        ends u { due with fpstat := due.fpstat ||| all, landed := (u.core i).regs.landed } (fun k => k = t) ∧
        (∀ e, elem (u.core i) t e = elem c t e) ∧ FlagsAre 256 (fun _ => true) fl all ∧
        (∀ a, (∀ r, r < 16 → a < row off st r ∨ row off st r + AccqOut.rowLen out ≤ a) → readByte u.mem a = readByte s.mem a) ∧
        ∀ e, e < 256 → Quantised out ents factor (elem c t e) (v e) (fl e) ∧
          let bits := match out with
            | .c8 _ => 8
            | .c4 _ => 4
            | _ => 16
          let n := readNat u.mem (row off st (e / 16)) (AccqOut.rowLen out)
          n / 2 ^ (bits * (e % 16)) % 2 ^ bits = v e % 2 ^ bits) ∧
    (∀ t d part lanes, op = .toVec t d part lanes → clean t → ∃ (u : State) (ls : List (Option Lane)),
      ends u (due.write (.v d ls)) (fun k => k = t) ∧
      (∀ e, elem (u.core i) t e = elem c t e) ∧ ls.length = lanes ∧ SameMem s u ∧
      ∀ l, l < lanes → ls[l]? = some (some (elem c t (part * lanes + l)))) ∧
    (∀ t ls part, op = .fromVec t ls part → ∃ u, ends u c.regs (fun k => k = t) ∧ SameMem s u ∧ ∀ e, e < 256 →
      elem (u.core i) t e = if part * ls.length ≤ e ∧ e < part * ls.length + ls.length then ls.getD (e - part * ls.length) 0
        else elem c t e)))

/-- R172 to R183 and R189.
The model's own choices in it: log entries 30 and 31. -/
def Obligations.MatrixGangs : Prop :=
  (∀ (h : Hdr) (f : Firing) (s : State) (x y : MFmt) (g : GangArg) (aOff bOff : Nat), ready .e h f s = true →
    let i := s.cur
    let c := issuer s
    let pair := 4 * x.code + y.code
    let n := GangN.toNat g.n
    let loc := fun (r : GReg) => decodeAddr i (wf (gread c r) 0 56)
    let tcm := fun (r : GReg) (off : Nat) => loc r = some (.tcm i off) ∧ wf (gread c r) 56 8 = 0 ∧ (gread c r).toNat % 64 = 0
    let ofTable := fun (m : MFmt) (P : Bool → Prop) =>
      match m with
      | .c8 => P false
      | .c4 => P true
      | _ => True
    let fits := fun (m : MFmt) (k : Fin 2) => ofTable m fun c4 => tableLoading c k = false ∧ tableFits c4 (tableState c k) = true
    let misfits := fun (m : MFmt) (k : Fin 2) => (m = .c8 ∨ m = .c4) ∧ ofTable m fun c4 =>
      tableLoading c k = false ∧ tableFits c4 (tableState c k) = false
    let traps := fun (v : State) (instr : Instr) (cause : Nat) (val : Word) => exec instr s = .next (trap v i cause val)
    let table := fun (v : State) (instr : Instr) =>
      let at_ := fun (k : Fin 2) => traps v instr 0x06 (BitVec.ofNat 64 (k.val + 256 * (tableState c k).code))
      (misfits x 0 → at_ 0) ∧ (fits x 0 → misfits y 1 → at_ 1)
    let goes := fun (v : State) (instr : Instr) (fn : Nat) (rowmap : BitVec 32) => ∃ D : GangData,
      exec instr s = dispatched h f s v (.out (.gang fn pair g.t.val n (i - i % 64 % n) g.east D none false) .mma false false) ∧
      D.aOff = aOff ∧ D.bOff = bOff ∧ D.rowmap = rowmap ∧ D.panel = [] ∧ D.dtA = (tableOfCore c 0).ents ∧
      D.dtB = (tableOfCore c 1).ents ∧ D.rowScales.length = 16 ∧ ∀ k, k < 16 → D.rowScales.getD k 0 =
        if g.c = 0 then 0x3F80 else BitVec.ofNat 16 (wf (greadN c (g.c.val + k / 4)) (16 * (k % 4)) 16)
    let operand := fun (v : State) (instr : Instr) (r : GReg) =>
      let ea := gread c r
      (ea.toNat % 64 ≠ 0 → traps v instr 0x05 ea) ∧
      (ea.toNat % 64 = 0 →
        (loc r = none → traps v instr 0x0E ea) ∧
        (∀ l, loc r = some l → (∀ x, l ≠ .paged x) → (∀ x y, l ≠ .aperture x y) → wf ea 56 8 ≠ 0 → traps v instr 0x0F ea) ∧
        PagedOperandTraps s v f.owner ea instr ∧
        (∀ l, loc r = some l → (∀ x, l ≠ .paged x) → (wf ea 56 8 = 0 ∨ ∃ x y, l = .aperture x y) → (∀ o, l ≠ .tcm i o) →
          traps v instr 0x0A ea))
    -- then the owner's right to read the operand's bytes
    let lacks := fun (v : State) (instr : Instr) (r : GReg) (off len : Nat) =>
      ∀ u cause, checkSpans v i 0 (halfSpans (gread c r) off len) = .error (.bad u cause) → traps u instr cause (gread c r)
    let holds := fun (v : State) (r : GReg) (off len : Nat) (u : State) => checkSpans v i 0 (halfSpans (gread c r) off len) = .ok u
    let mma := Instr.mma h x y g
    let snz := Instr.snz h x y g
    f.handler = false → matrixFull c = false → c.mtx.gangFault = none →
    operand (begun s) mma g.a ∧ operand (begun s) snz g.a ∧
    (tcm g.a aOff →
      (2 ^ 17 < aOff + aBytes false pair → traps (begun s) mma 0x0A (gread c g.a)) ∧
      (2 ^ 17 < aOff + aBytes true pair → traps (begun s) snz 0x0A (gread c g.a)) ∧
      (aOff + aBytes false pair ≤ 2 ^ 17 → lacks (begun s) mma g.a aOff (aBytes false pair) ∧
        ∀ v, holds (begun s) g.a aOff (aBytes false pair) v → operand v mma g.b ∧
          (tcm g.b bOff →
            (2 ^ 17 < bOff + bBytes false pair 0 → traps v mma 0x0A (gread c g.b)) ∧
            (bOff + bBytes false pair 0 ≤ 2 ^ 17 → lacks v mma g.b bOff (bBytes false pair 0) ∧
              ∀ w, holds v g.b bOff (bBytes false pair 0) w → table w mma ∧ (fits x 0 → fits y 1 → goes w mma pair 0)))) ∧
      (aOff + aBytes true pair ≤ 2 ^ 17 → lacks (begun s) snz g.a aOff (aBytes true pair) ∧
        ∀ v, holds (begun s) g.a aOff (aBytes true pair) v → operand v snz g.b ∧
        (tcm g.b bOff → bOff + 64 ≤ 2 ^ 17 → lacks v snz g.b bOff 64 ∧ ∀ w, holds v g.b bOff 64 w →
          let b := tcmBase i + bOff
          let rowmap := BitVec.ofNat 32 (readNat s.mem b 4)
          (memBefore c c.iss.opCount = true ∨ accBefore c c.iss.opCount = true ∨ matrixOverlap c bOff 64 = true →
            exec snz s = .next (stall w i)) ∧
          (memBefore c c.iss.opCount = false → accBefore c c.iss.opCount = false → matrixOverlap c bOff 64 = false → blockedRead w b 64 = none →
            poisonCode w b 64 = none → (∀ k x, c.cache.wmWait ≠ some (k, some x)) →
            let v := w.onCache i fun k => { k with wmWait := none }
            ((∃ k, 4 ≤ k ∧ k < 64 ∧ readByte s.mem (b + k) ≠ 0) ∨ 2 ^ 17 < bOff + bBytes true pair rowmap →
              traps v snz 0x0A (gread c g.b)) ∧
            ((∀ k, 4 ≤ k → k < 64 → readByte s.mem (b + k) = 0) → bOff + bBytes true pair rowmap ≤ 2 ^ 17 →
              lacks v snz g.b bOff (bBytes true pair rowmap) ∧ ∀ w, holds v g.b bOff (bBytes true pair rowmap) w →
                table w snz ∧ (fits x 0 → fits y 1 → goes w snz snzFn rowmap))))))) ∧
  (∀ (s : State) (o : Out) (fn pair t n x0 : Nat) (east : Bool) (d : GangData),
    let i := s.arg.core
    nextGang (s.core i) = some o → o.op = .gang fn pair t n x0 east d none false → findOut (s.core i) o.id = some o →
    d.panel = [] → (∀ a ∈ s.arrivals, a.core ≠ i ∧ a.expired s.now = false) →
    let waits := tcmBefore (s.core i) o = true ∨ ∃ m ∈ pendingSpans o, blockedRead s (tcmBase i + m.1) m.2 ≠ none
    let before := s.arrivals.filter fun a => a.x0 == x0 && a.n == n
    let like := fun (a : Arrival) => a.fn = fn ∧ a.pair = pair ∧ a.east = east ∧ a.owner = o.owner
    let late := n ≤ before.length + 1 ∧ ¬ waits ∧ ∀ a ∈ before, ∀ D, gangDataOf s a = some D → D.panel ≠ []
    -- what the member has read, if it has
    let reads := fun (D : GangData) =>
      let b := tcmBase i + d.bOff
      let len := bBytes (fn == snzFn) pair d.rowmap
      let head := if fn = snzFn then 64 else 0
      (waits → D = d) ∧
      (¬ waits → D.panel = readBytes s.mem (tcmBase i + d.aOff) (aBytes (fn == snzFn) pair) ∧
        D.tile = readBytes s.mem (b + head) (len - head - 32) ∧ D.rowScales = d.rowScales ∧ D.rowmap = d.rowmap ∧
        D.dtA = d.dtA ∧ D.dtB = d.dtB ∧ D.scales.length = 16 ∧
        ∀ k, k < 16 → D.scales.getD k 0 = BitVec.ofNat 16 (readNat s.mem (b + len - 32 + 2 * k) 2))
    (¬ late → ∃ u, exec .rowBarrierArrival s = .next u ∧ u.homes = s.homes ∧ u.gangs = s.gangs ∧ SameCores s u i ∧
      (∃ a, u.arrivals = s.arrivals ++ [a] ∧ a.core = i ∧ a.id = o.id ∧ a.x0 = x0 ∧ a.n = n ∧ like a ∧ a.at_ = s.now) ∧
      ∃ o' d', findOut (u.core i) o.id = some o' ∧ o'.op = .gang fn pair t n x0 east d' (some s.now) false ∧ reads d') ∧
    (late → (∀ a ∈ before, like a) → ∃ u g, exec .rowBarrierArrival s = .next u ∧ u.homes = s.homes ∧ u.gangs = s.gangs ++ [g] ∧
      u.arrivals = s.arrivals.filter (fun a => !(a.x0 == x0 && a.n == n)) ∧ g.x0 = x0 ∧ g.n = n ∧ g.east = east ∧
      g.pair = pair ∧ g.snz = (fn == snzFn) ∧ g.step = 0 ∧ g.failed = [] ∧ g.bad = [] ∧ g.flags = [] ∧ s.now < g.stepEnd ∧
      (x0 ≤ i → i < x0 + n → ∃ D, (i, o.id, D) ∈ g.members ∧ reads D) ∧
      ∀ a D, before.find? (·.core == a.core) = some a → x0 ≤ a.core → a.core < x0 + n → gangDataOf s a = some D →
        (a.core, a.id, D) ∈ g.members) ∧
    (late → (∃ a ∈ before, ¬ like a) → ∃ u, exec .rowBarrierArrival s = .next u ∧ u.gangs = s.gangs ∧
      (∀ a ∈ u.arrivals, ¬ (a.x0 = x0 ∧ a.n = n)) ∧
      let val := BitVec.ofNat 64 (n * 2 ^ 16 + colOf x0 * 2 ^ 8 + 1)
      (∀ a ∈ before, (u.core a.core).mtx.gangFault = some val ∧ findOut (u.core a.core) a.id = none) ∧
      (u.core i).mtx.gangFault = some val ∧ findOut (u.core i) o.id = none ∧
      (o.tag ≠ 0 → (s.core i).firing.map (·.num) = some o.firing → ∃ lf, tagOf (u.core i) o.tag = .faulted lf ∧
        lf.cause = 0x0B ∧ lf.val = val))) ∧
  (∀ (s : State) (a : Arrival), s.arrivals.find? (fun x => x.core == s.arg.core && x.expired s.now) = some a →
    ∃ u, exec .gangWithdrawal s = .next u ∧ (∀ x ∈ u.arrivals, x.core ≠ a.core) ∧ SameCores s u a.core ∧
      (u.core a.core).mtx.gangFault = some (BitVec.ofNat 64 (a.n * 2 ^ 16 + colOf a.x0 * 2 ^ 8)) ∧
      findOut (u.core a.core) a.id = none ∧ (u.core a.core).mtx.tiles = (s.core a.core).mtx.tiles ∧
      ∀ o, findOut (s.core a.core) a.id = some o → (s.core a.core).firing.map (·.num) = some o.firing →
        u.homes = s.homes ∧ (o.tag ≠ 0 → ∃ lf, tagOf (u.core a.core) o.tag = .faulted lf ∧ lf.cause = 0x0B ∧
          lf.val = BitVec.ofNat 64 (a.n * 2 ^ 16 + colOf a.x0 * 2 ^ 8))) ∧
  (∀ (s : State) (g : Gang), s.gangs.find? (fun x => x.x0 == s.arg.core && x.n == s.arg.id) = some g →
    (s.now < g.stepEnd ∨ tilesWait s g = true → exec .mmaStepEnd s = .next s) ∧
    (g.stepEnd ≤ s.now → tilesWait s g = false → g.members.length = g.n →
    (∀ k m, g.members[k]? = some m → m.1 = g.x0 + k ∧ m.1 ∉ s.rcv.fences.cores ∧ tusOf m.1 ∉ s.rcv.fences.tussocks ∧
      (s.core m.1).traps.abort = none) →
    ∃ u, exec .mmaStepEnd s = .next u ∧
      (g.step + 1 = g.n → u.gangs = dropFirst (fun x => x.x0 == g.x0 && x.n == g.n) s.gangs) ∧
      ∀ (k j : Nat) (m b : Nat × Nat × GangData) (o : Out) (fn p t n x0 : Nat) (east : Bool) (D : GangData) (arr : Option Nat)
          (joined : Bool), k < g.n → g.members[k]? = some m → j < g.n →
        j = (if g.east then (k + g.n - g.step) % g.n else (k + g.step) % g.n) → g.members[j]? = some b →
        findOut (s.core (g.x0 + k)) m.2.1 = some o → o.op = .gang fn p t n x0 east D arr joined →
        (g.x0 + k) ∉ g.failed → m.2.2.poisonPanel = none → b.2.2.poisonTile = none → (g.x0 + j) ∉ g.bad →
        (ownTile (s.core (g.x0 + k)) (t + j) o.owner).poison = [] →
        let K := pairK g.snz g.pair
        let rows := if g.snz then (List.range 32).filter b.2.2.rowmap.getLsbD else List.range K
        ∃ (r : Nat → Nat) (fl : Nat → Flags) (new : Flags), FlagsAre 256 (fun _ => true) fl new ∧
        (∀ q, q ≠ t + j → mget? (u.core (g.x0 + k)).mtx.tiles q = mget? (s.core (g.x0 + k)).mtx.tiles q) ∧
        (∀ e, e < 256 → (ownTile (u.core (g.x0 + k)) (t + j) o.owner).elems.getD e 0 = BitVec.ofNat 32 (r e) ∧
          BlockIs ((ownTile (s.core (g.x0 + k)) (t + j) o.owner).elems.getD e 0).toNat
            (unpack fmtB16 (m.2.2.rowScales.getD (e / 16) 0x3F80).toNat) (unpack fmtB16 (b.2.2.scales.getD (e % 16) 0).toNat)
            ((rows.zipIdx).map fun r =>
              (matElem (g.pair / 4) m.2.2.dtA m.2.2.panel (e / 16 * K + r.1),
                matElem (g.pair % 4) m.2.2.dtB b.2.2.tile (16 * r.2 + e % 16))) (r e) (fl e)) ∧
        let all := new ||| (mget? g.flags (g.x0 + k)).getD 0
        (g.step + 1 ≠ g.n → ∃ g', g' ∈ u.gangs ∧ g'.x0 = g.x0 ∧ g'.n = g.n ∧ g'.members = g.members ∧ g'.step = g.step + 1 ∧
          s.now < g'.stepEnd ∧ mget? g'.flags (g.x0 + k) = some all) ∧
        (g.step + 1 = g.n → findOut (u.core (g.x0 + k)) o.id = none ∧ (o.tag ≠ 0 → tagOf (u.core (g.x0 + k)) o.tag = .done) ∧
          let due := ((flushDue s (g.x0 + k)).core (g.x0 + k)).regs
          Reread { due with fpstat := due.fpstat ||| all, landed := (u.core (g.x0 + k)).regs.landed } (u.core (g.x0 + k)).regs))) ∧
  (∀ (h : Hdr) (f : Firing) (s u w : State) (d a : GReg) (k : Fin 2), ready .l h f s = true →
    let i := s.cur
    let c := issuer s
    let ea := gread c a
    let calm := fun (x : State) => ∀ k y, (x.core i).cache.wmWait ≠ some (k, some y)
    let clear := fun (x : State) => x.onCache i fun k => { k with wmWait := none }
    let hd := blockNow (clear u) i ea
    let kind := (hd.headD 0).toNat
    let blocks := if kind = 0 then 16 else if kind = 1 then 1 else 0
    let v := touchBlocks (clear w) i ea (blocks + 1)
    let word := fun (e : Nat) => ofLe (((blockNow v i (ea + 64 + BitVec.ofNat 64 (64 * (e / 16)))).drop (4 * (e % 16))).take 4)
    let vals := ((List.range (16 * blocks)).filter fun e => !(word e).testBit 19).map fun e => word e % 2 ^ 19
    let nums := vals.filter fun x => !(unpack fmt19 x).isNan
    let status := if 1 < kind ∨ (∃ x ∈ hd.drop 1, x ≠ 0) then 1
      else if ∃ e, e < 16 * blocks ∧ 2 ^ 20 ≤ word e then 2
      else if ¬ nums.Nodup then 3
      else if ∃ x ∈ vals, (unpack fmt19 x).isNan = false ∧ (unpack fmt19 x).isInf = false then 0
      else 4
    f.handler = false → matrixFull c = false → c.mtx.gangFault = none →
    (tableRead c k = true → exec (.dtload h d a k) s = .next (stall (begun s) i)) ∧
    (tableRead c k = false → ea.toNat % 64 ≠ 0 → exec (.dtload h d a k) s = .next (trap (begun s) i 0x05 ea)) ∧
    (tableRead c k = false → ea.toNat % 64 = 0 → checkRun (begun s) i ea 0 1 = .ok u →
      memBefore (u.core i) (u.core i).iss.opCount = false → calm u → runBusy (clear u) i ea 1 = false →
      runPoison (clear u) i ea 1 = none → checkRun (clear u) i (ea + 64) 0 blocks = .ok w → calm w →
      runBusy (clear w) i (ea + 64) blocks = false → runPoison (clear w) i (ea + 64) blocks = none →
      ∃ ents, exec (.dtload h d a k) s = dispatched h f s v (.out (.dtload k d status (kind == 1) ents) .load true false) ∧
        ents.length = 16 * blocks ∧ ∀ e, e < 16 * blocks → ents.getD e 0 = BitVec.ofNat 20 (word e))) ∧
  (∀ (s : State) (o : Out) (k : Fin 2) (d : GReg) (st : Nat) (c4 : Bool) (ents : List (BitVec 20)),
    let i := s.arg.core
    let due := ((flushDue s i).core i).regs
    (s.core i).iss.outs.find? (fun o => match o.op with
      | .dtload .. => true
      | _ => false) = some o → o.op = .dtload k d st c4 ents → findOut (s.core i) o.id = some o →
    ∃ u, exec .dtloadIndexBuilt s = .next u ∧ u.homes = s.homes ∧ SameCores s u i ∧
      Reread (due.write (gdest (s.core i) d (BitVec.ofNat 64 st))) (u.core i).regs ∧
      findOut (u.core i) o.id = none ∧ (o.tag ≠ 0 → tagOf (u.core i) o.tag = .done) ∧
      (st ≠ 0 → (u.core i).mtx = (s.core i).mtx) ∧
      (st = 0 → (∀ j, j ≠ k → tableOfCore (u.core i) j = tableOfCore (s.core i) j) ∧
        (ents = [] → tableOfCore (u.core i) k = .empty) ∧
        (ents ≠ [] → (tableOfCore (u.core i) k).ents = ents ∧ (tableOfCore (u.core i) k).owner = o.owner ∧
          (c4 = false → (tableOfCore (u.core i) k).st = .c8) ∧
          (c4 = true → (∀ x ∈ ents, Pairable x) → (tableOfCore (u.core i) k).st = .c4p) ∧
          (c4 = true → (∃ x ∈ ents, ¬ Pairable x) → (tableOfCore (u.core i) k).st = .c4))))

/-- R263, R264, R270, R271 and R273.
The model's own choices in it: log entries 17, 18, 33, 34 and 37. -/
def Obligations.CopyCommands : Prop :=
  (∀ (h : Hdr) (f : Firing) (s : State) (d a : GReg), ready .e h f s = true →
    let i := s.cur
    let c := issuer s
    let w := fun (k : Nat) => greadN c (a.val + k)
    let src := w 0
    let dst := w 1
    let w2 := w 2
    let aux := w 3
    let nt := wb w2 48
    let mc := wb w2 47
    let pat := wb w2 46
    let instr := Instr.cpyq h d a
    let answers := fun (u : State) (st : Nat) => exec instr s = retired h f s u (.written [gdest c d (BitVec.ofNat 64 st)])
    let aperture := fun (x : Word) => ∃ g o, decodeAddr i (wf x 0 56) = some (.aperture g o)
    let group := groupOf (begun s) aux.toNat
    let accepts := fun (u t : State) (C : Copy) => exec instr s = retired h f s t (.begun [gdest c d 0] (.copy [C.id] none) .engine) ∧
      t.homes = u.homes ∧ SameCores u t i ∧ Reread c.regs (t.core i).regs ∧ t.eng.copies = u.eng.copies ++ [C] ∧
      t.eng.locks = u.eng.locks ++ C.locks ∧ (t.core i).sched.fifo = (u.core i).sched.fifo ++ [C.id] ∧
      (∀ k, C.wm = some k → vget (t.core i).sched.wm .reset k.val = { busy := true, fault := false, fill := wf dst 0 56, owner := C.owner }) ∧
      (C.shapeDst = false → ∀ l ∈ C.locks, l.dst = true → ∀ y ∈ (t.core i).cache.l1,
        64 * y.line + 64 ≤ l.base ∨ l.base + l.len ≤ 64 * y.line) ∧
      (∀ sh, C.shape = some sh → C.shapeDst = true → ∀ n, n < sh.count → ∀ y ∈ (t.core i).cache.l1,
        let b := lockBase i (elemAddr dst sh n)
        64 * y.line + 64 ≤ b ∨ b + sh.esize ≤ 64 * y.line)
    let after := fun (u : State) (sh : Option Shape) (mis : Prop) =>
      let C : Copy := { id := u.eng.copyCount, core := i, out := c.iss.opCount, owner := f.owner, src, dst, shape := sh
                        len := match sh with
                          | some h => h.count * h.esize
                          | none => wf w2 0 32
                        shapeSrc := pat && !wb w2 45, shapeDst := pat && wb w2 45
                        mcast := (if mc then groupOf u aux.toNat else none).map fun g => groupCores g.words
                        mgroup := if mc then some aux.toNat else none
                        notify := if nt then some (wf w2 49 5, aux) else none
                        wm := if wb w2 44 then some (Fin.ofNat 16 (wf w2 40 4)) else none
                        halo := none, splice := none, done := 0, st := .queued }
      (mis → answers u 2) ∧
      (¬ mis →
        (aperture src ∨ (mc = false ∧ aperture dst) ∨ (mc = true ∧ ∃ g, groupOf u aux.toNat = some g ∧ groupType g.words = 2) →
          answers u 3) ∧
        (¬ aperture src → (mc = false → ¬ aperture dst) → (mc = true → ∀ g, groupOf u aux.toNat = some g → groupType g.words ≠ 2) →
          (C.verdict u ≠ 0 → answers u (C.verdict u)) ∧
          (C.verdict u = 0 →
            (locksClash u C.locks = true → answers u 4) ∧
            (locksClash u C.locks = false →
              (8 < (u.core i).sched.fifo.length + 1 ∨ locksFit u (dieOf i) C.locks = false → answers u 1) ∧
              ((u.core i).sched.fifo.length + 1 ≤ 8 → locksFit u (dieOf i) C.locks = true → ∃ t, accepts u t C)))))
    let malformed := wf w2 54 10 ≠ 0 ∨ wf w2 32 8 ≠ 0 ∨ (wb w2 45 = true ∧ pat = false) ∨ (wb w2 44 = false ∧ wf w2 40 4 ≠ 0) ∨
      (nt = true ∧ mc = true) ∨ (nt = true ∧ pat = true) ∨ (mc = true ∧ pat = true) ∨
      (nt = false ∧ mc = false ∧ pat = false ∧ aux ≠ 0) ∨ (pat = true ∧ wf w2 0 32 ≠ 0) ∨ (pat = false ∧ (wf w2 0 32 < 8 ∨ 2 ^ 32 - 8 < wf w2 0 32)) ∨
      (mc = true ∧ 131072 - 8 < dst.toNat) ∨
      (wb w2 44 = true ∧ (vget c.sched.wm .reset (wf w2 40 4)).busy = true) ∨
      (nt = true ∧ recvChannel (begun s) i (wf w2 49 5) = false) ∨
      (mc = true ∧ ∀ g, aux.toNat < 4096 → group = some g → g.owner ≠ f.owner)
    (malformed → answers (begun s) 7) ∧
    (¬ malformed → pat = false →
      after (begun s) none (src.toNat % 8 ≠ 0 ∨ dst.toNat % 8 ≠ 0 ∨ wf w2 0 32 % 8 ≠ 0)) ∧
    (¬ malformed → pat = true → aux.toNat % 64 ≠ 0 → answers (begun s) 2) ∧
    (¬ malformed → pat = true → aux.toNat % 64 = 0 →
      match readShape (begun s) i aux with
      | .wait u => exec instr s = .next (stall u i)
      | .malformed u => answers u 7
      | .ok u sh => after u (some sh)
          (src.toNat % sh.esize ≠ 0 ∨ dst.toNat % sh.esize ≠ 0 ∨ ∃ x ∈ sh.dims, x.2 % (sh.esize : Int) ≠ 0)
      | .fault u => (aperture src ∨ aperture dst → answers u 3) ∧ (¬ aperture src → ¬ aperture dst → answers u 6))) ∧
  (∀ (h : Hdr) (f : Firing) (s u : State) (d a : GReg) (k : Fin 16) (l : Loc) (p : Place), ready .e h f s = true →
    let i := s.cur
    let c := issuer s
    let slot := vget c.sched.wm .reset k.val
    (∃ v : Word, exec (.wmrd h d k) s = retired h f s (begun s) (.written [gdest c d v]) ∧
      (slot.owner ≠ f.owner → v = 0) ∧
      (slot.owner = f.owner → wb v 63 = slot.busy ∧ wb v 62 = slot.fault ∧ wf v 56 6 = 0 ∧ wf v 0 56 = slot.fill % 2 ^ 56)) ∧
    (checkAccess (begun s) i (gread c a) 1 1 0 = .ok u l p →
      let held := fun (dst : Bool) => decide (∃ l ∈ u.eng.locks, l.dst = dst ∧ l.base ≤ p.lockKey ∧ p.lockKey < l.base + l.len)
      exec (.lkrd h d a) s = retired h f s u
        (.written [gdest c d (BitVec.ofNat 64 ((if held false then 1 else 0) + (if held true then 2 else 0)))])) ∧
    (∀ u cause, checkAccess (begun s) i (gread c a) 1 1 0 = .bad u cause →
      exec (.lkrd h d a) s = .next (trap u i cause (gread c a)))) ∧
  (∀ (h : Hdr) (f : Firing) (s : State) (d a : GReg), ready .e h f s = true →
    let i := s.cur
    let c := issuer s
    let answers := fun (u : State) (st : Nat) => exec (.halo h d a) s = retired h f s u (.written [gdest c d (BitVec.ofNat 64 st)])
    (ownRecOff i (gread c a) 64 64 = none → answers (begun s) 7) ∧
    (∀ off, ownRecOff i (gread c a) 64 64 = some off →
      let r := tcmBase i + off
      let w := fun (k : Nat) => readWord s.mem (r + 8 * k)
      let on := (List.range 4).filter fun k => wb (w k) 53
      let part := fun (k lo len : Nat) => wf (w k) lo len
      let shp := fun (k : Nat) => wb (w k) 52
      let bad := on = [] ∨ (∃ k, k < 4 ∧ part k 54 10 ≠ 0) ∨ (∃ k, 5 ≤ k ∧ k < 8 ∧ w k ≠ 0) ∨
        ∃ k ∈ on, if shp k then part k 34 18 ≠ 0 else part k 34 18 < 8 ∨ 131072 < part k 34 18
      let after := fun (u : State) (sh : Option Shape) =>
        let mis := ∃ k ∈ on,
          if shp k then
            ∃ h, sh = some h ∧ (part k 0 17 % h.esize ≠ 0 ∨ part k 17 17 % h.esize ≠ 0 ∨ ∃ x ∈ h.dims, x.2 % (h.esize : Int) ≠ 0)
          else part k 0 17 % 8 ≠ 0 ∨ part k 17 17 % 8 ≠ 0 ∨ part k 34 18 % 8 ≠ 0
        let cs := on.zipIdx.map fun x : Nat × Nat =>
          { Copy.blank u i with
            id := u.eng.copyCount + x.2, src := BitVec.ofNat 64 (tcmBase i + part x.1 0 17)
            dst := BitVec.ofNat 64 (tcmBase ((neighbour u i x.1).getD i) + part x.1 17 17)
            len := if shp x.1 then (match sh with
              | some h => h.count * h.esize
              | none => 0) else part x.1 34 18
            shape := if shp x.1 then sh else none, shapeSrc := shp x.1, shapeDst := shp x.1
            halo := (neighbour u i x.1).map fun j => (j, farSide x.1) }
        let locks := cs.flatMap (·.locks)
        (mis → answers u 2) ∧ (¬ mis → (∃ k ∈ on, neighbour u i k = none) → answers u 3) ∧
        (¬ mis → (∀ k ∈ on, neighbour u i k ≠ none) →
          ((∃ C ∈ cs, C.verdict u = 5) → answers u 5) ∧
          ((∀ C ∈ cs, C.verdict u ≠ 5) → (∃ C ∈ cs, C.verdict u = 6) → answers u 6) ∧
          ((∀ C ∈ cs, C.verdict u = 0) →
            (locksClash u locks = true → answers u 4) ∧
            (locksClash u locks = false →
              (8 < (u.core i).sched.fifo.length + cs.length ∨ locksFit u (dieOf i) locks = false → answers u 1) ∧
              ((u.core i).sched.fifo.length + cs.length ≤ 8 → locksFit u (dieOf i) locks = true → ∃ t,
                exec (.halo h d a) s = retired h f s t (.begun [gdest c d 0] (.copy (cs.map (·.id)) none) .engine) ∧
                t.homes = u.homes ∧ SameCores u t i ∧ Reread c.regs (t.core i).regs ∧ t.eng.copies = u.eng.copies ++ cs ∧
                (t.core i).sched.fifo = (u.core i).sched.fifo ++ cs.map (·.id) ∧ t.eng.locks = u.eng.locks ++ locks))))
      (∀ v cause, checkAt (begun s) i (gread c a) 64 0 = .bad v cause → exec (.halo h d a) s = .next (trap v i cause (gread c a))) ∧
      (∀ v l p, checkAt (begun s) i (gread c a) 64 0 = .ok v l p → unperfOverlap c r 64 = false → matrixOverlap c off 64 = false →
        blockedRead v r 64 = none → poisonCode v r 64 = none →
        (bad → answers v 7) ∧
        (¬ bad → (∀ k ∈ on, shp k = false) → after v none) ∧
        (¬ bad → (∃ k ∈ on, shp k = true) →
          ((w 4).toNat % 64 ≠ 0 → answers v 2) ∧
          ((w 4).toNat % 64 = 0 →
            match readShape v i (w 4) with
            | .wait u => exec (.halo h d a) s = .next (stall u i)
            | .malformed u => answers u 7
            | .fault u => ∃ st, (st = 2 ∨ st = 3 ∨ st = 5 ∨ st = 6) ∧ answers u st
            | .ok u sh => after u (some sh))))))

/-- R265 to R270.
The model's own choices in it: log entries 35 and 36. -/
def Obligations.CopiesRun : Prop :=
  (∀ (s : State) (c : Copy) (rest : List Nat),
    let i := s.arg.core
    let k := s.arg.id
    (s.core i).sched.fifo = c.id :: rest → copyOf s c.id = some c → c.st = .queued →
    (sluiceBusy s (dieOf i) k = true → exec .sluiceTakeCommand s = .next s) ∧
    (sluiceBusy s (dieOf i) k = false → dieOf i = s.arg.unit → dieOn s (dieOf i) = true → k < 16 → 16 * dieOf i + k ∉ s.rcv.fences.sluices →
      ∃ t, exec .sluiceTakeCommand s = .next t ∧ t.homes = s.homes ∧ (t.core i).sched.fifo = rest ∧
        copyOf t c.id = some { c with st := .running k })) ∧
  (∀ (s : State) (c : Copy) (k : Nat), copyOf s s.arg.id = some c → c.st = .running k →
    let g : Agent := { unit := 16 * dieOf c.core + k, owner := c.owner, die := dieOf c.core, core := some c.core }
    let n := c.piece
    let units := (c.done + n + 63) / 64 - (c.done + 63) / 64
    let grant := granted s (dieOf c.core) 1 c.owner units
    (storesBefore (s.core c.core) c.out = true ∨ grant = false → exec .copySegment s = .next s) ∧
    (c.done < c.len → storesBefore (s.core c.core) c.out = false → grant = true →
      (∀ u sub, engineCheck s g c.srcAt n 0 = (u, .error sub) →
        exec .copySegment s = .next (setCopy u { c with st := .stopped (BitVec.ofNat 64 (sub % 256 * 2 ^ 56 + wf (W (lockBase c.core c.srcAt)) 0 56)) })) ∧
      (∀ u l p, engineCheck s g c.srcAt n 0 = (u, .ok (l, p)) →
        (∀ v sub ea, dstPlaces u g c n c.dsts = (v, .error (sub, ea)) →
          exec .copySegment s = .next (setCopy v { c with st := .stopped (BitVec.ofNat 64 (sub % 256 * 2 ^ 56 + wf (W (lockBase c.core ea)) 0 56)) })) ∧
        (∀ v ps, dstPlaces u g c n c.dsts = (v, .ok ps) → MemOk v → placeBusy v p = false → blockedRead v p.lockKey n = none →
          (∀ q ∈ ps, placeBusy v q = false ∧ migrationLocked q = false) → poisonCode v p.addr n = none →
          ∃ t, exec .copySegment s = .next t ∧ copyOf t c.id = some { c with done := c.done + n } ∧ t.eng.locks = v.eng.locks ∧
            let read := touchLines v p n (v.classOf c.owner)
            (∀ b, ps = [.array b] → SameMemBut read t b n) ∧
            (∀ x, (∀ q ∈ ps, x / 64 < q.addr / 64 ∨ (q.addr + n - 1) / 64 < x / 64) → readByte t.mem x = readByte read.mem x) ∧
            ∀ (k j : Nat) (q : Place), ps[k]? = some q → j < n →
              (∀ k' q', k < k' → ps[k']? = some q' →
                (q.addr + n - 1) / 64 < q'.addr / 64 ∨ (q'.addr + n - 1) / 64 < q.addr / 64) →
              readByte t.mem (q.addr + j) = (placeBytes v p n).getD j 0)))) ∧
  (∀ (s : State) (c : Copy), copyOf s s.arg.id = some c → c.splice = none →
    let gone := fun (t : State) => exec .copyComplete s = .next t ∧ (∀ x ∈ t.eng.copies, x.id ≠ c.id) ∧
      (∀ l ∈ t.eng.locks, l.copy ≠ c.id)
    let notified := fun (t : State) (val : Word) => ∀ ch w0, c.notify = some (ch, w0) →
      ∃ e ∈ (t.core c.core).sched.edges, e.ch = ch ∧ e.kind = .notify ∧ e.owner = c.owner ∧
        e.item = .data [w0, c.src, val, c.dst, BitVec.ofNat 64 c.len,
          BitVec.ofNat 64 (modY c.core * 2 ^ 24 + modX c.core * 2 ^ 16 + s.ownMod), 0, 0] none
    let slot := fun (t : State) (fault : Bool) => ∀ k, c.wm = some k →
      (vget (t.core c.core).sched.wm .reset k.val).busy = false ∧ (vget (t.core c.core).sched.wm .reset k.val).fault = fault
    (∀ k, c.st = .running k → c.done < c.len → exec .copyComplete s = .next s) ∧
    (∀ k, c.st = .running k → c.len ≤ c.done → ∃ t, gone t ∧ notified t 0 ∧ slot t false ∧
      (∀ j side, c.halo = some (j, side) → (t.core j).sched.mboxIn = (s.core j).sched.mboxIn ++ [side]) ∧
      ∀ o f, findOut (s.core c.core) c.out = some o → (s.core c.core).firing = some f → f.num = o.firing →
        Reread { (s.core c.core).regs with wsig := c.dstLines.foldl sigAdd (s.core c.core).regs.wsig } (t.core c.core).regs ∧
        (o.op = .copy [c.id] none → t.homes = s.homes ∧ findOut (t.core c.core) c.out = none ∧
          (o.tag ≠ 0 → tagOf (t.core c.core) o.tag = .done))) ∧
    (∀ v, c.st = .stopped v → ∃ t, gone t ∧ notified t v ∧ slot t true ∧
      ∀ o f, findOut (s.core c.core) c.out = some o → (∀ x ∈ (s.core c.core).iss.outs, x.id = o.id → x = o) → o.op = .copy [c.id] none →
        (s.core c.core).firing = some f → f.num = o.firing → findOut (t.core c.core) c.out = none ∧
        (o.tag ≠ 0 → ∃ lf, tagOf (t.core c.core) o.tag = .faulted lf ∧ lf.cause = 0x0D ∧ lf.val = v))) ∧
  (∀ (s : State) (o : Out) (k : Nat) (p : Place) (ea : Word) (dst : LoadDst) (na : Bool),
    let i := s.arg.core
    findOut (s.core i) s.arg.id = some o →
    (∀ v, o.op = .watermark k (some v) p ea dst na → exec .watermarkReadRelease s = .next (s.failOut i o.id 0x0D v)) ∧
    (o.op = .watermark k none p ea dst na →
      let n := if dst.pair then 16 else dst.bytes
      (blockedRead s p.lockKey n ≠ none → exec .watermarkReadRelease s = .next s) ∧
      let due := ((flushDue s i).core i).regs
      (loadWaits s i o p n = true → exec .watermarkReadRelease s = .next s) ∧
      (blockedRead s p.lockKey n = none → loadWaits s i o p n = false → unperfOverlap (s.core i) p.addr n = false →
        (match copyAt s i p with
          | some l => l1Poison l p.lockKey n = none
          | none => poisonCode s p.addr n = none) →
        ∃ t, exec .watermarkReadRelease s = .next t ∧ SameCores s t i ∧
        (let bs := match copyAt s i p with
          | some l => (l.data.drop (p.lockKey % 64)).take n
          | none => placeBytes s p n
         Reread (due.writeAll (loadWrites dst bs)) (t.core i).regs) ∧
        findOut (t.core i) o.id = none ∧ (o.tag ≠ 0 → tagOf (t.core i) o.tag = .done))))

/-- R283 to R290.
The model's own choices in it: log entries 18 (the right to read the record), 39, 41, 45 (the die that serves a request) and 47. -/
def Obligations.RemoteOperations : Prop :=
  (∀ (h : Hdr) (f : Firing) (s : State) (d a b c : GReg) (op : AmoOp) (w32 : Bool) (sz : Size), ready .e h f s = true →
    let i := s.cur
    let k := issuer s
    let ea := gread k a
    let m := wf (gread k b) 0 14
    let low := fun (n : Nat) => BitVec.ofNat 64 ((gread k c).toNat % 2 ^ (8 * n))
    let wn := if w32 then 4 else 8
    let goes := fun (instr : Instr) (kind : RemoteKind) (pk n size opc : Nat) (w32 : Bool) (val : Word) (dst : Option LoadDst) =>
      (ea.toNat % n ≠ 0 → exec instr s = .next (trap (begun s) i 0x05 ea)) ∧
      (ea.toNat % n = 0 → 32 ≤ k.cache.injq → exec instr s = .next (stall (begun s) i)) ∧
      (ea.toNat % n = 0 → k.cache.injq < 32 → ∃ (u : State) (p : Packet) (r : RemoteOp),
        exec instr s = retired h f s (sendReq u p (some i)) (.out (.remote r) .remote dst.isSome false) ∧
        (kind = .rld → u = begun s) ∧
        (kind ≠ .rld → u = match decodeAddr i (wf ea 0 56) with
          | some (.paged va) => addWsig (begun s) i va
          | _ => begun s) ∧
        p.kind = pk ∧ p.dstMod = m ∧ p.srcMod = s.ownMod ∧ p.sx = modX i ∧ p.sy = modY i ∧ p.owner = f.owner ∧
        p.world = s.worldOf f.owner ∧ p.xid = k.iss.opCount % 2 ^ 31 ∧ p.addr = ea ∧ p.len = n ∧ p.size = size ∧ p.op = opc ∧ p.w32 = w32 ∧
        p.val = val ∧ r.kind = kind ∧ r.dst = dst ∧ r.left = 1 ∧ r.vals = [] ∧ r.faults = [] ∧ r.members = [(m, ea)] ∧
        r.group = none)
    goes (.rld h d a b sz) .rld 1 (Size.bytes sz) (Machine.Size.code sz) 0 false 0
      (some { d := gdest k d 0, bytes := Size.bytes sz, signed := Size.signed sz, pair := false }) ∧
    goes (.rst h a b c sz) .rst 3 (Size.bytes sz) (Machine.Size.code sz) 0 false (low (Size.bytes sz)) none ∧
    goes (.ramo h d a b c op w32) .ramo 5 wn 0 (Machine.AmoOp.code op) w32 (low wn)
      (some { d := gdest k d 0, bytes := wn, signed := false, pair := false })) ∧
  (∀ (s : State) (p : Packet) (core : Option Nat),
    let refused := fun (sub : Nat) => (sendReq s p core).eng.net = s.eng.net ++
      [{ answer s p (answerKind p.kind) with sub := sub, srcMod := p.dstMod, dstMod := p.srcMod }]
    (onRoster s p.world p.dstMod = false → refused 8) ∧
    (onRoster s p.world p.dstMod = true →
      (p.dstMod = s.ownMod → ∃ die, (sendReq s p core).eng.net = s.eng.net ++ [{ p with die := die }] ∧
        (p.srcMod = s.ownMod → p.kind ≠ 10 → die = dieOf (coreAt p.sx p.sy))) ∧
      (p.dstMod ≠ s.ownMod → routePorts s p.dstMod = [] → refused 10) ∧
      (p.dstMod ≠ s.ownMod → routePorts s p.dstMod ≠ [] → (sendReq s p core).eng.net = s.eng.net ∧
        ∃ k ∈ routePorts s p.dstMod, (portOf (sendReq s p core) k).txq = (portOf s k).txq ++ [(p, core)] ∧
          ∀ i, core = some i → ((sendReq s p core).core i).cache.injq = (s.core i).cache.injq + 1))) ∧
  (∀ (s t u : State) (ev : Instr) (p : Packet) (kind need : Nat),
    (ev, kind, need) ∈ [(Instr.rldq, 1, 0), (.wrq, 3, 1), (.amq, 5, 3)] → takePkt s s.arg.id kind = some (p, t) →
    let g : Agent := { unit := 300 + p.die, owner := p.owner, die := p.die, core := none, src := p.addr }
    let refuses := fun (u : State) (sub : Nat) =>
      exec ev s = .next (sendAnswer u { answer u p (answerKind p.kind) with sub := sub })
    (∀ sub, engineCheck t g p.addr p.len need = (u, .error sub) → refuses u sub) ∧
    (∀ l q, engineCheck t g p.addr p.len need = (u, .ok (l, q)) → MemOk u → engineBusy u q p.len (decide (need ≠ 0)) = false →
      let old := ofLe (placeBytes u q p.len)
      let bytes := fun (v : State) => ofLe ((List.range p.len).map fun k => readByte v.mem (q.addr + k))
      -- nothing else changes: in an array no other byte, elsewhere no byte of another line
      let same := fun (v : State) => (∀ a, q = .array a → SameMemBut u v a p.len) ∧
        ∀ x, x / 64 < q.addr / 64 ∨ (q.addr + p.len - 1) / 64 < x / 64 → readByte v.mem x = readByte u.mem x
      (need ≠ 0 → lockedW u q.lockKey p.len = true → refuses u 5) ∧
      ((need ≠ 0 → lockedW u q.lockKey p.len = false) →
        (fencedMem u q = true → refuses u 9) ∧
        (fencedMem u q = false → (kind ≠ 3 → poisonCode u q.addr p.len = none) →
          (ev = .rldq → exec ev s = .next (sendAnswer (readTouch u q (u.classOf p.owner)) { answer u p 2 with val := BitVec.ofNat 64 old })) ∧
          (ev = .wrq → p.len = 1 ∨ p.len = 2 ∨ p.len = 4 ∨ p.len = 8 → q.addr % p.len = 0 →
            ∃ v, exec ev s = .next (sendAnswer v (answer v p 4)) ∧ same v ∧ bytes v = p.val.toNat % 2 ^ (8 * p.len)) ∧
          (ev = .amq → p.len = 4 ∨ p.len = 8 → q.addr % p.len = 0 →
            ∃ v, exec ev s = .next (sendAnswer v { answer v p 6 with val := BitVec.ofNat 64 old }) ∧ same v ∧
              (∀ x, atomicNew p.op p.len old p.val.toNat 0 = some x → bytes v = x % 2 ^ (8 * p.len)) ∧
              (atomicNew p.op p.len old p.val.toNat 0 = none → v = readTouch u q (u.classOf p.owner))))))) ∧
  (∀ (s t : State) (ev : Instr) (p : Packet) (kind : Nat) (rk : RemoteKind) (o : Out) (r : RemoteOp),
    (ev, kind, rk) ∈ [(Instr.rldp, 2, RemoteKind.rld), (.wrp, 4, .rst), (.amp, 6, .ramo)] →
    takePkt s s.arg.id kind = some (p, t) →
    let i := pktCore p
    (remoteOf t i p.xid = none → exec ev s = .next t) ∧
    (remoteOf t i p.xid = some (o, r) → r.kind = rk → r.left = 1 → r.vals = [] → r.faults = [] → r.lines = [] → r.group = none →
      findOut (t.core i) o.id = some o →
      (o.cyc + 400000 ≤ s.now → exec ev s = .next (t.failOut i o.id 0x0D (BitVec.ofNat 64 (6 * 2 ^ 56 + wf r.addr 0 56)))) ∧
      (s.now < o.cyc + 400000 → p.sub = 0 → ∃ u, exec ev s = .next u ∧ u.homes = s.homes ∧ findOut (u.core i) o.id = none ∧
        (o.tag ≠ 0 → tagOf (u.core i) o.tag = .done) ∧
        let due := ((flushDue t i).core i).regs
        let ws := if ((t.core i).firing.map (·.num)) = some o.firing then (match r.dst with
          | some d => loadWrites d (leBytes (if d.pair then 16 else d.bytes) p.val.toNat)
          | none => []) else []
        Reread (due.writeAll ws) (u.core i).regs) ∧
      (s.now < o.cyc + 400000 → p.sub ≠ 0 →
        exec ev s = .next (t.failOut i o.id 0x0D (BitVec.ofNat 64 (p.sub % 256 * 2 ^ 56 + wf p.addr 0 56)))))) ∧
  (∀ (h : Hdr) (f : Firing) (s : State) (d a b : GReg), ready .e h f s = true →
    let i := s.cur
    let c := issuer s
    let g := (gread c a).toNat
    let answers := fun (t : State) (st : Nat) =>
      exec (.mcgset h d a b) s = retired h f s t (.written [gdest c d (BitVec.ofNat 64 st)])
    (4096 ≤ g ∨ ownRecOff i (gread c b) 64 64 = none → answers (begun s) 7) ∧
    (∀ off, g < 4096 → ownRecOff i (gread c b) 64 64 = some off →
      let r := tcmBase i + off
      let ws := (List.range 8).map fun k => readWord s.mem (r + 8 * k)
      (∀ v cause, checkAt (begun s) i (gread c b) 64 0 = .bad v cause →
        exec (.mcgset h d a b) s = .next (trap v i cause (gread c b))) ∧
      (∀ v l p, checkAt (begun s) i (gread c b) 64 0 = .ok v l p → unperfOverlap c r 64 = false → matrixOverlap c off 64 = false →
        blockedRead v r 64 = none → poisonCode v r 64 = none →
      (groupOk ws = false → answers v 7) ∧
      (groupOk ws = true →
        (∀ x, groupOf v g = some x → (x.owner ≠ f.owner → answers v 6) ∧
          (x.owner = f.owner → x.inflight ≠ 0 → answers v 1)) ∧
        ((∀ x, groupOf v g = some x → x.owner = f.owner ∧ x.inflight = 0) → ∃ t, answers t 0 ∧ t.homes = s.homes ∧
          groupOf t g = (if wf (readWord s.mem r) 0 2 = 0 then none else some { owner := f.owner, words := ws, inflight := 0 }) ∧
          ∀ k, k ≠ g → groupOf t k = groupOf s k))))) ∧
  (∀ (h : Hdr) (f : Firing) (s : State) (d : GReg) (x : MemOp) (sz : Size) (na load : Bool) (g off : Nat),
    ready .e h f s = true → (load = false → sz.store = true) →
    let i := s.cur
    let ea := effAddr (issuer s) x
    let n := Size.bytes sz
    let instr := if load then Instr.ld h d x sz na else .st h d x sz
    decodeAddr i (wf ea 0 56) = some (.aperture g off) →
    (ea.toNat % 16 = 0 → exec (if load then Instr.ldp h d x na else .stp h d x) s = .next (trap (begun s) i 0x0E ea)) ∧
    (ea.toNat % n ≠ 0 → exec instr s = .next (trap (begun s) i 0x05 ea)) ∧
    (ea.toNat % n = 0 →
      let traps := fun (cause : Nat) => exec instr s = .next (trap (begun s) i cause ea)
      (groupOf (begun s) g = none → traps 0x0E) ∧
      ∀ X, groupOf (begun s) g = some X →
        let w0 := X.words.getD 0 0
        let unmapped := (wf w0 0 2 = 1 ∧ 0x20000 < off + n) ∨ (load = true ∧ n ≠ if wf w0 6 2 = 3 then 4 else 8)
        (unmapped → traps 0x0E) ∧ (¬ unmapped → X.owner ≠ f.owner → traps 0x10) ∧
        (¬ unmapped → X.owner = f.owner →
        (32 ≤ (issuer s).cache.injq → exec instr s = .next (stall (begun s) i)) ∧
        ((issuer s).cache.injq < 32 → ∃ (r : RemoteOp) (mk : Nat → Word → Packet),
          exec instr s = retired h f s (sendMembers (groupFlight (begun s) (some g) 1) mk (some i) r.members)
            (.out (.remote r) .remote load false) ∧
          (∀ m a, (mk m a).kind = (if load then 1 else 3) ∧ (mk m a).dstMod = m ∧ (mk m a).srcMod = s.ownMod ∧
            (mk m a).owner = f.owner ∧ (mk m a).addr = a ∧ (mk m a).len = n ∧
            (load = false → (mk m a).val.toNat = (gread (issuer s) d).toNat % 2 ^ (8 * n))) ∧
          r.group = some g ∧ r.members = groupMembers (begun s) X.words off ∧ r.left = r.members.length ∧ r.vals = [] ∧
          r.faults = [] ∧
          (load = true → r.dst = some { d := gdest (issuer s) d 0, bytes := n, signed := Size.signed sz, pair := false }) ∧
          (load = false → r.dst = none))))) ∧
  (∀ (s : State) (o : Out) (r : RemoteOp),
    let i := s.arg.core
    findOut (s.core i) s.arg.id = some o → o.op = .remote r →
    (s.now < o.cyc + 400000 → exec .remoteTimeout s = .next s) ∧
    (o.cyc + 400000 ≤ s.now → exec .remoteTimeout s = .next
      ((groupFlight s r.group (-1)).failOut i o.id 0x0D (BitVec.ofNat 64 (6 * 2 ^ 56 + wf r.addr 0 56)))))

/-- R275 to R277 and R292, R293.
The model's own choices in it: log entries 18 (the right to read the rdx record), 38 to 40 (39: what an answer after 100 µs finds), 49
(the answer at a torn-down channel), 52 (what counts as a granted unit) and 78 (a list that is not aligned). -/
def Obligations.RecordsAndTransfers : Prop :=
  (∀ (h : Hdr) (f : Firing) (s : State) (d a b : GReg) (ch : Fin 32), ready .e h f s = true →
    let i := s.cur
    let c := issuer s
    let u := begun s
    let ea := gread c a
    let n := (gread c b).toNat
    let answers := fun (st : Nat) => exec (.lodeq h d a b ch) s = retired h f s u (.written [gdest c d (BitVec.ofNat 64 st)])
    (n < 1 ∨ 4096 < n ∨ ownRecOff i ea 32 (32 * n) = none ∨ recvChannel u i ch.val = false → answers 7) ∧
    (∀ off, 1 ≤ n → n ≤ 4096 → ownRecOff i ea 32 (32 * n) = some off → recvChannel u i ch.val = true →
      let k : Lock := { copy := u.eng.copyCount, core := i, op := c.iss.opCount, dst := false, base := tcmBase i + off, len := 32 * n }
      let v := rangeVerdict u i f.owner ea (32 * n) 0 false
      (v ≠ 0 → answers v) ∧ (v = 0 → locksClash u [k] = true → answers 4) ∧
      (v = 0 → locksClash u [k] = false → locksFit u (dieOf i) [k] = false → answers 1) ∧
      (v = 0 → locksClash u [k] = false → locksFit u (dieOf i) [k] = true → ∃ t j,
        exec (.lodeq h d a b ch) s = retired h f s t (.begun [gdest c d 0] .lode .engine) ∧ t.homes = s.homes ∧
        t.eng.locks = u.eng.locks ++ [k] ∧ (lodeOf t (1000 + dieOf i)).jobs = (lodeOf u (1000 + dieOf i)).jobs ++ [j] ∧
        j.core = i ∧ j.out = c.iss.opCount ∧ j.owner = f.owner ∧ j.base = BitVec.ofNat 64 (tcmBase i + off) ∧ j.count = n ∧ j.ch = ch.val ∧
        j.lock = k.copy ∧ j.next = 0 ∧ j.pending = [] ∧ j.returning = 0 ∧ j.noted = none))) ∧
  (∀ (s v : State) (j : LodeJob),
    let die := s.arg.unit
    let u := 200 + 4 * die + s.arg.id
    let i := j.core
    let e := j.base.toNat + 32 * j.next
    let w := fun (k : Nat) => readWord s.mem (e + 8 * k)
    let has := (lodeOf s u).jobs.find? fun x => decide (x.next < x.count)
    -- the engine's own list, or the die's next one
    (has = some j ∧ v = s) ∨ (has = none ∧ ∃ js, (lodeOf s (1000 + die)).jobs = j :: js ∧
      v = onLode (onLode s (1000 + die) fun l => { l with jobs := js }) u fun l => { l with jobs := l.jobs ++ [j] }) →
    s.arg.id < 4 → dieOn s die = true → u ∉ s.rcv.fences.lodes →
    (storesBefore (s.core i) j.out = true ∨ granted s die 3 j.owner 1 = false → exec .lodeEntryProcess s = .next v) ∧
    (storesBefore (s.core i) j.out = false → granted s die 3 j.owner 1 = true → placeBusy s (.array e) = false →
      let g : Agent := { unit := u, owner := j.owner, die, core := some i, src := w 0 }
      let addr := BitVec.ofNat 64 (lockBase i (w 0))
      let fails := fun (t : State) (sub : Nat) => exec .lodeEntryProcess s =
        .next (settleJob (putJob (spendUnits t die 3 j.owner 1) u { LodeJob.note j sub addr with next := j.next + 1 }) i j.out)
      let zeros := wf (w 2) 37 26 = 0 ∧ wf (w 2) 14 2 = 0
      let alt : Option (Option Word) :=
        if wb (w 2) 63 then (lodeDest (w 2)).map some else if zeros then some none else none
      (∀ a code, poisonSpot s e 32 = some (a, code) → fails (logPoison v (some i) a code j.owner (w 0) 0) 9) ∧
      (poisonCode s e 32 = none → lodeDest (w 1) = none ∨ alt = none ∨ w 3 ≠ 0 ∨ (w 0).toNat % 64 ≠ 0 → fails v 11) ∧
      (∀ d1 d2, poisonCode s e 32 = none → lodeDest (w 1) = some d1 → alt = some d2 → w 3 = 0 → (w 0).toNat % 64 = 0 →
        (∀ t sub, engineCheck v g (w 0) 64 0 = (t, .error sub) → fails t (if sub = 9 then 9 else 1)) ∧
        (∀ t l q, engineCheck v g (w 0) 64 0 = (t, .ok (l, q)) → engineBusy t q 64 false = false →
          (∀ a code, poisonSpot t q.addr 64 = some (a, code) → fails (logPoison t (some i) a code j.owner (w 0) 0) 9) ∧
          (poisonCode t q.addr 64 = none → exec .lodeEntryProcess s =
            .next (injectRecord (spendUnits (readTouch t q (t.classOf j.owner)) die 3 j.owner 1) u { j with next := j.next + 1 }
              { xid := 0, entry := j.next, second := false, addr, alt := d2, words := wordsLe 8 (placeBytes t q 64), at_ := 0 } d1))))) ∧
    (∀ (e : LodePend) (d : Word), ∃ p : Packet, p.kind = 7 ∧ p.dstMod = wf d 0 14 ∧ p.dy = wf d 24 8 ∧ p.dx = wf d 16 8 ∧ p.addr = d ∧
      p.owner = j.owner ∧ p.len = 64 ∧ p.seq = (lodeOf s u).seq % 2 ^ 32 ∧ p.data = bytesOfWords e.words ∧ p.loose = e.second ∧
      ∃ t, injectRecord s u j e d = sendReq t p none ∧ (lodeOf t u).seq = (lodeOf s u).seq + 1 ∧ t.homes = s.homes)) ∧
  (∀ (s t : State) (ev : Instr) (p : Packet) (u : Nat) (j : LodeJob) (e : LodePend),
    (ev = .lodeAnswer ∨ ev = .recp) → takePkt s s.arg.id 8 = some (p, t) → 2 ^ 31 ≤ p.xid →
    (findPend t p.xid = none → exec ev s = .next t) ∧
    (findPend t p.xid = some (u, j, e) →
      let k := { j with pending := j.pending.filter (·.xid != e.xid) }
      let gone := t.live j.owner = false ∨ t.tearing j.owner = true
      let back := fun (k : LodeJob) =>
        (gone → exec ev s = .next
          (settleJob (putJob { t with owners := { t.owners with droprec := t.owners.droprec + 1 } } u k) j.core j.out)) ∧
        (¬ gone → exec ev s = .next (settleJob (edgeAdd (putJob t u { k with returning := k.returning + 1 }) j.core
          { ch := j.ch, kind := .lode, item := .data e.words none, owner := j.owner, ref_ := j.out }) j.core j.out))
      let late := e.at_ + 400000 ≤ s.now
      let st := if late then 7 else if p.val = 0 ∧ p.sub ≠ 0 then 7 else p.val.toNat
      let sub := if late then 6 else p.sub
      (st = 0 → exec ev s = .next (settleJob (putJob t u k) j.core j.out)) ∧
      (st = 6 → exec ev s = .next (settleJob (putJob t u (LodeJob.note k 11 e.addr)) j.core j.out)) ∧
      (st = 1 → (∀ d, e.second = false → u ∉ s.rcv.fences.lodes → e.alt = some d →
          exec ev s = .next (injectRecord (putJob t u k) u k { e with second := true, alt := none } d)) ∧
        (e.second = true ∨ u ∈ s.rcv.fences.lodes ∨ e.alt = none → back k)) ∧
      (st ≠ 0 → st ≠ 1 → st ≠ 6 → back (LodeJob.note k (if sub = 0 then 11 else sub) e.addr)))) ∧
  (∀ (s t : State) (p : Packet), takePkt s s.arg.id 8 = some (p, t) → p.xid < 2 ^ 31 →
    let i := pktCore p
    (sendOf t i p.xid = none → exec .recp s = .next t) ∧
    (∀ o d, sendOf t i p.xid = some (o, d) → findOut (t.core i) o.id = some o → ∃ v, exec .recp s = .next v ∧
      findOut (v.core i) o.id = none ∧ (o.tag ≠ 0 → tagOf (v.core i) o.tag = .done) ∧ v.homes = s.homes ∧
      let late := o.cyc + 400000 ≤ s.now
      let st := if late then 7 else if p.val = 0 ∧ p.sub ≠ 0 then 7 else p.val.toNat
      let due := ((flushDue t i).core i).regs
      Reread (due.write (gdest (t.core i) d
        (BitVec.ofNat 64 (st + (if st = 7 then (if late then 6 else p.sub) else 0) * 2 ^ 8)))) (v.core i).regs)) ∧
  (∀ (s : State) (i out u : Nat) (j : LodeJob), findJob s i out = some (u, j) →
    (j.next < j.count ∨ j.pending ≠ [] ∨ j.returning ≠ 0 → settleJob s i out = s) ∧
    (j.count ≤ j.next → j.pending = [] → j.returning = 0 → ∃ t : State, t.homes = s.homes ∧ t.cores = s.cores ∧
      (∀ l ∈ t.eng.locks, l.copy ≠ j.lock) ∧ settleJob s i out = match j.noted with
        | none => t.complete i out
        | some v => t.failOut i out 0x0D v)) ∧
  (∀ (s t : State) (e : EdgeRec), placeEdge s s.arg.core s.arg.id .lode = some (t, e) → ∀ u j,
    findJob t s.arg.core e.ref_ = some (u, j) → exec .lodeReturnPlace s =
      .next (settleJob (putJob t u { j with returning := j.returning - 1 }) s.arg.core e.ref_)) ∧
  (∀ (s t : State) (p : Packet), takePkt s s.arg.id 7 = some (p, t) →
    let i := coreAt p.dx p.dy
    let ch := wf p.addr 32 5
    let ws := wordsLe 8 p.data
    let answers := fun (u : State) (st sub : Nat) =>
      exec .recq s = .next (sendAnswer u { answer u p 8 with sub := sub, val := BitVec.ofNat 64 st })
    (coreOn t i = false ∨ i ∈ t.rcv.fences.cores → answers t 7 10) ∧
    (coreOn t i = true → i ∉ t.rcv.fences.cores →
      let gone := fun (o : Nat) => t.live o = false ∨ t.tearing o = true
      (chanOf t i ch = none →
        ((∀ o, mget? (t.core i).sched.torn ch = some o → ¬ gone o) → answers t 2 11) ∧
        (∀ o, mget? (t.core i).sched.torn ch = some o → gone o → answers (t.discard i ws 5 o) 7 7)) ∧
      (∀ c, chanOf t i ch = some c →
        (gone c.owner → answers (t.discard i ws 5 c.owner) 7 7) ∧
        (¬ gone c.owner → c.owner ≠ p.owner → answers t 3 11) ∧ (¬ gone c.owner → c.owner = p.owner → c.room = 0 → answers t 1 0) ∧
        (¬ gone c.owner → c.owner = p.owner → c.room ≠ 0 →
          (∀ r, c.task = true → admitFail c.codeb (ws.getD 0 0) = some r → answers (t.discard i ws r c.owner) 6 11) ∧
          (c.task = false ∨ admitFail c.codeb (ws.getD 0 0) = none → ∃ u, answers u 0 0 ∧ u.homes = s.homes ∧
            chanOf u i ch = some { c with items := c.items ++ [.data ws none] }))))) ∧
  (∀ (h : Hdr) (f : Firing) (s : State) (d a : GReg), ready .e h f s = true →
    let i := s.cur
    let c := issuer s
    let answers := fun (b : State) (st : Nat) => exec (.rdx h d a) s = retired h f s b (.written [gdest c d (BitVec.ofNat 64 st)])
    (ownRecOff i (gread c a) 64 64 = none → answers (begun s) 7) ∧
    (∀ off, ownRecOff i (gread c a) 64 64 = some off →
      let r := tcmBase i + off
      let ws := (List.range 8).map fun k => readWord s.mem (r + 8 * k)
      let w := fun (k : Nat) => readWord s.mem (r + 8 * k)
      let mis := (w 0).toNat % 8 ≠ 0 ∨ (w 1).toNat % 8 ≠ 0 ∨ wf (w 2) 0 32 % 8 ≠ 0
      (∀ b cause, checkAt (begun s) i (gread c a) 64 0 = .bad b cause → exec (.rdx h d a) s = .next (trap b i cause (gread c a))) ∧
      (∀ b l q, checkAt (begun s) i (gread c a) 64 0 = .ok b l q → unperfOverlap c r 64 = false → matrixOverlap c off 64 = false →
        blockedRead b r 64 = none → poisonCode b r 64 = none →
      (rdxMalformed b i ws = true → answers b 7) ∧
      (rdxMalformed b i ws = false → (mis → answers b 2) ∧ (¬ mis → 32 ≤ c.cache.injq → answers b 1) ∧
        (¬ mis → c.cache.injq < 32 → ∃ (t : State) (p : Packet) (x : RemoteOp),
          exec (.rdx h d a) s = retired h f s (sendReq t p (some i)) (.begun [gdest c d 0] (.remote x) .engine) ∧
          t.homes = s.homes ∧ (t.core i).regs = c.regs ∧ p.kind = 9 ∧ p.dstMod = wf (w 2) 32 14 ∧ p.owner = f.owner ∧ p.addr = w 0 ∧
          p.val = w 1 ∧ p.data = bytesOfWords ws ∧ x.kind = .rdx ∧ x.left = x.members.length ∧ x.faults = [] ∧
          (wf (w 3) 14 2 ≠ 2 → x.members = [(wf (w 3) 0 14, w 1)])))))) ∧
  (∀ (s t : State) (p : Packet), takePkt s s.arg.id 9 = some (p, t) →
    let i := pktCore p
    let rec_ := wordsLe 8 p.data
    let w := fun (k : Nat) => rec_.getD k 0
    let len := wf (w 2) 0 32
    let read := rdxRead t p (w 0) (rdxPieces (w 0).toNat (w 1).toNat (len / 8 + 1) 0 len)
    let members := rdxMembers (wf p.req 0 14) rec_ (p.group.getD [])
    let sent := fun (u : State) (bs : List Byte) => members.foldl (fun u m => sendParts u p m p.data len (len / 8 + 1) 0 bs) u
    let waits := p.srcMod = s.ownMod ∧ ∃ o r, remoteOf s i p.xid = some (o, r) ∧ storesBefore (s.core i) o.id = true
    (waits ∨ read = none → exec .xrq s = .next s) ∧
    (¬ waits → (∀ u bs, read = some (u, bs, none) → exec .xrq s = .next (sent u bs)) ∧
      (∀ u bs x, read = some (u, bs, some x) →
        let v := if wb (w 3) 49 then members.foldl (fun u m => sendFaultNote u p m p.data x) (sent u bs) else sent u bs
        exec .xrq s = .next (sendAnswer v (rdxAnswer v p 12 v.ownMod (wf x 56 8) (BitVec.ofNat 64 (wf x 0 56)) (w 1)))))) ∧
  (∀ (s t : State) (p : Packet), takePkt s s.arg.id 10 = some (p, t) →
    let inTcm := decide (wf p.req 32 2 = 2) && decide (groupType (p.group.getD []) = 1)
    let core := if wf p.req 32 2 = 0 ∨ inTcm = true then some (coreAt p.dx p.dy) else none
    let wrote := rdxWords t p core inTcm p.val (p.len / 8) (p.data.take p.len)
    (p.len = 0 → exec .xdt s =
      .next (rdxLast t p (wordsLe 8 p.data) p.val (some (BitVec.ofNat 64 (p.sub % 256 * 2 ^ 56 + wf p.addr 0 56))))) ∧
    (p.len ≠ 0 → wrote = none → exec .xdt s = .next s) ∧
    (∀ u x, p.len ≠ 0 → wrote = some (u, x) →
      (p.remain ≠ 0 → x = none → exec .xdt s = .next u) ∧
      (∀ y, p.remain ≠ 0 → x = some y → exec .xdt s =
        .next (u.onEng fun e => { e with rdxBad := e.rdxBad ++ [(wf p.req 0 14, pktCore p, p.xid, p.val, y)] })) ∧
      (p.remain = 0 →
        let rec_ := wordsLe 8 (p.data.drop p.len)
        let total := wf (rec_.getD 2 0) 0 32
        let base := p.val + BitVec.ofNat 64 p.len - BitVec.ofNat 64 total
        exec .xdt s = .next (rdxLast u p rec_ base ((rdxEarlier u p base total).or x)))) ∧
    (∀ (u : State) (rec_ : List Word) (base : Word) (x : Option Word),
      let w := fun (k : Nat) => rec_.getD k 0
      let k := coreAt (wf (w 3) 16 8) (wf (w 3) 24 8)
      ∃ v, v.homes = u.homes ∧
        (wb (w 3) 48 = true → (x = none ∨ wb (w 3) 49 = true) → coreOn u k = true → ∃ e ∈ (v.core k).sched.edges,
          e.ch = wf (w 3) 50 5 ∧ e.kind = .notify ∧ e.owner = p.owner ∧ e.item = .data [w 4, w 5, x.getD 0, w 1,
            BitVec.ofNat 64 (wf (w 2) 0 32), BitVec.ofNat 64 (wf p.req 0 32), 0, 0] none) ∧
        (p.len = 0 → rdxLast u p rec_ base x = v) ∧
        (p.len ≠ 0 → rdxLast u p rec_ base x = sendAnswer v (rdxAnswer v p 11 v.ownMod (wf (x.getD 0) 56 8)
          (BitVec.ofNat 64 (wf (x.getD base) 0 56)) base)))) ∧
  (∀ (t u : State) (p : Packet) (core : Option Nat) (inTcm : Bool) (bs : List Byte) (ea : Word),
    let word := rdxWord t p core inTcm ea bs
    let fault := fun (sub : Nat) =>
      word = some (u, some (BitVec.ofNat 64 (sub % 256 * 2 ^ 56 + wf (BitVec.ofNat 64 (lockBase (core.getD 0) ea)) 0 56)))
    let check := engineCheck t { unit := 300 + p.die, owner := p.owner, die := p.die, core := if inTcm then none else core
                                 src := p.addr } ea 8 1
    (∀ sub, check = (u, .error sub) → fault sub) ∧
    (∀ l q, check = (u, .ok (l, q)) →
      (inTcm = true → (∀ c o, l = .tcm c o → core ≠ some c) → fault 2) ∧
      (inTcm = false ∨ (∃ c o, l = .tcm c o ∧ core = some c) →
        (placeBusy u q = true ∨ migrationLocked q = true → word = none) ∧
        (placeBusy u q = false → migrationLocked q = false →
          (lockedW u q.lockKey 8 = true → fault 5) ∧ (lockedW u q.lockKey 8 = false → fencedMem u q = true → fault 9) ∧
          (lockedW u q.lockKey 8 = false → fencedMem u q = false → MemOk u → bs.length = 8 →
            ∃ v, word = some (v, none) ∧ (∀ a, q = .array a → SameMemBut u v a 8) ∧
              (∀ x, x / 64 < q.addr / 64 ∨ (q.addr + 7) / 64 < x / 64 → readByte v.mem x = readByte u.mem x) ∧
              ∀ k, k < 8 → readByte v.mem (q.addr + k) = bs.getD k 0))))) ∧
  (∀ (s t : State) (p : Packet) (o : Out) (r : RemoteOp),
    let i := pktCore p
    let late := o.cyc + 400000 ≤ s.now
    let fails := fun (ev : Instr) (sub : Nat) (a : Word) =>
      exec ev s = .next (t.failOut i o.id 0x0D (BitVec.ofNat 64 (sub % 256 * 2 ^ 56 + wf a 0 56)))
    remoteOf t i p.xid = some (o, r) → r.kind = .rdx → r.group = none →
    (takePkt s s.arg.id 11 = some (p, t) →
      (late → fails .xak 6 r.addr) ∧
      (¬ late → 1 < r.left →
        let k := r.members.findIdx fun m => m.1 == p.srcMod && m.2 == p.val
        exec .xak s = .next (t.onCore i fun c => setOut c { o with op := .remote { r with
          left := r.left - 1
          faults := if p.sub = 0 then r.faults
            else r.faults ++ [(k, BitVec.ofNat 64 (p.sub % 256 * 2 ^ 56 + wf p.addr 0 56))] } })) ∧
      (¬ late → r.left = 1 → r.faults = [] → p.sub ≠ 0 → fails .xak p.sub p.addr) ∧
      (¬ late → r.left = 1 → r.faults = [] → p.sub = 0 → findOut (t.core i) o.id = some o → ∃ v, exec .xak s = .next v ∧
        v.homes = s.homes ∧ findOut (v.core i) o.id = none ∧ (o.tag ≠ 0 → tagOf (v.core i) o.tag = .done) ∧
        let due := ((flushDue t i).core i).regs
        Reread { due with
          wsig := if (t.core i).firing.map (·.num) = some o.firing then r.lines.foldl sigAdd due.wsig else due.wsig }
          (v.core i).regs)) ∧
    (takePkt s s.arg.id 12 = some (p, t) → (late → fails .xsf 6 r.addr) ∧ (¬ late → fails .xsf p.sub p.addr)))

/-- R339, R341, R343 to R347.
The model's own choices in it: log entries 18, 53 and 78 (the owner of a world). -/
def Obligations.RecordsAndChannels : Prop :=
  ∀ (h : Hdr) (f : Firing) (s : State) (d a b g : GReg) (p : PReg) (data : Bool) (side : Side), ready .e h f s = true →
    let i := s.cur
    let c := issuer s
    let u := begun s
    let A := gread c a
    let B := gread c b
    let answers := fun (e : Instr) (t : State) (w : Nat) => exec e s = retired h f s t (.written [gdest c d (BitVec.ofNat 64 w)])
    (desig B = none → answers (.send h d a b) u 4) ∧
    (∀ x, desig B = some x → ∃ q : Packet,
      exec (.send h d a b) s = retired h f s (sendReq u q none) (.out (.send d) .engine true false) ∧ q.kind = 7 ∧
      q.dstMod = x.mod ∧ q.dx = modX x.core ∧ q.dy = modY x.core ∧ q.addr = B ∧ q.owner = f.owner ∧
      q.data = bytesOfWords ((List.range 8).map fun k => greadN c (a.val + k))) ∧
    (let ws := (List.range 8).map fun k => greadN c (a.val + k)
     let w0 := greadN c a.val
     let w1 := greadN c (a.val + 1)
     let bad := 18 ≤ wf w1 58 5 ∨ wf w1 48 6 ≠ 0 ∨ wf w1 54 4 = 15 ∨ (wf w1 32 16 ≠ 0 ∧ wf w1 32 16 ≠ f.owner)
     let drops := fun (r : Nat) => exec (.spawn h p a) s = retired h f s (u.discard i ws r f.owner) (.written [.p p false])
     (bad → drops 3) ∧ (¬ bad → Bad w0 → drops 2) ∧ (¬ bad → ¬ Bad w0 → admitted f.codeb w0 = false → drops 1) ∧
     (¬ bad → admitted f.codeb w0 = true →
       (64 ≤ c.sched.deque.length → exec (.spawn h p a) s = retired h f s u (.written [.p p true])) ∧
       (c.sched.deque.length < 64 → ∃ t : State, exec (.spawn h p a) s = retired h f s t (.written [.p p false]) ∧
         t.homes = s.homes ∧ (t.core i).regs = c.regs ∧
         (t.core i).sched.deque = c.sched.deque ++
           [{ words := ws, owner := f.owner, prio := if wf w1 54 4 = 0 then f.prio else wf w1 54 4
              budget := if wf w1 58 5 = 0 then f.budget else 2 ^ (9 + wf w1 58 5), pin := wb w1 63 }]))) ∧
    (∀ v ws, RecordAt u i A v ws →
      let ends := answers (.chbind h d a data)
      (chanRec v ws data = none → ends v 4) ∧
      (∀ k ch cap off prio bc, chanRec v ws data = some (k, ch, cap, off, prio, bc) →
        (k = coreAt (wf (ws.getD 0 0) 0 8) (wf (ws.getD 0 0) 8 8) ∧ ch = wf (ws.getD 0 0) 16 5 ∧ cap = 2 ^ wf (ws.getD 0 0) 24 4 ∧
          4 ≤ cap ∧ cap ≤ 256 ∧ off % 64 = 0 ∧ prio ≤ 14 ∧ bc ≤ 17 ∧ (data = true → prio = 0 ∧ bc = 0)) ∧
        ((chanOf v k ch).isSome = true → ends v 5) ∧
        (chanOf v k ch = none → placeRing (v.core k) off cap = none → ends v 8) ∧
        (chanOf v k ch = none → ∀ ring, placeRing (v.core k) off cap = some ring →
          (off ≠ 0 → ring = off) ∧ ring + 64 * cap ≤ 0x20000 ∧
          (∀ r ∈ boundRings (v.core k), r.1 + r.2 ≤ ring ∨ ring + 64 * cap ≤ r.1) ∧
          (ownsTcm v f.owner k ring (64 * cap) [1] = false → ends v 3) ∧
          (ownsTcm v f.owner k ring (64 * cap) [1] = true → ∃ t, ends t 0 ∧ t.homes = v.homes ∧
            chanOf t k ch = some
              { task := !data, owner := f.owner, cap, ring, items := [], reserved := [], paused := false
                prio := if prio = 0 then f.prio else prio, budget := if bc = 0 then f.budget else 2 ^ (9 + bc)
                codeb := f.codeb, inputOf := none })))) ∧
    (let schedOk := wf B 9 55 = 0 ∧ 1 ≤ wf B 0 4 ∧ wf B 0 4 ≤ 14 ∧ 1 ≤ wf B 4 5 ∧ wf B 4 5 ≤ 17
     let mboxOk := wf B 16 48 = 0
     let free := Instr.chcfgFree h d a
     let pause := Instr.chcfgPause h d a
     let resume := Instr.chcfgResume h d a
     let sched := Instr.chcfgSched h d a b
     let mbox := Instr.chcfgMbox h d a b g side
     (¬ schedOk → answers sched u 4) ∧ (¬ mboxOk → answers mbox u 4) ∧
     (∀ (e : Instr) (task : Bool), (e = free ∧ task = false) ∨ ((e = pause ∨ e = resume) ∧ task = true) ∨
         (e = sched ∧ schedOk ∧ task = true) ∨ (e = mbox ∧ mboxOk ∧ task = false) →
       (localDesig u A = none → answers e u 4) ∧
       (∀ x, localDesig u A = some x →
         (chanOf u x.core x.ch = none → answers e u 2) ∧
         (∀ C, chanOf u x.core x.ch = some C → (task = true → C.task = false → answers e u 2) ∧
           ((task = true → C.task = true) → C.owner ≠ f.owner → answers e u 3)))) ∧
     (∀ x C, localDesig u A = some x → chanOf u x.core x.ch = some C → C.owner = f.owner →
       let done := fun (e : Instr) (t : State) => answers e t 0 ∧ t.homes = s.homes ∧ (t.core i).regs = c.regs
       let used := C.inputOf.isSome = true ∨ C.items ≠ [] ∨ C.reservedSlots ≠ 0 ∨ ∃ r ∈ (u.core x.core).sched.edges, r.ch = x.ch
       (used → answers free u 5) ∧
       (¬ used → ∃ t, done free t ∧ chanOf t x.core x.ch = none ∧ ∀ ch, ch ≠ x.ch → chanOf t x.core ch = chanOf u x.core ch) ∧
       (C.task = true →
         (∃ t, done pause t ∧ chanOf t x.core x.ch = some { C with paused := true } ∧
           mget? (t.core x.core).sched.armed (16 + x.ch) = none) ∧
         (∃ t, done resume t ∧ chanOf t x.core x.ch = some { C with paused := false }) ∧
         (schedOk → ∃ t, done sched t ∧ chanOf t x.core x.ch = some { C with prio := wf B 0 4, budget := 2 ^ (9 + wf B 4 5) })) ∧
       (mboxOk → ∃ t, done mbox t ∧
         let old := vget (u.core x.core).sched.mbox .reset (sideCode side)
         vget (t.core x.core).sched.mbox .reset (sideCode side) =
           { old with count := wf B 0 16, ch := x.ch, w0 := gread c g, value := 0, owner := C.owner })))

/-- R348 to R350, R356.
The model's own choices in it: log entries 18, 45 (status 3 before 8 where a region lies in reserved TCM), 53 and
78 (the colour of a code range). -/
def Obligations.ActorsAndStealing : Prop :=
  -- what becomes of the channels of actor `a` in slot `n` of core `k` when the slot is freed
  let freed := fun (u t : State) (k n : Nat) (a : Actor) (eaten : Nat → Nat) =>
    actorOf (t.core k) n = none ∧
    (∀ j ch rate C, j < 4 → vget a.ins none j = some (ch, rate) → chanOf u k ch = some C → C.inputOf = some n →
      ∃ D, chanOf t k ch = some D ∧ D.inputOf = none ∧ D.items = C.items.drop (eaten rate) ∧ D.task = C.task ∧ D.owner = C.owner ∧
        D.cap = C.cap ∧ D.ring = C.ring) ∧
    (∀ j i ch rate C, j < 4 → vget a.outs none j = some (i, ch, rate) → chanOf u i ch = some C →
      ∃ D, chanOf t i ch = some D ∧ ∀ r ∈ D.reserved, ¬ (r.1 = k ∧ r.2.1 = n))
  (∀ (h : Hdr) (f : Firing) (s : State) (slot : Fin 16) (a : Actor), ready .none h f s = true →
    let i := s.cur
    let c := issuer s
    f.kind = .actor slot → actorOf c slot.val = some a → a.freeing = true → endWaits c = false → lateFault c allTags = none →
    rateMismatch f a = none → (∀ j k ch rate ch' rate', j < 4 → k < 4 → vget a.ins none j = some (ch, rate) →
      vget a.ins none k = some (ch', rate') → j ≠ k → ch ≠ ch') →
    ∃ t, exec (.fin h) s = .next t ∧ (t.core i).firing = none ∧ SameMem s t ∧ freed (begun s) t i slot.val a id ∧
      ∀ j o d, j ≠ i → findOut (s.core j) o.id = some o → o.op = .actfree d i slot.val →
        findOut (t.core j) o.id = none ∧ (o.tag ≠ 0 → tagOf (t.core j) o.tag = .done) ∧ gread (t.core j) d = 0) ∧
  ∀ (h : Hdr) (f : Firing) (s : State) (d a : GReg) (nosteal novictim setscope : Bool), ready .e h f s = true →
    let i := s.cur
    let c := issuer s
    let u := begun s
    let A := gread c a
    let answers := fun (e : Instr) (t : State) (w : Nat) => exec e s = retired h f s t (.written [gdest c d (BitVec.ofNat 64 w)])
    (∀ v ws, RecordAt u i A v ws →
      let ends := answers (.actbind h d a)
      let k := bindCore ws
      let x := bindActor f.owner ws
      let input := fun (P : Option Channel → Prop) => ∃ j ch rate, j < 4 ∧ bindIn ws j = some (ch, rate) ∧ P (chanOf v k ch)
      let taken := input fun C => match C with | some C => C.task = true ∨ C.inputOf.isSome = true | none => True
      let lacks := (input fun C => match C with | some C => C.owner ≠ f.owner | none => True) ∨
        codeRights v k f.owner x.handler x.code = false ∨ regionRights v k f.owner x = false
      (bindOk v ws = false → ends v 4) ∧
      (bindOk v ws = true →
        (freeSlot (v.core k) = none → ends v 1) ∧
        (∀ slot, freeSlot (v.core k) = some slot → slot < 16 ∧ actorOf (v.core k) slot = none ∧
          (taken → ends v 2) ∧ (¬ taken → lacks → ends v 3) ∧
          (¬ taken → ¬ lacks → regionsFit (v.core k) x = false → ends v 8) ∧
          (¬ taken → ¬ lacks → regionsFit (v.core k) x = true → admitted x.code x.handler = false → ends v 9) ∧
          (¬ taken → ¬ lacks → regionsFit (v.core k) x = true → admitted x.code x.handler = true →
            ∃ t, ends t (slot * 2 ^ 16) ∧ actorOf (t.core k) slot = some x ∧ (t.core i).regs = (v.core i).regs ∧
              (∀ j ch rate C, j < 4 → bindIn ws j = some (ch, rate) → chanOf v k ch = some C →
                chanOf t k ch = some { C with inputOf := some slot }) ∧
              (MemOk v → ∀ y,
                let inside := fun (off len : Nat) => tcmBase k + off ≤ y ∧ y < tcmBase k + off + len
                (inside x.stOff x.stLen ∨ inside x.inhOff x.inhLen → readByte t.mem y = 0) ∧
                (¬ inside x.stOff x.stLen → ¬ inside x.inhOff x.inhLen → readByte t.mem y = readByte v.mem y)))))) ∧
    (let e := Instr.actfree h d a
     (localDesig u A = none → answers e u 4) ∧
     (∀ x, localDesig u A = some x →
       (16 ≤ x.ch → answers e u 4) ∧ (x.ch < 16 → actorOf (u.core x.core) x.ch = none → answers e u 2) ∧
       (∀ k, x.ch < 16 → actorOf (u.core x.core) x.ch = some k →
         (k.owner ≠ f.owner → answers e u 3) ∧
         (k.owner = f.owner → k.splicing.isSome = true ∨ k.perf.isSome = true → answers e u 5) ∧
         (k.owner = f.owner → k.splicing = none → k.perf = none →
           (inFlight u x.core x.ch = false → ∃ t, answers e t 0 ∧ freed u t x.core x.ch k (fun _ => 0) ∧ t.homes = s.homes) ∧
           (inFlight u x.core x.ch = true → ∃ t : State, actorOf (t.core x.core) x.ch = some { k with freeing := true } ∧
             t.homes = s.homes ∧ (x.core = i → answers e t 0) ∧
             (x.core ≠ i → exec e s = retired h f s t (.out (.actfree d x.core x.ch) .engine true false))))))) ∧
    (let e := Instr.stlcfg h d a nosteal novictim setscope
     (setscope = true → scopeOk A = false → exec e s = .next (trap u i 0x0C A)) ∧
     ((setscope = true → scopeOk A = true) → answers e
       (u.onSched i fun t => { t with nosteal := nosteal, novictim := novictim, stlscope := if setscope then A else t.stlscope })
       (b2n c.sched.nosteal + 2 * b2n c.sched.novictim)))

/-- R325 to R330 and R351 to R355.
The model's own choices in it: log entries 54 (among them the wait for a neighbour's records) and 78. -/
def Obligations.Splices : Prop :=
  (∀ (h : Hdr) (f : Firing) (s : State) (d a : GReg), ready .e h f s = true →
    let i := s.cur
    let c := issuer s
    let A := gread c a
    exec (.splst h d a) s = retired h f s (begun s) (.written [gdest c d
      (match c.sched.splices.find? (fun e => e.num == wf A 0 32 && decide ((c.sched.spliceCount + 2 ^ 32 - wf A 0 32) % 2 ^ 32 < 16)) with
        | some e => BitVec.ofNat 64 (e.state + e.outcome * 2 ^ 8)
        | none => 0)]) ∧
    (∀ v0 ws v b, RecordAt (begun s) i A v0 ws → (ws.getD 1 0 = 0 → v = v0 ∧ b = []) →
      (ws.getD 1 0 ≠ 0 → RecordAt v0 i (ws.getD 1 0) v b) →
      let w := fun (k : Nat) => ws.getD k 0
      let kind := wf (w 0) 16 2
      let k := v.core i
      let answers := fun (t : State) (x : Nat) => exec (.splice h d a) s = retired h f s t (.written [gdest c d (BitVec.ofNat 64 x)])
      (spliceOk ws = false ∨ spliceBindOk v kind b = false ∨ spliceEntry k (w 2) = none → answers v 4) ∧
      (∀ ek ech sd, spliceOk ws = true → spliceBindOk v kind b = true → spliceEntry k (w 2) = some (ek, ech) →
        desigLocal (w 3) = some sd →
        (16 ≤ undelivered k.sched → answers v 1) ∧
        (undelivered k.sched < 16 →
          (chanOf v ek ech = none ∨ chanOf v sd.core sd.ch = none → answers v 2) ∧
          (∀ ec sc, chanOf v ek ech = some ec → chanOf v sd.core sd.ch = some sc →
            (ec.owner ≠ f.owner ∨ sc.owner ≠ f.owner → answers v 3) ∧
            (ec.owner = f.owner → sc.owner = f.owner →
              let num := (k.sched.spliceCount + 1) % 2 ^ 32
              let m : Marker :=
                { num, issuer := i, kind := Fin.ofNat 3 kind, stage := wf (w 0) 0 8, bind := b, status := w 3, shand := w 4
                  sword := w 5, owner := f.owner, outcome := none, done := false, where_ := none }
              let t := v.onSched i fun x => spliceNew x num
              (t.core i).sched.spliceCount = num ∧
              (t.core i).sched.splices.getLast? = some { num, state := 1, outcome := 0 } ∧
              (ec.room ≠ 0 → answers (enterChan t ek ech ec m) (num * 2 ^ 16)) ∧
              (ec.room = 0 → ∃ u, exec (.splice h d a) s = retired h f s u (.out (.splice d num) .engine true false) ∧
                (u.core ek).sched.edges = (v.core ek).sched.edges ++
                  [{ ch := ech, kind := .marker, item := .marker m, owner := f.owner, ref_ := num }]))))))) ∧
  (∀ (s : State) (i ch : Nat) (C : Channel) (m : Marker), chanOf s i ch = some C → m.outcome = none →
    let now := chanOf (enterChan s i ch C m) i ch
    (C.task = true ∨ (C.inputOf.isSome = true ∧ inputZeroRate s i ch = none) → enterChan s i ch C m = leavePath s i m) ∧
    (C.task = false → C.inputOf = none → now = some { C with items := C.items ++ [.marker m] }) ∧
    (∀ rate, C.task = false → C.inputOf.isSome = true → inputZeroRate s i ch = some rate →
      (dataCount C.items % rate = 0 → now = some { C with items := C.items ++ [.marker m] }) ∧
      (dataCount C.items % rate ≠ 0 → now = some { C with items := C.items ++ [.marker { m with outcome := some 8 }] }))) ∧
  (∀ (s : State) (i : Nat) (m : Marker) (x : Desig), desig m.status = some x →
    let place := match m.where_ with | some (k, slot) => BitVec.ofNat 64 (modY k * 2 ^ 24 + modX k * 2 ^ 16 + slot) | none => 0
    let n := m.outcome.getD 7
    ((leavePath s i m).core x.core).sched.edges = (s.core x.core).sched.edges ++
      [{ ch := x.ch, kind := .status
         item := .data [m.shand, m.sword, BitVec.ofNat 64 (m.stage * 2 ^ 16 + m.kind.val * 2 ^ 8 + n), BitVec.ofNat 64 m.num, place, 0, 0, 0] none
         owner := m.owner, ref_ := m.issuer * 2 ^ 32 + m.num }] ∧
    ((leavePath s i m).core m.issuer).sched.splices =
      (s.core m.issuer).sched.splices.map fun e => if e.num = m.num then { e with state := 3, outcome := n } else e) ∧
  (∀ (s : State) (e : EdgeRec) (m : Marker),
    let i := s.arg.core
    let ch := s.arg.id
    let t := edgeDrop s i ch .marker
    edgeFind s i ch .marker = some e → e.item = .marker m →
    (e.lost = true ∨ chanOf s i ch = none → exec .markerEnterInput s = .next (spliceDone (leavePath t i m) m)) ∧
    (∀ C, e.lost = false → chanOf s i ch = some C → (C.room = 0 → exec .markerEnterInput s = .next s) ∧
      (C.room ≠ 0 → exec .markerEnterInput s = .next (spliceDone (enterChan t i ch C m) m)))) ∧
  (∀ (s : State) (m : Marker) (o : Out) (d : GReg),
    let k := s.core m.issuer
    k.iss.outs.find? (fun o => match o.op with | .splice _ n => n == m.num | _ => false) = some o → o.op = .splice d m.num →
    let t := (spliceDone s m).core m.issuer
    let due := ((flushDue s m.issuer).core m.issuer).regs
    findOut t o.id = none ∧
      Reread (due.write (gdest k d (BitVec.ofNat 64 (m.num * 2 ^ 16)))) t.regs) ∧
  (∀ (s t : State) (e : EdgeRec), placeEdge s s.arg.core s.arg.id .status = some (t, e) →
    ∀ x, (t.core (e.ref_ / 2 ^ 32)).sched.splices.find? (·.num == e.ref_ % 2 ^ 32) = some x →
    exec .spliceStatusPlace s = .next (spliceSet t (e.ref_ / 2 ^ 32) (e.ref_ % 2 ^ 32) 4 x.outcome)) ∧
  (∀ (s : State) (a : Actor) (ch rate : Nat) (C : Channel),
    let i := s.arg.core
    let slot := s.arg.id
    actorOf (s.core i) slot = some a → vget a.ins none 0 = some (ch, rate) → chanOf s i ch = some C →
    let failed := fun (x : ChItem) => ∃ y n, x = .marker y ∧ y.outcome = some n ∧ n ≠ 0
    let names := fun (x : ChItem) => ∃ y, x = .marker y ∧ y.stage = a.stage ∧ y.outcome = none
    (∀ m before after, C.items = before ++ .marker m :: after → (∀ x ∈ before, ¬ failed x) → failed (.marker m) →
      a.stopped = false ∨ before = [] → markerToForward a C.items = some m) ∧
    (∀ m rest, C.items = .marker m :: rest → (a.stopped = false → ∀ x ∈ C.items, ¬ failed x) → ¬ failed (.marker m) →
      (names (.marker m) ∨ a.perf ≠ none → exec .markerForward s = .next s) ∧
      (¬ names (.marker m) → a.perf = none → markerToForward a C.items = some m)) ∧
    (∀ m, markerToForward a C.items = some m →
      let t := takeMarker s i ch m
      (vget a.outs none 0 = none → exec .markerForward s = .next (leavePath t i m)) ∧
      (∀ k dch r, vget a.outs none 0 = some (k, dch, r) →
        (chanOf s k dch = none → exec .markerForward s = .next (leavePath t i m)) ∧
        (∀ D, chanOf s k dch = some D → (D.room = 0 → exec .markerForward s = .next s) ∧
          (D.room ≠ 0 → k = i → exec .markerForward s = .next (enterChan t k dch D m)) ∧
          (D.room ≠ 0 → k ≠ i → exec .markerForward s = .next (enterChan (leaveCore t i m) k dch D m))))) ∧
    (inFlight s i slot = true ∨ mget? (s.core i).sched.armed slot ≠ none → exec .markerPerform s = .next s) ∧
    (inFlight s i slot = false → mget? (s.core i).sched.armed slot = none → a.perf = none →
      ((∀ x ∈ C.items, ¬ names x) → exec .markerPerform s = .next s) ∧
      (∀ m before after, C.items = before ++ .marker m :: after → (∀ x ∈ before, ¬ names x) → names (.marker m) →
        (before ≠ [] → a.stopped = false → exec .markerPerform s = .next s) ∧
        (before = [] ∨ a.stopped = true →
        let ends := fun (t : State) (n : Nat) => exec .markerPerform s = .next (decide_ t i slot ch m n)
        let noted := fun (t : State) => ∃ D, chanOf t i ch = some D ∧ ChItem.marker { m with outcome := some 0, where_ := some (i, slot) } ∈ D.items
        let k := bindCore m.bind
        (a.splicing.isSome = true → ends s 6) ∧
        (a.splicing = none → m.kind = 0 →
          (outZero s a = none → ends s 10) ∧
          (∀ dk dch r D, outZero s a = some (dk, dch, r, D) →
            let nrate := match bindOut m.bind 0 with | some (_, _, x) => x | none => 1
            let nch := match bindIn m.bind 0 with | some (x, _) => x | none => 0
            let b0 := bindActor a.owner m.bind
            let b := { b0 with outs := vset b0.outs 0 (some (dk, dch, nrate)) }
            (freeSlot (s.core k) = none → ends s 1) ∧
            (∀ n, freeSlot (s.core k) = some n →
              (fitNew s k b [(nch, D.cap)] = none → ends s 2) ∧
              (∀ cs, fitNew s k b [(nch, D.cap)] = some cs →
                (∀ x, newSlotFail s k a.owner b = some x → (x = 3 ∨ x = 4) ∧ ends s x) ∧
                (newSlotFail s k a.owner b = none → ∃ t ring, ends t 0 ∧ cs = [(nch, D.cap, ring)] ∧
                  actorOf (t.core k) n = some b ∧
                  actorOf (t.core i) slot = some { a with outs := vset a.outs 0 (some (k, nch, r)), splicing := some (m.num, m.issuer) } ∧
                  (∀ x y, bindIn m.bind 0 = some (x, y) → (chanOf t k nch).map (·.inputOf) = some (some n)) ∧
                  (MemOk s → ∀ y, (tcmBase k + b.stOff ≤ y ∧ y < tcmBase k + b.stOff + b.stLen) ∨
                    (tcmBase k + b.inhOff ≤ y ∧ y < tcmBase k + b.inhOff + b.inhLen) → readByte t.mem y = 0)))))) ∧
        (a.splicing = none → m.kind = 2 → k = i →
          (codeRights s i a.owner (m.bind.getD 0 0) (m.bind.getD 1 0) = false → ends s 3) ∧
          (codeRights s i a.owner (m.bind.getD 0 0) (m.bind.getD 1 0) = true →
            (admitted (m.bind.getD 1 0) (m.bind.getD 0 0) = false → ends s 4) ∧
            (admitted (m.bind.getD 1 0) (m.bind.getD 0 0) = true → ∃ t, ends t 0 ∧
              actorOf (t.core i) slot = some
                { a with handler := m.bind.getD 0 0, code := m.bind.getD 1 0, stopped := false, splicing := some (m.num, m.issuer) }))) ∧
        (a.splicing = none → m.kind = 1 →
          (outZero s a = none → (a.stLen ≠ 0 → ends s 5) ∧ (a.stLen = 0 → ∃ t, exec .markerPerform s = .next t ∧
            actorOf (t.core i) slot = none ∧ ∀ j x r, vget a.ins none j = some (x, r) → chanOf t i x = none)) ∧
          (∀ dk dch r D, outZero s a = some (dk, dch, r, D) →
            let suc := if (inputZeroRate s dk dch).isSome then D.inputOf else none
            let inh := match suc.bind fun n => actorOf (s.core dk) n with | some b => b.inhLen | none => 0
            (inh < a.stLen → ends s 5) ∧
            (a.stLen ≤ inh → ∃ (t : State) (p : Perf) (b : Actor), exec .markerPerform s = .next t ∧
              actorOf (t.core i) slot = some b ∧ b.perf = some p ∧ b.splicing = some (m.num, m.issuer) ∧ noted t ∧
              p.core = dk ∧ p.slot = suc ∧ p.rebind = false ∧ p.copied = decide (a.stLen = 0) ∧ p.pass = [(ch, dk, dch)]))) ∧
        (a.splicing = none → m.kind = 2 → k ≠ i →
          (freeSlot (s.core k) = none → ends s 1) ∧
          (∀ n, freeSlot (s.core k) = some n →
            let b : Actor :=
              { a with handler := m.bind.getD 0 0, code := m.bind.getD 1 0, stopped := false, waits := true, fired := 0 }
            let chans := a.ins.toList.filterMap fun x => match x with
              | some (c, _) => (chanOf s i c).map fun y => (c, y.cap)
              | none => none
            (fitNew s k b chans = none → ends s 2) ∧
            (∀ cs, fitNew s k b chans = some cs →
              (∀ x, newSlotFail s k a.owner b = some x → (x = 3 ∨ x = 4) ∧ ends s x) ∧
              (newSlotFail s k a.owner b = none → ∃ (t : State) (p : Perf) (y : Actor), exec .markerPerform s = .next t ∧
                actorOf (t.core k) n = some b ∧ actorOf (t.core i) slot = some y ∧ y.perf = some p ∧
                y.splicing = some (m.num, m.issuer) ∧ noted t ∧ p.core = k ∧ p.slot = some n ∧ p.rebind = true ∧
                p.copied = decide (a.stLen = 0) ∧ p.pass = chans.map fun x => (x.1, k, x.1)))))))) ∧
    -- a remove or a rebind to another core goes on
    (∀ (p : Perf) (num issuer : Nat), inFlight s i slot = false → mget? (s.core i).sched.armed slot = none → a.perf = some p →
      a.splicing = some (num, issuer) →
      (p.copied = false → p.copy = none →
        let c := stateCopy s i slot a p
        c.src = BitVec.ofNat 64 (tcmBase i + a.stOff) ∧ c.len = a.stLen ∧ c.owner = a.owner ∧
        (c.verdict s = 0 → locksClash s c.locks = false →
          (8 ≤ (s.core i).sched.fifo.length ∨ locksFit s (dieOf i) c.locks = false → exec .markerPerform s = .next s) ∧
          ((s.core i).sched.fifo.length < 8 → locksFit s (dieOf i) c.locks = true → ∃ t, exec .markerPerform s = .next t ∧
            t.eng.copies = s.eng.copies ++ [c] ∧ (actorOf (t.core i) slot).map (·.perf) = some (some { p with copy := some c.id }))) ∧
        (c.verdict s ≠ 0 ∨ locksClash s c.locks = true → ∃ t, exec .markerPerform s = .next t ∧
          ((actorOf (t.core i) slot).map (·.perf) = some none ∨ (p.rebind = true ∧ p.core = i ∧ p.slot = some slot)) ∧
          (t.core issuer).sched.splices.map (fun e => (e.num, e.outcome)) =
            (s.core issuer).sched.splices.map fun e => (e.num, if e.num = num then 9 else e.outcome))) ∧
      (∀ k dch D, p.copied = true → p.pass = [(ch, k, dch)] → chanOf s k dch = some D → (k, dch) ≠ (i, ch) →
        (∀ ws x rest, C.items = .data ws x :: rest →
          (D.room = 0 → exec .markerPerform s = .next s) ∧
          (D.room ≠ 0 → ∃ t, exec .markerPerform s = .next t ∧ chanOf t i ch = some { C with items := rest } ∧
            chanOf t k dch = some { D with items := D.items ++ [.data ws x] })) ∧
        (C.items = [] → passesInto s i [ch] = true → exec .markerPerform s = .next s) ∧
        (C.items = [] → C.reserved = [] → passesInto s i [ch] = false → ∃ t, exec .markerPerform s = .next t ∧ actorOf (t.core i) slot = none ∧
          (∀ j x r, vget a.ins none j = some (x, r) → chanOf t i x = none) ∧
          ∀ j n b r, actorOf (s.core j) n = some b → (j, n) ≠ (i, slot) → vget b.outs none 0 = some (i, ch, r) →
            (actorOf (t.core j) n).map (fun b => (vget b.outs none 0).map fun x => (x.1, x.2.1)) = some (some (k, dch))))))

/-- R386 to R389 and R395 to R412.
The model's own choices in it: log entries 18 (the image of `rtwr`), 42 (a write of MGEN ends the sessions and discards
every port's link keys in its own step) and 45 to 51. -/
def Obligations.RightsRegionsAndWays : Prop :=
  (∀ (h : Hdr) (f : Firing) (s : State) (d a b g : GReg) (rights : BitVec 5) (clear nozero : Bool) (dies : BitVec 9), ready .e h f s = true →
    let i := s.cur
    let c := issuer s
    let u := begun s
    let A := gread c a
    let B := gread c b
    let C := gread c g
    let sup := supState c = true
    let answers := fun (e : Instr) (t : State) (w : Nat) => exec e s = retired h f s t (.written [gdest c d (BitVec.ofNat 64 w)])
    let drops := fun (e : Instr) (t : State) (w : Nat) =>
      exec e s = retired h f s t (.begun [gdest c d (BitVec.ofNat 64 w)] (.drop u.dropCount) .engine)
    let entry := fun (t : State) (o k : Nat) (ws : List Word) => ∀ j, j < 4 → readWord t.mem (entAddr u o k + 8 * j) = ws.getD j 0
    let grant := Instr.grant h d a b g rights
    let revoke := Instr.revoke h d a b g rights
    let rtwr := Instr.rtwr h d a b clear nozero
    let rgnnew := Instr.rgnnew h d a b g rights
    let rgnfree := Instr.rgnfree h d a
    let set := Instr.waymSet h d a b dies
    let rd := Instr.waymRd h d a b
    (supState c = false → ∀ e n, (e, n) ∈ [(rtwr, 0x2C2), (.plbinv h d a true, 0x2C3), (rgnnew, 0x2C4), (rgnfree, 0x2C5), (set, 0x2C6), (rd, 0x2C6)] →
      exec e s = .next (trap u i 0x04 (BitVec.ofNat 64 n))) ∧
    -- grant and revoke
    (let t := wf C 0 16
     let broken := wf C 31 33 ≠ 0 ∨ t = 0 ∨ (wb C 30 = false ∧ wf C 16 14 ≠ 0)
     let here := wb C 30 = false ∨ wf C 16 14 = u.ownMod
     let base := wf A 0 56
     let len := B.toNat
     let col := if entKind base = some 0 then wf A 56 8 else 0
     let badRange := base % 65536 ≠ 0 ∨ len % 65536 ≠ 0 ∨ len = 0 ∨ 2 ^ 56 < base + len ∨ mixedKinds base len = true
     let mine := ((tableEnts u f.owner).map (·.2)).filter fun e => e.colour == col && e.meets base len
     let usable := u.live t = true ∧ u.tearing t = false
     (broken ∨ badRange → answers grant u 4) ∧ (broken → answers revoke u 4) ∧
     -- another module
     (¬ broken → ¬ here →
       let there := reachSub u (u.worldOf f.owner) (wf C 16 14)
       let free := fun (e : Instr) (ok : Nat → Prop) => ∃ v st, answers e v st ∧ v.homes = u.homes ∧ ok st
       (∀ sub, there = some sub → (¬ badRange → answers grant u (7 + sub * 2 ^ 8)) ∧ answers revoke u (7 + sub * 2 ^ 8)) ∧
       (there = none → (¬ badRange → free grant (· ∈ [0, 1, 2, 3, 15, 7 + 6 * 2 ^ 8])) ∧
         free revoke fun st => st ∈ [2, 4, 7 + 6 * 2 ^ 8] ∨ ∃ n, st = n * 2 ^ 16)) ∧
     (¬ broken → here → ¬ usable → (¬ badRange → answers grant u 2) ∧ answers revoke u 2) ∧
     (¬ broken → ¬ badRange → here → usable →
       (u.worldOf t ≠ u.worldOf f.owner → answers grant u 15) ∧
       (u.worldOf t = u.worldOf f.owner →
         (coveredBy mine base len (rights ||| 16) = false → answers grant u 3) ∧
         (coveredBy mine base len (rights ||| 16) = true →
           ((∃ x y, x ∈ mine ∧ y ∈ mine ∧ x.world ≠ y.world) → answers grant u 15) ∧
           ((∀ x y, x ∈ mine → y ∈ mine → x.world = y.world) →
             let same := (tableEnts u t).find? fun x => x.2.base == base && x.2.length == len && x.2.colour == col && x.2.granter == f.owner
             (∀ k e, same = some (k, e) → MemOk u → ∃ v, answers grant v 0 ∧ SameMemBut u v (entAddr u t k) 32 ∧
               entry v t k (entWords { e with rights := e.rights ||| rights })) ∧
             (same = none → firstEmpty u t = none → answers grant u 1) ∧
             (∀ k, same = none → firstEmpty u t = some k → MemOk u → ∃ v, answers grant v 0 ∧ SameMemBut u v (entAddr u t k) 32 ∧
               ∀ x ∈ mine, entry v t k (entWords
                 { base, length := len, rights, colour := col, world := x.world, granter := f.owner })))))) ∧
     (¬ broken → here → usable →
       let granted := (tableEnts u t).filter fun x => x.2.granter == f.owner && x.2.meets base len
       let hit := granted.filter fun x => x.2.colour == col && (x.2.rights &&& rights) != 0
       ((∃ x ∈ granted, x.2.within base len = false) → answers revoke u 4) ∧
       ((∀ x ∈ granted, x.2.within base len = true) → (hit = [] → answers revoke u 0) ∧
         (hit ≠ [] → MemOk u → ∃ v, drops revoke v (hit.length * 2 ^ 16) ∧
           (∀ x ∈ hit, let r := x.2.rights &&& ~~~rights
             (r = 0 → entry v t x.1 [0, 0, 0, 0]) ∧ (r ≠ 0 → entry v t x.1 (entWords { x.2 with rights := r }))) ∧
           (∀ y, (∀ x ∈ hit, y < entAddr u t x.1 ∨ entAddr u t x.1 + 32 ≤ y) → readByte v.mem y = readByte u.mem y) ∧
           (∃ j, v.drops = u.drops ++ [j] ∧ j.n = u.dropCount ∧ j.core = some i ∧ j.dropped = false ∧
             j.ents = some (hit.map fun x => (t, x.1, x.2.base, x.2.length))))))) ∧
    -- rtwr and plbinv
    (sup → MemOk u →
      let o := wf B 0 16
      let k := wf B 16 8
      let old := tableEnt u o k
      let writes := fun (v : State) (ws : List Word) (new : Option RtEnt) => entry v o k ws ∧
        (∀ x, old = some x → lowers x new = true → drops rtwr v 0) ∧
        ((∀ x, old = some x → lowers x new = false) → answers rtwr v 0)
      (clear = true → (u.capOf o ≤ k → answers rtwr u 4) ∧ (k < u.capOf o → u.live o = false → answers rtwr u 2) ∧
        (k < u.capOf o → u.live o = true → ∃ v, writes v [0, 0, 0, 0] none ∧ SameMemBut u v (entAddr u o k) 32)) ∧
      (clear = false → ownRecOff i A 32 32 = none → answers rtwr u 4) ∧
      (∀ off, clear = false → ownRecOff i A 32 32 = some off →
        let r := tcmBase i + off
        let ws := wordsLe 4 (readBytes u.mem r 32)
        (∀ w cause, checkAt u i A 32 0 = .bad w cause → exec rtwr s = .next (trap w i cause A)) ∧
        (∀ w l p, checkAt u i A 32 0 = .ok w l p → unperfOverlap c r 32 = false → matrixOverlap c off 32 = false →
          blockedRead w r 32 = none → poisonCode w r 32 = none →
        (u.capOf o ≤ k → answers rtwr w 4) ∧ (k < u.capOf o → u.live o = false → answers rtwr w 2) ∧
        (k < u.capOf o → u.live o = true → (imageOf ws = .bad → answers rtwr w 4) ∧
          (imageOf ws = .empty → ∃ v, writes v [0, 0, 0, 0] none ∧ SameMemBut u v (entAddr u o k) 32) ∧
          (∀ e, imageOf ws = .ent e → (e.world ≠ 0 → e.world ≠ u.worldOf o → answers rtwr w 15) ∧
            (e.world = 0 ∨ e.world = u.worldOf o →
              let zeroing := nozero = false ∧ entKind e.base ≠ some 0
              let inEnt := fun (y : Nat) => entAddr u o k ≤ y ∧ y < entAddr u o k + 32
              (zeroing → zeroWaits w e.base e.length = true → exec rtwr s = .next (stall w i)) ∧
              ((zeroing → zeroWaits w e.base e.length = false) → ∃ v, writes v ws (some e) ∧
                ∀ y, ¬ inEnt y → readByte v.mem y =
                  if (nozero = false ∧ entKind e.base ≠ some 0) ∧ e.base ≤ y ∧ y < e.base + e.length then 0 else readByte u.mem y))))))) ∧
    (∃ v, answers (.plbinv h d a false) v 0 ∧ v.homes = s.homes ∧ (v.core i).cache.plb =
      c.cache.plb.filter fun e => decide (a ≠ 0 ∧ e.owner ≠ wf A 0 16)) ∧
    (sup → ∃ v j, drops (.plbinv h d a true) v 0 ∧ v.homes = s.homes ∧ v.drops = u.drops ++ [j] ∧ j.n = u.dropCount ∧ j.core = some i ∧
      j.ents = none ∧ j.owner = (if a = 0 then none else some (wf A 0 16)) ∧ j.dropped = false) ∧
    -- regions
    (sup → MemOk u →
      let base := A.toNat
      let len := B.toNat
      let o := wf C 0 16
      let rs := (listedRegions u).filter fun x => x.2.state != 0 && x.2.meets base len
      let bad := base % 65536 ≠ 0 ∨ len % 65536 ≠ 0 ∨ len = 0 ∨ 0xF0_0000_0000_0000 < base + len ∨ rights = 0
      let quar := ∃ x ∈ rs, x.2.state = 3
      let clash := ∃ x ∈ rs, x.2.state = 1 ∨ x.2.base ≠ base ∨ x.2.len ≠ len
      let same := rs.find? fun x => x.2.state == 2 && x.2.base == base && x.2.len == len
      let makes := fun (k colour adv e : Nat) => ∃ v, answers rgnnew v (colour * 2 ^ 16) ∧
        regionAt v k = { base, len, colour, adv := adv % 256, state := 1, holder := o } ∧
        entry v o e (entWords { base, length := len, rights, colour, world := u.worldOf o, granter := 0 })
      (bad → answers rgnnew u 4) ∧ (¬ bad → quar → answers rgnnew u 14) ∧ (¬ bad → ¬ quar → clash → answers rgnnew u 5) ∧
      (¬ bad → ¬ quar → ¬ clash → u.live o = false → answers rgnnew u 2) ∧
      (¬ bad → ¬ quar → ¬ clash → u.live o = true →
        (firstEmpty u o = none ∨ (same = none ∧ freeRegion u = none) → answers rgnnew u 1) ∧
        (∀ e, firstEmpty u o = some e → (∀ k r, same = some (k, r) → makes k ((r.colour + 1) % 256) (r.adv + 1) e) ∧
          (∀ k, same = none → freeRegion u = some k → makes k 0 0 e)))) ∧
    (sup → MemOk u →
      let same := (listedRegions u).find? fun x => x.2.state == 1 && x.2.base == A.toNat
      (same = none → answers rgnfree u 4) ∧
      (∀ k r, same = some (k, r) → ∃ v, drops rgnfree v 0 ∧ regionAt v k = { r with state := if r.adv = 255 then 3 else 2 } ∧
        ∀ x ∈ entriesMeeting u r.base r.len, entry v x.1 x.2.1 [0, 0, 0, 0])) ∧
    -- way masks
    (sup →
      let cls := A.toNat
      let badSet := 15 < cls ∨ wf B 16 48 ≠ 0 ∨ dies = 0
      let badRd := 15 < cls ∨ 719 < wf B 0 10 ∨ 8 < wf B 16 4 ∨ wf B 10 6 ≠ 0 ∨ wf B 20 44 ≠ 0
      let ways := fun (t : State) (k j : Nat) => vget ((mget? t.homes.ways k).getD (Vector.replicate 16 0xFFFF)) 0xFFFF j
      (badSet → answers set u 4) ∧ (badRd → answers rd u 4) ∧
      (¬ badSet → ∃ v, answers set v 0 ∧ v.mem = u.mem ∧ ∀ k j, k < 9 → j < 16 →
        ways v k j = if dies.getLsbD k = true ∧ j = cls then BitVec.ofNat 16 (wf B 0 16) else ways u k j) ∧
      (¬ badRd → answers rd u
        (((mget? u.homes.meres (720 * wf B 16 4 + wf B 0 10)).getD []).filter fun l => l.cls == cls).length))) ∧
  (∀ (es : List RtEnt) (base len : Nat) (need : BitVec 5), 0 < len →
    (coveredBy es base len need = true ↔ ∀ x, base ≤ x → x < base + len → rightsAt es x &&& need = need)) ∧
  -- drops
  (∀ (s : State) (j : DropJob), s.drops.find? (·.n == s.arg.id) = some j →
    -- step 2 of a teardown follows the drop of its step 1
    let step1 := j.core = none ∧ j.pinv = false
    let next := fun (v t : State) => (step1 → t = drainOwner v v.owners.tearOwner) ∧ (¬ step1 → t = v)
    (j.dropped = false → ∃ v t, exec .plbDrop s = .next t ∧ (t = v ∨ (next v t ∧ v.drops = s.drops.filter (·.n != j.n))) ∧ v.homes = s.homes ∧
      (∀ k, ∀ e ∈ (v.core k).cache.plb, j.hits e = false) ∧ (∀ x ∈ v.eng.plbs, ∀ e ∈ x.2, j.hits e = false)) ∧
    (j.dropped = true → j.ended s = true → ∃ v t, exec .plbDrop s = .next t ∧ next v t ∧ v.homes = s.homes ∧
      v.drops = s.drops.filter (·.n != j.n) ∧ (j.pinv = true → v.owners.pinvBusy = false) ∧ ∀ i, j.core = some i → findOut (v.core i) j.out = none)) ∧
  -- events
  (∀ (s : State), MemOk s →
    let v := s.arg.v
    let off := s.arg.off
    let o := wf v 0 16
    let k := s.arg.id
    (0x800000 < off + 8 ∨ off % 8 ≠ 0 → exec .rightsAreaWrite s = .next s) ∧
    (off + 8 ≤ 0x800000 → off % 8 = 0 → ∃ t, exec .rightsAreaWrite s = .next t ∧ readWord t.mem (rightsBase + off) = v ∧
      SameMemBut s t (rightsBase + off) 8 ∧ t.cores = s.cores ∧
      t.owners.mgen = s.owners.mgen + (if 0xA0020 ≤ off ∧ off < 0xA2000 then 1 else 0)) ∧
    (wb v 63 = false → exec .otearWrite s = .next s ∧ exec .pinvWrite s = .next s) ∧
    (wb v 63 = true →
      (s.owners.tearBusy = true ∨ s.live o = false → ∃ t, exec .otearWrite s = .next t ∧ t = { s with owners := { s.owners with tearErr := true } }) ∧
      (s.owners.tearBusy = false → s.live o = true → ∃ t, exec .otearWrite s = .next t ∧ t.owners.tearBusy = true ∧
        t.owners.tearErr = false ∧ t.owners.tearOwner = o ∧ t.live o = true ∧ t.tearing o = true ∧
        (∀ j, j < s.capOf o → slotEmpty t o j = true) ∧
        ∃ j, t.drops = s.drops ++ [j] ∧ j.n = s.dropCount ∧ j.owner = some o ∧ j.ents = none ∧ j.core = none ∧ j.pinv = false ∧
          j.dropped = false) ∧
      (s.owners.pinvBusy = true → exec .pinvWrite s = .next s) ∧
      (s.owners.pinvBusy = false → ∃ t j, exec .pinvWrite s = .next t ∧ t.owners.pinvBusy = true ∧ t.homes = s.homes ∧
        t.drops = s.drops ++ [j] ∧ j.pinv = true ∧ j.core = none ∧ j.ents = none ∧ j.owner = (if o = 0 then none else some o))) ∧
    (s.owners.tearBusy = false ∨ (∃ j ∈ s.drops, j.core = none ∧ j.pinv = false) → exec .teardownComplete s = .next s) ∧
    (∃ t, exec .mgenWrite s = .next t ∧ t.owners.mgen = s.owners.mgen + 1 ∧ t.homes = s.homes ∧
      ∀ x ∈ t.eng.ports, x.2.tx = none ∧ x.2.rx = none) ∧
    (s.owners.measured.contains k = false → exec .measuredRangeWrite s = .next s) ∧
    (s.owners.measured.contains k = true → ∃ t, exec .measuredRangeWrite s = .next t ∧ SameMemBut s t (worldDesc k) 8 ∧
      wf (readWord t.mem (worldDesc k)) 0 32 = (wf (readWord s.mem (worldDesc k)) 0 32 + 1) % 2 ^ 32 ∧
      wf (readWord t.mem (worldDesc k)) 32 32 = wf (readWord s.mem (worldDesc k)) 32 32 ∧ t.owners.mgen = s.owners.mgen + 1) ∧
    (256 ≤ k ∨ 8 ≤ off → exec .keySlotWrite s = .next s) ∧
    (k < 256 → off < 8 → ∃ t x, exec .keySlotWrite s = .next t ∧ t.homes = s.homes ∧ t.owners.mgen = s.owners.mgen + 1 ∧
      mget? t.owners.keys k = some x ∧ (off = 0 → x.valid = wb v 63 ∧ x.world = wf v 0 8) ∧
      (∀ j : Nat, j < 4 → off = j + 1 → vget x.key 0 j = v))) ∧
  -- what a drain and the end of a teardown leave
  (∀ (s : State) (o k ch : Nat),
    let t := drainOwner s o
    (∀ x ∈ (t.core k).sched.deque, x.owner ≠ o) ∧ (∀ x ∈ (t.core k).sched.launchq, x.owner ≠ o) ∧ (∀ x ∈ (t.core k).sched.windowq, x.owner ≠ o) ∧
    (∀ c, chanOf t k ch = some c → c.owner ≠ o) ∧ (∀ x, actorOf (t.core k) ch = some x → x.owner = o → x.freeing = true)) ∧
  (∀ (s : State),
    let o := s.owners.tearOwner
    let u := drainOwner s o
    s.owners.tearBusy = true → (∀ j ∈ s.drops, j.core ≠ none ∨ j.pinv = true) → (drained u o = false → exec .teardownComplete s = .next u) ∧
    (drained u o = true → o < 65536 → MemOk u → ∃ t, exec .teardownComplete s = .next t ∧ t.owners.tearBusy = false ∧ t.live o = false ∧
      t.tearing o = false ∧ (∀ x ∈ t.weirs, x.2.owner ≠ o) ∧ (∀ x ∈ t.eng.groups, x.2.owner ≠ o) ∧
      ∀ x ∈ listedRegions t, ¬ (x.2.state = 1 ∧ x.2.holder = o)))

/-- R374 to R378, with R420 for a poisoned word of the frame.
The model's own choices in it: log entry 67, and for a frame word that meets poison log entries 19 and 68. -/
def Obligations.SavesAndPreemption : Prop :=
  (∀ (h : Hdr) (f : Firing) (s : State) (d a b g : GReg) (tables tiles firing clear : Bool), ready .e h f s = true →
    let i := s.cur
    let c := issuer s
    let u := begun s
    let A := gread c a
    let B := gread c b
    let p : Parts := { tables, tiles, firing }
    let preq := Instr.preq h d a b g
    let sv := Instr.ctxsv h d a b tables tiles firing clear
    let rs := Instr.ctxrs h d a tables tiles firing
    let len := 64 + (if firing then 896 else 0) + (if tables then 2176 else 0) + (if tiles then 66048 else 0)
    let answers := fun (e : Instr) (t : State) (w : Nat) => exec e s = retired h f s t (.written [gdest c d (BitVec.ofNat 64 w)])
    let bad := A.toNat % 64 ≠ 0 ∨ (tables = false ∧ tiles = false ∧ firing = false)
    (supState c = false → exec preq s = .next (trap u i 0x04 0x303) ∧ exec sv s = .next (trap u i 0x04 0x304) ∧
      exec rs s = .next (trap u i 0x04 0x305)) ∧
    (supState c = true →
      (localDesig u A = none → answers preq u 4) ∧
      (∀ x, localDesig u A = some x →
        (preemptBusy (u.core x.core).sched = true → answers preq u 1) ∧
        (preemptBusy (u.core x.core).sched = false → ∃ t, answers preq t 0 ∧ t.homes = s.homes ∧
          (t.core x.core).sched.preemptIn = (u.core x.core).sched.preemptIn ++ [(B, gread c g)])) ∧
      (bad → answers sv u 4 ∧ answers rs u 4) ∧
      (¬ bad → firing = true → f.handler = false → answers sv u 3 ∧ answers rs u 3) ∧
      (¬ bad → (firing = true → f.handler = true) →
        (B.toNat < len → answers sv u (10 + len * 2 ^ 16)) ∧
        (∀ v, len ≤ B.toNat → checkRun u i A 1 (len / 64) = .ok v → matrixBusy (v.core i) = false →
          areaBusy v i A (len / 64) true = false →
          (∀ e, firing = true → framePoison v i 0 16 = some e → exec sv s = .next (containFrame v i e f)) ∧
          ((firing = true → framePoison v i 0 16 = none) →
            (∀ t, saveArea v i f.owner A p = (t, false) → answers sv t 11) ∧
            (∀ t, saveArea v i f.owner A p = (t, true) → answers sv
              (if clear then t.onMtx i fun m => { m with dt := Vector.replicate 2 .empty, tiles := [] } else t) 0))) ∧
        (∀ v hd, AreaAt u i A 1 v hd →
          let w := fun (k : Nat) => (wordsLe 8 hd).getD k 0
          let q := Parts.ofCode (wf (w 0) 0 3)
          let whole := wb (w 0) 63 = true ∧ (w 1).toNat = q.length ∧ q.has p = true
          (¬ whole → answers rs v 12) ∧
          (whole → ∀ x area, AreaAt v i A (q.length / 64) x area →
            let same := firing = true → sameFiring x i (area.drop 64) = true
            let ok := crc32c (area.drop 64) = wf (w 2) 0 32
            (¬ ok → answers rs x 12) ∧
            (∀ e, ok → firing = true → framePoison x i 5 1 = some e → exec rs s = .next (containFrame x i e f)) ∧
            (ok → (firing = true → framePoison x i 5 1 = none) →
              (¬ same → answers rs x 13) ∧ (same → answers rs (loadParts x i q p area) 0))))))) ∧
  (∀ (v t : State) (i owner off : Nat) (ea : Word) (p : Parts),
    let body := saveSections v i p
    let a := tcmBase i + off
    decodeAddr i (wf ea 0 56) = some (.tcm i off) → off % 64 = 0 → off + p.length ≤ 2 ^ 17 → i < nCores → MemOk v → body.length + 64 = p.length →
    saveArea v i owner ea p = (t, true) →
      body = (if p.firing then firingSection v i else []) ++ (if p.tables then tablesSection (v.core i) else []) ++
        (if p.tiles then tilesSection (v.core i) else []) ∧
      readBytes t.mem a p.length =
        bytesOfWords [BitVec.ofNat 64 (2 ^ 63 + (if p.tables then 1 else 0) + (if p.tiles then 2 else 0) + (if p.firing then 4 else 0)),
          BitVec.ofNat 64 p.length, BitVec.ofNat 64 (crc32c body), coreId v i, 0, 0, 0, 0] ++ body ∧
      SameMemBut v t a p.length ∧ (t.core i).mtx = (v.core i).mtx ∧ (t.core i).regs.g = (v.core i).regs.g) ∧
  -- a save fails where a write of it meets a lock, or where it reads a poisoned tile
  (∀ (v : State) (i owner off : Nat) (ea : Word) (p : Parts),
    let a := tcmBase i + off
    let locked := fun (x n : Nat) => ∃ l ∈ v.eng.locks, x < l.base + l.len ∧ l.base < x + n
    let fails := (∃ b, b < p.length / 64 ∧ locked (a + 64 * b) 64) ∨ (p.tiles = true ∧ ∃ k, k < 64 ∧ (tileOf (v.core i) k).poison ≠ [])
    decodeAddr i (wf ea 0 56) = some (.tcm i off) → off % 64 = 0 → off + p.length ≤ 2 ^ 17 → i < nCores → MemOk v →
    (saveSections v i p).length + 64 = p.length →
      (¬ fails → ∃ t, saveArea v i owner ea p = (t, true)) ∧
      (fails → ∃ t, saveArea v i owner ea p = (t, false) ∧ (locked a 8 → t = v) ∧
        (¬ locked a 8 → readBytes t.mem a 8 = List.replicate 8 0) ∧ SameMemBut v t a p.length ∧ (t.core i).mtx = (v.core i).mtx)) ∧
  (∀ (v : State) (i : Nat) (p q : Parts) (area : List Byte), MemOk v → area.length = p.length → p.has q = true →
    let t := loadParts v i p q area
    (q.firing = true → (∀ k : Nat, 1 ≤ k → k < 64 → vget (t.core i).regs.g 0 k = (wordsLe 63 (area.drop 64)).getD (k - 1) 0) ∧
      readBytes t.mem (tcmBase i + 0x1F800) 128 = (area.drop 576).take 128 ∧
      (t.core i).regs.wsig.toNat = ofLe ((area.drop 704).take 128) ∧ (t.core i).regs.isig.toNat = ofLe ((area.drop 832).take 128)) ∧
    (q.firing = false → t.homes = v.homes ∧ (t.core i).regs = (v.core i).regs) ∧
    (q.tables = true → ∀ k : Nat, k < 2 → vget (t.core i).mtx.dt .empty k = tableOf (area.drop (p.tablesAt + 1088 * k))) ∧
    (q.tables = false → (t.core i).mtx.dt = (v.core i).mtx.dt) ∧
    (q.tiles = true → ∀ k : Nat, k < 64 →
      let w := BitVec.ofNat 64 (ofLe ((area.drop (p.tilesAt + 8 * k)).take 8))
      (tileOf (t.core i) k).owner = (if wb w 16 = true then some (wf w 0 16) else none) ∧ (tileOf (t.core i) k).elems =
        (List.range 256).map fun e => BitVec.ofNat 32 (ofLe ((area.drop (p.tilesAt + 512 + 1024 * k + 4 * e)).take 4))) ∧
    (q.tiles = false → (t.core i).mtx.tiles = (v.core i).mtx.tiles)) ∧
  (∀ T : DTable, T.owner < 2 ^ 16 → T.ents.length = (match T.st with | .empty => 0 | .c8 => 256 | _ => 16) → tableOf (tableBlock T) = T) ∧
  (∀ s : State,
    let i := s.arg.core
    let d := (s.core i).sched
    (d.preemptIn = [] ∨ d.preempt.isSome = true → exec .preemptRequestArrival s = .next s) ∧
    (∀ r rs, d.preemptIn = r :: rs → d.preempt = none → ∃ t, exec .preemptRequestArrival s = .next t ∧ t.homes = s.homes ∧
      (t.core i).sched.preempt = some r ∧ (t.core i).sched.preemptIn = rs ∧ (t.core i).regs = (s.core i).regs))

/-- R417 to R432, R439. What a test logs on a pass is the model's reading, see the log.
The model's own choices in it: log entries 20, 25, 59, 60 and 61; the member of a gang that codes 9, 17 and 18 fail and its list of
corrupted members, log entry 30; the late fault on the consumer's tag, log entry 19; the dies that do not run, log entry 74. -/
def Obligations.ErrorsBanksAndTests : Prop :=
  -- logging
  (∀ (s : State) (r : McRec),
    let b := s.bank r.bank
    let t := s.mcLog r
    let n := fun (k : Nat) => vget (t.bank r.bank) 0 k
    let lo := wf (vget b 0 4) 0 32
    let hi := wf (vget b 0 4) 32 32
    let keeps := wb (vget b 0 0) 63 = true ∧ r.cls ≤ wf (vget b 0 0) 60 2
    (r.cls = 0 → wf (n 4) 0 32 = min (lo + 1) (2 ^ 32 - 1) ∧ wf (n 4) 32 32 = hi) ∧
    (r.cls ≠ 0 → wf (n 4) 0 32 = lo ∧ wf (n 4) 32 32 = min (hi + 1) (2 ^ 32 - 1)) ∧
    (keeps → wb (n 0) 63 = true ∧ wb (n 0) 62 = true ∧ wf (n 0) 0 62 = wf (vget b 0 0) 0 62 ∧
      ∀ k, k < 8 → k ≠ 0 → k ≠ 4 → n k = vget b 0 k) ∧
    (¬ keeps → r.bank < 2 ^ 16 → r.code < 2 ^ 8 → r.owner < 2 ^ 16 → r.cls < 4 →
      wb (n 0) 63 = true ∧ wb (n 0) 62 = wb (vget b 0 0) 63 ∧ wf (n 0) 60 2 = r.cls ∧ wb (n 0) 59 = r.addr.isSome ∧
      wb (n 0) 58 = r.fenced ∧ wb (n 0) 57 = r.stest ∧ wb (n 0) 56 = r.poison ∧ wf (n 0) 32 16 = r.owner ∧ wf (n 0) 16 8 = r.code ∧
      wf (n 0) 0 16 = r.bank ∧ n 1 = BitVec.ofNat 64 (r.addr.getD 0) ∧ n 3 = r.synd ∧ n 5 = BitVec.ofNat 64 s.timeUs ∧
      n 6 = r.misc0 ∧ n 7 = r.misc1) ∧
    (∀ k, k ≠ r.bank → t.bank k = s.bank k) ∧ t.homes = s.homes ∧ t.cores = s.cores) ∧
  -- errors
  (∀ (s : State) (e : ErrInfo), s.arg.err = some e → e.core.all (coreOn s) = true →
    let d := e.bank / 512
    let k := e.bank % 512
    let corrected := (e.code = 1 ∨ e.code = 2 ∨ e.code = 4) ∧ d ≤ 8 ∧ k ≤ 423 ∧ dieOn s d = true
    let fatal := dieOn s d = true ∧ ((e.code = 15 ∧ 382 ≤ k ∧ k ≤ 384) ∨ (e.code = 16 ∧ k ≤ 423))
    let contains := fun (t : State) => exec .containedError s = .next t
    (¬ corrected → exec .correctedError s = .next s) ∧
    (corrected → e.code ≠ 2 → exec .correctedError s = .next (logError s e e.bank 0 false false)) ∧
    (corrected → e.code = 2 → ∃ u, exec .correctedError s = .next (logError u e e.bank 0 false false) ∧ u.homes = s.homes ∧
      let a := e.addr.getD 0
      let mine := fun (o n : Nat) (p : PlbEnt) => p.owner = o ∧ p.slot = n
      (∀ i, e.core = some i → let x := (s.core i).cache
        let y := (u.core i).cache
        (s.arg.list = [0] → y = { x with l1 := x.l1.filter fun l => decide (l.line ≠ a / 64) }) ∧
        (s.arg.list = [1] → y = { x with ic := x.ic.filter fun l => decide (l.line ≠ a / 64) }) ∧
        (s.arg.list = [2] → y = { x with tlb := x.tlb.filter fun t => decide (¬ (t.page ≤ a ∧ a < t.page + t.size)) }) ∧
        ∀ o n, s.arg.list = [3, o, n] → ∀ p, p ∈ y.plb ↔ p ∈ x.plb ∧ ¬ mine o n p) ∧
      (e.core = none → (∀ o n g, s.arg.list = [3, o, n, g] → ∀ x ∈ u.eng.plbs, x.1 = g → ∀ p ∈ x.2, ¬ mine o n p) ∧
        ∀ l q, s.arg.list = [4, l, q] → ∀ x ∈ (u.walker d).tcache, ¬ (x.1 = l ∧ x.2.1 = q))) ∧
    (¬ fatal → exec .fatalError s = .next s) ∧
    (fatal → ∃ t, exec .fatalError s = .next t ∧ t.rcv.fatal = some e.code ∧ t.rcv.banks = (logError s e e.bank 2 false false).rcv.banks ∧
      t.boot.st = .report (if e.code = 16 then 8 else 7) ∧ t.boot.postDue = true ∧ t.homes = s.homes ∧ t.cores = s.cores ∧
      ∀ x ∈ t.eng.ports, x.2.st = .fenced ∨ x.2.st = .down) ∧
    (∀ i, e.core = some i →
      let b := 512 * dieOf i + tusOf i % 360
      (e.code = 8 → (s.core i).firing.isSome = true →
        contains ((logError s e b 1 false false).abort i 0x14 (BitVec.ofNat 64 b) e.misc0)) ∧
      (e.code = 8 → (s.core i).firing = none → contains (logError s e b 1 false false)) ∧
      -- the consumer: a member of a gang, or an instruction of the core
      (e.code = 9 ∨ e.code = 17 ∨ e.code = 18 → ∃ t, contains t ∧
        let member := fun (g : Gang) => ∃ x ∈ g.members, x.1 = i ∧ ∃ o, findOut (s.core i) x.2.1 = some o ∧ o.pc = e.misc0
        (∀ (n : Nat) (g : Gang), s.gangs[n]? = some g → member g → ∃ bad, t.gangs[n]? = some { g with failed := i :: g.failed, bad := bad ++ g.bad } ∧
          ∀ j, j ∈ bad ↔ e.code = 9 ∧ j ∈ s.arg.list ∧ ∃ x ∈ g.members, x.1 = j) ∧
        ((∀ g ∈ s.gangs, ¬ member g) → ∀ o, (s.core i).iss.outs.find? (·.pc == e.misc0) = some o → findOut (s.core i) o.id = some o →
          findOut (t.core i) o.id = none ∧ ((s.core i).firing.map (·.num) = some o.firing →
            ∃ x, x.cause = 0x14 ∧ x.pc = o.pc ∧ x.val = BitVec.ofNat 64 b ∧ (o.tag = 0 → x ∈ (t.core i).traps.ready) ∧
              (o.tag ≠ 0 → tagOf (t.core i) o.tag = .faulted x)))) ∧
      (e.code = 9 → ∃ t, contains t ∧ tusOf i ∈ t.rcv.fences.suspect ∧
        (tusOf i ∉ s.rcv.fences.tussocks → ∃ x, (tusOf i, x) ∈ (testOf t (tusOf i / 360)).queue)) ∧
      (e.code = 10 → ∃ t, contains t ∧ i ∈ t.rcv.fences.cores ∧ (t.core i).sched.deque = [] ∧ (t.core i).sched.armed = [] ∧
        (∀ x ∈ (t.core i).sched.actors, x.2.stopped = true) ∧
        (∀ x ∈ (t.core i).sched.chans, ∀ ws v, ChItem.data ws v ∉ x.2.items)) ∧
      (e.code = 17 → ∃ t, contains t ∧ s.arg.off % 128 ∈ (tileOf (t.core i) (e.unit % 64)).poison) ∧
      (e.code = 18 → ∃ t, contains t ∧ vget (t.core i).mtx.dt .empty (e.unit % 2) = .empty)) ∧
    (e.code = 12 → dieOn s d = true → 362 ≤ k → k ≤ 377 → ∃ t, contains t ∧ sluiceUnit d (k - 362) ∈ t.rcv.fences.sluices ∧
      ∀ c ∈ t.eng.copies, dieOf c.core = d → c.st ≠ .running (k - 362)) ∧
    (e.code = 12 → dieOn s d = true → 378 ≤ k → k ≤ 381 → ∃ t, contains t ∧ lodeUnit d (k - 378) ∈ t.rcv.fences.lodes ∧
      ∀ j ∈ (lodeOf t (lodeUnit d (k - 378))).jobs, j.next = j.count ∧ ∃ a, j.noted = some (engineVal 9 a)) ∧
    (e.code = 13 → dieOn s d = true → 402 ≤ k → k ≤ 419 → e.unit < 40 → ∃ t, contains t ∧
      720 * d + 40 * (k - 402) + e.unit ∈ t.rcv.fences.meres ∧ mget? t.homes.meres (720 * d + 40 * (k - 402) + e.unit) = none ∧
      ∀ ls, mget? s.homes.meres (720 * d + 40 * (k - 402) + e.unit) = some ls → ∀ l ∈ ls, l.dirty = true → l.line ∈ s.arg.list →
        mget? t.rcv.poisonLines l.line = some 5) ∧
    (e.code = 14 → dieOn s d = true → d ≠ 4 → 385 ≤ k → k ≤ 400 → contains (fencePort s (16 * (if d < 4 then d else d - 1) + (k - 385)))) ∧
    (∀ a, e.addr = some a → e.code = 3 ∨ e.code = 5 ∨ e.code = 6 ∨ e.code = 7 → poisonable s e.code a = true →
      ∃ t, contains t ∧ (∀ id ∈ s.arg.list, ∀ c n, copyOf t id = some c → c.st ≠ .running n) ∧
        (∀ i o, e.core = some i → (s.core i).iss.outs.find? (·.pc == e.misc0) = some o → findOut (t.core i) o.id = none) ∧
        (s.homes.zp = [] →
          (∀ i o, e.core = some i → (s.core i).iss.outs.find? (·.pc == e.misc0) = some o → (s.core i).firing.map (·.num) = some o.firing) →
          poisonAt t a 1 = true ∧ t.homes.mem = s.homes.mem))) ∧
  -- banks and tests, at issue
  (∀ (h : Hdr) (f : Firing) (s : State) (d a : GReg) (k : Fin 8) (cnt pre : Bool), ready .none h f s = true →
    let i := s.cur
    let c := issuer s
    let u := begun s
    let A := gread c a
    let b := wf A 0 16
    let valid := b / 512 ≤ 8 ∧ b % 512 ≤ 423
    let hole := b / 512 = 4 ∧ 385 ≤ b % 512 ∧ b % 512 ≤ 400
    let rd := Instr.mcrd h d a k
    let clr := Instr.mcclr h d a cnt
    let test := Instr.stest h d a pre
    let answers := fun (e : Instr) (t : State) (w : Word) => exec e s = retired h f s t (.written [gdest c d w])
    (supState c = false → exec rd s = .next (trap u i 0x04 0x306) ∧ exec clr s = .next (trap u i 0x04 0x307) ∧
      exec test s = .next (trap u i 0x04 0x308)) ∧
    (supState c = true →
      (¬ valid → answers rd u 0 ∧ answers clr u 0) ∧
      (valid → answers rd u (if hole then 0 else vget (u.bank b) 0 k.val) ∧
        ∃ t, answers clr t (if hole then 0 else vget (u.bank b) 0 0) ∧ t.homes = s.homes ∧ t.cores = u.cores ∧
          wb (vget (t.bank b) 0 0) 63 = false ∧ wb (vget (t.bank b) 0 0) 62 = false ∧
          wf (vget (t.bank b) 0 0) 0 62 = wf (vget (u.bank b) 0 0) 0 62 ∧ (cnt = true → vget (t.bank b) 0 4 = 0) ∧
          (∀ j, j < 8 → j ≠ 0 → j ≠ 4 ∨ cnt = false → vget (t.bank b) 0 j = vget (u.bank b) 0 j) ∧ ∀ j, j ≠ b → t.bank j = u.bank j) ∧
      (localDesig u A = none → answers test u 4) ∧
      (∀ x, localDesig u A = some x →
        let z := tusOf x.core
        let q := testOf u (z / 360)
        (z ∈ u.rcv.fences.tussocks ∨ q.stbuf = 0 → answers test u 5) ∧
        (z ∉ u.rcv.fences.tussocks → q.stbuf ≠ 0 →
          ((∃ y, (z, y) ∈ q.queue) → answers test u 1) ∧
          ((∀ y, (z, y) ∉ q.queue) → ∃ t, answers test t 0 ∧ t.homes = s.homes ∧ (z, pre) ∈ (testOf t (z / 360)).queue))))) ∧
  -- banks, queue and tests, by event
  (∀ (s : State),
    let v := s.arg.v
    let d := s.arg.unit
    let x := testOf s d
    (¬ (d / 512 ≤ 8 ∧ d % 512 ≤ 423) → exec .mcstatReeveWrite s = .next s ∧ exec .mccountReeveWrite s = .next s) ∧
    (d / 512 ≤ 8 → d % 512 ≤ 423 →
      (∃ t, exec .mcstatReeveWrite s = .next t ∧ wb (vget (t.bank d) 0 0) 63 = false ∧ wb (vget (t.bank d) 0 0) 62 = false ∧
        ∀ j, j < 8 → j ≠ 0 → vget (t.bank d) 0 j = vget (s.bank d) 0 j) ∧
      (∃ t, exec .mccountReeveWrite s = .next t ∧ vget (t.bank d) 0 4 = 0 ∧ ∀ j, j < 8 → j ≠ 4 → vget (t.bank d) 0 j = vget (s.bank d) 0 j)) ∧
    (∃ t, exec .fqbaseWrite s = .next t ∧ t.rcv.fqhead = 0 ∧ t.rcv.fqtail = 0 ∧ t.homes = s.homes ∧
      t.rcv.fqbase = if v.toNat % 2 ^ 18 = 0 ∧ v.toNat + 2 ^ 18 ≤ s.hbmEnd then v.toNat else 0) ∧
    (∃ t, exec .fqlostWrite s = .next t ∧ t.rcv.fqlost = v ∧ t.homes = s.homes ∧ t.cores = s.cores) ∧
    (dieOn s d = false → exec .stbufWrite s = .next s) ∧
    (dieOn s d = true → ∃ t, exec .stbufWrite s = .next t ∧ (testOf t d).stbuf = v.toNat ∧ (testOf t d).phase ≠ .failed ∧ t.homes = s.homes) ∧
    (∀ z y rest, x.queue = (z, y) :: rest →
      (x.phase = .quiesce →
        (quiesced s z = false → exec .stestQuiesced s = .next s) ∧
        (quiesced s z = true → bufOk s x = true → z < 3240 → MemOk s → ∃ t, exec .stestQuiesced s = .next t ∧
          testOf t d = { x with phase := .pattern (s.now + 600000) } ∧ (∀ i ∈ tussockCores z, (t.core i).sched.testReq = false) ∧
          (∀ a, a < 2 ^ 20 → readByte t.mem (x.stbuf + a) = readByte s.mem (tusBase z + a)) ∧ SameMemBut s t x.stbuf (2 ^ 20))) ∧
      (∀ until_, x.phase = .pattern until_ →
        let bad := s.arg.off % 256 + s.arg.id % 256 * 2 ^ 8 + (if s.arg.v = 0 then 0 else 2 ^ 16)
        (s.now < until_ → exec .stestPatternEnd s = .next s) ∧
        (until_ ≤ s.now → bad = 0 → ∃ t, exec .stestPatternEnd s = .next t ∧ testOf t d = { x with phase := .restore } ∧ t.homes = s.homes) ∧
        (until_ ≤ s.now → bad ≠ 0 → ∃ t, exec .stestPatternEnd s = .next t ∧ z ∈ t.rcv.fences.tussocks ∧
          (∀ i ∈ tussockCores z, i ∈ t.rcv.fences.cores) ∧ testOf t d = { x with queue := rest, phase := .failed } ∧
          t.bank (512 * (z / 360) + z % 360) = (s.mcLog
            { bank := 512 * (z / 360) + z % 360, code := 11, cls := 1, owner := 0, addr := none, core := none, unit := 0, fenced := true
              stest := true, poison := false, synd := 0, misc0 := 0, misc1 := BitVec.ofNat 64 bad }).bank (512 * (z / 360) + z % 360))) ∧
      (x.phase = .restore → bufOk s x = true → z < 3240 → MemOk s → ∃ t, exec .stestRestoreDone s = .next t ∧
        (∀ a, a < 2 ^ 20 → readByte t.mem (tusBase z + a) = readByte s.mem (x.stbuf + a)) ∧ SameMemBut s t (tusBase z) (2 ^ 20) ∧
        z ∉ t.rcv.fences.suspect ∧ (∀ y ∈ (testOf t d).queue, y ∈ rest))))

/-- R18 and R332 to R334, R433 to R438.
The model's own choices in it: log entries 62 and 63; memory with nothing listed after a reset, log entry 3; the registers of a core
after a reset, log entries 5 and 6. -/
def Obligations.StartAndHost : Prop :=
  (∀ (s : State),
    let b := s.boot
    let v := s.arg.v
    let bs := s.arg.data
    let fails := fun (e : Instr) (r : Nat) => exec e s =
      .next { s with boot := { b with st := .failed r, postDue := true, flash := { b.flash with lastReason := r } } }
    (∃ t, exec .moduleReset s = .next t ∧ t.boot.flash = b.flash ∧ t.boot.posts = b.posts ∧ t.boot.st = .off ∧ t.mem = [] ∧
      (∀ i, t.core i = CoreSt.reset i) ∧ t.modnum = none ∧ t.now = 0 ∧ t.rcv = State.reset.rcv ∧ t.eng = State.reset.eng) ∧
    (∃ t, exec .powerOn s = .next t ∧ t.boot.st = .rom ∧ (t.boot.minimal = true ↔ 3 ≤ b.flash.fails) ∧
      t.boot.flash.fails = (b.flash.fails + 1) % 2 ^ 64 ∧ t.boot.flash.bootUrl = b.flash.bootUrl ∧ t.boot.flash.lastReason = b.flash.lastReason ∧
      t.mem = [] ∧ ∀ i, t.core i = CoreSt.reset i) ∧
    (b.st = .rom → fails .bootFetchFailure 1) ∧ (b.st ≠ .rom → exec .bootFetchFailure s = .next s) ∧
    (b.st = .firmware → (v ≠ 0 → fails .bringupFailure 5) ∧ (v = 0 → b.minimal = false → fails .bringupFailure 4) ∧
      (v = 0 → b.minimal = true → exec .bringupFailure s = .next s)) ∧
    (b.st ≠ .firmware → exec .bringupFailure s = .next s ∧ exec .bootokWrite s = .next s) ∧
    (s.now < b.powerOn + 3600000000000 → exec .bootTimeout s = .next s) ∧
    (b.powerOn + 3600000000000 ≤ s.now → (b.st = .rom ∨ b.st = .firmware → fails .bootTimeout 6) ∧
      (b.st ≠ .rom → b.st ≠ .firmware → exec .bootTimeout s = .next s)) ∧
    (b.st ≠ .rom → exec .bootImageFetched s = .next s) ∧
    (b.st = .rom →
      (imageOk s bs = false → fails .bootImageFetched 2) ∧
      (imageOk s bs = true →
        (bs.take 4 = [0x45, 0x39, 0x42, 0x49] ∧ leAt bs 4 4 = 1 ∧ leAt bs 16 8 = bs.length ∧ Config.signatureOk bs = true ∧
          ∀ x ∈ imageSegs bs, x.paddr + x.len ≤ s.hbmEnd ∧ 64 + 32 * leAt bs 24 4 ≤ x.off ∧ x.off + x.len + 96 ≤ bs.length) ∧
        (leAt bs 8 8 < Config.versionFloor → fails .bootImageFetched 3) ∧
        (Config.versionFloor ≤ leAt bs 8 8 → ∃ t, exec .bootImageFetched s = .next t ∧ t.boot.st = .firmware ∧ t.boot.entry = leAt bs 32 8 ∧
          t.boot.layer1 = measure bs 0 ∧ t.boot.layer2 = measure bs 1 ∧ t.cores = s.cores ∧
          (MemOk s → (∀ x ∈ imageSegs bs, ∀ y ∈ imageSegs bs, x = y ∨ x.paddr + x.len ≤ y.paddr ∨ y.paddr + y.len ≤ x.paddr) →
            ∀ x ∈ imageSegs bs, ∀ k, k < x.len → readByte t.mem (x.paddr + k) = bs.getD (x.off + k) 0)))) ∧
    (b.st = .firmware → ∃ t, exec .bootokWrite s = .next t ∧ t.boot.st = .ok ∧ t.boot.okWritten = true ∧ t.homes = s.homes ∧ t.cores = s.cores ∧
      (b.minimal = false → t.boot.flash.fails = 0 ∧ t.boot.postDue = b.postDue) ∧
      (b.minimal = true → t.boot.flash = b.flash ∧ t.boot.postDue = true)) ∧
    exec .vsecClearWrite s = .next (if wb v 17 then { s with boot := { b with flash := { b.flash with fails := 0 } } } else s) ∧
    (let due := b.postDue = true ∨ ((∃ r, b.st = .report r) ∧ b.lastPost + 240000000000 ≤ s.now)
     (¬ due → exec .statusPost s = .next s) ∧
     (due → exec .statusPost s = .next { s with boot := { b with
       posts := b.posts ++ [{ reason := b.flash.lastReason, fails := b.flash.fails, minimal := b.minimal
                              id := Config.sha384 Config.identityKey
                              mgen := if b.okWritten then s.owners.mgen.toNat else 0 }]
       postDue := false, lastPost := s.now } })) ∧
    (s.modnum.isSome = true ∨ wb v 63 = false → exec .modnumWrite s = .next s) ∧
    (s.modnum = none → wb v 63 = true → ∃ t, exec .modnumWrite s = .next t ∧ t.modnum = some (wf v 0 14) ∧ t.homes = s.homes ∧
      t.eng.ports = s.eng.ports.map fun x => (x.1, if x.2.st = .down ∧ x.2.target ≠ 0 ∧ b.minimal = false then x.2.toTrain else x.2)) ∧
    exec .hostStatusWrite s = .next { s with windrop := s.windrop + 1 }) ∧
  -- registers of the reeve cores
  (∀ (s : State),
    let a := s.arg.off
    let v := s.arg.v
    let w := fun (P : State → Prop) => ∃ t, exec .reeveRegisterWrite s = .next t ∧ P t
    (a % 8 ≠ 0 → exec .reeveRegisterWrite s = .next s) ∧
    (a % 8 = 0 → a < s.hbmEnd → MemOk s → w fun t => readWord t.mem a = v ∧ t.cores = s.cores ∧ SameMemBut s t (a / 64 * 64) 64 ∧
      (s.homes.zp.contains (a / 64) = false → SameMemBut s t a 8)) ∧
    (∀ i, coreOn s i = true →
      (a = 0xFF82000000 + 64 * i → w fun t => (t.core i).sched.traph = v ∧ (t.core i).regs = (s.core i).regs ∧ t.homes = s.homes) ∧
      (a = 0xFF82000008 + 64 * i → w fun t => (t.core i).sched.scodeb = v) ∧
      (a = 0xFF82000010 + 64 * i → w fun t => (t.core i).sched.sowner = wf v 0 16)) ∧
    (∀ d, dieOn s d = true →
      (a = 0xFF80000000 + 0x10000 * d → w fun t => (t.walker d).ptbase = wf v 13 27 * 2 ^ 13) ∧
      (a = 0xFF80000008 + 0x10000 * d → w fun t => (t.walker d).sdva = wf v 16 40 * 2 ^ 16) ∧
      (a = 0xFF80000010 + 0x10000 * d → w fun t => (t.walker d).sdpa = wf v 16 24 * 2 ^ 16) ∧
      ∀ k c, k < 4 → c < 16 → a = 0xFF81000100 + 0x10000 * d + 128 * k + 8 * c → w fun t => vget (quotasOf t d k) 0 c = wf v 0 32) ∧
    (a = 0xFF81000000 → w fun t => t.hostown = wf v 0 16) ∧ (a = 0xFF81000008 → w fun t => t.windrop = v) ∧
    (a = 0xFF83000018 → w fun t => t.owners.droprec = v) ∧ (a = 0xFF86000010 → w fun t => t.rcv.fqtail = v.toNat) ∧
    (a = 0xFF86000100 → w fun t => t.power.pcap = v.toNat) ∧ (a = 0xFF87000000 → w fun t => t.boot.flash.fails = v.toNat) ∧
    (a = 0xFF87000008 → w fun t => t.boot.flash.lastReason = wf v 0 8)) ∧
  -- injection windows
  (∀ (s : State),
    let i := s.arg.off / 64
    let ws := wordsLe 8 s.arg.data
    let w1 := ws.getD 1 0
    let o := wf w1 32 16
    let whole := s.arg.data.length = 64 ∧ s.arg.off % 64 = 0 ∧ coreOn s i = true
    let refused := s.hostown = 0 ∨ (o ≠ 0 ∧ o ≠ s.hostown) ∨ wf w1 54 4 = 15
    (¬ whole → exec .hostWindowWrite s = .next { s with windrop := s.windrop + 1 }) ∧
    (whole → refused → exec .hostWindowWrite s = .next (s.discard i ws 4 (if o = 0 then s.hostown else o))) ∧
    (whole → ¬ refused → s.live s.hostown = false ∨ s.tearing s.hostown = true →
      exec .hostWindowWrite s = .next (s.discard i ws 5 s.hostown)) ∧
    (whole → ¬ refused → s.live s.hostown = true → s.tearing s.hostown = false → ∃ t, exec .hostWindowWrite s = .next t ∧ t.homes = s.homes ∧
      (t.core i).sched.windowq = (s.core i).sched.windowq ++ [{ words := ws, owner := s.hostown, sup := false }])) ∧
  (∀ (s : State),
    let i := s.arg.core
    let k := s.arg.off / 8
    let win := vset (s.core i).sched.window k s.arg.v
    let ws := win.toList
    let w1 := ws.getD 1 0
    let o := wf w1 32 16
    (coreOn s i = false ∨ 8 ≤ k → exec .reeveWindowWrite s = .next s) ∧
    (coreOn s i = true → k < 7 → exec .reeveWindowWrite s = .next (s.onSched i fun d => { d with window := win })) ∧
    (coreOn s i = true → k = 7 → ∃ t, exec .reeveWindowWrite s = .next t ∧ (t.core i).sched.window = Vector.replicate 8 0 ∧
      (o = 0 → (t.core i).sched.windowq = (s.core i).sched.windowq ∧ ∃ u : State, u.homes = s.homes ∧ t = u.discard i ws 4 0) ∧
      (o ≠ 0 → s.live o = false ∨ s.tearing o = true → (t.core i).sched.windowq = (s.core i).sched.windowq ∧
        ∃ u : State, u.homes = s.homes ∧ t = u.discard i ws 5 o) ∧
      (o ≠ 0 → s.live o = true → s.tearing o = false → t.homes = s.homes ∧
        (t.core i).sched.windowq = (s.core i).sched.windowq ++ [{ words := ws, owner := o, sup := decide (wf w1 54 4 = 15) }]))) ∧
  (∀ (s : State),
    let i := s.arg.core
    let d := (s.core i).sched
    let fits := fun (l : Launch) => (if l.sup then d.supq else d.launchq).length < 16
    ((∀ l ∈ d.windowq, ¬ fits l) → exec .launchEnqueue s = .next s) ∧
    (∀ xs l ys, d.windowq = xs ++ l :: ys → (∀ x ∈ xs, ¬ fits x) → fits l →
      let w0 := l.words.getD 0 0
      let w1 := l.words.getD 1 0
      let u := s.onSched i fun d => { d with windowq := xs ++ ys }
      let gone := s.live l.owner = false ∨ s.tearing l.owner = true
      let bad := 18 ≤ wf w1 58 5 ∨ wf w1 48 6 ≠ 0 ∨ (wf w1 54 4 = 15 ∧ l.sup = false)
      let drops := fun (r : Nat) => exec .launchEnqueue s = .next (u.discard i l.words r l.owner)
      (gone → drops 5) ∧ (¬ gone → bad → drops 3) ∧ (¬ gone → ¬ bad → Bad w0 → drops 2) ∧
      (¬ gone → ¬ bad → ¬ Bad w0 → admitted (if l.sup then d.scodeb else 0) w0 = false → drops 1) ∧
      (¬ gone → ¬ bad → admitted (if l.sup then d.scodeb else 0) w0 = true → ∃ t, exec .launchEnqueue s = .next t ∧ t.homes = s.homes ∧
        (t.core i).sched.windowq = xs ++ ys ∧
        (t.core i).sched.supq = (if l.sup then d.supq ++ [l] else d.supq) ∧
        (t.core i).sched.launchq = (if l.sup then d.launchq else d.launchq ++ [l]))))

/-- R206 to R215 and R278 to R282.
The model's own choices in it: log entries 15, 41, 43 and 44; a flit's unit of service at its port (R323, R324), log entry 52; the
dies and ports that do not run in minimal mode (R434), log entry 74. -/
def Obligations.WalkersAndPorts : Prop :=
  -- walks
  (∀ (s : State) (w : Walk),
    let d := s.arg.unit
    let n := s.arg.id
    let k := s.walker d
    let a := pteAddr w.table w.lvl w.page
    let known := cachedEntry k w.lvl w.page
    let opened := known = none ∧ a / 64 ∈ s.homes.zp
    let e := known.getD (if s.homes.zp.contains (a / 64) then 0 else readWord s.mem a)
    let keeps := fun (t : State) => ∀ y, ¬ (opened ∧ y / 64 = a / 64) → readByte t.mem y = readByte s.mem y
    -- the walk is over: it leaves its place, and counts
    let past := fun (t : State) (bad : Word) => (t.walker d).walks = k.walks + 1 ∧ (t.walker d).badpte = k.badpte + bad ∧
      (k.queue = [] → (t.walker d).active = k.active.eraseIdx n)
    let ends := fun (t : State) (bad : Word) => exec .walkStep s = .next t ∧ past t bad ∧ ∀ i, i ∉ w.cores → t.core i = s.core i
    -- a fault is for the access of each requester that waits for it, and installs nothing
    let faults := fun (t : State) => keeps t ∧ (opened → ∀ y, y / 64 = a / 64 → readByte t.mem y = 0) ∧
      (t.walker d).tcache = k.tcache ∧ ∀ i ∈ w.cores, (t.core i).cache.tlb = (s.core i).cache.tlb ∧
        ((s.core i).cache.walkWait = some (w.page / 65536) → (t.core i).cache.walkFault = some (w.page / 65536)) ∧
        ((s.core i).cache.walkWait ≠ some (w.page / 65536) → t.core i = s.core i)
    -- a translation reaches every requester, and the entries of the walk are kept, the leaf without its ZP
    let found := fun (t : State) (x : Trans) => (∀ i ∈ w.cores, x ∈ (t.core i).cache.tlb) ∧ (x.size = 2 ^ 26 → x.page ∈ t.homes.large) ∧
      cachedEntry (t.walker d) w.lvl w.page = some (e &&& ~~~(0x10 : Word)) ∧
      ((w.path.map (·.1)).Nodup → w.lvl ∉ w.path.map (·.1) → w.path.length ≤ 3 →
        ∀ z ∈ w.path, wb z.2 1 = false → cachedEntry (t.walker d) z.1 w.page = some z.2)
    k.active[n]? = some w → MemOk s → w.table % 8 = 0 →
    (∀ code, known = none → poisonCode s a 8 = some code → ∃ u, u.cores = s.cores ∧ u.homes = s.homes ∧ past u 0 ∧
      exec .walkStep s = .next (w.cores.foldl (fun v i => containNow v i a code) u)) ∧
    (known.isSome = true ∨ poisonCode s a 8 = none →
      (wb e 0 = false → ∃ t, ends t 0 ∧ faults t) ∧ (pteOf s e w.lvl w.page = .malformed → ∃ t, ends t 1 ∧ faults t) ∧
      (∀ table, pteOf s e w.lvl w.page = .next table → ∃ t, exec .walkStep s = .next t ∧ keeps t ∧ t.cores = s.cores ∧
        (t.walker d).tcache = k.tcache ∧ (t.walker d).walks = k.walks ∧
        (t.walker d).active = k.active.set n { w with lvl := w.lvl - 1, table, path := (w.lvl, e) :: w.path }) ∧
      (∀ x, pteOf s e w.lvl w.page = .leaf x false → ∃ t, ends t 0 ∧ keeps t ∧ found t x) ∧
      (∀ x, known = none → pteOf s e w.lvl w.page = .leaf x true → ∃ t, ends t 0 ∧ found t x ∧
        readWord t.mem a = e &&& ~~~(0x10 : Word) ∧ SameMemBut s t a 8 ∧
        ∀ l, x.frame / 64 ≤ l → l < x.frame / 64 + x.size / 64 → l ∈ t.homes.zp ∧ mget? t.homes.lineKey l = some (keyNum s x.key)))) ∧
  (∀ (s : State) (e : Word) (lvl va : Nat),
    (pteOf s e lvl va = .invalid ↔ wb e 0 = false) ∧
    (∀ t, pteOf s e lvl va = .next t ↔ wb e 0 = true ∧ wb e 1 = false ∧ wf e 40 24 = 0 ∧ wf e 5 3 = 0 ∧ 0 < lvl ∧ wf e 8 5 = 0 ∧
      wf e 2 3 = 0 ∧ t = wf e 13 27 * 2 ^ 13 ∧ t + 8192 ≤ s.hbmEnd) ∧
    (∀ x zp, pteOf s e lvl va = .leaf x zp ↔ wb e 0 = true ∧ wb e 1 = true ∧ wf e 40 24 = 0 ∧ wf e 5 3 = 0 ∧ lvl < 2 ∧
      x.size = (if lvl = 0 then 2 ^ 16 else 2 ^ 26) ∧ x.frame = wf e 16 24 * 2 ^ 16 ∧ x.frame % x.size = 0 ∧ x.frame + x.size ≤ s.hbmEnd ∧
      x.page = va / x.size * x.size ∧ x.c = wb e 2 ∧ x.mlock = wb e 3 ∧ x.key = wf e 8 8 ∧ zp = wb e 4)) ∧
  (∀ (s : State),
    let l := s.arg.id
    (s.homes.zp.contains l = false → exec .zpBackgroundZero s = .next s) ∧
    (s.homes.zp.contains l = true → MemOk s → l < 2 ^ 34 → ∃ t, exec .zpBackgroundZero s = .next t ∧ l ∉ t.homes.zp ∧
      (∀ k, k < 64 → readByte t.mem (64 * l + k) = 0) ∧ SameMemBut s t (64 * l) 64)) ∧
  -- shootdowns and migration
  (∀ (s : State),
    let d := s.arg.unit
    let v := s.arg.v
    let k := s.walker d
    let errs := fun (e : Instr) => exec e s = .next (s.onWalker d fun k => { k with err := true })
    let clean := fun (t : State) (kind first len frame : Nat) =>
      let rs := covered s first len
      let apart := fun (a n : Nat) => ∀ r ∈ rs, a + n ≤ r.1 ∨ r.1 + r.2 ≤ a
      (∃ x, (t.walker d).shoot = some x ∧ x.kind = kind ∧ x.first = first ∧ x.count = len ∧ x.frame = frame ∧ x.ranges = rs ∧
        ∀ y ∈ s.cores, oldAccesses y.2 rs ≠ ([], []) ∨ oldReads (s.core y.1) rs = true → (y.1, oldAccesses y.2 rs) ∈ x.waiting) ∧
      (t.walker d).err = false ∧ (t.walker d).done = k.done ∧ wf (t.walker d).sdctl 0 2 = kind ∧
      (∀ i, ∀ y ∈ (t.core i).cache.tlb, apart y.page y.size) ∧
      (∀ i, ∀ y, y ∈ (t.core i).cache.l1 ↔ y ∈ (s.core i).cache.l1 ∧ apart (64 * y.line) 64) ∧
      (∀ i, ∀ y, y ∈ (t.core i).cache.ic ↔ y ∈ (s.core i).cache.ic ∧ apart (64 * y.line) 64) ∧
      (∀ i, (∀ y ∈ (t.core i).cache.prefetches, y.inval = true ∨ apart (64 * y.line) 64) ∧
        ∀ y, (t.core i).cache.ifetch = some y → y.inval = true ∨ apart (64 * y.line) 64) ∧
      (∀ j, (∀ y ∈ (t.walker j).tcache, apart (y.2.1 * levelSpan y.1) (levelSpan y.1)) ∧
        ∀ y ∈ (t.walker j).active, (y.lvl = 3 ∧ y.table = (s.walker j).ptbase ∧ y.path = []) ∨
          (apart (y.page / 2 ^ 26 * 2 ^ 26) (2 ^ 26) ∧ ∀ z ∈ y.path, apart (y.page / levelSpan z.1 * levelSpan z.1) (levelSpan z.1)))
    (∀ e kind, (e, kind) ∈ [(Instr.shootdownPages, 0), (.shootdownAll, 1), (.shootdownSwitch, 2)] →
      (wb v 63 = false ∨ wf v 0 2 ≠ kind ∨ dieOn s d = false → exec e s = .next s) ∧
      (wb v 63 = true → wf v 0 2 = kind → dieOn s d = true → k.shoot.isSome = true → errs e)) ∧
    (wb v 63 = true → dieOn s d = true → k.shoot = none →
      (wf v 0 2 = 0 → ∃ t, exec .shootdownPages s = .next t ∧ t.mem = s.mem ∧ clean t 0 k.sdva (65536 * (wf v 16 16 + 1)) 0) ∧
      (wf v 0 2 = 1 → ∃ t, exec .shootdownAll s = .next t ∧ t.mem = s.mem ∧ clean t 1 0 (2 ^ 56) 0) ∧
      (wf v 0 2 = 2 →
        (wf v 16 16 ≠ 0 → errs .shootdownSwitch) ∧
        -- the switch reads the page's entries at their homes, which opens their zero-pending lines
        (let opens := fun (y : Nat) => y / 64 ∈ s.homes.zp
         let poisoned := (touchEntries s k.ptbase k.sdva 4).2 = false
         (wf v 16 16 = 0 → MemOk s → poisoned ∨ lockedLeaf s d k.sdva = none → ∃ t, exec .shootdownSwitch s = .next t ∧
           (t.walker d).err = true ∧ (t.walker d).shoot = none ∧ t.cores = s.cores ∧ t.homes.awaiting = s.homes.awaiting ∧
           ∀ y, ¬ opens y → readByte t.mem y = readByte s.mem y) ∧
         (∀ x a, wf v 16 16 = 0 → ¬ poisoned → lockedLeaf s d k.sdva = some (x, a) → MemOk s → k.sdpa % 65536 = 0 → k.sdpa < 2 ^ 40 → ∃ t,
           exec .shootdownSwitch s = .next t ∧ clean t 2 x.page x.size k.sdpa ∧
           (∀ y, ¬ opens y → y < a ∨ a + 8 ≤ y → readByte t.mem y = readByte s.mem y) ∧
           t.homes.awaiting = s.homes.awaiting ++ [(k.sdpa / 64, x.size / 64)] ∧
           wf (readWord t.mem a) 16 24 = k.sdpa / 65536 ∧ wb (readWord t.mem a) 3 = false ∧
           wf (readWord t.mem a) 4 12 = wf (readWord s.mem a) 4 12 ∧ wf (readWord t.mem a) 0 3 = wf (readWord s.mem a) 0 3)))) ∧
    (k.shoot = none → exec .shootdownAck s = .next s ∧ exec .shootdownComplete s = .next s) ∧
    (∀ x, k.shoot = some x →
      (∃ t y, exec .shootdownAck s = .next t ∧ (t.walker d).shoot = some y ∧ t.homes = s.homes ∧
        y.waiting = x.waiting.filter fun w => !(w.1 == s.arg.core && reached s x.ranges w)) ∧
      (x.waiting ≠ [] ∨ (x.kind = 2 ∧ heldIn s x.first x.count ≠ []) → exec .shootdownComplete s = .next s) ∧
      (x.waiting = [] → (x.kind = 2 → heldIn s x.first x.count = []) → ∃ t, exec .shootdownComplete s = .next t ∧
        (t.walker d).shoot = none ∧ (t.walker d).done = (k.done + 1) % 2 ^ 32 ∧ t.mem = s.mem ∧
        t.homes.awaiting = if x.kind = 2 then dropFirst (· == (x.frame / 64, x.count / 64)) s.homes.awaiting else s.homes.awaiting)) ∧
    (switching s s.arg.id = none → exec .migrationForward s = .next s) ∧
    (∀ x, switching s s.arg.id = some x → (heldIn s x.first x.count = [] → exec .migrationForward s = .next s) ∧
      ∀ g rest, heldIn s x.first x.count = g :: rest →
        let i := g.core
        let c := s.core i
        let left := fun (t : State) => t.homes.held = dropFirst (· == g) s.homes.held ∧ t.homes.awaiting = s.homes.awaiting
        (c.cache.wb.find? (·.seq == g.seq) = none → ∃ t, exec .migrationForward s = .next t ∧ left t ∧ t.mem = s.mem ∧ t.cores = s.cores) ∧
        -- the store at its place in the new frame; it waits there for earlier accesses of its core only
        (∀ e bs va pa key cc ml, c.cache.wb.find? (·.seq == g.seq) = some e → e.sent = true → e.op = .bytes bs → e.place = .global va pa key cc ml →
          let a := x.frame + (va - x.first)
          let m := movedStore x e
          let waits := readBefore c e.id a bs.length = true ∨ sigrdBefore s c m = true ∨
            ∃ y ∈ c.cache.wb, y.seq < g.seq ∧ y.sent = true ∧ y.held = false ∧ ∃ h ∈ homesOf s y, h ∈ homesOf s m
          m.place = .global va a key cc false ∧ (waits → exec .migrationForward s = .next s) ∧
          (¬ waits → MemOk s → a < 2 ^ 40 → s.homes.zp.contains (a / 64) = false → mget? s.homes.lineKey (a / 64) = some (keyNum s key) →
            ∃ t, exec .migrationForward s = .next t ∧ left t ∧ SameMemBut s t a bs.length ∧
              (∀ k, k < bs.length → readByte t.mem (a + k) = bs.getD k 0) ∧ SameCores s t i ∧ Reread c.regs (t.core i).regs ∧
              (∀ y ∈ (t.core i).cache.wb, y.seq ≠ g.seq) ∧
              ∀ o, outOfSeq c g.seq = some o → findOut c o.id = some o → o.op = .stored g.seq none →
                findOut (t.core i) o.id = none ∧ (o.tag ≠ 0 → tagOf (t.core i) o.tag = .done))))) ∧
  -- ports: states and keys
  (∀ (s : State),
    let p := s.arg.unit
    let v := s.arg.v
    let q := portOf s p
    let may := s.modnum.isSome && !s.boot.minimal
    let resent := fun (t : State) => t.eng.out = s.eng.out ++ (portOf t p).replay.map fun x => (p, (portOf t p).resealed x)
    let moved := fun (e : Instr) =>
      let r := q.control may v
      ∃ t, exec e s = .next t ∧ t.homes = s.homes ∧ t.cores = s.cores ∧ (∀ j, j ≠ p → portOf t j = portOf s j) ∧
        (q.st = .active ∨ r.st ≠ .active → portOf t p = r ∧ t.eng.out = s.eng.out) ∧
        (∀ k, q.st ≠ .active → r.st = .active → r.tx = some k → (portOf t p).st = .active ∧ resent t ∧
          (portOf t p).tx = some { k with count := k.count + r.replay.length })
    (∀ e t, (e, t) ∈ [(Instr.portctlDown, 0), (.portctlTrain, 1), (.portctlAuth, 2), (.portctlActive, 3)] →
      (wf v 0 2 = t → p < 128 → moved e) ∧
      (wf v 0 2 ≠ t ∨ 128 ≤ p → exec e s = .next s)) ∧
    (wb v 8 = false → exec .rekey s = .next s) ∧ (wb v 8 = true → p < 128 → moved .rekey) ∧
    (∃ t, exec .peerLinkDown s = .next t ∧ (portOf t p).st = (if q.st = .fenced then .fenced else .down) ∧
      (q.st ≠ .fenced → (portOf t p).tx = none ∧ (portOf t p).rx = none ∧ (portOf t p).peer = none)) ∧
    (∃ t, exec .frameCountLimit s = .next t ∧ ((portOf t p).halted = true ↔ q.halted = true ∨ ∃ k, q.tx = some k ∧ 2 ^ 32 ≤ k.count)) ∧
    (∀ k, s.arg.off = 8 * k → p < 128 → k ∈ [0, 1, 2, 3, 4, 8, 9, 10, 11, 12] →
      let set := k :: q.blockSet
      let whole := ∀ j ∈ [0, 1, 2, 3, 4, 8, 9, 10, 11, 12], j ∈ set
      (q.st ≠ .auth → q.st ≠ .active → ∃ t, exec .keyBlockWrite s = .next t ∧ portOf t p = q) ∧
      (q.st = .auth ∨ q.st = .active → ∃ t, exec .keyBlockWrite s = .next t ∧ t.homes = s.homes ∧ t.cores = s.cores ∧
        (¬ whole → vget (portOf t p).block 0 k = v ∧ (portOf t p).tx = q.tx ∧ (portOf t p).epoch = q.epoch ∧ k ∈ (portOf t p).blockSet) ∧
        (whole →
          let b := fun (j : Nat) => vget (vset q.block k v) 0 j
          let key := fun (j : Nat) => BitVec.ofNat 256 ((b j).toNat + (b (j + 1)).toNat * 2 ^ 64 + (b (j + 2)).toNat * 2 ^ 128 + (b (j + 3)).toNat * 2 ^ 192)
          let up := q.st = .auth ∧ q.target = 3
          (up → (portOf t p).st = .active ∧ resent t) ∧ (¬ up → (portOf t p).st = q.st ∧ t.eng.out = s.eng.out) ∧
          (portOf t p).tx = some { key := key 0, salt := BitVec.ofNat 32 (b 4).toNat, count := if up then q.replay.length else 0 } ∧
          (portOf t p).rx = some { key := key 8, salt := BitVec.ofNat 32 (b 12).toNat, count := 0 } ∧ (portOf t p).rxOld = q.rx ∧
          (portOf t p).epoch = !q.epoch ∧ (portOf t p).blockSet = [])))) ∧
  (∀ (q : Port) (may : Bool) (v : Word),
    let r := q.control may v
    let t := wf v 0 2
    r.target.val = t ∧ r.rekey = (q.rekey || wb v 8) ∧ (q.st = .fenced → r.st = .fenced) ∧
    (q.st ≠ .fenced → t = 0 → r.st = .down ∧ r.tx = none ∧ r.rx = none) ∧
    (q.st = .down → t ≠ 0 → r.st = if may then .train else .down) ∧
    (q.st = .train → t ≠ 0 → q.tx = none → r.st = if q.peer.isSome ∧ 2 ≤ t then .auth else .train) ∧
    (q.st = .auth ∨ q.st = .active → t = 1 → r.st = .train ∧ r.tx = none ∧ r.rx = none ∧ r.peer = none) ∧
    (q.st = .active → t = 2 → r.st = .auth ∧ r.tx = none ∧ r.rx = none) ∧ (q.st = .active → t = 3 → r = { q with target := 3, rekey := r.rekey }) ∧
    (q.st = .auth → 2 ≤ t → r.st = if t = 3 ∧ q.tx.isSome ∧ q.rx.isSome then .active else .auth)) ∧
  -- ports: frames
  (∀ (s : State),
    let p := s.arg.unit
    let q := portOf s p
    (∀ at_ fs, q.replayAt = some (at_, fs) → q.st = .active → at_ + 400000 ≤ s.now → exec .replayTimeout s = .next (fencePort s p)) ∧
    (q.replayAt = none ∨ q.st ≠ .active → exec .replayTimeout s = .next s) ∧
    ((portOf (fencePort s p) p).st = .fenced ∧ (portOf (fencePort s p) p).tx = none ∧ (portOf (fencePort s p) p).rx = none) ∧
    (q.st = .down ∨ q.st = .fenced ∨ q.st = .auth → exec .frameSend s = .next s) ∧
    (q.st = .train → q.trainGood < 1024 → ∃ t f, exec .frameSend s = .next t ∧ t.eng.out = s.eng.out ++ [(p, f)] ∧
      f.flit = bytesOfWords [BitVec.ofNat 64 (13 * 2 ^ 56 + s.ownMod * 2 ^ 20), 1, BitVec.ofNat 64 (p * 2 ^ 16 + s.ownMod), 0, 0, 0, 0, 0]) ∧
    (q.st = .active → (q.tx = none ∨ q.halted = true → exec .frameSend s = .next s) ∧
      (∀ k x core rest, q.tx = some k → q.halted = false → k.count < 2 ^ 32 → s.arg.id = 0 → q.replay.length < 512 → q.txq = (x, core) :: rest →
        q.txFlit = 0 → pktReady s x = true → granted s (portDie p) 2 x.owner 1 = true → ∃ t f, exec .frameSend s = .next t ∧ t.eng.out = s.eng.out ++ [(p, f)] ∧
          f = sealFrame q k k.count q.txSeq ((pktFlits x).getD 0 []) ∧ (portOf t p).tx = some { k with count := k.count + 1 } ∧
          (portOf t p).txSeq = (q.txSeq + 1) % 2 ^ 15 ∧ (portOf t p).replay = q.replay ++ [{ fseq := q.txSeq, flit := (pktFlits x).getD 0 [], key := k, epoch := q.epoch }]) ∧
      (s.arg.id = 0 → q.txFlit = 0 → (∀ y ∈ q.txq, pktReady s y.1 = false ∨ granted s (portDie p) 2 y.1.owner 1 = false) →
        exec .frameSend s = .next s) ∧
      (∀ k, q.tx = some k → q.halted = false → k.count < 2 ^ 32 → s.arg.id ≠ 0 → ∃ t, exec .frameSend s = .next t ∧
        t.eng.out = s.eng.out ++ q.replay.map (fun x => (p, q.resealed x)) ∧ (portOf t p).replay = q.replay ∧
        (portOf t p).replays = q.replays + BitVec.ofNat 64 q.replay.length)) ∧
    (∀ f, s.arg.frame = some f →
      let mgmt := wf ((wordsLe 8 f.flit).getD 0 0) 56 8 = 13
      let sub := wf ((wordsLe 8 f.flit).getD 1 0) 0 8
      (q.st = .down ∨ q.st = .fenced → exec .frameReceive s = .next s) ∧
      (q.st ≠ .down → q.st ≠ .fenced → frameCrc f.flit f.gtag f.fseq f.ack ≠ f.fcrc → ∃ t, exec .frameReceive s = .next t ∧
        (portOf t p).crcerr = q.crcerr + 1 ∧ t.eng.net = s.eng.net ∧ (portOf t p).rxSeq = q.rxSeq) ∧
      (f.flit.length = 64 → q.st = .train → frameCrc f.flit f.gtag f.fseq f.ack = f.fcrc → mgmt → sub = 1 →
        ∃ t, exec .frameReceive s = .next t ∧ exec .mgmtTraining s = .next t ∧ (portOf t p).trainGood = q.trainGood + 1 ∧
          (q.trainGood + 1 < 1024 → (portOf t p).peer = q.peer ∧ (portOf t p).st = .train) ∧
          (1024 ≤ q.trainGood + 1 → (portOf t p).peer = some (wf ((wordsLe 8 f.flit).getD 2 0) 0 14, wf ((wordsLe 8 f.flit).getD 2 0) 16 7) ∧
            (q.target.val < 2 → (portOf t p).st = .train) ∧ (2 ≤ q.target.val → q.tx = none → (portOf t p).st = .auth))) ∧
      (f.flit.length = 64 → q.st = .auth → frameCrc f.flit f.gtag f.fseq f.ack = f.fcrc → mgmt → sub = 2 →
        ∃ t, exec .frameReceive s = .next t ∧ exec .mgmtSpdm s = .next t ∧
          (portOf t p).spdm = q.spdm ++ [(f.flit.drop 10).take (wf ((wordsLe 8 f.flit).getD 1 0) 8 8)]) ∧
      (q.st = .active → frameCrc f.flit f.gtag f.fseq f.ack = f.fcrc →
        let new := f.fseq.getLsbD 15 = q.epoch
        let ahead := (f.fseq.toNat % 2 ^ 15 + 2 ^ 15 - q.rxSeq) % 2 ^ 15
        let aad := leBytes 2 f.fseq.toNat ++ leBytes 2 f.ack.toNat
        let acked := (q.takeAck (f.ack.toNat % 2 ^ 15)).replay
        ((new → q.rx = none) → (¬ new → q.rxOld = none) → exec .frameReceive s = .next (authFail s p)) ∧
        ∀ k, (new → q.rx = some k) → (¬ new → q.rxOld = some k) →
          let count : Option Nat := if 2 ^ 14 ≤ ahead then (if 2 ^ 15 - ahead ≤ k.count then some (k.count - (2 ^ 15 - ahead)) else none)
            else if new ∧ q.rxOld.isSome = true ∧ ahead ≠ 0 then none else some (k.count + ahead)
          (count = none → exec .frameReceive s = .next s) ∧
          ∀ n, count = some n →
            (Config.gcmOpen k.key k.salt n aad f.flit f.gtag = none → exec .frameReceive s = .next (authFail s p)) ∧
            ∀ flit, Config.gcmOpen k.key k.salt n aad f.flit f.gtag = some flit →
              (ahead ≠ 0 → ∃ t, exec .frameReceive s = .next t ∧ (portOf t p).rxSeq = q.rxSeq ∧ t.eng.net = s.eng.net ∧
                (portOf t p).st = .active ∧ (portOf t p).replay = acked) ∧
              (ahead = 0 → ∃ u, exec .frameReceive s = .next (takeFlit u p flit) ∧ (portOf u p).rxSeq = (q.rxSeq + 1) % 2 ^ 15 ∧
                u.eng.net = s.eng.net ∧ (portOf u p).rxFlits = q.rxFlits ∧ (portOf u p).replay = acked))) ∧
    (let n := (q.fails.filter fun t => decide (s.now < t + 4000000000)).length
     (portOf (authFail s p) p).authfail = q.authfail + 1 ∧ (n < 3 → (portOf (authFail s p) p).st = .auth) ∧
     (3 ≤ n → (portOf (authFail s p) p).st = .fenced) ∧ (portOf (authFail s p) p).tx = none ∧ (portOf (authFail s p) p).rx = none) ∧
    (∀ x, s.arg.pkt = some x → (1 ≤ x.kind → x.kind ≤ 13 → exec .badpkt s = .next s) ∧
      (x.kind = 0 ∨ 13 < x.kind → ∃ t, exec .badpkt s = .next t ∧ (portOf t p).badpkt = q.badpkt + 1 ∧ t.eng.net = s.eng.net)))

/-- R296, R298, R307, R313 to R324, R367, R375, R440, R441.
The model's own choices in it: log entries 2, 24, 52, 55, 56, 57 and 65; the debugger's stop and resume, log entry 66; a BUDGET fault
that is noted while a trap waits, log entry 22; the trap registers at the start of a firing, log entry 5. -/
def Obligations.SchedulingAndServices : Prop :=
  -- what a firing starts with
  (∀ (s : State) (i : Nat) (x : Start),
    let t := startFiring s i x
    let r := (t.core i).regs
    (∃ f, (t.core i).firing = some f ∧ f.num = (s.core i).sched.firings + 1 ∧ f.kind = x.kind ∧ f.pc = x.pc ∧ f.owner = x.owner ∧
      f.startOwner = x.owner ∧ f.codeb = x.codeb ∧ f.prio = x.prio ∧ f.budget = x.budget ∧ f.budgetEnd = s.now + x.budget ∧
      f.stage = x.stage ∧ f.sup = x.sup ∧ f.handler = false ∧ f.ext = false ∧ f.start = s.now) ∧
    (∀ k : Nat, k < 64 → vget r.g 0 k = if 1 ≤ k ∧ k < 8 then x.words.getD (k - 1) 0 else if k = 8 then x.g8 else 0) ∧
    (∀ k : Nat, k < 8 → vget r.p false k = false ∧ vget r.m 0 k = 0 ∧ vget r.q .unbound k = vget x.q .unbound k) ∧
    r.fpstat = 0 ∧ r.wsig = 0 ∧ r.isig = x.union ∧ r.vgrant = 0 ∧ (∀ k : Fin 16, tagOf (t.core i) k = .free) ∧
    (t.core i).iss.pend = [] ∧ (t.core i).traps.cring = [] ∧ (t.core i).traps.sring = [] ∧ t.homes = s.homes ∧
    (t.core i).traps.cause = 0 ∧ (t.core i).traps.val = 0 ∧ (t.core i).traps.tpc = 0 ∧ (t.core i).traps.ready = [] ∧
    (∀ k : Nat, k < 2 → x.sup = false → (vget (t.core i).mtx.dt .empty k).owner ≠ x.owner → vget (t.core i).mtx.dt .empty k = .empty)) ∧
  -- selection
  (∀ (s : State),
    let i := s.arg.core
    let d := (s.core i).sched
    let u := armAll s i
    let goes := fun (t : State) => exec .firingSelect s = .next t
    let starts := fun (P : State → Start → Prop) => ∃ v x, goes (startFiring v i x) ∧ v.homes = s.homes ∧ P v x
    let words := fun (ws : List Word) => (List.range 7).map fun k => ws.getD (k + 1) 0
    let own := fun (b inherit : Nat) => if b = 0 then inherit else 2 ^ (9 + b)
    let idles := fun (v : State) => goes (v.onSched i fun d =>
      { d with idle := match d.idle with | .idle a b => .idle a b | _ => .idle s.now 0 })
    (maySelect s i = false → goes s) ∧ (d.idle ≠ .select → (∀ a b, d.idle ≠ .idle a b) → goes s) ∧
    (maySelect s i = true → d.idle = .select ∨ (∃ a b, d.idle = .idle a b) →
      (∀ h w1, d.preempt = some (h, w1) →
        (admitted d.scodeb h = true → starts fun v x => (v.core i).sched.preempt = none ∧ x.kind = .preempt ∧ x.pc = h ∧
          x.owner = d.sowner ∧ x.codeb = d.scodeb ∧ x.sup = true ∧ x.prio = 15 ∧ x.budget = 2 ^ 20 ∧ x.words = [w1, 0, 0, 0, 0, 0, 0]) ∧
        (admitted d.scodeb h = false → ∃ v : State, goes (v.discard i [h, w1, 0, 0, 0, 0, 0, 0] 1 d.sowner) ∧ (v.core i).sched.preempt = none)) ∧
      (∀ l ls, d.preempt = none → d.supq = l :: ls → starts fun v x => (v.core i).sched.supq = ls ∧ x.kind = .supRecord ∧
        x.pc = l.words.getD 0 0 ∧ x.owner = (if l.queued then d.sowner else l.owner) ∧ x.codeb = d.scodeb ∧ x.sup = true ∧ x.words = words l.words ∧
        x.budget = own (wf (l.words.getD 1 0) 58 5) (2 ^ 20)) ∧
      (d.preempt = none → d.supq = [] → rowWithheld s i = true → goes s) ∧
      (d.preempt = none → d.supq = [] → rowWithheld s i = false →
        (∀ k lvl, chooseItem u i = some (k, lvl) →
          k < 49 ∧ effPrio u i k = some lvl ∧ (∀ j l, j < 49 → effPrio u i j = some l → l ≤ lvl) ∧
          (∀ a, k < 16 → actorOf (u.core i) k = some a → starts fun v x => mget? (v.core i).sched.rr lvl = some k ∧
            x.kind = .actor (Fin.ofNat 16 k) ∧ x.pc = a.handler ∧ x.owner = a.owner ∧ x.codeb = a.code ∧ x.prio = a.prio ∧
            x.budget = a.budget ∧ x.stage = a.stage ∧ x.g8 = BitVec.ofNat 64 (0xFF000000000000 + a.stOff) ∧ x.q = actorStreams a ∧
            (∀ ch r c ws y rest, vget a.ins none 0 = some (ch, r) → chanOf u i ch = some c → c.items = .data ws y :: rest →
              x.words = words ws)) ∧
          (∀ c ws y rest, 16 ≤ k → k < 48 → chanOf u i (k - 16) = some c → c.items = .data ws y :: rest → starts fun v x =>
            chanOf v i (k - 16) = some { c with items := rest } ∧ x.kind = .chan (Fin.ofNat 32 (k - 16)) ∧ x.pc = ws.getD 0 0 ∧
            x.owner = c.owner ∧ x.codeb = c.codeb ∧ x.prio = c.prio ∧ x.budget = c.budget ∧ x.words = words ws ∧ x.g8 = 0) ∧
          (∀ l ls, k = 48 → (u.core i).sched.launchq = l :: ls → starts fun v x => (v.core i).sched.launchq = ls ∧ x.kind = .task ∧
            x.pc = l.words.getD 0 0 ∧ x.owner = l.owner ∧ x.words = words l.words ∧
            x.budget = own (wf (l.words.getD 1 0) 58 5) (2 ^ 20) ∧
            x.prio = if wf (l.words.getD 1 0) 54 4 = 0 then 8 else wf (l.words.getD 1 0) 54 4)) ∧
        (chooseItem u i = none →
          (∀ ts t, (u.core i).sched.deque = ts ++ [t] → starts fun v x => (v.core i).sched.deque = ts ∧ x.kind = .task ∧
            x.pc = t.words.getD 0 0 ∧ x.owner = t.owner ∧ x.prio = t.prio ∧ x.budget = t.budget ∧ x.words = words t.words) ∧
          ((u.core i).sched.deque = [] → idles u))))) ∧
  (∀ (s : State) (i k : Nat) (since aged p : Nat), mget? (s.core i).sched.armed k = some (since, aged) → itemPrio s i k = some p →
    effPrio s i k = some (min 14 (p + (s.now - since) / 2 ^ 20))) ∧
  -- stealing and idling
  (∀ (s : State),
    let i := s.arg.core
    let d := (s.core i).sched
    let now := fun (e : Instr) (x : IdleSt) => exec e s = .next (s.onSched i fun d => { d with idle := x })
    (∀ since, d.idle = .idle since 0 →
      let may := maySelect s i = true ∧ rowWithheld s i = false ∧ d.nosteal = false ∧ victimsOk s i s.arg.list = true
      (¬ may → exec .stealAttempt s = .next s) ∧
      (may → (∀ v ∈ s.arg.list, stealable s v = false) → now .stealAttempt (.idle since (s.now + 64))) ∧
      (∀ xs v ys older t rest, may → s.arg.list = xs ++ v :: ys → (∀ x ∈ xs, stealable s x = false) → stealable s v = true →
        (s.core v).sched.deque = older ++ t :: rest → (∀ x ∈ older, x.pin = true) → t.pin = false →
        ∃ u x, exec .stealAttempt s = .next (startFiring u i x) ∧ u.homes = s.homes ∧ (u.core v).sched.deque = older ++ rest ∧
          x.kind = .task ∧ x.pc = t.words.getD 0 0 ∧ x.owner = t.owner ∧ x.prio = t.prio ∧ x.budget = t.budget ∧
          x.words = (List.range 7).map fun k => t.words.getD (k + 1) 0) ∧
      (rowWithheld s i = true → exec .idleGate s = .next s) ∧
      (rowWithheld s i = false → (since + 4096 ≤ s.now → now .idleGate .gated) ∧
        (s.now < since + 4096 → exec .idleGate s = .next (s.onSched i id)))) ∧
    (∀ since r, d.idle = .idle since r → r ≠ 0 → exec .stealAttempt s = .next s ∧
      (r ≤ s.now → now .idleRetry (.idle since 0)) ∧ (s.now < r → exec .idleRetry s = .next (s.onSched i id))) ∧
    (∀ at_, d.idle = .waking at_ → now .coreWake .select) ∧
    (d.idle = .gated → (chooseItem (armAll s i) i = none → exec .coreWake s = .next s) ∧
      ((chooseItem (armAll s i) i).isSome = true → now .coreWake .select)) ∧
    (∀ since aged, mget? d.armed s.arg.id = some (since, aged) → ∃ t, exec .agingTick s = .next t ∧
      mget? (t.core i).sched.armed s.arg.id = some (since, min 14 ((s.now - since) / 2 ^ 20)))) ∧
  (∀ (s : State) (v : Nat), stealable s v = true ↔ (s.core v).sched.novictim = false ∧ v ∉ s.rcv.fences.cores ∧
    2 ≤ ((s.core v).sched.deque.filter fun t => !t.pin).length) ∧
  -- budgets
  (∀ (s : State) (f : Firing),
    let i := s.arg.core
    let u := flushDue s i
    let goes := fun (t : State) => exec .budgetExpiry s = .next t
    (u.core i).firing = some f →
    (u.now < f.budgetEnd ∨ (u.core i).stopped.isSome = true ∨ (u.core i).traps.abort.isSome = true → goes u) ∧
    (f.budgetEnd ≤ u.now → (u.core i).stopped = none → (u.core i).traps.abort = none →
      -- a late fault that arrived earlier goes first
      (∀ tg x, (u.core i).traps.pending = none → lateFault (u.core i) [] = some (tg, x) → x.at_ < f.budgetEnd → goes (deliverLate u i tg x)) ∧
      ((u.core i).traps.pending = none → (∀ tg x, lateFault (u.core i) [] = some (tg, x) → f.budgetEnd ≤ x.at_) →
        (f.handler = true → goes (u.abort i 0x16 0x13 f.pc)) ∧
        (f.handler = false → f.expired = true → goes (u.abort i 0x13 (BitVec.ofNat 64 f.budget) f.pc)) ∧
        (f.handler = false → f.expired = false → goes (deliver (u.onFiring i fun g => { g with expired := true }) i
          { cause := 0x13, val := BitVec.ofNat 64 f.budget, pc := f.pc, faultPc := f.pc, late := true, tag := 0, src := 0, seq := 0, held := false }))) ∧
      -- while a trap waits for its tags
      (∀ p, (u.core i).traps.pending = some p →
        let noted := ∃ x ∈ (u.core i).traps.ready, x.cause = 0x13 ∧ x.at_ = f.budgetEnd
        (p.cause = 0x13 ∨ noted → goes u) ∧
        (p.cause ≠ 0x13 → ¬ noted → f.expired = true → goes (u.abort i 0x13 (BitVec.ofNat 64 f.budget) f.pc)) ∧
        (p.cause ≠ 0x13 → ¬ noted → f.expired = false → ∃ t x, goes t ∧ t.homes = s.homes ∧ (t.core i).firing = some { f with expired := true } ∧
          (t.core i).traps.pending = some p ∧ (t.core i).traps.ready = (u.core i).traps.ready ++ [x] ∧ x.cause = 0x13 ∧ x.tag = 0 ∧
          x.val = BitVec.ofNat 64 f.budget ∧ x.pc = f.pc ∧ x.at_ = f.budgetEnd)))) ∧
  -- tokens
  (∀ (s : State),
    let d := s.arg.unit
    let first := (mget? s.periods d).getD 0
    (dieOn s d = false ∨ s.timeUs < first → exec .tokenPeriodStart s = .next s) ∧
    (dieOn s d = true → first ≤ s.timeUs → ∃ t, exec .tokenPeriodStart s = .next t ∧ t.homes = s.homes ∧ t.cores = s.cores ∧
      mget? t.periods d = some (s.timeUs + 1) ∧ ∀ k c, k < 4 → c < 16 →
        let quota : Nat := vget (quotasOf s d k) 0 c
        vget (arbOf t d k).b 0 c = min (vget (arbOf s d k).b 0 c + ((s.timeUs + 1 - first : Nat) : Int) * quota) quota ∧
          (arbOf t d k).credit = (arbOf s d k).credit) ∧
    (∀ k, k = s.arg.off → 4 ≤ k ∨ dieOn s d = false → exec .queueServe s = .next s) ∧
    (∀ k, dieOn s d = true → k = s.arg.off → k < 4 →
      let v := startPeriods s d
      let a := arbOf v d k
      let quota := fun (c : Nat) => ((vget (quotasOf v d k) 0 c : Nat) : Int)
      let waits := fun (c : Nat) => decide (c < 16) && decide (a.creditOf c < unitsIn (unitsWaiting s d k) c)
      let ready := fun (c : Nat) => waits c && decide (1 ≤ vget a.b 0 c)
      let borrows := fun (c : Nat) => waits c && decide (0 < quota c) && decide (-4 * quota c ≤ vget a.b 0 c - 1)
      let lends := fun (e : Nat) => e < 16 ∧ waits e = false ∧ 1 ≤ vget a.b 0 e
      let best := fun (e : Nat) => lends e ∧ ∀ g, lends g → vget a.b 0 g < vget a.b 0 e ∨ (vget a.b 0 g = vget a.b 0 e ∧ e ≤ g)
      let serves := fun (c : Nat) (b : Nat → Int) => ∃ t, exec .queueServe s = .next t ∧ t.homes = s.homes ∧ t.cores = s.cores ∧
        (arbOf t d k).last = c ∧ ∀ j, j < 16 → vget (arbOf t d k).b 0 j = b j ∧
          (arbOf t d k).creditOf j = a.creditOf j + if j = c then 1 else 0
      (∀ c, nextClass a.last ready = some c → serves c fun j => vget a.b 0 j - if j = c then 1 else 0) ∧
      (nextClass a.last ready = none →
        (∀ c e, nextClass a.last borrows = some c → best e → serves c fun j => vget a.b 0 j - if j = c ∨ j = e then 1 else 0) ∧
        (nextClass a.last borrows = none ∨ (∀ e, ¬ lends e) →
          (∀ c, (∀ j, waits j = true → quota j = 0) → nextClass a.last waits = some c → serves c fun j => vget a.b 0 j) ∧
          ((∃ j, waits j = true ∧ quota j ≠ 0) ∨ (∀ j, waits j = false) → exec .queueServe s = .next v))))) ∧
  (∀ (last : Nat) (P : Nat → Bool) (c : Nat), last < 16 → nextClass last P = some c → c < 16 ∧ P c = true ∧
    ∀ j, j < 16 → P j = true → (c + 15 - last) % 16 ≤ (j + 15 - last) % 16) ∧
  -- power, temperature, debugger
  (∀ (s : State),
    let i := s.arg.core
    let n := s.arg.id
    let p := s.power
    let ok := windowOk s s.arg.list = true
    let above := p.pcap ≠ 0 ∧ p.pcap < n
    (s.now < p.window + 4000000 ∨ ¬ ok → exec .powerWindow s = .next s) ∧
    (p.window + 4000000 ≤ s.now → ok → ∃ t, exec .powerWindow s = .next t ∧ t.power.pnow = n ∧ t.power.window = s.now ∧ t.cores = s.cores ∧
      (t.power.withholding = true ↔ above) ∧ (above ∨ p.throttled = true → t.power.withheld = s.arg.list) ∧
      (¬ above → p.throttled = false → t.power.withheld = [])) ∧
    (n < 95 ∨ 110 ≤ n ∨ ¬ ok → exec .thermalThrottleOn s = .next s) ∧
    (95 ≤ n → n < 110 → ok → ∃ t, exec .thermalThrottleOn s = .next t ∧ t.power.throttled = true ∧ t.power.tj = n ∧
      t.power.withheld = if p.withholding then p.withheld else s.arg.list) ∧
    (90 ≤ n → exec .thermalThrottleOff s = .next s) ∧
    (n < 90 → ∃ t, exec .thermalThrottleOff s = .next t ∧ t.power.throttled = false ∧ t.power.tj = n ∧
      t.power.withheld = if p.withholding then p.withheld else []) ∧
    (n < 110 → exec .thermalFatal s = .next s) ∧
    (110 ≤ n → ∃ t, exec .thermalFatal s = .next t ∧ t.rcv.fatal = some 16 ∧ t.boot.st = .report 8 ∧ t.power.tj = n) ∧
    (coreOn s i = false ∨ (s.core i).stopped.isSome = true → exec .debugStop s = .next s) ∧
    (coreOn s i = true → (s.core i).stopped = none → ∃ t, exec .debugStop s = .next t ∧ t.homes = s.homes ∧
      t.core i = { s.core i with stopped := some s.now } ∧ ∀ (n : Nat) (a : Arrival), s.arrivals[n]? = some a → t.arrivals[n]? =
        some (if a.includes i = true ∧ a.hold = none ∧ a.expired s.now = false then { a with hold := some s.now } else a)) ∧
    ((s.core i).stopped = none → exec .debugResume s = .next s) ∧
    (∀ t0, (s.core i).stopped = some t0 → ∃ t, exec .debugResume s = .next t ∧ t.homes = s.homes ∧ (t.core i).stopped = none ∧
      (t.core i).regs = (s.core i).regs ∧
      (∀ f, (s.core i).firing = some f → t0 ≤ f.budgetEnd →
        (t.core i).firing = some { f with budgetEnd := f.budgetEnd + (s.now - t0) }) ∧
      (∀ l ∈ (s.core i).cache.l1, t0 < l.expire → l.expire ≤ t0 + 16384 →
        { l with expire := l.expire + (s.now - t0) } ∈ (t.core i).cache.l1)))
end

