-- ==== Sys2Proof/Laws/Memory.lean ====
section
/-! SUPPORT. Laws of memory: a byte read after a write gives the value written, a write leaves every other byte alone, and every
operation keeps the canonical form. -/

namespace Sys2Proof.Machine

/-! ## The canonical form -/

/-- Addresses strictly rising. -/
def Rising (m : Memory) : Prop := m.Pairwise fun x y => x.1 < y.1

/-- The canonical form in two parts. -/
theorem wf_iff (m : Memory) : m.wf = true ↔ Rising m ∧ ∀ c ∈ m, c.2 ≠ memDefault c.1 := by
  induction m with
  | nil => simp [Memory.wf, Rising]
  | cons x t ih =>
    cases t with
    | nil => simp [Memory.wf, Rising]
    | cons y t =>
      simp only [Memory.wf, Bool.and_eq_true, bne_iff_ne, decide_eq_true_eq, ih]
      simp only [Rising, List.pairwise_cons, List.mem_cons, forall_eq_or_imp]
      constructor
      · rintro ⟨⟨h1, h2⟩, ⟨h3, h4⟩, h5⟩
        exact ⟨⟨⟨h2, fun c hc => Nat.lt_trans h2 (h3 c hc)⟩, h3, h4⟩, h1, h5⟩
      · rintro ⟨⟨⟨h2, -⟩, h3, h4⟩, h1, h5⟩
        exact ⟨⟨h1, h2⟩, ⟨h3, h4⟩, h5⟩

theorem wf_rising {m : Memory} (h : m.wf = true) : Rising m := ((wf_iff m).1 h).1

/-! ## One byte -/

/-- Below the first listed address a byte reads as an unlisted one. -/
theorem readByte_below {m : Memory} {a : Nat} (h : ∀ c ∈ m, a < c.1) : readByte m a = memDefault a := by
  induction m with
  | nil => rfl
  | cons x t ih =>
    have hx := h x (by simp)
    simp only [readByte, if_neg (Nat.ne_of_gt hx)]
    exact ih fun c hc => h c (by simp [hc])

theorem readByte_writeByte_ne (m : Memory) {a x : Nat} (b : Byte) (h : x ≠ a) : readByte (writeByte m a b) x = readByte m x := by
  induction m with
  | nil => simp only [writeByte]; split <;> simp [readByte, Ne.symm h]
  | cons c t ih =>
    obtain ⟨k, v⟩ := c
    simp only [writeByte]
    split
    · split <;> simp [readByte, Ne.symm h]
    · split
      · subst k; split <;> simp [readByte, Ne.symm h]
      · simp [readByte, ih]

theorem readByte_writeByte_self {m : Memory} (a : Nat) (b : Byte) (h : Rising m) : readByte (writeByte m a b) a = b := by
  induction m with
  | nil => simp only [writeByte]; split <;> simp [readByte, *]
  | cons c t ih =>
    obtain ⟨k, v⟩ := c
    have ht : ∀ y ∈ t, k < y.1 := (List.pairwise_cons.1 h).1
    simp only [writeByte]
    split
    · next hk =>
      split
      · next hb =>
        subst hb
        refine readByte_below fun y hy => ?_
        rcases List.mem_cons.1 hy with rfl | hy
        · exact hk
        · exact Nat.lt_trans hk (ht y hy)
      · simp [readByte]
    · split
      · next hk =>
        subst hk
        split
        · next hb => subst hb; exact readByte_below ht
        · simp [readByte]
      · next hk => simp only [readByte, if_neg hk]; exact ih (List.pairwise_cons.1 h).2

/-- Entries after a write of one byte: old ones, or the new one. -/
theorem mem_writeByte {m : Memory} {a : Nat} {b : Byte} {c : Host.Cell} (h : c ∈ writeByte m a b) :
    c ∈ m ∨ (c = (a, b) ∧ b ≠ memDefault a) := by
  induction m with
  | nil => simp only [writeByte] at h; split at h <;> simp_all
  | cons x t ih =>
    obtain ⟨k, v⟩ := x
    simp only [writeByte] at h
    split at h
    · split at h <;> simp_all
      rcases h with h | h | h <;> simp [h]
    · split at h
      · split at h <;> simp_all
        rcases h with h | h <;> simp [h]
      · rcases List.mem_cons.1 h with h | h
        · simp [h]
        · rcases ih h with h | h <;> simp [h]

theorem writeByte_rising {m : Memory} (a : Nat) (b : Byte) (h : Rising m) : Rising (writeByte m a b) := by
  induction m with
  | nil => simp only [writeByte]; split <;> simp [Rising]
  | cons x t ih =>
    obtain ⟨k, v⟩ := x
    have ht := List.pairwise_cons.1 h
    simp only [writeByte]
    split
    · next hk =>
      split
      · exact h
      · refine List.pairwise_cons.2 ⟨fun y hy => ?_, h⟩
        rcases List.mem_cons.1 hy with rfl | hy
        · exact hk
        · exact Nat.lt_trans hk (ht.1 y hy)
    · split
      · next hk =>
        subst hk
        split
        · exact ht.2
        · exact List.pairwise_cons.2 ⟨ht.1, ht.2⟩
      · next h1 h2 =>
        refine List.pairwise_cons.2 ⟨fun y hy => ?_, ih ht.2⟩
        rcases mem_writeByte hy with hy | ⟨rfl, -⟩
        · exact ht.1 y hy
        · simp only; omega

/-- A write of one byte keeps the canonical form. -/
theorem writeByte_wf {m : Memory} (a : Nat) (b : Byte) (h : m.wf = true) : Memory.wf (writeByte m a b) = true := by
  obtain ⟨h1, h2⟩ := (wf_iff m).1 h
  refine (wf_iff _).2 ⟨writeByte_rising a b h1, fun c hc => ?_⟩
  rcases mem_writeByte hc with hc | ⟨rfl, hb⟩
  · exact h2 c hc
  · exact hb

/-! ## Runs of bytes -/

theorem writeSeq_wf {m : Memory} (a : Nat) (bs : List Byte) (h : m.wf = true) : Memory.wf (writeSeq m a bs) = true := by
  induction bs generalizing m a with
  | nil => exact h
  | cons b bs ih => exact ih _ (writeByte_wf a b h)

theorem readByte_writeSeq_out (m : Memory) {a x : Nat} (bs : List Byte) (h : x < a ∨ a + bs.length ≤ x) :
    readByte (writeSeq m a bs) x = readByte m x := by
  induction bs generalizing m a with
  | nil => rfl
  | cons b bs ih =>
    simp only [List.length_cons] at h
    rw [writeSeq, ih _ (by omega), readByte_writeByte_ne _ _ (by omega)]

theorem readByte_writeSeq_in {m : Memory} {a x : Nat} (bs : List Byte) (hm : m.wf = true) (h1 : a ≤ x) (h2 : x < a + bs.length) :
    readByte (writeSeq m a bs) x = bs.getD (x - a) 0 := by
  induction bs generalizing m a with
  | nil => simp at h2; omega
  | cons b bs ih =>
    simp only [List.length_cons] at h2
    rw [writeSeq]
    by_cases hx : x = a
    · subst hx
      rw [readByte_writeSeq_out _ _ (by omega), readByte_writeByte_self _ _ (wf_rising hm)]
      simp
    · rw [ih (writeByte_wf a b hm) (by omega) (by omega)]
      have : x - a = (x - (a + 1)) + 1 := by omega
      simp [this]

/-- Writing leaves the entries below the first address in front. -/
theorem writeByte_append (l r : Memory) {a : Nat} (b : Byte) (h : ∀ c ∈ l, c.1 < a) :
    writeByte (l ++ r) a b = l ++ writeByte r a b := by
  induction l with
  | nil => rfl
  | cons x t ih =>
    obtain ⟨k, v⟩ := x
    have hk : k < a := h (k, v) (by simp)
    simp only [List.cons_append, writeByte, if_neg (Nat.not_lt.2 (Nat.le_of_lt hk)), if_neg (Nat.ne_of_lt hk)]
    rw [ih fun c hc => h c (by simp [hc])]

theorem writeSeq_append (l r : Memory) {a : Nat} (bs : List Byte) (h : ∀ c ∈ l, c.1 < a) :
    writeSeq (l ++ r) a bs = l ++ writeSeq r a bs := by
  induction bs generalizing r a with
  | nil => rfl
  | cons b bs ih => rw [writeSeq, writeByte_append _ _ _ h, ih _ fun c hc => Nat.lt_succ_of_lt (h c hc), writeSeq]

theorem takeWhile_below (m : Memory) (a : Nat) : ∀ c ∈ m.takeWhile (fun c => decide (c.1 < a)), c.1 < a := by
  induction m with
  | nil => simp
  | cons x t ih =>
    intro c hc
    by_cases hx : x.1 < a
    · simp only [List.takeWhile, hx, decide_true, List.mem_cons] at hc
      rcases hc with rfl | hc
      · exact hx
      · exact ih c hc
    · simp [List.takeWhile, hx] at hc

/-- `writeBytes` is the plain sequence of byte writes. -/
theorem writeBytes_eq (m : Memory) (a : Nat) (bs : List Byte) : writeBytes m a bs = writeSeq m a bs := by
  rw [writeBytes, ← writeSeq_append _ _ _ (takeWhile_below m a), List.takeWhile_append_dropWhile]

/-- Reading needs no entry below the first address. -/
theorem readByte_dropWhile (m : Memory) {a x : Nat} (h : a ≤ x) :
    readByte (m.dropWhile fun c => decide (c.1 < a)) x = readByte m x := by
  induction m with
  | nil => rfl
  | cons c t ih =>
    obtain ⟨k, v⟩ := c
    by_cases hk : k < a
    · simp only [List.dropWhile, hk, decide_true, readByte]
      rw [ih, if_neg (by omega)]
    · simp [List.dropWhile, hk]

theorem readSeq_congr {m m' : Memory} {a : Nat} (n : Nat) (h : ∀ x, a ≤ x → readByte m x = readByte m' x) :
    readSeq m a n = readSeq m' a n := by
  induction n generalizing a with
  | zero => rfl
  | succ n ih => rw [readSeq, readSeq, h a (Nat.le_refl a), ih fun x hx => h x (by omega)]

/-- `readBytes` is the plain sequence of byte reads. -/
theorem readBytes_eq (m : Memory) (a n : Nat) : readBytes m a n = readSeq m a n :=
  readSeq_congr n fun _ h => readByte_dropWhile m h

@[simp] theorem readSeq_length (m : Memory) (a n : Nat) : (readSeq m a n).length = n := by
  induction n generalizing a with
  | zero => rfl
  | succ n ih => simp [readSeq, ih]

@[simp] theorem readBytes_length (m : Memory) (a n : Nat) : (readBytes m a n).length = n := by simp [readBytes_eq]

/-- A run of bytes read is its bytes read one by one. -/
theorem readSeq_getD (m : Memory) (a : Nat) {n k : Nat} (h : k < n) : (readSeq m a n).getD k 0 = readByte m (a + k) := by
  induction n generalizing a k with
  | zero => omega
  | succ n ih =>
    cases k with
    | zero => simp [readSeq]
    | succ k =>
      have : a + (k + 1) = a + 1 + k := by omega
      rw [this, ← ih (a + 1) (by omega)]
      simp [readSeq]

theorem writeBytes_wf {m : Memory} (a : Nat) (bs : List Byte) (h : m.wf = true) : Memory.wf (writeBytes m a bs) = true := by
  rw [writeBytes_eq]; exact writeSeq_wf a bs h

theorem writeWord_wf {m : Memory} (a : Nat) (w : Word) (h : m.wf = true) : Memory.wf (writeWord m a w) = true := writeBytes_wf a _ h

/-- A write leaves every byte outside its own alone. -/
theorem readByte_writeBytes_out (m : Memory) {a x : Nat} (bs : List Byte) (h : x < a ∨ a + bs.length ≤ x) :
    readByte (writeBytes m a bs) x = readByte m x := by
  rw [writeBytes_eq]; exact readByte_writeSeq_out m bs h

/-- A byte read after a write of a run that covers it. -/
theorem readByte_writeBytes_in {m : Memory} {a x : Nat} (bs : List Byte) (hm : m.wf = true) (h1 : a ≤ x)
    (h2 : x < a + bs.length) : readByte (writeBytes m a bs) x = bs.getD (x - a) 0 := by
  rw [writeBytes_eq]; exact readByte_writeSeq_in bs hm h1 h2

/-- Removing entries keeps the canonical form. -/
theorem filter_wf {m : Memory} (p : Host.Cell → Bool) (h : m.wf = true) : Memory.wf (m.filter p) = true := by
  obtain ⟨h1, h2⟩ := (wf_iff m).1 h
  exact (wf_iff _).2 ⟨h1.filter p, fun c hc => h2 c (List.mem_filter.1 hc).1⟩

/-- A copy between memories keeps the canonical form. -/
theorem copyMem_wf {m : Memory} (src dst n : Nat) (h : m.wf = true) : Memory.wf (copyMem m src dst n) = true := by
  have key : ∀ (l : Memory) {m : Memory}, m.wf = true →
      Memory.wf (l.foldl (fun m c => writeByte m (dst + (c.1 - src)) c.2) m) = true := by
    intro l
    induction l with
    | nil => exact fun h => h
    | cons c l ih => exact fun h => ih (writeByte_wf _ _ h)
  exact key _ (filter_wf _ h)

end Sys2Proof.Machine
end

