-- ==== Sys2Proof/Laws/Maps.lean ====
section
/-! SUPPORT. Laws of the sparse maps and of fixed vectors: a read after a write to the same key gives the value, and a
write leaves every other key alone. -/

namespace Sys2Proof.Machine

section
variable {α : Type}

@[simp] theorem mget?_mput_self (m : Map α) (k : Nat) (x : α) : mget? (mput m k x) k = some x := by
  induction m with
  | nil => simp [mput, mget?]
  | cons h t ih =>
    obtain ⟨j, y⟩ := h
    simp only [mput]
    split
    · simp [mget?]
    · split
      · simp [mget?]
      · simp [mget?, *]

theorem mget?_mput_ne (m : Map α) {k j : Nat} (x : α) (h : j ≠ k) : mget? (mput m k x) j = mget? m j := by
  induction m with
  | nil => simp [mput, mget?, Ne.symm h]
  | cons p t ih =>
    obtain ⟨n, y⟩ := p
    simp only [mput]
    split
    · simp [mget?, Ne.symm h]
    · split
      · subst n; simp [mget?, Ne.symm h]
      · simp [mget?, ih]

/-- A second write to a key replaces the first. -/
@[simp] theorem mput_mput (m : Map α) (k : Nat) (x y : α) : mput (mput m k x) k y = mput m k y := by
  induction m with
  | nil => simp [mput]
  | cons p t ih =>
    obtain ⟨n, z⟩ := p
    by_cases h1 : k < n
    · simp [mput, h1]
    · by_cases h2 : n = k
      · simp [mput, h2]
      · simp [mput, h1, h2, ih]

theorem mget?_mdel_ne (m : Map α) {k j : Nat} (h : j ≠ k) : mget? (mdel m k) j = mget? m j := by
  induction m with
  | nil => rfl
  | cons p t ih =>
    obtain ⟨n, y⟩ := p
    simp only [mdel]
    split
    · subst n; simp [mget?, Ne.symm h, ih]
    · simp [mget?, ih]

@[simp] theorem mget?_mdel_self (m : Map α) (k : Nat) : mget? (mdel m k) k = none := by
  induction m with
  | nil => rfl
  | cons p t ih =>
    obtain ⟨n, y⟩ := p
    simp only [mdel]
    split
    · exact ih
    · simp [mget?, *]

theorem vget_vset_self {n : Nat} (v : Vector α n) (d : α) {k : Nat} (x : α) (h : k < n) : vget (vset v k x) d k = x := by
  simp [vget, vset, h]

theorem vget_vset_ne {n : Nat} (v : Vector α n) (d : α) {k j : Nat} (x : α) (h : j ≠ k) :
    vget (vset v k x) d j = vget v d j := by
  simp only [vget, vset, List.getD_eq_getElem?_getD, Vector.toList_setIfInBounds, List.getElem?_set, Ne.symm h, if_false]

theorem vget_replicate {n : Nat} (x d : α) {k : Nat} (h : k < n) : vget (Vector.replicate n x) d k = x := by
  simp [vget, h]

end

end Sys2Proof.Machine
end

