-- ==== Sys2Proof/Laws/State.lean ====
section
/-! SUPPORT. One lemma for each field of `State` under each update: what the update leaves alone, by `rfl`; what it writes, in
its own words. The updates of a part of a core are rewritten to `onCore`, and `onMem` to `onHomes`. -/

namespace Sys2Proof.Machine

variable (s : State)

/-! ## Updates of parts, in terms of the whole -/

@[simp] theorem State.onRegs_eq (i : Nat) (f : Regs → Regs) :
    s.onRegs i f = s.onCore i fun c => { c with regs := f c.regs } := rfl
@[simp] theorem State.onIss_eq (i : Nat) (f : IssueSt → IssueSt) :
    s.onIss i f = s.onCore i fun c => { c with iss := f c.iss } := rfl
@[simp] theorem State.onCache_eq (i : Nat) (f : Caches → Caches) :
    s.onCache i f = s.onCore i fun c => { c with cache := f c.cache } := rfl
@[simp] theorem State.onMtx_eq (i : Nat) (f : Matrix → Matrix) :
    s.onMtx i f = s.onCore i fun c => { c with mtx := f c.mtx } := rfl
@[simp] theorem State.onTraps_eq (i : Nat) (f : Traps → Traps) :
    s.onTraps i f = s.onCore i fun c => { c with traps := f c.traps } := rfl
@[simp] theorem State.onSched_eq (i : Nat) (f : Sched → Sched) :
    s.onSched i f = s.onCore i fun c => { c with sched := f c.sched } := rfl
@[simp] theorem State.onFiring_eq (i : Nat) (f : Firing → Firing) :
    s.onFiring i f = s.onCore i fun c => { c with firing := c.firing.map f } := rfl
@[simp] theorem State.onMem_eq (f : Memory → Memory) : s.onMem f = s.onHomes fun h => { h with mem := f h.mem } := rfl
@[simp] theorem State.mem_eq : s.mem = s.homes.mem := rfl

/-! ## Fields -/

@[simp] theorem State.putCore_now (i : Nat) (c : CoreSt) : (s.putCore i c).now = s.now := rfl
@[simp] theorem State.putCore_cur (i : Nat) (c : CoreSt) : (s.putCore i c).cur = s.cur := rfl
@[simp] theorem State.putCore_arg (i : Nat) (c : CoreSt) : (s.putCore i c).arg = s.arg := rfl
@[simp] theorem State.putCore_agenda (i : Nat) (c : CoreSt) : (s.putCore i c).agenda = s.agenda := rfl
@[simp] theorem State.putCore_pools (i : Nat) (c : CoreSt) : (s.putCore i c).pools = s.pools := rfl
@[simp] theorem State.putCore_arrivals (i : Nat) (c : CoreSt) : (s.putCore i c).arrivals = s.arrivals := rfl
@[simp] theorem State.putCore_gangs (i : Nat) (c : CoreSt) : (s.putCore i c).gangs = s.gangs := rfl
@[simp] theorem State.putCore_weirs (i : Nat) (c : CoreSt) : (s.putCore i c).weirs = s.weirs := rfl
@[simp] theorem State.putCore_weirCounts (i : Nat) (c : CoreSt) : (s.putCore i c).weirCounts = s.weirCounts := rfl
@[simp] theorem State.putCore_walkers (i : Nat) (c : CoreSt) : (s.putCore i c).walkers = s.walkers := rfl
@[simp] theorem State.putCore_homes (i : Nat) (c : CoreSt) : (s.putCore i c).homes = s.homes := rfl
@[simp] theorem State.putCore_eng (i : Nat) (c : CoreSt) : (s.putCore i c).eng = s.eng := rfl
@[simp] theorem State.putCore_quotas (i : Nat) (c : CoreSt) : (s.putCore i c).quotas = s.quotas := rfl
@[simp] theorem State.putCore_arbs (i : Nat) (c : CoreSt) : (s.putCore i c).arbs = s.arbs := rfl
@[simp] theorem State.putCore_periods (i : Nat) (c : CoreSt) : (s.putCore i c).periods = s.periods := rfl
@[simp] theorem State.putCore_modnum (i : Nat) (c : CoreSt) : (s.putCore i c).modnum = s.modnum := rfl
@[simp] theorem State.putCore_hostown (i : Nat) (c : CoreSt) : (s.putCore i c).hostown = s.hostown := rfl
@[simp] theorem State.putCore_windrop (i : Nat) (c : CoreSt) : (s.putCore i c).windrop = s.windrop := rfl
@[simp] theorem State.putCore_owners (i : Nat) (c : CoreSt) : (s.putCore i c).owners = s.owners := rfl
@[simp] theorem State.putCore_rcv (i : Nat) (c : CoreSt) : (s.putCore i c).rcv = s.rcv := rfl
@[simp] theorem State.putCore_drops (i : Nat) (c : CoreSt) : (s.putCore i c).drops = s.drops := rfl
@[simp] theorem State.putCore_dropCount (i : Nat) (c : CoreSt) : (s.putCore i c).dropCount = s.dropCount := rfl
@[simp] theorem State.putCore_power (i : Nat) (c : CoreSt) : (s.putCore i c).power = s.power := rfl
@[simp] theorem State.putCore_boot (i : Nat) (c : CoreSt) : (s.putCore i c).boot = s.boot := rfl

@[simp] theorem State.onCore_now (i : Nat) (f : CoreSt → CoreSt) : (s.onCore i f).now = s.now := rfl
@[simp] theorem State.onCore_cur (i : Nat) (f : CoreSt → CoreSt) : (s.onCore i f).cur = s.cur := rfl
@[simp] theorem State.onCore_arg (i : Nat) (f : CoreSt → CoreSt) : (s.onCore i f).arg = s.arg := rfl
@[simp] theorem State.onCore_agenda (i : Nat) (f : CoreSt → CoreSt) : (s.onCore i f).agenda = s.agenda := rfl
@[simp] theorem State.onCore_pools (i : Nat) (f : CoreSt → CoreSt) : (s.onCore i f).pools = s.pools := rfl
@[simp] theorem State.onCore_arrivals (i : Nat) (f : CoreSt → CoreSt) : (s.onCore i f).arrivals = s.arrivals := rfl
@[simp] theorem State.onCore_gangs (i : Nat) (f : CoreSt → CoreSt) : (s.onCore i f).gangs = s.gangs := rfl
@[simp] theorem State.onCore_weirs (i : Nat) (f : CoreSt → CoreSt) : (s.onCore i f).weirs = s.weirs := rfl
@[simp] theorem State.onCore_weirCounts (i : Nat) (f : CoreSt → CoreSt) : (s.onCore i f).weirCounts = s.weirCounts := rfl
@[simp] theorem State.onCore_walkers (i : Nat) (f : CoreSt → CoreSt) : (s.onCore i f).walkers = s.walkers := rfl
@[simp] theorem State.onCore_homes (i : Nat) (f : CoreSt → CoreSt) : (s.onCore i f).homes = s.homes := rfl
@[simp] theorem State.onCore_eng (i : Nat) (f : CoreSt → CoreSt) : (s.onCore i f).eng = s.eng := rfl
@[simp] theorem State.onCore_quotas (i : Nat) (f : CoreSt → CoreSt) : (s.onCore i f).quotas = s.quotas := rfl
@[simp] theorem State.onCore_arbs (i : Nat) (f : CoreSt → CoreSt) : (s.onCore i f).arbs = s.arbs := rfl
@[simp] theorem State.onCore_periods (i : Nat) (f : CoreSt → CoreSt) : (s.onCore i f).periods = s.periods := rfl
@[simp] theorem State.onCore_modnum (i : Nat) (f : CoreSt → CoreSt) : (s.onCore i f).modnum = s.modnum := rfl
@[simp] theorem State.onCore_hostown (i : Nat) (f : CoreSt → CoreSt) : (s.onCore i f).hostown = s.hostown := rfl
@[simp] theorem State.onCore_windrop (i : Nat) (f : CoreSt → CoreSt) : (s.onCore i f).windrop = s.windrop := rfl
@[simp] theorem State.onCore_owners (i : Nat) (f : CoreSt → CoreSt) : (s.onCore i f).owners = s.owners := rfl
@[simp] theorem State.onCore_rcv (i : Nat) (f : CoreSt → CoreSt) : (s.onCore i f).rcv = s.rcv := rfl
@[simp] theorem State.onCore_drops (i : Nat) (f : CoreSt → CoreSt) : (s.onCore i f).drops = s.drops := rfl
@[simp] theorem State.onCore_dropCount (i : Nat) (f : CoreSt → CoreSt) : (s.onCore i f).dropCount = s.dropCount := rfl
@[simp] theorem State.onCore_power (i : Nat) (f : CoreSt → CoreSt) : (s.onCore i f).power = s.power := rfl
@[simp] theorem State.onCore_boot (i : Nat) (f : CoreSt → CoreSt) : (s.onCore i f).boot = s.boot := rfl

@[simp] theorem State.onHomes_now (f : Homes → Homes) : (s.onHomes f).now = s.now := rfl
@[simp] theorem State.onHomes_cur (f : Homes → Homes) : (s.onHomes f).cur = s.cur := rfl
@[simp] theorem State.onHomes_arg (f : Homes → Homes) : (s.onHomes f).arg = s.arg := rfl
@[simp] theorem State.onHomes_agenda (f : Homes → Homes) : (s.onHomes f).agenda = s.agenda := rfl
@[simp] theorem State.onHomes_cores (f : Homes → Homes) : (s.onHomes f).cores = s.cores := rfl
@[simp] theorem State.onHomes_pools (f : Homes → Homes) : (s.onHomes f).pools = s.pools := rfl
@[simp] theorem State.onHomes_arrivals (f : Homes → Homes) : (s.onHomes f).arrivals = s.arrivals := rfl
@[simp] theorem State.onHomes_gangs (f : Homes → Homes) : (s.onHomes f).gangs = s.gangs := rfl
@[simp] theorem State.onHomes_weirs (f : Homes → Homes) : (s.onHomes f).weirs = s.weirs := rfl
@[simp] theorem State.onHomes_weirCounts (f : Homes → Homes) : (s.onHomes f).weirCounts = s.weirCounts := rfl
@[simp] theorem State.onHomes_walkers (f : Homes → Homes) : (s.onHomes f).walkers = s.walkers := rfl
@[simp] theorem State.onHomes_eng (f : Homes → Homes) : (s.onHomes f).eng = s.eng := rfl
@[simp] theorem State.onHomes_quotas (f : Homes → Homes) : (s.onHomes f).quotas = s.quotas := rfl
@[simp] theorem State.onHomes_arbs (f : Homes → Homes) : (s.onHomes f).arbs = s.arbs := rfl
@[simp] theorem State.onHomes_periods (f : Homes → Homes) : (s.onHomes f).periods = s.periods := rfl
@[simp] theorem State.onHomes_modnum (f : Homes → Homes) : (s.onHomes f).modnum = s.modnum := rfl
@[simp] theorem State.onHomes_hostown (f : Homes → Homes) : (s.onHomes f).hostown = s.hostown := rfl
@[simp] theorem State.onHomes_windrop (f : Homes → Homes) : (s.onHomes f).windrop = s.windrop := rfl
@[simp] theorem State.onHomes_owners (f : Homes → Homes) : (s.onHomes f).owners = s.owners := rfl
@[simp] theorem State.onHomes_rcv (f : Homes → Homes) : (s.onHomes f).rcv = s.rcv := rfl
@[simp] theorem State.onHomes_drops (f : Homes → Homes) : (s.onHomes f).drops = s.drops := rfl
@[simp] theorem State.onHomes_dropCount (f : Homes → Homes) : (s.onHomes f).dropCount = s.dropCount := rfl
@[simp] theorem State.onHomes_power (f : Homes → Homes) : (s.onHomes f).power = s.power := rfl
@[simp] theorem State.onHomes_boot (f : Homes → Homes) : (s.onHomes f).boot = s.boot := rfl

@[simp] theorem State.onEng_now (f : Engines → Engines) : (s.onEng f).now = s.now := rfl
@[simp] theorem State.onEng_cur (f : Engines → Engines) : (s.onEng f).cur = s.cur := rfl
@[simp] theorem State.onEng_arg (f : Engines → Engines) : (s.onEng f).arg = s.arg := rfl
@[simp] theorem State.onEng_agenda (f : Engines → Engines) : (s.onEng f).agenda = s.agenda := rfl
@[simp] theorem State.onEng_cores (f : Engines → Engines) : (s.onEng f).cores = s.cores := rfl
@[simp] theorem State.onEng_pools (f : Engines → Engines) : (s.onEng f).pools = s.pools := rfl
@[simp] theorem State.onEng_arrivals (f : Engines → Engines) : (s.onEng f).arrivals = s.arrivals := rfl
@[simp] theorem State.onEng_gangs (f : Engines → Engines) : (s.onEng f).gangs = s.gangs := rfl
@[simp] theorem State.onEng_weirs (f : Engines → Engines) : (s.onEng f).weirs = s.weirs := rfl
@[simp] theorem State.onEng_weirCounts (f : Engines → Engines) : (s.onEng f).weirCounts = s.weirCounts := rfl
@[simp] theorem State.onEng_walkers (f : Engines → Engines) : (s.onEng f).walkers = s.walkers := rfl
@[simp] theorem State.onEng_homes (f : Engines → Engines) : (s.onEng f).homes = s.homes := rfl
@[simp] theorem State.onEng_quotas (f : Engines → Engines) : (s.onEng f).quotas = s.quotas := rfl
@[simp] theorem State.onEng_arbs (f : Engines → Engines) : (s.onEng f).arbs = s.arbs := rfl
@[simp] theorem State.onEng_periods (f : Engines → Engines) : (s.onEng f).periods = s.periods := rfl
@[simp] theorem State.onEng_modnum (f : Engines → Engines) : (s.onEng f).modnum = s.modnum := rfl
@[simp] theorem State.onEng_hostown (f : Engines → Engines) : (s.onEng f).hostown = s.hostown := rfl
@[simp] theorem State.onEng_windrop (f : Engines → Engines) : (s.onEng f).windrop = s.windrop := rfl
@[simp] theorem State.onEng_owners (f : Engines → Engines) : (s.onEng f).owners = s.owners := rfl
@[simp] theorem State.onEng_rcv (f : Engines → Engines) : (s.onEng f).rcv = s.rcv := rfl
@[simp] theorem State.onEng_drops (f : Engines → Engines) : (s.onEng f).drops = s.drops := rfl
@[simp] theorem State.onEng_dropCount (f : Engines → Engines) : (s.onEng f).dropCount = s.dropCount := rfl
@[simp] theorem State.onEng_power (f : Engines → Engines) : (s.onEng f).power = s.power := rfl
@[simp] theorem State.onEng_boot (f : Engines → Engines) : (s.onEng f).boot = s.boot := rfl

@[simp] theorem State.onRcv_now (f : Recovery → Recovery) : (s.onRcv f).now = s.now := rfl
@[simp] theorem State.onRcv_cur (f : Recovery → Recovery) : (s.onRcv f).cur = s.cur := rfl
@[simp] theorem State.onRcv_arg (f : Recovery → Recovery) : (s.onRcv f).arg = s.arg := rfl
@[simp] theorem State.onRcv_agenda (f : Recovery → Recovery) : (s.onRcv f).agenda = s.agenda := rfl
@[simp] theorem State.onRcv_cores (f : Recovery → Recovery) : (s.onRcv f).cores = s.cores := rfl
@[simp] theorem State.onRcv_pools (f : Recovery → Recovery) : (s.onRcv f).pools = s.pools := rfl
@[simp] theorem State.onRcv_arrivals (f : Recovery → Recovery) : (s.onRcv f).arrivals = s.arrivals := rfl
@[simp] theorem State.onRcv_gangs (f : Recovery → Recovery) : (s.onRcv f).gangs = s.gangs := rfl
@[simp] theorem State.onRcv_weirs (f : Recovery → Recovery) : (s.onRcv f).weirs = s.weirs := rfl
@[simp] theorem State.onRcv_weirCounts (f : Recovery → Recovery) : (s.onRcv f).weirCounts = s.weirCounts := rfl
@[simp] theorem State.onRcv_walkers (f : Recovery → Recovery) : (s.onRcv f).walkers = s.walkers := rfl
@[simp] theorem State.onRcv_homes (f : Recovery → Recovery) : (s.onRcv f).homes = s.homes := rfl
@[simp] theorem State.onRcv_eng (f : Recovery → Recovery) : (s.onRcv f).eng = s.eng := rfl
@[simp] theorem State.onRcv_quotas (f : Recovery → Recovery) : (s.onRcv f).quotas = s.quotas := rfl
@[simp] theorem State.onRcv_arbs (f : Recovery → Recovery) : (s.onRcv f).arbs = s.arbs := rfl
@[simp] theorem State.onRcv_periods (f : Recovery → Recovery) : (s.onRcv f).periods = s.periods := rfl
@[simp] theorem State.onRcv_modnum (f : Recovery → Recovery) : (s.onRcv f).modnum = s.modnum := rfl
@[simp] theorem State.onRcv_hostown (f : Recovery → Recovery) : (s.onRcv f).hostown = s.hostown := rfl
@[simp] theorem State.onRcv_windrop (f : Recovery → Recovery) : (s.onRcv f).windrop = s.windrop := rfl
@[simp] theorem State.onRcv_owners (f : Recovery → Recovery) : (s.onRcv f).owners = s.owners := rfl
@[simp] theorem State.onRcv_drops (f : Recovery → Recovery) : (s.onRcv f).drops = s.drops := rfl
@[simp] theorem State.onRcv_dropCount (f : Recovery → Recovery) : (s.onRcv f).dropCount = s.dropCount := rfl
@[simp] theorem State.onRcv_power (f : Recovery → Recovery) : (s.onRcv f).power = s.power := rfl
@[simp] theorem State.onRcv_boot (f : Recovery → Recovery) : (s.onRcv f).boot = s.boot := rfl

@[simp] theorem State.onWalker_now (d : Nat) (f : Walker → Walker) : (s.onWalker d f).now = s.now := rfl
@[simp] theorem State.onWalker_cur (d : Nat) (f : Walker → Walker) : (s.onWalker d f).cur = s.cur := rfl
@[simp] theorem State.onWalker_arg (d : Nat) (f : Walker → Walker) : (s.onWalker d f).arg = s.arg := rfl
@[simp] theorem State.onWalker_agenda (d : Nat) (f : Walker → Walker) : (s.onWalker d f).agenda = s.agenda := rfl
@[simp] theorem State.onWalker_cores (d : Nat) (f : Walker → Walker) : (s.onWalker d f).cores = s.cores := rfl
@[simp] theorem State.onWalker_pools (d : Nat) (f : Walker → Walker) : (s.onWalker d f).pools = s.pools := rfl
@[simp] theorem State.onWalker_arrivals (d : Nat) (f : Walker → Walker) : (s.onWalker d f).arrivals = s.arrivals := rfl
@[simp] theorem State.onWalker_gangs (d : Nat) (f : Walker → Walker) : (s.onWalker d f).gangs = s.gangs := rfl
@[simp] theorem State.onWalker_weirs (d : Nat) (f : Walker → Walker) : (s.onWalker d f).weirs = s.weirs := rfl
@[simp] theorem State.onWalker_weirCounts (d : Nat) (f : Walker → Walker) : (s.onWalker d f).weirCounts = s.weirCounts := rfl
@[simp] theorem State.onWalker_homes (d : Nat) (f : Walker → Walker) : (s.onWalker d f).homes = s.homes := rfl
@[simp] theorem State.onWalker_eng (d : Nat) (f : Walker → Walker) : (s.onWalker d f).eng = s.eng := rfl
@[simp] theorem State.onWalker_quotas (d : Nat) (f : Walker → Walker) : (s.onWalker d f).quotas = s.quotas := rfl
@[simp] theorem State.onWalker_arbs (d : Nat) (f : Walker → Walker) : (s.onWalker d f).arbs = s.arbs := rfl
@[simp] theorem State.onWalker_periods (d : Nat) (f : Walker → Walker) : (s.onWalker d f).periods = s.periods := rfl
@[simp] theorem State.onWalker_modnum (d : Nat) (f : Walker → Walker) : (s.onWalker d f).modnum = s.modnum := rfl
@[simp] theorem State.onWalker_hostown (d : Nat) (f : Walker → Walker) : (s.onWalker d f).hostown = s.hostown := rfl
@[simp] theorem State.onWalker_windrop (d : Nat) (f : Walker → Walker) : (s.onWalker d f).windrop = s.windrop := rfl
@[simp] theorem State.onWalker_owners (d : Nat) (f : Walker → Walker) : (s.onWalker d f).owners = s.owners := rfl
@[simp] theorem State.onWalker_rcv (d : Nat) (f : Walker → Walker) : (s.onWalker d f).rcv = s.rcv := rfl
@[simp] theorem State.onWalker_drops (d : Nat) (f : Walker → Walker) : (s.onWalker d f).drops = s.drops := rfl
@[simp] theorem State.onWalker_dropCount (d : Nat) (f : Walker → Walker) : (s.onWalker d f).dropCount = s.dropCount := rfl
@[simp] theorem State.onWalker_power (d : Nat) (f : Walker → Walker) : (s.onWalker d f).power = s.power := rfl
@[simp] theorem State.onWalker_boot (d : Nat) (f : Walker → Walker) : (s.onWalker d f).boot = s.boot := rfl

@[simp] theorem State.onPool_now (t : Nat) (f : Pool → Pool) : (s.onPool t f).now = s.now := rfl
@[simp] theorem State.onPool_cur (t : Nat) (f : Pool → Pool) : (s.onPool t f).cur = s.cur := rfl
@[simp] theorem State.onPool_arg (t : Nat) (f : Pool → Pool) : (s.onPool t f).arg = s.arg := rfl
@[simp] theorem State.onPool_agenda (t : Nat) (f : Pool → Pool) : (s.onPool t f).agenda = s.agenda := rfl
@[simp] theorem State.onPool_cores (t : Nat) (f : Pool → Pool) : (s.onPool t f).cores = s.cores := rfl
@[simp] theorem State.onPool_arrivals (t : Nat) (f : Pool → Pool) : (s.onPool t f).arrivals = s.arrivals := rfl
@[simp] theorem State.onPool_gangs (t : Nat) (f : Pool → Pool) : (s.onPool t f).gangs = s.gangs := rfl
@[simp] theorem State.onPool_weirs (t : Nat) (f : Pool → Pool) : (s.onPool t f).weirs = s.weirs := rfl
@[simp] theorem State.onPool_weirCounts (t : Nat) (f : Pool → Pool) : (s.onPool t f).weirCounts = s.weirCounts := rfl
@[simp] theorem State.onPool_walkers (t : Nat) (f : Pool → Pool) : (s.onPool t f).walkers = s.walkers := rfl
@[simp] theorem State.onPool_homes (t : Nat) (f : Pool → Pool) : (s.onPool t f).homes = s.homes := rfl
@[simp] theorem State.onPool_eng (t : Nat) (f : Pool → Pool) : (s.onPool t f).eng = s.eng := rfl
@[simp] theorem State.onPool_quotas (t : Nat) (f : Pool → Pool) : (s.onPool t f).quotas = s.quotas := rfl
@[simp] theorem State.onPool_arbs (t : Nat) (f : Pool → Pool) : (s.onPool t f).arbs = s.arbs := rfl
@[simp] theorem State.onPool_periods (t : Nat) (f : Pool → Pool) : (s.onPool t f).periods = s.periods := rfl
@[simp] theorem State.onPool_modnum (t : Nat) (f : Pool → Pool) : (s.onPool t f).modnum = s.modnum := rfl
@[simp] theorem State.onPool_hostown (t : Nat) (f : Pool → Pool) : (s.onPool t f).hostown = s.hostown := rfl
@[simp] theorem State.onPool_windrop (t : Nat) (f : Pool → Pool) : (s.onPool t f).windrop = s.windrop := rfl
@[simp] theorem State.onPool_owners (t : Nat) (f : Pool → Pool) : (s.onPool t f).owners = s.owners := rfl
@[simp] theorem State.onPool_rcv (t : Nat) (f : Pool → Pool) : (s.onPool t f).rcv = s.rcv := rfl
@[simp] theorem State.onPool_drops (t : Nat) (f : Pool → Pool) : (s.onPool t f).drops = s.drops := rfl
@[simp] theorem State.onPool_dropCount (t : Nat) (f : Pool → Pool) : (s.onPool t f).dropCount = s.dropCount := rfl
@[simp] theorem State.onPool_power (t : Nat) (f : Pool → Pool) : (s.onPool t f).power = s.power := rfl
@[simp] theorem State.onPool_boot (t : Nat) (f : Pool → Pool) : (s.onPool t f).boot = s.boot := rfl

@[simp] theorem State.onHomes_homes (f : Homes → Homes) : (s.onHomes f).homes = f s.homes := rfl
@[simp] theorem State.onEng_eng (f : Engines → Engines) : (s.onEng f).eng = f s.eng := rfl
@[simp] theorem State.onRcv_rcv (f : Recovery → Recovery) : (s.onRcv f).rcv = f s.rcv := rfl

/-! ## Cores, walkers and pools by number -/

@[simp] theorem State.core_putCore_self (i : Nat) (c : CoreSt) : (s.putCore i c).core i = c := by
  simp [State.core, State.putCore]

theorem State.core_putCore_ne {i j : Nat} (c : CoreSt) (h : j ≠ i) : (s.putCore i c).core j = s.core j := by
  simp [State.core, State.putCore, mget?_mput_ne _ _ h]

@[simp] theorem State.core_onCore_self (i : Nat) (f : CoreSt → CoreSt) : (s.onCore i f).core i = f (s.core i) :=
  s.core_putCore_self i _

theorem State.core_onCore_ne {i j : Nat} (f : CoreSt → CoreSt) (h : j ≠ i) : (s.onCore i f).core j = s.core j :=
  s.core_putCore_ne _ h

/-- Two updates of one core are one. -/
@[simp] theorem State.onCore_onCore (i : Nat) (f g : CoreSt → CoreSt) :
    (s.onCore i f).onCore i g = s.onCore i fun c => g (f c) := by
  simp only [State.onCore, State.core_putCore_self]
  simp [State.putCore]

@[simp] theorem State.core_onHomes (f : Homes → Homes) (i : Nat) : (s.onHomes f).core i = s.core i := rfl
@[simp] theorem State.core_onEng (f : Engines → Engines) (i : Nat) : (s.onEng f).core i = s.core i := rfl
@[simp] theorem State.core_onRcv (f : Recovery → Recovery) (i : Nat) : (s.onRcv f).core i = s.core i := rfl
@[simp] theorem State.core_onWalker (d : Nat) (f : Walker → Walker) (i : Nat) : (s.onWalker d f).core i = s.core i := rfl
@[simp] theorem State.core_onPool (t : Nat) (f : Pool → Pool) (i : Nat) : (s.onPool t f).core i = s.core i := rfl

@[simp] theorem State.walker_onWalker_self (d : Nat) (f : Walker → Walker) : (s.onWalker d f).walker d = f (s.walker d) := by
  simp [State.walker, State.onWalker]

theorem State.walker_onWalker_ne {d e : Nat} (f : Walker → Walker) (h : e ≠ d) : (s.onWalker d f).walker e = s.walker e := by
  simp [State.walker, State.onWalker, mget?_mput_ne _ _ h]

@[simp] theorem State.pool_onPool_self (t : Nat) (f : Pool → Pool) : (s.onPool t f).pool t = f (s.pool t) := by
  simp [State.pool, State.onPool]

theorem State.pool_onPool_ne {t u : Nat} (f : Pool → Pool) (h : u ≠ t) : (s.onPool t f).pool u = s.pool u := by
  simp [State.pool, State.onPool, mget?_mput_ne _ _ h]

end Sys2Proof.Machine
end

