-- ==== Sys2Proof/Laws/Parts.lean ====
section
/-! SUPPORT. What a write or a read at a home or array can do to memory: each keeps its canonical form, most leave it alone, and a write
at a place writes its bytes there. -/

namespace Sys2Proof.Machine

variable (s : State)

/-! ## Operations that leave memory alone -/

@[simp] theorem takeFree_mem : (takeFree s).1.homes.mem = s.homes.mem := rfl
@[simp] theorem dirtyMere_mem (line : Nat) : (dirtyMere s line).homes.mem = s.homes.mem := rfl

@[simp] theorem evictLine_homes (x : MereLine) : (evictLine s x).homes = s.homes := by
  unfold evictLine
  split <;> rfl

@[simp] theorem touchMere_mem (pa cls : Nat) : (touchMere s pa cls).homes.mem = s.homes.mem := by
  unfold touchMere
  dsimp only
  split
  · rfl
  · split
    · rfl
    · split
      · rfl
      · split
        · rfl
        · rw [State.onHomes_homes, evictLine_homes]

/-! ## Memory keeps its canonical form -/

theorem MemOk.of_mem {s t : State} (h : MemOk s) (e : t.homes.mem = s.homes.mem) : MemOk t := by unfold MemOk at *; rw [e]; exact h
theorem MemOk.of_homes {s t : State} (h : MemOk s) (e : t.homes = s.homes) : MemOk t := h.of_mem (by rw [e])

theorem MemOk.onHomes {s : State} {f : Homes → Homes} (h : MemOk s) (hf : ∀ x, (f x).mem = x.mem) : MemOk (s.onHomes f) :=
  h.of_mem (hf _)
theorem MemOk.onRcv {s : State} (f : Recovery → Recovery) (h : MemOk s) : MemOk (s.onRcv f) := h.of_mem rfl

theorem MemOk.onSched {s : State} (i : Nat) (f : Sched → Sched) (h : MemOk s) : MemOk (s.onSched i f) := h
theorem MemOk.withOwners {s : State} (o : Owners) (h : MemOk s) : MemOk { s with owners := o } := h

/-- A fold whose steps keep memory canonical keeps it. -/
theorem MemOk.foldl {α : Type} {f : State → α → State} (hf : ∀ s a, MemOk s → MemOk (f s a)) (l : List α) :
    ∀ {s : State}, MemOk s → MemOk (l.foldl f s) := by
  induction l with
  | nil => exact fun h => h
  | cons a l ih => exact fun h => ih (hf _ a h)

variable {s}

theorem MemOk.touchMere (pa cls : Nat) (h : MemOk s) : MemOk (touchMere s pa cls) := h.of_mem (touchMere_mem s pa cls)

theorem MemOk.openZp (pa : Nat) (h : MemOk s) : MemOk (openZp s pa) := by
  unfold Machine.openZp
  dsimp only
  split
  · exact writeBytes_wf _ _ h
  · exact h

theorem MemOk.rekeyLine (pa key : Nat) (h : MemOk s) : MemOk (rekeyLine s pa key) := by
  unfold Machine.rekeyLine
  dsimp only
  split
  · split
    · exact h
    · exact writeBytes_wf _ _ h
  · exact h

theorem MemOk.writePlace (p : Place) (bs : List Byte) (cls : Nat) (h : MemOk s) : MemOk (writePlace s p bs cls) := by
  unfold Machine.writePlace
  split
  · exact writeBytes_wf _ _ h
  · exact writeBytes_wf _ _ (((h.touchMere _ _).openZp _).rekeyLine _ _)

theorem MemOk.putArray (a : Nat) (bs : List Byte) (h : MemOk s) : MemOk (s.putArray a bs) := writeBytes_wf a bs h
theorem MemOk.putWord (a : Nat) (w : Word) (h : MemOk s) : MemOk (s.putWord a w) := h.putArray a _

theorem MemOk.putPhysLine (pa : Nat) (bs : List Byte) (h : MemOk s) : MemOk (s.putPhysLine pa bs) :=
  writeBytes_wf pa bs ((h.touchMere pa 0).openZp pa)

theorem MemOk.readTouch (p : Place) (cls : Nat) (h : MemOk s) : MemOk (readTouch s p cls) := by
  unfold Machine.readTouch
  split
  · exact h
  · exact (h.touchMere _ _).openZp _

/-! ## What a write at a place leaves -/

/-- A write at an array place changes only its own bytes. -/
theorem writePlace_array_mem (s : State) (a : Nat) (bs : List Byte) (cls : Nat) :
    (writePlace s (.array a) bs cls).homes.mem = writeBytes s.homes.mem a bs := rfl

end Sys2Proof.Machine
end

