-- ==== Sys2Proof/Laws/Traps.lean ====
section
/-! SUPPORT. What the shared operations of traps, aborts and ends of firings can do, said once: the part of the state that
none of them touches, the memory that they keep canonical, and the ways a trap can go. -/

namespace Sys2Proof.Machine

variable (s : State) (i : Nat)

/-! ## Operations that leave the homes alone -/

@[simp] theorem mcLog_homes (r : McRec) : (s.mcLog r).homes = s.homes := rfl
@[simp] theorem writeRegs_homes (ws : List RegWrite) (fl : Flags) : (s.writeRegs i ws fl).homes = s.homes := rfl
@[simp] theorem complete_homes (id : Nat) : (s.complete i id).homes = s.homes := rfl
@[simp] theorem postShrink_homes (t : Nat) : (postShrink s t).homes = s.homes := rfl
@[simp] theorem releaseLanes_homes : (s.releaseLanes i).homes = s.homes := rfl
@[simp] theorem withdrawClaim_homes : (s.withdrawClaim i).homes = s.homes := rfl

/-- A fold whose steps leave the homes alone leaves them alone. -/
theorem foldl_homes {α : Type} (f : State → α → State) (h : ∀ s a, (f s a).homes = s.homes) (l : List α) :
    ∀ s, (l.foldl f s).homes = s.homes := by
  induction l with
  | nil => exact fun _ => rfl
  | cons a l ih => exact fun s => (ih _).trans (h s a)

/-- Results that are due reach registers only. -/
@[simp] theorem flushDue_homes : (flushDue s i).homes = s.homes := by
  unfold flushDue
  exact foldl_homes (fun s (p : PendWrite) => (s.writeRegsAt i p.due p.writes p.flags).onCore i fun c =>
    if tagOf c p.tag = .outstanding then setTag c p.tag .done else c) (fun _ _ => rfl) _ _

@[simp] theorem completeWith_homes (id : Nat) (ws : List RegWrite) (fl : Flags) : (s.completeWith i id ws fl).homes = s.homes :=
  flushDue_homes s i

@[simp] theorem returnReservations_homes (slot : Nat) : (returnReservations s i slot).homes = s.homes := by
  unfold returnReservations
  split
  · rfl
  · exact foldl_homes _ (fun s o => by split <;> rfl) _ _

@[simp] theorem freeActor_homes (slot : Nat) : (freeActor s i slot).homes = s.homes := by
  unfold freeActor
  refine (foldl_homes _ (fun s x => foldl_homes _ (fun s o => ?_) _ _) _ _).trans ?_
  · split
    · split
      · exact completeWith_homes _ _ _ _ _
      · rfl
    · rfl
  · simp

@[simp] theorem actorBoundary_homes (k : FKind) : (actorBoundary s i k).homes = s.homes := by
  unfold actorBoundary
  split
  · split
    · split <;> simp
    · rfl
  · rfl

@[simp] theorem closeFiring_homes : (closeFiring s i).homes = s.homes := by
  unfold closeFiring
  dsimp only
  split <;> simp

/-! ## Memory keeps its canonical form -/

variable {s}

/-- A fault record is counted as lost, or is written in its slot of the ring (R425). -/
theorem faultRecord_cases (s : State) (ws : List Word) :
    s.faultRecord ws = s.onRcv (fun r => { r with fqlost := r.fqlost + 1 }) ∨
    s.faultRecord ws = (s.putPhysLine (64 * (s.rcv.fqbase / 64 + s.rcv.fqhead)) (bytesOfWords ws)).onRcv fun r =>
      { r with fqhead := (r.fqhead + 1) % 4096, interrupts := r.interrupts + 1 } := by
  by_cases h : (s.rcv.fqbase = 0 || (s.rcv.fqhead + 1) % 4096 == s.rcv.fqtail % 4096) = true
  · left; unfold State.faultRecord; rw [if_pos h]
  · right; unfold State.faultRecord; rw [if_neg h]

theorem MemOk.faultRecord (ws : List Word) (h : MemOk s) : MemOk (s.faultRecord ws) := by
  obtain e | e := faultRecord_cases s ws <;> rw [e]
  · exact h
  · exact (h.putPhysLine _ _).onRcv _

@[simp] theorem logPoison_mem (s : State) (core : Option Nat) (a code owner : Nat) (misc0 misc1 : Word) :
    (logPoison s core a code owner misc0 misc1).homes.mem = s.homes.mem := rfl

/-- A mailbox that takes an entry writes its slot, COUNT and NEXT only (R304, R366). -/
theorem MemOk.mailboxTake (count last : Nat) (fill : State → Nat → State) (hf : ∀ s k, MemOk s → MemOk (fill s k)) (h : MemOk s) :
    MemOk (mailboxTake s i count last fill) := by
  unfold Machine.mailboxTake
  dsimp only
  have k : MemOk (match poisonCode s (count + 8) 8 with
      | some code => logPoison s (some i) (count + 8) code 0 0 0
      | none => (fill s (readNat s.mem (count + 8) 8)).putWord (count + 8)
          (W (if readNat s.mem (count + 8) 8 = last then 1 else readNat s.mem (count + 8) 8 + 1))) := by
    split
    · exact h.of_mem (logPoison_mem _ _ _ _ _ _ _)
    · exact (hf _ _ h).putWord _ _
  split
  · exact k.of_mem (logPoison_mem _ _ _ _ _ _ _)
  · exact k.putWord _ _

theorem MemOk.discard (ws : List Word) (reason owner : Nat) (h : MemOk s) : MemOk (s.discard i ws reason owner) := by
  unfold State.discard
  refine MemOk.faultRecord _ ?_
  split
  · exact (h.mailboxTake i _ _ _ fun _ _ h => (h.putArray _ _).putArray _ _).withOwners _
  · exact h.mailboxTake i _ _ _ fun _ _ h => (h.putArray _ _).putArray _ _

theorem MemOk.noteFrameOwner (h : MemOk s) : MemOk (noteFrameOwner s i) := by
  unfold Machine.noteFrameOwner
  split
  · exact h.of_mem (logPoison_mem _ _ _ _ _ _ _)
  · exact h

theorem MemOk.finishAbort (a : Abort) (h : MemOk s) : MemOk (finishAbort s i a) := by
  unfold Machine.finishAbort
  dsimp only
  split
  · exact h
  · next f _ =>
    refine MemOk.faultRecord _ (MemOk.of_homes ?_ (closeFiring_homes _ _))
    have k : ∀ u : State, u.homes = s.homes → MemOk (if f.handler = true then Machine.noteFrameOwner u i else u) := fun u e => by
      split
      · exact (h.of_homes e).noteFrameOwner i
      · exact h.of_homes e
    refine k _ ?_
    simp only [State.onTraps_eq, State.onCore_homes, withdrawClaim_homes]
    split <;> simp

theorem MemOk.abort (cause : Nat) (val pc : Word) (h : MemOk s) : MemOk (s.abort i cause val pc) := by
  unfold State.abort
  dsimp only
  split
  · exact h
  · exact h.finishAbort i _

theorem MemOk.noteBudget (h : MemOk s) : MemOk (Machine.noteBudget s i) := by
  unfold Machine.noteBudget
  dsimp only
  split
  · exact h
  · split
    · exact h
    · split
      · exact h.abort i _ _ _
      · exact h

theorem MemOk.enterTrap (p : PTrap) (h : MemOk s) : MemOk (enterTrap s i p) := by
  have k : MemOk (if p.cause = 0x13 then s else Machine.noteBudget s i) := by
    split
    · exact h
    · exact h.noteBudget i
  unfold Machine.enterTrap
  dsimp only
  split
  · exact k
  · exact k
  · exact MemOk.of_homes ((MemOk.of_homes k (withdrawClaim_homes _ i)).putArray _ _) rfl

/-- A trap with what it finds in the supervisor binding (R357). -/
def bound (s : State) (i : Nat) (p : PTrap) : PTrap :=
  { p with traph := (s.core i).sched.traph, scodeb := (s.core i).sched.scodeb, sowner := (s.core i).sched.sowner }

/-- Where a trap goes: nowhere without a firing, to an abort, into the handler, or into waiting for the firing's tags. -/
theorem deliver_cases (s : State) (i : Nat) (p : PTrap) :
    ((s.core i).firing = none ∧ deliver s i p = s) ∨
    (∃ f, (s.core i).firing = some f ∧ f.handler = true ∧
      deliver s i p = s.abort i 0x16 (if p.cause = 0x16 then p.val else nestVal p.cause 0) p.faultPc) ∨
    (∃ f, (s.core i).firing = some f ∧ f.handler = false ∧ deliver s i p = s.abort i p.cause p.val p.faultPc) ∨
    (∃ f, (s.core i).firing = some f ∧ f.handler = false ∧ f.sup = false ∧ directAbort p.cause = false ∧
      quiet (s.core i) = true ∧ deliver s i p = enterTrap s i (bound s i p)) ∨
    (∃ f, (s.core i).firing = some f ∧ f.handler = false ∧ f.sup = false ∧ directAbort p.cause = false ∧
      quiet (s.core i) = false ∧ deliver s i p = s.onTraps i fun t => { t with pending := some (bound s i p) }) := by
  unfold deliver
  dsimp only
  cases hf : (s.core i).firing with
  | none => exact .inl ⟨rfl, rfl⟩
  | some f =>
    cases hh : f.handler with
    | true => exact .inr (.inl ⟨f, rfl, hh, by simp [hh]⟩)
    | false =>
      simp only [hh, Bool.false_eq_true, if_false]
      split
      · exact .inr (.inr (.inl ⟨f, rfl, hh, rfl⟩))
      · rename_i hc
        simp only [Bool.or_eq_true, not_or, Bool.not_eq_true] at hc
        cases hq : quiet (s.core i) with
        | true => exact .inr (.inr (.inr (.inl ⟨f, rfl, hh, hc.1.1.1, hc.1.1.2, rfl, by simp [bound]⟩)))
        | false => exact .inr (.inr (.inr (.inr ⟨f, rfl, hh, hc.1.1.1, hc.1.1.2, rfl, by simp [bound]⟩)))

theorem MemOk.deliver (p : PTrap) (h : MemOk s) : MemOk (deliver s i p) := by
  obtain ⟨-, e⟩ | ⟨f, -, -, e⟩ | ⟨f, -, -, e⟩ | ⟨f, -, -, -, -, -, e⟩ | ⟨f, -, -, -, -, -, e⟩ := deliver_cases s i p <;> rw [e]
  · exact h
  · exact h.abort i _ _ _
  · exact h.abort i _ _ _
  · exact h.enterTrap i _
  · exact h

theorem MemOk.trap (cause : Nat) (val : Word) (h : MemOk s) : MemOk (trap s i cause val) := by
  unfold Machine.trap
  split
  · exact h
  · exact h.deliver i _

theorem MemOk.deliverLate (t : Fin 16) (f : LateFault) (h : MemOk s) : MemOk (deliverLate s i t f) := by
  unfold Machine.deliverLate
  dsimp only
  split
  · exact h
  · refine MemOk.deliver i _ (h.of_homes ?_)
    split <;> rfl

theorem MemOk.containFrame (e : Nat × Nat) (f : Firing) (h : MemOk s) : MemOk (containFrame s i e f) :=
  MemOk.abort i _ _ _ (h.of_mem (logPoison_mem _ _ _ _ _ _ _))


@[simp] theorem restoreFrame_homes (s : State) (f : Firing) (w : Nat → Word) : (restoreFrame s i f w).homes = s.homes := rfl

theorem MemOk.resumeAt (f : Firing) (target : Word) (h : MemOk s) : MemOk (resumeAt s i f target) := by
  unfold Machine.resumeAt
  split
  · exact h.abort i _ _ _
  · exact h.of_homes rfl

theorem MemOk.leaveFrame (f : Firing) (next : Bool) (e : Option (Nat × Nat)) (h : MemOk s) : MemOk (leaveFrame s i f next e) := by
  cases e with
  | some c => exact h.containFrame i _ _
  | none => exact MemOk.resumeAt i _ _ (h.of_homes (restoreFrame_homes i s _ _))

theorem MemOk.leaveTrap (next : Bool) (h : MemOk s) : MemOk (leaveTrap s i next) := by
  unfold Machine.leaveTrap
  split
  · exact h
  · exact h.leaveFrame i _ _ _

@[simp] theorem wakeCore_homes (s : State) : (wakeCore s i).homes = s.homes := rfl

theorem MemOk.arrivalMailbox (f : LateFault) (h : MemOk s) : MemOk (arrivalMailbox s i f) := by
  unfold Machine.arrivalMailbox
  refine MemOk.faultRecord _ ?_
  split
  · exact h.mailboxTake i _ _ _ fun _ _ h => h.putArray _ _
  · exact ((h.mailboxTake i _ _ _ fun _ _ h => h.putArray _ _).onSched i _).onSched i _

theorem MemOk.arrive (f : LateFault) (h : MemOk s) : MemOk (arrive s i f) := by
  unfold Machine.arrive
  dsimp only
  split
  · exact h
  · exact MemOk.arrivalMailbox i _ (h.of_homes rfl)

theorem MemOk.failOut (id cause : Nat) (val : Word) (h : MemOk s) : MemOk (s.failOut i id cause val) := by
  unfold State.failOut
  split
  · exact h
  · exact MemOk.arrive i _ (h.of_homes rfl)

theorem MemOk.containOut (id bank : Nat) (h : MemOk s) : MemOk (s.containOut i id bank) := h.failOut i id 0x14 _

end Sys2Proof.Machine
end

