-- ==== Sys2Proof/Laws/Access.lean ====
section
/-! SUPPORT. What a walk and an address check can do to memory: a walk keeps its canonical form, and an address check changes no
home. -/

namespace Sys2Proof.Machine

variable (s : State)

/-! ## Operations that leave the homes alone -/

@[simp] theorem setPlb_homes (i : Nat) (p : List PlbEnt) : (setPlb s i p).homes = s.homes := rfl
@[simp] theorem requestWalk_homes (i va : Nat) : (requestWalk s i va).homes = s.homes := rfl
@[simp] theorem countWalk_homes (d : Nat) (bad : Bool) : (countWalk s d bad).homes = s.homes := rfl
@[simp] theorem noteEntries_homes (d va : Nat) (path : List (Nat × Word)) : (noteEntries s d va path).homes = s.homes := rfl
@[simp] theorem endWalk_homes (d n : Nat) : (endWalk s d n).homes = s.homes := rfl
@[simp] theorem addWsig_homes (i va : Nat) : (addWsig s i va).homes = s.homes := rfl
@[simp] theorem l1Drop_homes (i : Nat) (hit : Nat → Bool) : (l1Drop s i hit).homes = s.homes := rfl
@[simp] theorem icDrop_homes (i : Nat) (hit : Nat → Bool) : (icDrop s i hit).homes = s.homes := rfl
@[simp] theorem l1Touch_homes (i line : Nat) : (l1Touch s i line).homes = s.homes := rfl
@[simp] theorem l1Fill_homes (i line : Nat) (data : List Byte) (poison : List (Nat × Nat)) : (l1Fill s i line data poison).homes = s.homes := rfl
@[simp] theorem l1Store_homes (i va : Nat) (bs : List Byte) : (l1Store s i va bs).homes = s.homes := rfl

/-! ## Walks keep memory canonical -/

variable {s}

theorem MemOk.claimZp (t : Trans) (leaf : Nat) (h : MemOk s) : MemOk (claimZp s t leaf) := by
  unfold Machine.claimZp
  exact (h.putPhysLine leaf _).onHomes fun _ => rfl

theorem MemOk.noteLarge (t : Trans) (h : MemOk s) : MemOk (noteLarge s t) := by
  unfold Machine.noteLarge; split <;> exact h

theorem MemOk.readEntry (d lvl t va : Nat) (h : MemOk s) : MemOk (readEntry s d lvl t va).1 := by
  unfold Machine.readEntry
  split
  · exact h
  · dsimp only
    split
    · exact h
    · exact (h.touchMere _ _).openZp _

theorem MemOk.walkRead (d t lvl va : Nat) (path : List (Nat × Word)) (h : MemOk s) : MemOk (walkRead s d t lvl va path).1 := by
  unfold Machine.walkRead
  have key := h.readEntry d lvl t va
  split
  · next e => rw [e] at key; exact key
  · next e =>
    rw [e] at key
    split
    · exact key
    · exact key
    · exact key
    · refine MemOk.noteLarge _ (MemOk.of_homes ?_ ((countWalk_homes _ _ _).trans (noteEntries_homes _ _ _ _)))
      split
      · exact key.claimZp _ _
      · exact key

theorem MemOk.walkFrom (d : Nat) : ∀ (n : Nat) {s : State} (t va : Nat) (path : List (Nat × Word)),
    MemOk s → MemOk (walkFrom s d t va path n).1
  | 0, _, _, _, _, h => h
  | n + 1, s, t, va, path, h => by
    unfold Machine.walkFrom
    have key := h.walkRead d t n va path
    split
    · next e => rw [e] at key; exact MemOk.walkFrom d n _ va _ key
    · next e => rw [e] at key; exact key

theorem MemOk.containNow (i a code : Nat) (h : MemOk s) : MemOk (containNow s i a code) := by
  unfold Machine.containNow
  split
  · exact h
  · exact MemOk.abort i _ _ _ (h.of_mem (logPoison_mem _ _ _ _ _ _ _))

theorem MemOk.giveWalk (page : Nat) (e : WalkEnd) (i : Nat) (h : MemOk s) : MemOk (giveWalk page e s i) := by
  unfold Machine.giveWalk
  split
  · exact h
  · exact h
  · exact h.containNow i _ _

theorem MemOk.giveAll (d n : Nat) (w : Walk) (e : WalkEnd) (h : MemOk s) : MemOk (giveAll s d n w e) :=
  MemOk.foldl (fun _ i h => h.giveWalk _ _ i) _ (h.of_homes (endWalk_homes _ _ _))

theorem MemOk.finishWalk (d n : Nat) (h : MemOk s) : MemOk (finishWalk s d n).1 := by
  unfold Machine.finishWalk
  split
  · exact h
  · exact (h.walkFrom d _ _ _ _).giveAll _ _ _ _

theorem MemOk.makeRoom (d : Nat) : ∀ (n : Nat) {s : State}, MemOk s → MemOk (makeRoom s d n)
  | 0, _, h => h
  | n + 1, s, h => by
    unfold Machine.makeRoom
    split
    · exact h
    · exact MemOk.makeRoom d n (h.finishWalk d 0)

/-- A walk that is served within a step keeps memory canonical, whatever walks it lets go before it. -/
theorem MemOk.walkNow (d va : Nat) (h : MemOk s) : MemOk (walkNow s d va).1 := by
  unfold Machine.walkNow
  dsimp only
  split
  · exact (h.makeRoom d _).finishWalk d _
  · exact (h.makeRoom d _).walkFrom d _ _ _ _

theorem MemOk.translateNow (die va : Nat) (h : MemOk s) : MemOk (translateNow s die va).1 := by
  unfold Machine.translateNow
  have key := h.walkNow die va
  split
  · next e => rw [e] at key; exact key
  · next e => rw [e] at key; exact key

/-- The state that an address check leaves. -/
def Acc.after : Acc → State
  | .ok s _ _ => s
  | .wait s => s
  | .bad s _ => s

/-- An address check changes no home: it uses the PLB, the TLB and the walker. -/
theorem checkAt_homes (s : State) (i : Nat) (ea : Word) (n need : Nat) : (checkAt s i ea n need).after.homes = s.homes := by
  unfold checkAt
  dsimp only
  split
  · rfl
  · split
    · rfl
    · split
      · split
        · split
          · rfl
          · split <;> rfl
        · split
          · rfl
          · split <;> rfl
      · rfl
      · split
        · rfl
        · split <;> rfl

theorem checkAccess_homes (s : State) (i : Nat) (ea : Word) (n align need : Nat) :
    (checkAccess s i ea n align need).after.homes = s.homes := by
  unfold checkAccess
  split
  · rfl
  · exact checkAt_homes _ _ _ _ _

theorem checkRun_homes {i need : Nat} : ∀ (k : Nat) (s : State) (ea : Word) {t : State},
    checkRun s i ea need k = .ok t → t.homes = s.homes
  | 0, s, ea, t, h => by cases h; rfl
  | k + 1, s, ea, t, h => by
    unfold checkRun at h
    split at h
    · rename_i u l p e
      exact (checkRun_homes k u _ h).trans (by have := checkAt_homes s i ea 64 need; rw [e] at this; exact this)
    · cases h

/-- The check of a TCM address uses the PLB alone. -/
theorem checkAt_tcm {i c off : Nat} {ea : Word} (n need : Nat) (h : decodeAddr i (wf ea 0 56) = some (.tcm c off)) :
    (checkAt s i ea n need).after = s ∨ ∃ plb, (checkAt s i ea n need).after = setPlb s i plb := by
  unfold checkAt
  simp only [h]
  split
  · exact .inl rfl
  · split
    · exact .inl rfl
    · right
      split <;> exact ⟨_, rfl⟩

theorem checkSpans_homes {i need : Nat} : ∀ (xs : List (Word × Nat)) (s : State) {t : State},
    checkSpans s i need xs = .ok t → t.homes = s.homes
  | [], s, t, h => by cases h; rfl
  | (ea, n) :: xs, s, t, h => by
    unfold checkSpans at h
    split at h
    · rename_i u l p e
      exact (checkSpans_homes xs u h).trans (by have := checkAt_homes s i ea n need; rw [e] at this; exact this)
    · cases h

end Sys2Proof.Machine
end

