-- ==== Sys2Proof/Laws/Issue.lean ====
section
/-! SUPPORT. What issue can do, said once: results that are due, a stall, the ways an attempt to issue ends, and how a result
leaves the pipeline. -/

namespace Sys2Proof.Machine

/-- Two core states that differ at most in what issue itself moves: registers that results reach, the issue side, the
coprocessor ring, and the program counter of the firing. -/
structure SameBut (c d : CoreSt) : Prop where
  cache : d.cache = c.cache
  mtx : d.mtx = c.mtx
  sched : d.sched = c.sched
  stopped : d.stopped = c.stopped
  traps : d.traps = { c.traps with cring := d.traps.cring }
  firing : d.firing = c.firing ∨ ∃ f pc, c.firing = some f ∧ d.firing = some { f with pc := pc }

theorem SameBut.refl (c : CoreSt) : SameBut c c := ⟨rfl, rfl, rfl, rfl, rfl, .inl rfl⟩

/-! ## Registers -/

@[simp] theorem writeRegsAt_eq (s : State) (i t : Nat) (ws : List RegWrite) (fl : Flags) :
    s.writeRegsAt i t ws fl = s.onCore i fun c =>
      { c with regs :=
          { c.regs.writeAll ws with
            fpstat := c.regs.fpstat ||| fl
            landed := if fl = 0 then c.regs.landed
              else (t, if c.regs.landed.1 = t then c.regs.landed.2 ||| fl else fl) } } := rfl

@[simp] theorem writeRegs_eq (s : State) (i : Nat) (ws : List RegWrite) (fl : Flags) :
    s.writeRegs i ws fl = s.onCore i fun c =>
      { c with regs :=
          { c.regs.writeAll ws with
            fpstat := c.regs.fpstat ||| fl
            landed := if fl = 0 then c.regs.landed
              else (s.now, if c.regs.landed.1 = s.now then c.regs.landed.2 ||| fl else fl) } } := rfl

/-- A result for g0 or p0 is discarded. -/
@[simp] theorem Regs.write_g0 (r : Regs) (v : Word) : r.write (.g 0 v) = r := rfl
@[simp] theorem Regs.write_p0 (r : Regs) (b : Bool) : r.write (.p 0 b) = r := rfl

/-- Outside a handler a result for a g register is read back, and every other g register keeps its value. -/
theorem gread_write (c : CoreSt) (d r : GReg) (v : Word) (h : (c.firing.map (·.handler)).getD false = false) :
    gread { c with regs := c.regs.write (gdest c d v) } r = if r = d ∧ d ≠ 0 then v else gread c r := by
  have hd : gdest c d v = .g d v := by simp [gdest, h]
  rw [hd]
  by_cases hz : d = 0
  · subst hz; simp
  · by_cases hr : r = d
    · subst hr
      simp [gread, Regs.write, hz, h, vget_vset_self _ _ _ r.isLt]
    · have hn : r.val ≠ d.val := fun e => hr (Fin.ext e)
      simp [gread, Regs.write, hz, hr, h, vget_vset_ne _ _ _ hn]

/-! ## Tags and rings -/

theorem setTag_same (c : CoreSt) (t : Fin 16) (x : TagSt) : SameBut c (setTag c t x) ∧ (setTag c t x).regs = c.regs := by
  unfold setTag; split <;> exact ⟨⟨rfl, rfl, rfl, rfl, rfl, .inl rfl⟩, rfl⟩

@[simp] theorem tagOf_setTag_self (c : CoreSt) (t : Fin 16) (x : TagSt) (h : t ≠ 0) : tagOf (setTag c t x) t = x := by
  simp [tagOf, setTag, h, vget_vset_self _ _ _ t.isLt]

theorem tagOf_setTag_ne (c : CoreSt) {t u : Fin 16} (x : TagSt) (h : u ≠ t) : tagOf (setTag c t x) u = tagOf c u := by
  unfold setTag; split
  · rfl
  · have : u.val ≠ t.val := fun e => h (Fin.ext e)
    simp [tagOf, vget_vset_ne _ _ _ this]

/-! ## Stalls and results that are due -/

@[simp] theorem stall_eq (s : State) (i : Nat) :
    stall s i = s.onCore i fun c => { c with iss := { c.iss with next := max c.iss.next (s.now + 1) } } := rfl

theorem onCore_id (s : State) (i : Nat) (f g : CoreSt → CoreSt) (h : f (s.core i) = g (s.core i)) : s.onCore i f = s.onCore i g := by
  simp [State.onCore, h]

/-- Results that are due change the registers, tags and pending results of their core and nothing else. -/
theorem flushDue_spec (s : State) (i : Nat) : ∃ g, flushDue s i = s.onCore i g ∧
    ∀ c, (g c).cache = c.cache ∧ (g c).mtx = c.mtx ∧ (g c).sched = c.sched ∧ (g c).stopped = c.stopped ∧
      (g c).traps = c.traps ∧ (g c).firing = c.firing ∧ (g c).iss.next = c.iss.next ∧ (g c).iss.outs = c.iss.outs := by
  unfold flushDue
  have key : ∀ (ps : List PendWrite) (g : CoreSt → CoreSt),
      (∀ c, (g c).cache = c.cache ∧ (g c).mtx = c.mtx ∧ (g c).sched = c.sched ∧ (g c).stopped = c.stopped ∧
        (g c).traps = c.traps ∧ (g c).firing = c.firing ∧ (g c).iss.next = c.iss.next ∧ (g c).iss.outs = c.iss.outs) →
      ∃ g', ps.foldl (fun s p =>
          (s.writeRegsAt i p.due p.writes p.flags).onCore i fun c => if tagOf c p.tag = .outstanding then setTag c p.tag .done else c)
          (s.onCore i g) = s.onCore i g' ∧
        ∀ c, (g' c).cache = c.cache ∧ (g' c).mtx = c.mtx ∧ (g' c).sched = c.sched ∧ (g' c).stopped = c.stopped ∧
          (g' c).traps = c.traps ∧ (g' c).firing = c.firing ∧ (g' c).iss.next = c.iss.next ∧ (g' c).iss.outs = c.iss.outs := by
    intro ps
    induction ps with
    | nil => exact fun g hg => ⟨g, rfl, hg⟩
    | cons p ps ih =>
      intro g hg
      rw [List.foldl_cons, writeRegsAt_eq, State.onCore_onCore, State.onCore_onCore]
      refine ih _ fun c => ?_
      obtain ⟨h1, h2, h3, h4, h5, h6, h7, h8⟩ := hg c
      by_cases ht : p.tag = 0 <;> simp only [setTag, ht, if_true, if_false, ite_self] <;>
        first
          | exact ⟨h1, h2, h3, h4, h5, h6, h7, h8⟩
          | ((repeat' split) <;> exact ⟨h1, h2, h3, h4, h5, h6, h7, h8⟩)
  obtain ⟨g, hg⟩ := key _ (fun c => { c with iss := { c.iss with pend := c.iss.pend.filter fun p => !(decide (p.due ≤ s.now)) } })
    fun _ => ⟨rfl, rfl, rfl, rfl, rfl, rfl, rfl, rfl⟩
  exact ⟨g, hg⟩

/-! ## An attempt to issue -/

/-- The ways an attempt to issue ends. -/
theorem issueState_cases (cop : Bool) (k : WaitCls) (h : Hdr) (body : Nat → State → Eff) (s : State) :
    issueState cop k h body s = begun s ∨
    (∃ f lf, (issuer s).firing = some f ∧ budgetOut (begun s) f = true ∧
      issueState cop k h body s = budgetOrder (begun s) s.cur f lf) ∨
    issueState cop k h body s = stall (begun s) s.cur ∨
    (∃ t lf, lateFault (issuer s) [h.tw0, h.tw1, h.ta] = some (t, lf) ∧
      issueState cop k h body s = deliverLate (begun s) s.cur t lf) ∨
    (∃ f, (issuer s).firing = some f ∧ guardTrue (issuer s) h = false ∧
      issueState cop k h body s = settle (begun s) s.cur f h false .plain) ∨
    (∃ f u r, (issuer s).firing = some f ∧ body s.cur (begun s) = .done u r ∧
      issueState cop k h body s = settle u s.cur f h cop r) ∨
    (∃ u, body s.cur (begun s) = .wait u ∧ issueState cop k h body s = stall u s.cur) ∨
    (∃ u cause val, body s.cur (begun s) = .trap u cause val ∧ issueState cop k h body s = trap u s.cur cause val) := by
  unfold issueState begun issuer begun
  dsimp only
  split
  · exact .inl rfl
  · next f hf =>
    split
    · next hb => exact .inr (.inl ⟨f, _, hf, by simp only [Bool.and_eq_true] at hb; exact hb.1.1.1, rfl⟩)
    · split
      · exact .inr (.inr (.inl rfl))
      · split
        · next t lf hl => exact .inr (.inr (.inr (.inl ⟨t, lf, hl, rfl⟩)))
        · split
          · next hg => exact .inr (.inr (.inr (.inr (.inl ⟨f, hf, by simpa using hg, rfl⟩))))
          · split
            · exact .inr (.inr (.inl rfl))
            · split
              · next u r hb => exact .inr (.inr (.inr (.inr (.inr (.inl ⟨f, u, r, hf, hb, rfl⟩)))))
              · next u hb => exact .inr (.inr (.inr (.inr (.inr (.inr (.inl ⟨u, hb, rfl⟩))))))
              · next u c v hb => exact .inr (.inr (.inr (.inr (.inr (.inr (.inr ⟨u, c, v, hb, rfl⟩))))))

/-- An instruction that is ready does what its body answers. -/
theorem issueState_ready {cop : Bool} {k : WaitCls} {h : Hdr} {f : Firing} {s : State} (body : Nat → State → Eff)
    (hr : ready k h f s = true) :
    issueState cop k h body s = match body s.cur (begun s) with
      | .done u r => settle u s.cur f h cop r
      | .wait u => stall u s.cur
      | .trap u cause val => trap u s.cur cause val := by
  simp only [ready, issuer, begun, Bool.and_eq_true, Bool.not_eq_true', Option.isNone_iff_eq_none] at hr
  obtain ⟨⟨⟨⟨⟨h1, h2⟩, h3⟩, h4⟩, h5⟩, h6⟩ := hr
  replace h1 := of_decide_eq_true h1
  simp only [issueState, begun, h1, h2, h3, h4, h5, h6, Bool.false_and, Bool.false_eq_true, if_false, Bool.not_true] <;> rfl

/-- An instruction whose guard is false only takes its place (R46). -/
theorem issueState_off {cop : Bool} {k : WaitCls} {h : Hdr} {f : Firing} {s : State} (body : Nat → State → Eff)
    (hr : readyOff h f s = true) : issueState cop k h body s = settle (begun s) s.cur f h false .plain := by
  simp only [readyOff, issuer, begun, Bool.and_eq_true, Bool.not_eq_true', Option.isNone_iff_eq_none] at hr
  obtain ⟨⟨⟨⟨h1, h2⟩, h3⟩, h4⟩, h5⟩ := hr
  replace h1 := of_decide_eq_true h1
  simp only [issueState, begun, h1, h2, h3, h4, h5, Bool.false_and, Bool.false_eq_true, if_false, Bool.not_false, if_true]

@[simp] theorem begun_cur (s : State) : (begun s).cur = s.cur := by
  obtain ⟨g, hg, -⟩ := flushDue_spec s s.cur
  simp [begun, hg]

/-- Results that are due change no byte of memory. -/
@[simp] theorem begun_homes (s : State) : (begun s).homes = s.homes := by
  obtain ⟨g, hg, -⟩ := flushDue_spec s s.cur
  simp [begun, hg]

/-- The registers that an instruction leaves when it issues: results written in the step are there, others come later. -/
def Res.regs (r : Res) (x : Regs) : Regs :=
  match r with
  | .written ws => { x.writeAll ws with fpstat := x.fpstat ||| 0, landed := x.landed }
  | .begun ws _ _ => { x.writeAll ws with fpstat := x.fpstat ||| 0, landed := x.landed }
  | _ => x

/-- The program counter at which the firing goes on. -/
def Res.pc (r : Res) (f : Firing) : Word := match r with | .jump pc _ => pc | _ => pcPlus f.pc 1

theorem Regs.forgetAhead_forgetAhead (r : Regs) : r.forgetAhead.forgetAhead = r.forgetAhead := by
  simp only [Regs.forgetAhead, Regs.mk.injEq, true_and, and_true]
  ext k hk
  simp only [Vector.getElem_map]
  generalize r.q[k] = x
  rcases x with _ | _ | _ | ⟨_ | _, _, _, _, _⟩ <;> rfl

/-- Completing a fence changes the issue side; one that orders loads after it takes back what streams have read ahead. -/
theorem settleFences_eq (c : CoreSt) : settleFences c = { c with iss := (settleFences c).iss, regs := (settleFences c).regs } ∧
    ((settleFences c).regs = c.regs ∨ (settleFences c).regs = c.regs.forgetAhead) := by
  unfold settleFences
  generalize c.iss.outs = os
  suffices key : ∀ (os : List Out) (f : CoreSt → Out → CoreSt),
      (∀ d o, f d o = { d with iss := (f d o).iss, regs := (f d o).regs } ∧ ((f d o).regs = d.regs ∨ (f d o).regs = d.regs.forgetAhead)) →
      ∀ d : CoreSt, d = { c with iss := d.iss, regs := d.regs } → (d.regs = c.regs ∨ d.regs = c.regs.forgetAhead) →
      os.foldl f d = { c with iss := (os.foldl f d).iss, regs := (os.foldl f d).regs } ∧
        ((os.foldl f d).regs = c.regs ∨ (os.foldl f d).regs = c.regs.forgetAhead) by
    refine key os _ (fun d o => ?_) c rfl (.inl rfl)
    dsimp only
    split
    · split
      · exact ⟨rfl, .inl rfl⟩
      · unfold setTag dropOut
        split <;> split <;> exact ⟨rfl, by first | exact .inl rfl | exact .inr rfl⟩
    · exact ⟨rfl, .inl rfl⟩
  intro os f hf
  induction os with
  | nil => exact fun d h1 h2 => ⟨h1, h2⟩
  | cons o os ih =>
    intro d h1 h2
    obtain ⟨e1, e2⟩ := hf d o
    refine ih _ ?_ ?_
    · rw [e1, h1]
    · rcases e2 with e | e <;> rw [e] <;> rcases h2 with g | g <;> rw [g]
      · exact .inl rfl
      · exact .inr rfl
      · exact .inr rfl
      · exact .inr (Regs.forgetAhead_forgetAhead _)

/-- How a result leaves the pipeline: the issue side, the ring and the program counter move, results that the step writes
reach their registers, a fence that completes with them may take back what streams have read ahead, and nothing else of the module
changes. -/
theorem settle_spec (s : State) (i : Nat) (f : Firing) (h : Hdr) (cop : Bool) (r : Res) (hr : r ≠ .moved) :
    ∃ g, settle s i f h cop r = s.onCore i g ∧ ∀ c, (g c).cache = c.cache ∧ (g c).mtx = c.mtx ∧ (g c).sched = c.sched ∧
      (g c).stopped = c.stopped ∧ ((g c).regs = r.regs c.regs ∨ (g c).regs = (r.regs c.regs).forgetAhead) ∧
      (g c).firing = (c.firing.map fun f' => { f' with pc := r.pc f }) ∧
      (g c).traps = { c.traps with cring := (g c).traps.cring } := by
  have tag : ∀ (c : CoreSt) (t : Fin 16) (x : TagSt), (setTag c t x).cache = c.cache ∧ (setTag c t x).mtx = c.mtx ∧
      (setTag c t x).sched = c.sched ∧ (setTag c t x).stopped = c.stopped ∧ (setTag c t x).regs = c.regs ∧
      (setTag c t x).firing = c.firing ∧ (setTag c t x).traps = c.traps := by
    intro c t x; unfold setTag; split <;> exact ⟨rfl, rfl, rfl, rfl, rfl, rfl, rfl⟩
  have fen : ∀ c : CoreSt, (settleFences c).cache = c.cache ∧ (settleFences c).mtx = c.mtx ∧
      (settleFences c).sched = c.sched ∧ (settleFences c).stopped = c.stopped ∧
      (settleFences c).firing = c.firing ∧ (settleFences c).traps = c.traps := by
    intro c; rw [(settleFences_eq c).1]; exact ⟨rfl, rfl, rfl, rfl, rfl, rfl⟩
  cases r with
  | moved => exact absurd rfl hr
  | plain =>
    cases cop <;> simp only [settle, retire, State.onIss_eq, State.onFiring_eq, State.onCore_onCore, if_true, if_false, Bool.false_eq_true] <;>
      exact ⟨_, rfl, fun c => by simp [tag, Res.regs, Res.pc, ringPush]⟩
  | fixed lat ws fl =>
    cases cop <;> simp only [settle, retire, State.onIss_eq, State.onFiring_eq, State.onCore_onCore, if_true, if_false, Bool.false_eq_true] <;>
      exact ⟨_, rfl, fun c => by simp [tag, Res.regs, Res.pc, ringPush]⟩
  | written ws =>
    cases cop <;> simp only [settle, retire, writeRegs_eq, State.onIss_eq, State.onFiring_eq, State.onCore_onCore, if_true, if_false, Bool.false_eq_true] <;>
      exact ⟨_, rfl, fun c => by simp [tag, Res.regs, Res.pc, ringPush]⟩
  | jump pc ws =>
    simp only [settle, retire, State.onIss_eq, State.onFiring_eq, State.onCore_onCore]
    exact ⟨_, rfl, fun c => by simp [tag, Res.regs, Res.pc]⟩
  | out op cls wr acq =>
    cases cop <;> simp only [settle, retire, State.onIss_eq, State.onFiring_eq, State.onCore_onCore, if_true, if_false, Bool.false_eq_true] <;>
      exact ⟨_, rfl, fun c => by simp [tag, fen, Res.regs, Res.pc, ringPush]; exact (settleFences_eq _).2⟩
  | begun ws op cls =>
    simp only [settle, retire, writeRegs_eq, State.onIss_eq, State.onFiring_eq, State.onCore_onCore]
    exact ⟨_, rfl, fun c => by simp [tag, Res.regs, Res.pc]⟩

end Sys2Proof.Machine
end

