-- ==== Sys2Proof/Laws/Keep.lean ====
section
/-! SUPPORT. An attempt to issue keeps memory canonical when the instruction's body does: a meaning over `issue`, `issueCop` or
`issueReg` needs only a lemma about its body. -/

namespace Sys2Proof.Machine

variable {s : State}

/-- The state that the body of an instruction leaves. -/
def Eff.after : Eff → State
  | .done s _ => s
  | .wait s => s
  | .trap s _ _ => s

/-- A result that leaves the pipeline changes no home. -/
theorem settle_homes (s : State) (i : Nat) (f : Firing) (h : Hdr) (cop : Bool) (r : Res) :
    (settle s i f h cop r).homes = s.homes := by
  by_cases hr : r = .moved
  · subst hr; rfl
  · obtain ⟨g, hg, -⟩ := settle_spec s i f h cop r hr
    rw [hg]; rfl

theorem MemOk.expireBudget (i : Nat) (h : MemOk s) : MemOk (expireBudget s i) := by
  unfold Machine.expireBudget
  split
  · exact h
  · split
    · exact h.abort i _ _ _
    · split
      · exact h.abort i _ _ _
      · exact MemOk.deliver i _ (h.of_homes rfl)

theorem MemOk.budgetOrder (i : Nat) (f : Firing) (lf : Option (Fin 16 × LateFault)) (h : MemOk s) : MemOk (budgetOrder s i f lf) := by
  unfold Machine.budgetOrder
  split
  · split
    · exact h.deliverLate i _ _
    · exact h.expireBudget i
  · exact h.expireBudget i

theorem MemOk.begun (h : MemOk s) : MemOk (begun s) := h.of_homes (begun_homes s)

/-- An attempt to issue keeps memory canonical if the body does. -/
theorem MemOk.issueState {cop : Bool} {k : WaitCls} {hd : Hdr} {body : Nat → State → Eff} (h : MemOk s)
    (hb : ∀ t, MemOk t → MemOk (body s.cur t).after) : MemOk (issueState cop k hd body s) := by
  have hB := h.begun
  have key := hb _ hB
  obtain e | ⟨f, lf, -, -, e⟩ | e | ⟨t, lf, -, e⟩ | ⟨f, -, -, e⟩ | ⟨f, u, r, -, hu, e⟩ | ⟨u, hu, e⟩ | ⟨u, c, v, hu, e⟩ :=
    issueState_cases cop k hd body s <;> rw [e]
  · exact hB
  · exact hB.budgetOrder _ _ _
  · exact hB.of_homes rfl
  · exact hB.deliverLate _ _ _
  · exact hB.of_homes (settle_homes _ _ _ _ _ _)
  · rw [hu] at key; exact MemOk.of_homes key (settle_homes _ _ _ _ _ _)
  · rw [hu] at key; exact MemOk.of_homes key rfl
  · rw [hu] at key; exact MemOk.trap _ _ _ key

/-- A register-only instruction keeps memory canonical. -/
theorem MemOk.issueReg {hd : Hdr} {lat : Nat} {f : CoreSt → List RegWrite} {t : State} (h : MemOk s)
    (e : issueReg hd lat f s = .next t) : MemOk t := by
  cases e
  exact h.issueState fun _ ht => ht

theorem MemOk.issue {k : WaitCls} {hd : Hdr} {body : Nat → State → Eff} {t : State} (h : MemOk s)
    (hb : ∀ u, MemOk u → MemOk (body s.cur u).after) (e : issue k hd body s = .next t) : MemOk t := by
  cases e
  exact h.issueState hb

theorem MemOk.issueCop {k : WaitCls} {hd : Hdr} {body : Nat → State → Eff} {t : State} (h : MemOk s)
    (hb : ∀ u, MemOk u → MemOk (body s.cur u).after) (e : issueCop k hd body s = .next t) : MemOk t := by
  cases e
  exact h.issueState hb

/-- A guard in front of a body adds a trap only. -/
theorem forbid_after (opc : Nat) (body : Nat → State → Eff) (i : Nat) (s : State) :
    (forbid opc body i s).after = s ∨ (forbid opc body i s).after = (body i s).after := by
  unfold forbid; split
  · exact .inl rfl
  · exact .inr rfl

theorem needClaim_after (body : Nat → State → Eff) (i : Nat) (s : State) :
    (needClaim body i s).after = s ∨ (needClaim body i s).after = (body i s).after := by
  unfold needClaim; split
  · exact .inl rfl
  · exact .inr rfl

theorem needSup_after (opc : Nat) (body : Nat → State → Eff) (i : Nat) (s : State) :
    (needSup opc body i s).after = s ∨ (needSup opc body i s).after = (body i s).after := by
  unfold needSup; split
  · exact .inr rfl
  · exact .inl rfl

end Sys2Proof.Machine
end

