-- ==== Sys2Proof/Tests/Slice0.lean ====
section
/-! SUPPORT. Small tests: what well-formedness refuses, words written out from the encoding tables of the spec, single steps
whose results are worked out by hand, and a state that meets the hypotheses of every statement. -/

set_option maxRecDepth 100000

namespace Sys2Proof.Tests
open Sys2Proof.Machine

/-! ## Well-formedness refuses each operand out of its range -/

/-- A header with no waits and no guard. -/
def h0 : Hdr := ⟨0, 0, 0, 0, false, 0⟩

def refusesAll (l : List Instr) : Bool := l.all fun i => !i.wf

theorem test_wf_header : refusesAll [.nop ⟨0, 0, 0, 0, true, 0⟩, .add ⟨1, 2, 3, 4, true, 0⟩ 1 2 3 .n64 false] = true ∧
    (Instr.nop ⟨0, 0, 0, 0, true, 1⟩).wf = true := by decide
theorem test_wf_groups_0_and_1 : refusesAll [.loop h0 0 1, .syswr h0 1 0x1, .syswr h0 1 0x5, .syswr h0 1 0xE,
    .mulh h0 1 2 3 .n64, .div h0 1 2 3 .n32, .rem h0 1 2 3 .n16, .min h0 1 2 3 .n8, .max h0 1 2 3 .n64,
    .mulhn h0 1 2 3 .s64, .divn h0 1 2 3 .s32, .remn h0 1 2 3 .s16, .minn h0 1 2 3 .s8, .maxn h0 1 2 3 .s64,
    .abs h0 1 2 .n64 false] = true := by decide
theorem test_wf_groups_3_to_5 : refusesAll [.st h0 1 ⟨2, 0, 0, 0⟩ .s8, .ldp h0 63 ⟨2, 0, 0, 0⟩ false, .stp h0 1 ⟨2, 0, 0, 0⟩,
    .fence h0 1 0 1, .fence h0 1 1 0, .sigrd h0 1 2 17, .amo h0 1 2 3 4 .add false .relaxed, .red h0 1 2 .swap false,
    .cas h0 1 2 3 4 true .relaxed, .fcvt h0 1 2 .f32 .f32 .rne, .fcvt h0 1 2 .s32 .n64 .rne] = true := by decide
theorem test_wf_group_6 : refusesAll [.vclaim h0 1 false 0 8, .vclaim h0 1 false 3 2, .vclaim h0 1 false 1 9,
    .vadd h0 1 2 (.v 3) 0 .f32 (.int false), .vsub h0 1 2 (.v 3) 0 .s32 (.fp .rne), .vmul h0 1 2 (.v 3) 0 .f64 (.int true),
    .vfma h0 1 2 (.v 3) 4 0 .n32 (.fp .rtz), .vsgn h0 1 2 (.v 3) 0 .s32 .neg, .vcmp h0 1 2 (.v 3) 0 .s32 .uo,
    .vsel h0 1 2 (.v 3) 1 .n32, .vlog h0 (.lanes 1 2 (.v 3) 0) .not, .vlog h0 (.masks 1 2 3) .not, .vsh h0 1 2 (.v 3) 0 .f32 .shl,
    .vcvt h0 1 2 false .f32 .f32 .rne, .vcvt h0 1 2 false .s32 .n32 .rne, .vcvt h0 1 2 true .h16 .f32 .rne,
    .vdec h0 1 2 4 false 0, .venc h0 1 2 7 false 1] = true := by decide
theorem test_wf_groups_8_to_11 : refusesAll [.mma h0 .c8 .c8 ⟨0, 1, 2, 5, .g4, false⟩, .mma h0 .c8 .c8 ⟨61, 1, 2, 4, .g4, false⟩,
    .snz h0 .c4 .c4 ⟨0, 1, 2, 0, .g4, false⟩, .accz h0 0 7, .accz h0 63 1, .cpyq h0 1 0, .cpyq h0 1 6, .rst h0 1 2 3 .s8,
    .send h0 1 0 2, .send h0 1 12 2, .spawn h0 1 9, .stlcfg h0 1 2 false false false, .grant h0 1 2 3 4 0, .revoke h0 1 2 3 4 0,
    .rtwr h0 1 2 3 true false] = true := by decide

/-! ## Words of every instruction, written from the field layout of R38 and R47 and the tables of R52 -/

def reads (l : List (Nat × Instr)) : Bool := l.all fun p => decide (decodeTableWord 80 p.1 = some p.2)

/-- Words of group 0 (R58). -/
def controlAWords : List (Nat × Instr) :=
  [(0x00001480000000000000, .nop ⟨0, 0, 5, 2, false, 0⟩),
   (0x0040002C0000FFFFFFF8, .br ⟨0, 0, 0, 0, true, 3⟩ 0xFFFFFFF8),
   (0x00800000009000000000, .brx h0 9),
   (0x00C00001F80000000010, .call h0 63 0x10),
   (0x0100000003F000000000, .ret h0 63),
   (0x014000005800FFFFFFFD, .loop h0 11 0xFFFFFFFD),
   (0x0140000000C1FFFFFFFE, .loopGt h0 12 0xFFFFFFFE),
   (0x0140000000D200000007, .loopNz h0 13 7),
   (0x01800000000000000000, .fin h0),
   (0x01C000000000DEADBEEF, .trapi h0 0xDEADBEEF),
   (0x0200000080000000000F, .sysrd h0 16 0x00F),
   (0x0240000001100000000D, .syswr h0 17 0x00D),
   (0x02400000010000000001, .syswrOwner h0 16),
   (0x02400000006000000005, .syswrFpstat h0 6)]
theorem test_decode_controlA : reads controlAWords = true := by decide

/-- Words of group 0 (R58). -/
def controlBWords : List (Nat × Instr) :=
  [(0x0240000000600000000E, .syswrStlscope h0 6)]
theorem test_decode_controlB : reads controlBWords = true := by decide

/-- Words of group 1 (R70 to R76). -/
def integerAWords : List (Nat × Instr) :=
  [(0x1000000018104000F000, .add h0 3 1 2 .s8 true),
   (0x1040000018104000A000, .sub h0 3 1 2 .n16 true),
   (0x10800000181040005000, .mul h0 3 1 2 .s32 false),
   (0x10C00001432780004000, .mulh h0 40 50 60 .s64),
   (0x11000001432780001000, .mulhn h0 40 50 60 .n32),
   (0x11400001432780006000, .div h0 40 50 60 .s16),
   (0x11800001432780001000, .divn h0 40 50 60 .n32),
   (0x11C00001432780007000, .rem h0 40 50 60 .s8),
   (0x12000001432780003000, .remn h0 40 50 60 .n8),
   (0x15400001432780005000, .min h0 40 50 60 .s32),
   (0x15800001432780004000, .max h0 40 50 60 .s64),
   (0x15C00001432780000000, .minn h0 40 50 60 .n64),
   (0x16000001432780002000, .maxn h0 40 50 60 .n16),
   (0x12400000388120000000, .and h0 7 8 9)]
theorem test_decode_integerA : reads integerAWords = true := by decide

/-- Words of group 1 (R70 to R76). -/
def integerBWords : List (Nat × Instr) :=
  [(0x12800000388120000000, .or h0 7 8 9),
   (0x12C00000388120000000, .xor h0 7 8 9),
   (0x13000000388120000000, .andn h0 7 8 9),
   (0x13400000388120000000, .orn h0 7 8 9),
   (0x13800000388120000000, .shl h0 7 8 9),
   (0x13C00000388120000000, .shr h0 7 8 9),
   (0x14000000388120000000, .sra h0 7 8 9),
   (0x14400000388120000000, .rol h0 7 8 9),
   (0x14800000388000000000, .clz h0 7 8),
   (0x14C00000388000000000, .ctz h0 7 8),
   (0x15000000388000000000, .popc h0 7 8),
   (0x1640000038800000C000, .abs h0 7 8 .s64 true),
   (0x1680000038800000B000, .sext h0 7 8 11),
   (0x16C00000388000027000, .zext h0 7 8 39)]
theorem test_decode_integerB : reads integerBWords = true := by decide

/-- Words of group 1 (R70 to R76). -/
def integerCWords : List (Nat × Instr) :=
  [(0x17000000388120001000, .bfx h0 7 8 9 true),
   (0x17400000388122800000, .bfi h0 7 8 9 10),
   (0x17800000388000000000, .mov h0 (.gg 7 8)),
   (0x17800003569000000000, .mov h0 (.pp 2 1)),
   (0x178000003E2000000000, .movFromStream h0 7 2),
   (0x1780000720B000000000, .movToStream ⟨0, 0, 0, 0, false, 1⟩ 4 11),
   (0x17C00003588120016000, .cmp h0 3 8 9 .ltn .w32),
   (0x1800000038813B400000, .sel h0 7 8 9 5),
   (0x184000034EAD60008000, .plog h0 1 2 3 0b1000)]
theorem test_decode_integerC : reads integerCWords = true := by decide

/-- Words of group 2 (R77). -/
def immediateWords : List (Nat × Instr) :=
  [(0x20000000103DFFFFFFFF, .addi h0 2 3 .s32 true 0xFFFFFFFF),
   (0x204000001000FFFFFFFB, .movi h0 2 0xFFFFFFFB),
   (0x20400000100180000000, .moviN h0 2 0x80000000),
   (0x20800000103012345678, .movh h0 2 3 0x12345678),
   (0x20C000001030941FFFFF, .lea h0 2 ⟨3, 4, 5, 0x1FFFFF⟩),
   (0x21000003483A000000FF, .cmpi h0 1 3 .tst 0xFF),
   (0x214000001030F0F0F0F0, .andImm h0 2 3 0xF0F0F0F0),
   (0x218000001030F0F0F0F0, .orImm h0 2 3 0xF0F0F0F0),
   (0x21C000001030F0F0F0F0, .xorImm h0 2 3 0xF0F0F0F0),
   (0x2200000010300000003F, .shlImm h0 2 3 63),
   (0x2240000010300000003F, .shrImm h0 2 3 63),
   (0x2280000010300000003F, .sraImm h0 2 3 63),
   (0x22C0000010310000000A, .mulImm h0 2 3 .n32 false 10)]
theorem test_decode_immediate : reads immediateWords = true := by decide

/-- Words of group 3 (R78). -/
def memoryWords : List (Nat × Instr) :=
  [(0x30004000202068C00008, .ld ⟨0, 1, 0, 0, false, 0⟩ 4 ⟨2, 3, 2, 8⟩ .s32 false),
   (0x30000000202069600008, .ld h0 4 ⟨2, 3, 2, 8⟩ .n64 true),
   (0x30400000202068200008, .st h0 4 ⟨2, 3, 2, 8⟩ .n16),
   (0x30800001F02069000008, .ldp h0 62 ⟨2, 3, 2, 8⟩ true),
   (0x30C00001F02068000008, .stp h0 62 ⟨2, 3, 2, 8⟩),
   (0x31000000002068000008, .pfhL1 h0 ⟨2, 3, 2, 8⟩),
   (0x31000000002068200008, .pfhHome h0 ⟨2, 3, 2, 8⟩),
   (0x31400000002068000008, .cinvD h0 ⟨2, 3, 2, 8⟩),
   (0x31400000002068200008, .cinvI h0 ⟨2, 3, 2, 8⟩),
   (0x31400000000000400000, .cinvDa h0),
   (0x31400000000000600000, .cinvIa h0)]
theorem test_decode_memory : reads memoryWords = true := by decide

/-- Words of group 4 (R238, R240, R249, R253, R255). -/
def orderingWords : List (Nat × Instr) :=
  [(0x40000000202120200010, .lda h0 4 2 9 true 0x10),
   (0x404000002021201FFFF8, .strl h0 4 2 9 false 0x1FFFF8),
   (0x4080000000000242A000, .fence h0 9 0b0101 0b010),
   (0x40C08000383002400000, .acq ⟨0, 2, 0, 0, false, 0⟩ 7 3 9),
   (0x410000000030E2400000, .rel h0 3 7 9),
   (0x41400000003000000000, .sigclr h0 3),
   (0x41800000383000010000, .sigrd h0 7 3 16),
   (0x41C000003020A2479000, .amo h0 6 2 5 9 .fadd true .ar),
   (0x420000040161A0000000, .red ⟨0, 0, 0, 0, false, 1⟩ 22 13 .add false),
   (0x424000003020A2420000, .cas h0 6 2 5 9 false .acq),
   (0x428000001982E0400085, .bar h0 3 24 23 1 5 2)]
theorem test_decode_ordering : reads orderingWords = true := by decide

/-- Words of group 5 (R137, R138). -/
def scalarFpAWords : List (Nat × Instr) :=
  [(0x50000000201040000000, .fadd h0 4 1 2 .f64 .rne),
   (0x50400000201040009000, .fsub h0 4 1 2 .f32 .rtz),
   (0x50800000201040012000, .fmul h0 4 1 2 .h16 .rup),
   (0x5180000020104001B000, .fdiv h0 4 1 2 .b16 .rdn),
   (0x53C0000020104000C000, .fscale h0 4 1 2 .f32 .rna),
   (0x50C00000201040C09000, .fma h0 4 1 2 3 .f32 .rtz),
   (0x51000000201040C09000, .fms h0 4 1 2 3 .f32 .rtz),
   (0x51400000201040C09000, .fnma h0 4 1 2 3 .f32 .rtz),
   (0x51C00000201000013000, .fsqrt h0 4 1 .h16 .rdn),
   (0x53800000201000013000, .frnd h0 4 1 .h16 .rdn),
   (0x52000000201040018000, .fmin h0 4 1 2 .b16),
   (0x52400000201040018000, .fmax h0 4 1 2 .b16),
   (0x52800000201040048000, .fsgn h0 4 1 2 .f32 .xor),
   (0x52C000036010400C0000, .fcmp h0 4 1 2 .f64 .uo)]
theorem test_decode_scalarFpA : reads scalarFpAWords = true := by decide

/-- Words of group 5 (R137, R138). -/
def scalarFpBWords : List (Nat × Instr) :=
  [(0x53000000201000008000, .fclass h0 4 1 .f32),
   (0x53400000201000141000, .fcvt h0 4 1 .s32 .f64 .rtz)]
theorem test_decode_scalarFpB : reads scalarFpBWords = true := by decide

/-- Words of group 6 (R149, R152 to R157). -/
def vectorAWords : List (Nat × Instr) :=
  [(0x60000000300000128000, .vclaim h0 6 true 2 8),
   (0x60400000000000000000, .vrelease h0),
   (0x60400000300000001000, .vreleaseSp h0 6),
   (0x608000021C1840041000, .vadd h0 3 1 (.v 2) 1 .f32 (.fp .rtz)),
   (0x60C000021C10A01D1000, .vsub h0 3 1 (.g 5) 7 .s32 (.int true)),
   (0x610000021C1840018000, .vmul h0 3 1 (.v 2) 0 .n32 (.int false)),
   (0x614C04821410B0840000, .vfma ⟨3, 0, 1, 2, false, 0⟩ 2 1 (.g 5) 2 1 .f32 (.fp .rne)),
   (0x618000021C1840008000, .vmin h0 3 1 (.v 2) 0 .f64),
   (0x61C000021C1840010000, .vmax h0 3 1 (.v 2) 0 .s32),
   (0x620000021C184000A000, .vsgn h0 3 1 (.v 2) 0 .f64 .xor),
   (0x624000038C0020012000, .vcmp h0 1 0 (.g 1) 0 .s32 .lt),
   (0x628000021C185D008000, .vsel h0 3 1 (.v 2) 4 .f64),
   (0x62C000021C1840083000, .vlog h0 (.lanes 3 1 (.v 2) 2) .andn),
   (0x62C000039F1E40002000, .vlog h0 (.masks 3 1 2) .xor)]
theorem test_decode_vectorA : reads vectorAWords = true := by decide

/-- Words of group 6 (R149, R152 to R157). -/
def vectorBWords : List (Nat × Instr) :=
  [(0x630000021C112001B000, .vsh h0 3 1 (.g 9) 0 .n32 .rol),
   (0x634000021C1000342000, .vcvt h0 3 1 true .b16 .f32 .rup),
   (0x638000021C100001F000, .vdec h0 3 1 7 true 1),
   (0x63C000021C100000C000, .venc h0 3 1 3 false 0),
   (0x640000021C184000C000, .vpack h0 3 1 2 true .rna),
   (0x644000021C1000010000, .vunpk h0 3 1 1 false)]
theorem test_decode_vectorB : reads vectorBWords = true := by decide

/-- Words of group 6 (R158 to R161). -/
def vectorMoveWords : List (Nat × Instr) :=
  [(0x64800000241000041000, .vred h0 4 1 1 .f32 .min),
   (0x64C00002241000012000, .vscan h0 4 1 0 .s32 .max),
   (0x650000022418400C8000, .vperm h0 4 1 2 3 .f64),
   (0x65400002209000018000, .vbcast h0 4 9 0 .n32),
   (0x65800002209140140000, .vidx h0 4 9 10 5),
   (0x65C00002241000046000, .vsfu h0 4 1 1 .tanh),
   (0x66000000241120008000, .vext h0 4 1 9 .f64),
   (0x66400002209140010000, .vins h0 4 9 10 .s32)]
theorem test_decode_vectorMove : reads vectorMoveWords = true := by decide

/-- Words of group 7 (R162, R163, R166). -/
def vectorMemoryWords : List (Nat × Instr) :=
  [(0x70004002082068800040, .vld ⟨0, 1, 0, 0, false, 0⟩ 1 ⟨2, 3, 2, 64⟩ 1 .w32),
   (0x70408002082068A00040, .vst ⟨0, 2, 0, 0, false, 0⟩ 1 ⟨2, 3, 2, 64⟩ 1 .w64),
   (0x7080C002082068C00040, .vlds ⟨0, 3, 0, 0, false, 0⟩ 1 ⟨2, 3, 2, 64⟩ 1 .w16),
   (0x70C10002082068800040, .vsts ⟨0, 4, 0, 0, false, 0⟩ 1 ⟨2, 3, 2, 64⟩ 1 .w32),
   (0x7100000208286001D000, .vgath h0 1 2 3 7 .w64),
   (0x7140000208286001D000, .vscat h0 1 2 3 7 .w64),
   (0x71800003382060001000, .sbind h0 7 2 3 true),
   (0x71C00003380000000000, .sunbind h0 7)]
theorem test_decode_vectorMemory : reads vectorMemoryWords = true := by decide

/-- Words of group 8 (R53, R171, R184). -/
def matrixAWords : List (Nat × Instr) :=
  [(0x800080008142CA180000, .mma ⟨0, 2, 0, 0, false, 0⟩ .c8 .c8 ⟨8, 10, 11, 20, .g8, true⟩),
   (0x804080008142CA180000, .mma ⟨0, 2, 0, 0, false, 0⟩ .c8 .c4 ⟨8, 10, 11, 20, .g8, true⟩),
   (0x808080008142CA180000, .mma ⟨0, 2, 0, 0, false, 0⟩ .c8 .b16 ⟨8, 10, 11, 20, .g8, true⟩),
   (0x80C080008142CA180000, .mma ⟨0, 2, 0, 0, false, 0⟩ .c8 .h16 ⟨8, 10, 11, 20, .g8, true⟩),
   (0x810080008142CA180000, .mma ⟨0, 2, 0, 0, false, 0⟩ .c4 .c8 ⟨8, 10, 11, 20, .g8, true⟩),
   (0x814080008142CA180000, .mma ⟨0, 2, 0, 0, false, 0⟩ .c4 .c4 ⟨8, 10, 11, 20, .g8, true⟩),
   (0x818080008142CA180000, .mma ⟨0, 2, 0, 0, false, 0⟩ .c4 .b16 ⟨8, 10, 11, 20, .g8, true⟩),
   (0x81C080008142CA180000, .mma ⟨0, 2, 0, 0, false, 0⟩ .c4 .h16 ⟨8, 10, 11, 20, .g8, true⟩),
   (0x820080008142CA180000, .mma ⟨0, 2, 0, 0, false, 0⟩ .b16 .c8 ⟨8, 10, 11, 20, .g8, true⟩),
   (0x824080008142CA180000, .mma ⟨0, 2, 0, 0, false, 0⟩ .b16 .c4 ⟨8, 10, 11, 20, .g8, true⟩),
   (0x828080008142CA180000, .mma ⟨0, 2, 0, 0, false, 0⟩ .b16 .b16 ⟨8, 10, 11, 20, .g8, true⟩),
   (0x82C080008142CA180000, .mma ⟨0, 2, 0, 0, false, 0⟩ .b16 .h16 ⟨8, 10, 11, 20, .g8, true⟩),
   (0x830080008142CA180000, .mma ⟨0, 2, 0, 0, false, 0⟩ .h16 .c8 ⟨8, 10, 11, 20, .g8, true⟩),
   (0x834080008142CA180000, .mma ⟨0, 2, 0, 0, false, 0⟩ .h16 .c4 ⟨8, 10, 11, 20, .g8, true⟩)]
theorem test_decode_matrixA : reads matrixAWords = true := by decide

/-- Words of group 8 (R53, R171, R184). -/
def matrixBWords : List (Nat × Instr) :=
  [(0x838080008142CA180000, .mma ⟨0, 2, 0, 0, false, 0⟩ .h16 .b16 ⟨8, 10, 11, 20, .g8, true⟩),
   (0x83C080008142CA180000, .mma ⟨0, 2, 0, 0, false, 0⟩ .h16 .h16 ⟨8, 10, 11, 20, .g8, true⟩),
   (0x85800003C142C0006000, .snz h0 .c4 .b16 ⟨60, 10, 11, 0, .g4, false⟩),
   (0x84000000209000000001, .dtload h0 4 9 1),
   (0x84400000800000002000, .accz h0 8 2),
   (0x8480000081C3C0000000, .accld h0 8 14 15),
   (0x84C0000081C3C0000000, .accst h0 8 14 15),
   (0x8500000082044900E000, .accq h0 8 16 17 18 (.b16 .rdn)),
   (0x85000000820449005000, .accq h0 8 16 17 18 (.c4 1)),
   (0x8540000088A00001E000, .accvRd h0 8 5 15),
   (0x8540000088A00000D000, .accvWr h0 8 5 6)]
theorem test_decode_matrixB : reads matrixBWords = true := by decide

/-- Words of group 9 (R259). -/
def enginesWords : List (Nat × Instr) :=
  [(0x9000C000108000000000, .cpyq ⟨0, 3, 0, 0, false, 0⟩ 2 8),
   (0x90400000300000000003, .wmrd h0 6 3),
   (0x90800000307000000000, .lkrd h0 6 7),
   (0x90C00000307000000000, .halo h0 6 7),
   (0x91000000307100000005, .rld h0 6 7 8 .s16),
   (0x91400000007102400002, .rst h0 7 8 9 .n32),
   (0x9180000030710240001B, .ramo h0 6 7 8 9 .fmax true),
   (0x91C00000307000000000, .rdx h0 6 7),
   (0x92000000307100000000, .mcgset h0 6 7 8),
   (0x9240000030710000001F, .lodeq h0 6 7 8 31)]
theorem test_decode_engines : reads enginesWords = true := by decide

/-- Words of group 10 (R335). -/
def progressWords : List (Nat × Instr) :=
  [(0xA00040001900A0000000, .send ⟨0, 1, 0, 0, false, 0⟩ 3 16 5),
   (0xA04000034A8000000000, .spawn h0 1 40),
   (0xA0800000307000000000, .actbind h0 6 7),
   (0xA0C00000307000000000, .actfree h0 6 7),
   (0xA1000000307000000001, .chbind h0 6 7 true),
   (0xA1400000307000000000, .chcfgFree h0 6 7),
   (0xA1400000307000000001, .chcfgPause h0 6 7),
   (0xA1400000307000000002, .chcfgResume h0 6 7),
   (0xA1400000307100000003, .chcfgSched h0 6 7 8),
   (0xA140000030710240001C, .chcfgMbox h0 6 7 8 9 .w),
   (0xA1800004319000000000, .splice ⟨0, 0, 0, 0, false, 1⟩ 6 25),
   (0xA1C00000307000000000, .splst h0 6 7),
   (0xA2000000307000000005, .stlcfg h0 6 7 true false true)]
theorem test_decode_progress : reads progressWords = true := by decide

/-- Words of group 11 (R395). -/
def isolationWords : List (Nat × Instr) :=
  [(0xB000400028A163000001, .grant ⟨0, 1, 0, 0, false, 0⟩ 5 10 11 12 1),
   (0xB040000028A16300001B, .revoke h0 5 10 11 12 0b11011),
   (0xB080000028A160000002, .rtwr h0 5 10 11 false true),
   (0xB0C0000028A000000001, .plbinv h0 5 10 true),
   (0xB100000028A163000007, .rgnnew h0 5 10 11 12 7),
   (0xB140000028A000000000, .rgnfree h0 5 10),
   (0xB180000028A160000202, .waymSet h0 5 10 11 0b100000001),
   (0xB180000028A160000001, .waymRd h0 5 10 11)]
theorem test_decode_isolation : reads isolationWords = true := by decide

/-- Words of group 12 (R368, R429). -/
def trapsWords : List (Nat × Instr) :=
  [(0xC0000000000000001000, .tret h0 true false),
   (0xC0400000000000000000, .tabort h0),
   (0xC0800000289000007000, .cring h0 5 9 true 3),
   (0xC0C00000289142C00000, .preq h0 5 9 10 11),
   (0xC10000002B266000000B, .ctxsv h0 5 50 51 true true false true),
   (0xC14000002B2000000006, .ctxrs h0 5 50 false true true),
   (0xC1800000289000001000, .mcrd h0 5 9 1),
   (0xC1C00000289000001000, .mcclr h0 5 9 true),
   (0xC2000000289000000001, .stest h0 5 9 true),
   (0xC2400000289000000000, .wdset h0 5 9)]
theorem test_decode_traps : reads trapsWords = true := by decide

/-- Words that the spec writes out. -/
def printedAWords : List (Nat × Instr) :=
  [(0x100400082860E0000000, .add ⟨1, 0, 0, 0, false, 2⟩ 5 6 7 .n64 false),
   (0x30004000202068C00008, .ld ⟨0, 1, 0, 0, false, 0⟩ 4 ⟨2, 3, 2, 8⟩ .s32 false),
   (0x10800000101020000000, .mul h0 2 1 1 .n64 false),
   (0x10040000182020000000, .add ⟨1, 0, 0, 0, false, 0⟩ 3 2 1 .n64 false),
   (0x01800000000000000000, .fin h0),
   (0x50C00000201040C09000, .fma h0 4 1 2 3 .f32 .rtz),
   (0x624000038C0020012000, .vcmp h0 1 0 (.g 1) 0 .s32 .lt),
   (0x614C04821410B0840000, .vfma ⟨3, 0, 1, 2, false, 0⟩ 2 1 (.g 5) 2 1 .f32 (.fp .rne)),
   (0x70044002082000800000, .vld ⟨1, 1, 0, 0, false, 0⟩ 1 ⟨2, 0, 0, 0⟩ 1 .w32),
   (0x014000000011FFFFFFF8, .loopGt h0 1 0xFFFFFFF8),
   (0x800080008142CA000000, .mma ⟨0, 2, 0, 0, false, 0⟩ .c8 .c8 ⟨8, 10, 11, 20, .g4, false⟩)]
theorem test_decode_printedA : reads printedAWords = true := by decide

/-- Words that the spec writes out. -/
def printedBWords : List (Nat × Instr) :=
  [(0x84400000800000002000, .accz h0 8 2),
   (0x84000000209000000001, .dtload h0 4 9 1),
   (0x41C040003020A0004000, .amo ⟨0, 1, 0, 0, false, 0⟩ 6 2 5 0 .min false .relaxed),
   (0x428000001982E0400085, .bar h0 3 24 23 1 5 2),
   (0x9000C000108000000000, .cpyq ⟨0, 3, 0, 0, false, 0⟩ 2 8),
   (0xA1800004319000000000, .splice ⟨0, 0, 0, 0, false, 1⟩ 6 25),
   (0x1780000320B000000000, .movToStream h0 4 11),
   (0xB000400028A163000001, .grant ⟨0, 1, 0, 0, false, 0⟩ 5 10 11 12 1),
   (0xC10000002B266000000B, .ctxsv h0 5 50 51 true true false true),
   (0xC0000000000000001000, .tret h0 true false)]
theorem test_decode_printedB : reads printedBWords = true := by decide

/-! ## Words that are no instruction (R54, R55) -/

/-- The field that fails first: lowest bit, width, value. -/
def fails (w lo width value : Nat) : Bool :=
  match decode w with
  | .error e => decide (e = ⟨lo, width, value⟩)
  | .ok _ => false

theorem test_decode_refuses : fails (0x340 * 2 ^ 70) 70 10 0x340 = true ∧ fails (0x022 * 2 ^ 70) 70 10 0x022 = true ∧
    fails (8 * 2 ^ 50) 50 4 8 = true ∧ fails 1 0 12 1 = true ∧ fails (0x040 * 2 ^ 70 + 64 * 2 ^ 43) 43 7 64 = true ∧
    fails (0x040 * 2 ^ 70 + 120 * 2 ^ 36) 36 7 120 = true ∧ fails (0x043 * 2 ^ 70) 12 3 0 = true ∧
    fails (0x0C0 * 2 ^ 70 + 7 * 2 ^ 21) 21 3 7 = true := by decide
theorem test_nop_is_zero : decode 0 = .ok (.nop h0) := rfl

/-! ## States for single steps -/

/-- A firing of owner 1 on core 0. -/
def fr : Firing := loadFiring 0

def gs (l : List (Nat × Word)) : Vector Word 64 := l.foldl (fun r x => vset r x.1 x.2) (Vector.replicate 64 0)

/-- Core 0 running `f`, with the g registers of the list, 32 lanes claimed, every right in its PLB and one page in its TLB. -/
def coreOf (f : Firing) (l : List (Nat × Word)) : CoreSt :=
  { CoreSt.reset 0 with
    firing := some f
    regs := { Regs.reset with g := gs l, v := Vector.replicate 32 (List.replicate 32 0), vgrant := 32, vmin := 16 }
    cache := { Caches.reset with
      plb := [{ owner := 1, slot := 0, ent := { base := 0, length := 2 ^ 56, rights := 0x1F, colour := 0, world := 0, granter := 0 } }]
      tlb := [{ page := 0x20000, size := 0x10000, frame := 0x200000, c := true, key := 0, mlock := false }] } }

/-- A module whose core 0 is `c` and whose owner 1 is LIVE. -/
def stOf (c : CoreSt) : State :=
  { State.reset with
    cores := [(0, c)]
    homes := { Homes.reset with mem := writeWord [] (rightsBase + 8) (W (2 ^ 63 + 2 * 2 ^ 40 + 0x140000)) }
    owners := { Owners.reset with keys := [(0, { valid := true, world := 0, key := Vector.replicate 4 0 })] } }

def st (l : List (Nat × Word)) : State := stOf (coreOf fr l)

/-- The state after an instruction or event. -/
def after (i : Instr) (s : State) : State :=
  match exec i s with
  | .next t => t
  | _ => State.reset

/-- The results on their way to registers. -/
def wrote (i : Instr) (s : State) : List RegWrite := ((after i s).core 0).iss.pend.flatMap (·.writes)
def raised (i : Instr) (s : State) : List Flags := ((after i s).core 0).iss.pend.map (·.flags)
/-- A register written in the step itself. -/
def greg (i : Instr) (s : State) (r : Nat) : Word := vget ((after i s).core 0).regs.g 0 r
def pcOf (s : State) : Option Word := (s.core 0).firing.map (·.pc)

/-- A firing whose supervisor has a handler. -/
def stTrap (l : List (Nat × Word)) : State := (st l).onSched 0 fun d => { d with traph := 0x40000, sowner := 7 }

/-! ## Single steps. The expected values are the spec's (03, the table after R77) or worked out by hand. -/

theorem test_add_saturates : wrote (.add h0 3 1 2 .s8 true) (st [(1, 127), (2, 1)]) = [.g 3 0x7F] ∧
    wrote (.add h0 3 1 2 .s8 false) (st [(1, 127), (2, 1)]) = [.g 3 0xFFFF_FFFF_FFFF_FF80] ∧
    wrote (.add h0 3 1 2 .n8 false) (st [(1, 127), (2, 1)]) = [.g 3 0x80] ∧
    wrote (.sub h0 3 1 2 .n16 true) (st [(1, 3), (2, 5)]) = [.g 3 0] := by decide
theorem test_division_corners : wrote (.divn h0 3 1 0 .n32) (st [(1, 0x1_0000_0007)]) = [.g 3 0xFFFF_FFFF] ∧
    wrote (.remn h0 3 1 0 .n32) (st [(1, 0x1_0000_0007)]) = [.g 3 7] ∧
    wrote (.div h0 3 1 2 .s64) (st [(1, 0x8000_0000_0000_0000), (2, 0xFFFF_FFFF_FFFF_FFFF)]) = [.g 3 0x8000_0000_0000_0000] ∧
    wrote (.rem h0 3 1 2 .s8) (st [(1, 0xF9), (2, 2)]) = [.g 3 0xFFFF_FFFF_FFFF_FFFF] := by decide
theorem test_g0_discards : wrote (.movi h0 0 5) (st []) = [.g 0 5] ∧
    gread (((coreOf fr []).regs.write (.g 0 5)) |> fun r => { coreOf fr [] with regs := r }) 0 = 0 := by decide
theorem test_shift_right_keeps_sign : wrote (.sra h0 3 1 2) (st [(1, 0x8000_0000_0000_0000), (2, 65)]) =
    [.g 3 0xC000_0000_0000_0000] := by decide
theorem test_branch_back : pcOf (after (.br h0 0xFFFFFFFF) (st [])) = some 0xFFC5 := by decide
theorem test_loop_falls_through : pcOf (after (.loop h0 1 0xFFFFFFFF) (st [(1, 1)])) = some 0x10001 ∧
    wrote (.loop h0 1 0xFFFFFFFF) (st [(1, 1)]) = [.g 1 0] := by decide
theorem test_slot_five_moves_to_next_line : pcOf (after (.nop h0) (stOf (coreOf { fr with pc := 0x10005 } []))) = some 0x10040 := by
  decide
theorem test_fma_rounds_once : wrote (.fma h0 4 1 2 3 .f32 .rne) (st [(1, 0x3F800001), (2, 0x3F800001), (3, 0xBF800002)]) =
    [.g 4 0x28800000] ∧ raised (.fma h0 4 1 2 3 .f32 .rne) (st [(1, 0x3F800001), (2, 0x3F800001), (3, 0xBF800002)]) = [0] := by decide
theorem test_fadd_ties_to_even : wrote (.fadd h0 4 1 2 .f32 .rne) (st [(1, 0x3F800000), (2, 0x33800000)]) = [.g 4 0x3F800000] ∧
    wrote (.fadd h0 4 1 2 .f32 .rna) (st [(1, 0x3F800000), (2, 0x33800000)]) = [.g 4 0x3F800001] ∧
    raised (.fadd h0 4 1 2 .f32 .rne) (st [(1, 0x3F800000), (2, 0x33800000)]) = [0x10] := by decide
theorem test_fdiv_by_zero : wrote (.fdiv h0 4 1 0 .h16 .rne) (st [(1, 0xBC00)]) = [.g 4 0xFC00] := by decide
theorem test_store_is_little_endian :
    readBytes (after (.st h0 1 ⟨2, 0, 0, 0⟩ .n32) (st [(1, 0x11223344), (2, 0x00FF_0000_0000_0010)])).mem (tcmBase 0 + 0x10) 5 =
      [0x44, 0x33, 0x22, 0x11, 0] := by decide
theorem test_load_extends :
    wrote (.ld h0 3 ⟨2, 0, 0, 0⟩ .s8 false)
      ((st [(2, 0x00FF_0000_0000_0010)]).onMem fun m => writeBytes m (tcmBase 0 + 0x10) [0x80]) = [.g 3 0xFFFF_FFFF_FFFF_FF80] := by decide
theorem test_misaligned_load_enters_handler :
    let t := after (.ld h0 3 ⟨2, 0, 0, 4⟩ .n64 false) (stTrap [(2, 0x00FF_0000_0000_0010)])
    pcOf t = some 0x40000 ∧ readWord t.mem (tcmBase 0 + 0x1F800) = 5 ∧ readWord t.mem (tcmBase 0 + 0x1F808) = 0x00FF_0000_0000_0014 ∧
      readWord t.mem (tcmBase 0 + 0x1F810) = 0x10000 ∧ (t.core 0).firing.map (·.owner) = some 7 := by decide
theorem test_without_handler_aborts : (after (.trapi h0 9) (st [])).core 0 |>.firing.isNone := by decide
theorem test_tret_next_resumes_after : pcOf (after (.tret h0 true false) { after (.trapi h0 9) (stTrap []) with now := 10 }) = some 0x10001 := by decide
theorem test_masked_vadd :
    wrote (.vadd h0 3 1 (.g 2) 1 .n32 (.int false))
      ((st [(2, 7)]).onRegs 0 fun r => { r with m := vset r.m 1 5, vgrant := 4, v := vset r.v 1 [1, 2, 3, 4] }) =
      [.v 3 [some 8, none, some 10, none]] := by decide
theorem test_claim_takes_multiples_of_16 :
    ((after (.vclaim h0 1 false 1 8) ((st []).onRegs 0 fun r => { r with vgrant := 0, vmin := 0 })).core 0).regs.vgrant = 128 := by decide
theorem test_send_without_designator : greg (.send h0 5 8 1) (st [(1, 0xFFFF_FFFF_FFFF_FFFF)]) 5 = 4 := by decide
theorem test_copy_of_four_bytes_is_malformed : greg (.cpyq h0 5 8) (st [(10, 4)]) 5 = 7 := by decide
theorem test_grant_to_owner_zero : greg (.grant h0 5 1 2 3 1) (st [(2, 0x10000)]) 5 = 4 := by decide
theorem test_bank_read_needs_supervisor : let t := after (.mcrd h0 5 9 1) (stTrap [])
    readWord t.mem (tcmBase 0 + 0x1F800) = 4 ∧ readWord t.mem (tcmBase 0 + 0x1F808) = 0x306 := by decide
/-- `mov g2, g1` fetched and run as the first instruction after reset. -/
theorem test_first_step_after_reset : (match step (State.reset.withFetchWord 80 0x1780_0000_1010_0000_0000) with
    | .next t => decide (pcOf t = some 0x10001 ∧ ((t.core 0).iss.pend.flatMap (·.writes)) = [.g 2 0])
    | _ => false) = true := by decide


/-- The check value of R33: the CRC of the nine ASCII bytes "123456789". -/
theorem test_crc_check_value :
    crc32c [0x31, 0x32, 0x33, 0x34, 0x35, 0x36, 0x37, 0x38, 0x39] = 0xE3069283 := by decide

/-! ## States and operands that meet the hypotheses of the statements, clause by clause. Where a hypothesis speaks of every
outstanding operation, the witness has none. -/

/-- The checks of an access pass, and `k` holds of what they give. -/
def chk (s : State) (i : Nat) (ea : Word) (n al need : Nat) (k : State → Loc → Place → Bool) : Bool :=
  match checkAccess s i ea n al need with
  | .ok u l p => k u l p
  | _ => false

/-- They fail with this cause. -/
def chkBad (s : State) (i : Nat) (ea : Word) (n al need cause : Nat) : Bool :=
  match checkAccess s i ea n al need with
  | .bad _ c => c == cause
  | _ => false

def decodes (w : Nat) : Option Instr := decodeTableWord 80 w
def near (off : Nat) : Word := BitVec.ofNat 64 (0xFF_0000_0000_0000 + off)

theorem meets_DecodeAndEncodeAreInverse : (Instr.nop h0).hdr = some h0 ∧ (Instr.nop h0).wf = true ∧ decodes 0 = some (.nop h0) := by
  decide
theorem meets_BadWordsAreRefusedInOrder : 13 ≤ fld (13 * 2 ^ 76) 76 4 ∧ (opcRow 0).isSome = true ∧ fld (8 * 2 ^ 50) 50 4 = 8 ∧
    (let w := 97 * 2 ^ 70 + 1
     fld w 76 4 = 1 ∧ fld w 70 6 ≤ 33 ∧ fld w 50 4 ≠ 8 ∧ fld w 0 12 ≠ 0) ∧
    (let w := 64 * 2 ^ 70 + 120 * 2 ^ 43
     fld w 76 4 = 1 ∧ fld w 70 6 ≤ 33 ∧ fld w 50 4 ≠ 8 ∧ fld w 0 12 = 0 ∧ 120 ≤ fld w 43 7) ∧
    (let e : Ill := ⟨79, 32, 2 ^ 32 - 1⟩
     e.lo < 80 ∧ e.width ≤ 32 ∧ e.value < 2 ^ 32) := by decide

/-- What the first clauses of the two statements about fetching ask for, with the word at the program counter. -/
def fetches (s : State) (good : Nat → Bool) : Bool :=
  let s1 := { s with agenda := [], cur := 0 }
  decide (s.agenda = [.issue 0] ∧ s.rcv.fatal = none) && (preIssue s1 0).isNone &&
    match (s1.core 0).firing with
    | some f => inCodeb f.codeb f.pc && decide (64 * wf f.pc 6 50 < 0xF0_0000_0000_0000) &&
        (match checkAt s1 0 (W (wf f.pc 56 8 * 2 ^ 56 + 64 * wf f.pc 6 50)) 64 2 with
          | .ok u _ _ =>
            (match icFind u 0 (wf f.pc 6 50) with
              | some line => good (ofLe ((line.data.drop (10 * wf f.pc 0 3)).take 10))
              | none => false)
          | _ => false)
    | none => false

theorem meets_StepRunsDecodedInstruction :
    fetches (State.reset.withFetchWord 80 0x1780_0000_1010_0000_0000) (fun w => decodes w == some (.mov h0 (.gg 2 1))) = true ∧
    (let s := { State.reset with agenda := [.event .moduleReset .none] }
     s.rcv.fatal = none ∧ Instr.moduleReset.hdr = none) := by decide
theorem meets_StepTrapsOnBadFetch :
    fetches (State.reset.withFetchWord 80 (0x340 * 2 ^ 70)) (fun w => (decodes w).isNone) = true ∧
    (let s := { st [] with agenda := [.issue 0] }
     (preIssue { s with agenda := [], cur := 0 } 0).isNone = true ∧ inCodeb (W (2 ^ 40)) fr.pc = false) ∧
    (match checkAt (stOf { coreOf { fr with pc := 0x20000 } [] with cache := { (coreOf fr []).cache with plb := [] } }) 0 0x20000 64 2 with
      | .bad u c => decide (c = 0x10) && (u.core 0).firing.isSome
      | _ => false) = true := by decide

def fatal : State := { State.reset with rcv := { Recovery.reset with fatal := some 15 } }
theorem meets_FatalErrorStopsTheModule : fatal.rcv.fatal ≠ none ∧ afterFatal .storeAtHome = false ∧
    (match step fatal with
      | .next _ => true
      | _ => false) = true := by decide
theorem meets_StepKeepsMemoryCanonical : Memory.wf (st []).mem = true ∧
    (match step (st []) with
      | .next t => Memory.wf t.mem
      | _ => false) = true := by decide
theorem meets_MemoryReadsWhatWasWritten : Memory.wf [] = true ∧ Memory.wf (writeBytes [] 7 [1, 0, 2]) = true := by decide
theorem meets_FalseGuardOnlyAdvances : readyOff { h0 with pg := 1 } fr (st []) = true ∧ readyOff { h0 with neg := true, pg := 0, ta := 3 } fr (st []) = true := by
  decide

def outOf (id : Nat) (tag : Fin 16) (op : OutOp) : Out :=
  { id, tag, pc := 0x10000, cyc := 0, holds := false, acquires := false, cls := .none, owner := 1, firing := 1, inval := []
    ring := none, op }
def stIss (s : State) (f : IssueSt → IssueSt) : State := s.putCore 0 { s.core 0 with iss := f (s.core 0).iss }
def late (tag : Fin 16) (at_ : Nat) : LateFault :=
  { cause := 0x10, val := 0, pc := 0x10000, src := 1, seq := 0, owner := 1, firing := 1, tag, store := false, at_ }

theorem meets_WaitingInstructionDoesNotIssue :
    (let c := issuer (st [])
     c.firing = some fr ∧ (st []).now < fr.budgetEnd ∧ c.stopped = none ∧ c.traps.pending = none ∧ c.traps.abort = none ∧
       c.iss.next ≤ 0) ∧
    0 < (issuer (stIss (st []) fun k => { k with hist := [4] })).iss.hist.getD 0 0 ∧
    tagOf (issuer (stIss (st []) fun k => { k with tags := vset k.tags 3 .outstanding })) 3 = .outstanding ∧
    (∃ o ∈ (issuer (stIss (st []) fun k => { k with outs := [{ outOf 0 0 .lode with holds := true }] })).iss.outs, o.holds = true) := by
  decide
theorem meets_LateFaultComesBeforeIssue :
    (let s := stIss (st []) fun k => { k with tags := vset k.tags 3 (.faulted (late 3 5)) }
     (issuer s).firing = some fr ∧ mustWait (begun s) (issuer s) { h0 with tw0 := 3 } = false ∧
       lateFault (issuer s) [3, 0, 0] = some (3, late 3 5)) ∧
    (let s := (st []).onTraps 0 fun t => { t with ready := [late 0 5] }
     lateFault (issuer s) [0, 0, 0] = some (0, late 0 5)) := by decide
theorem meets_FixedLatencyResultLands :
    (let s := stIss (st []) fun k => { k with pend := [{ due := 0, order := 0, writes := [.g 3 5], flags := 1, tag := 2 }] }
     s.arg.core = 0 ∧ (s.core 0).iss.pend.map (·.due) = [0]) ∧ ((st []).core 0).iss.pend = [] := by decide
theorem meets_ResultChangesItsRegisterOnly :
    (((coreOf { fr with handler := true } []).firing.map (·.handler)).getD false) = true ∧ 48 ≤ (63 : GReg).val ∧
    (((coreOf fr []).firing.map (·.handler)).getD false) = false := by decide
def ptrap : PTrap := { cause := 5, val := 9, pc := fr.pc, faultPc := fr.pc, late := false, tag := 0, src := 0, seq := 0, held := false }
theorem meets_PreciseTrapEntersHandler :
    (let s := stTrap []
     Memory.wf s.mem = true ∧ (s.core 0).firing = some fr ∧ fr.handler = false ∧ fr.sup = false ∧ (s.core 0).sched.traph ≠ 0 ∧
       admitted (s.core 0).sched.scodeb (s.core 0).sched.traph = true ∧ quiet (s.core 0) = true) ∧
    (let s := stIss (stTrap []) fun k => { k with tags := vset k.tags 3 .outstanding }
     quiet (s.core 0) = false) ∧
    (let s := (stTrap []).onTraps 0 fun t => { t with pending := some ptrap }
     (s.core 0).traps.pending = some ptrap ∧ s.arg.core = 0 ∧ (s.core 0).stopped = none ∧ quiet (s.core 0) = true) ∧
    fr.owner < 2 ^ 16 ∧ (stTrap []).worldOf fr.owner < 2 ^ 8 ∧ fr.stage < 2 ^ 8 := by decide

def gangOut (joined : Bool) : Out := outOf 4 2 (.gang 0 0 8 4 0 false
  { aOff := 0, bOff := 0, panel := [], tile := [], scales := [], rowmap := 0, rowScales := [], dtA := [], dtB := [], paired := false
    poisonPanel := none, poisonTile := none } (some 0) joined)
def actor0 : Actor :=
  { owner := 1, handler := 0x10000, code := 0, budget := 2 ^ 20, prio := 8, stage := 0, stOff := 0x1000, stLen := 0, inhOff := 0, inhLen := 0
    ins := Vector.replicate 4 none, outs := Vector.replicate 4 none, stopped := false, freeing := false, splicing := none, perf := none
    waits := false, fired := 0 }
def frA : Firing := { fr with kind := .actor 0 }
def stA (a : Actor) (l : List (Nat × Word)) : State := (stOf (coreOf frA l)).onSched 0 fun d => { d with actors := [(0, a)] }
theorem meets_UnhandledTrapAborts :
    (joinedGang ((st []).core 0) = false ∧ Memory.wf (st []).mem = true ∧ fr.handler = false ∧ ((st []).core 0).sched.traph = 0) ∧
    (st []).rcv.fqbase = 0 ∧
    ((stA actor0 []).core 0).firing = some frA ∧ actorOf ((stA actor0 []).core 0) 0 = some actor0 ∧ actor0.freeing = false ∧
    (let s := (st []).onTraps 0 fun t => { t with abort := some { cause := 5, val := 0, pc := 0, bank := 0 } }
     (s.core 0).traps.abort.isSome = true ∧ s.arg.core = 0) ∧
    (let s := stIss (st []) fun k => { k with outs := [gangOut true] }
     joinedGang (s.core 0) = true ∧ (s.core 0).traps.abort = none) := by decide

/-- Core 0 in a trap handler whose frame stands in its TCM. -/
def frH : Firing := { fr with handler := true, pc := 0x40000, owner := 7 }
def stH (l : List (Nat × Word)) : State :=
  (stOf (coreOf frH l)).onMem fun m => writeWord (writeWord m (tcmBase 0 + 0x1F810) 0x10000) (tcmBase 0 + 0x1F828) 1
theorem meets_HandlerInstructions :
    (let s := stH [(1, 5)]
     let w := fun k => readWord s.mem (tcmBase 0 + 0x1F800 + 8 * k)
     ready .none h0 frH s = true ∧ wb (w 11) 16 = false ∧ handlerBusy (issuer s) = false ∧
       ¬ (6 ≤ wf (w 2) 0 3 ∨ wf (w 2) 3 3 ≠ 0 ∨ 0xF0_0000_0000_0000 ≤ 64 * wf (w 2) 6 50) ∧ frH.ext = false ∧
       0 < (gread (issuer s) 1).toNat ∧ (gread (issuer s) 1).toNat ≤ frH.budget ∧ (gread (issuer s) 0).toNat = 0) ∧
    (let s := (stH []).onMem fun m => writeWord m (tcmBase 0 + 0x1F810) 7
     6 ≤ wf (readWord s.mem (tcmBase 0 + 0x1F810)) 0 3) ∧
    ready .none h0 fr (st []) = true ∧ fr.handler = false := by decide
theorem meets_ControlTransfers : ready .none h0 fr (st [(1, 0x20040), (2, 0x20006)]) = true ∧
    wf (0x20040 : Word) 0 3 < 6 ∧ wf (0x20040 : Word) 3 3 = 0 ∧ 64 * wf (0x20040 : Word) 6 50 < 0xF0_0000_0000_0000 ∧
    6 ≤ wf (0x20006 : Word) 0 3 := by decide
theorem meets_EndClosesFiring :
    (let s := stIss (st []) fun k => { k with tags := vset k.tags 3 .outstanding }
     ready .none h0 fr s = true ∧ endWaits (issuer s) = true) ∧
    (ready .none h0 fr (st []) = true ∧ endWaits (issuer (st [])) = false ∧ lateFault (issuer (st [])) allTags = none ∧ fr.kind = .task) ∧
    (let s := stA actor0 []
     ready .none h0 frA s = true ∧ actorOf (issuer s) 0 = some actor0 ∧ rateMismatch frA actor0 = none ∧ actor0.freeing = false) ∧
    (let a := { actor0 with outs := vset actor0.outs 0 (some (0, 1, 2)) }
     ready .none h0 frA (stA a []) = true ∧ (rateMismatch frA a).isSome = true) := by decide
theorem meets_SystemRegisterReads : ready .none h0 fr (st []) = true ∧ ready .none h0 frH (stH []) = true ∧ frH.handler = true ∧
    (st []).modnum.getD 0 < 2 ^ 14 ∧ 0x010 < (0x011 : BitVec 12).toNat ∧ (8 ≤ (8 : BitVec 12).toNat ∧ fr.handler = false ∧ fr.sup = false) := by
  decide
theorem meets_SystemRegisterWrites : ready .none h0 fr (st [(1, 1), (2, 0x3_0000_0000), (3, 0xFFFF)]) = true ∧
    scopeOk 0x3_0000_0000 = true ∧ scopeOk 0xFFFF_FFFF_FFFF_FFFF = false ∧ (ready .none h0 frH (stH []) = true ∧ Memory.wf (stH []).mem = true) ∧
    (st []).live 1 = true ∧ fr.owner = 1 ∧ (st []).live 0xFFFF = false := by decide
theorem meets_integer_statements : ready .none h0 fr (st [(1, 0x8000_0000_0000_0000), (2, 0xFFFF_FFFF_FFFF_FFFF)]) = true ∧
    operandInt .s64 0x8000_0000_0000_0000 = -2 ^ 63 ∧ operandInt .s64 0xFFFF_FFFF_FFFF_FFFF = -1 ∧ operandInt .n8 0x100 = 0 := by decide
theorem meets_RoundingIsCorrect : 2 ≤ fmt32.eb ∧ 1 ≤ fmt32.mb := by decide
theorem meets_floating_point_statements : ready .none h0 fr (st [(1, 0x7F800001), (2, 0x7FC00000)]) = true ∧
    unpack fmt32 0x7F800001 = .nan true ∧ unpack fmt32 0x7FC00000 = .nan false ∧ unpack fmt32 0x7F800000 = .inf false ∧
    unpack fmt32 0x80000000 = .fin true 0 (-149) ∧ unpack fmt32 1 = .fin false 1 (-149) ∧ CvtTy.kind .s32 = .inr (true, 32) := by decide
def stNoPlb (l : List (Nat × Word)) : State := stOf { coreOf fr l with cache := { (coreOf fr l).cache with plb := [] } }
/-- Owner 1 with one entry in its rights table: page 0x20000, every right, colour 3. -/
def stRights (l : List (Nat × Word)) : State :=
  (stNoPlb l).onMem fun m => writeBytes m (entAddr (st []) 1 0)
    (bytesOfWords (entWords { base := 0x20000, length := 0x10000, rights := 0x1F, colour := 3, world := 0, granter := 0 }))
theorem meets_AddressCheckOrder : ready .l h0 fr (st []) = true ∧ ready .s h0 fr (st []) = true ∧
    decodeAddr 0 0xFF_0000_0000_0010 = some (.tcm 0 16) ∧ decodeAddr 0 0xFF_0000_0002_0000 = none ∧
    (let s := stNoPlb [(2, 0xFE_0000_0000_0000)]
     ready .l h0 fr s = true ∧ s.live 1 = true ∧ tableEnts s 1 = []) ∧
    (let s := stRights []
     ready .l h0 fr s = true ∧ decodeAddr 0 0x20000 = some (.paged 0x20000) ∧ (tlbFind (issuer s).cache.tlb 0x20000).isSome = true ∧
       (issuer s).cache.plb = [] ∧ (tableEnts s 1).map (fun e => (e.2.colour, e.2.covers 0x20000)) = [(3, true)] ∧
       wf (0x20000 : Word) 56 8 ≠ 3) := by decide
def ownOk (s : State) (ea : Word) (n need : Nat) : Bool :=
  chk (begun s) 0 ea n n need fun u l p => ownFast 0 l && (u.core 0).cache.wmWait.isNone && (ownLoadWait u p n).isNone &&
    !ownOverlap (u.core 0) l n && !unperfOverlap (u.core 0) p.addr n && (poisonCode u p.addr n).isNone &&
    !lockedW u p.lockKey n && !readBefore (u.core 0) (issuer s).iss.opCount p.addr n
def lockOn (base len : Nat) (dst : Bool) : Lock := { copy := 0, core := 5, op := 0, dst, base, len }
def stLock (s : State) : State := { s with eng := { s.eng with locks := [lockOn (tcmBase 0) 64 true] } }
theorem meets_OwnMemoryAccess : ready .l h0 fr (st []) = true ∧ ready .s h0 fr (st []) = true ∧ Memory.wf (st []).mem = true ∧
    ownOk (st []) (near 0x8008) 8 0 = true ∧ ownOk (st []) (near 0x8010) 16 0 = true ∧ ownOk (st []) (near 0) 1 1 = true ∧
    ownOk (st []) (near 0x8010) 16 1 = true ∧
    chk (stLock (st [])) 0 (near 56) 8 8 1 (fun u l p => ownFast 0 l && lockedW u p.lockKey 8) = true ∧
    chk (stLock (st [])) 0 (near 48) 16 16 1 (fun u l p => ownFast 0 l && lockedW u p.lockKey 16) = true := by decide
def stL1 : State := (st []).onCache 0 fun k => { k with l1 := [{ line := 0x20000 / 64, data := List.replicate 64 7, expire := 16384 }] }
theorem meets_FarMemoryAccess : ((st []).core 0).iss.outs = [] ∧
    chk (begun (st [])) 0 0x20008 8 8 0 (fun u l p => !ownFast 0 l && (l1Find u 0 (lineOf p.lockKey)).isNone) = true ∧
    chk (begun (st [])) 0 0x20010 16 16 0 (fun _ l _ => !ownFast 0 l) = true ∧
    chk (begun stL1) 0 0x20008 8 8 0 (fun u _ p => (l1Find u 0 (lineOf p.lockKey)).isSome && !bufBlocks (unperformed (u.core 0)) p.addr 8 0) = true ∧
    chk (begun (st [])) 0 0x20008 8 8 1 (fun u l _ => !ownFast 0 l && !bufferFull (u.core 0)) = true ∧
    chk (begun (st [])) 0 0x20010 16 16 1 (fun u l _ => !ownFast 0 l && !bufferFull (u.core 0)) = true ∧
    (let s := (st []).onTraps 0 fun t => { t with storeStop := true }
     ready .s h0 fr s = true ∧ bufferFull (s.core 0) = true) := by decide

/-- A store on its way to its home. -/
def ent (place : Place) (op : StoreOp) (sent : Bool) : StoreEnt :=
  { seq := 0, id := 0, ea := 0x20008, place, op, release := none, sync := false, sent, held := false, owner := 1, pc := 0x10000, firing := 1 }
def stWb (e : StoreEnt) (os : List Out) : State :=
  stIss ((st []).onCache 0 fun k => { k with wb := [e] }) fun k => { k with outs := os, opCount := 1 }
def glob : Place := .global 0x20008 0x200008 0 true false
theorem meets_StoresReachTheirHome :
    (sendable ((stWb (ent glob (.bytes [1, 2]) false) []).core 0)).isSome = true ∧
    (let s := stWb (ent glob (.bytes [1, 2]) true) [outOf 0 3 (.stored 0 none)]
     (atHome s 0 0).isSome = true ∧ Memory.wf s.mem = true ∧ lockedFor s 0 0 0x20008 2 = false ∧ s.homes.zp.contains (0x200008 / 64) = false ∧
       (outOfSeq (s.core 0) 0).isSome = true ∧ (findOut (s.core 0) 0).map (·.op) = some (.stored 0 none)) ∧
    (let s := { stWb (ent glob (.bytes [1, 2]) true) [] with
       eng := { Engines.reset with locks := [lockOn 0x20009 1 true] }
       homes := { (st []).homes with lineKey := [(0x200008 / 64, 0)] } }
     (atHome s 0 0).isSome = true ∧ lockedFor s 0 0 0x20008 2 = true ∧ mget? s.homes.lineKey (0x200008 / 64) = some 0) ∧
    migrationLocked (.global 0x20008 0x200008 0 true true) = true ∧
    (atHome (stWb (ent (.global 0x20008 0x200008 0 true true) (.bytes [1, 2]) true) []) 0 0).isSome = true ∧
    (let s := (st []).onTraps 0 fun t => { t with inbound := [late 3 0, late 0 0] }
     s.arg.core = 0 ∧ (s.core 0).firing.map (·.num) = some 1) := by decide
theorem meets_CachesAndReturns :
    (let o := outOf 0 3 (.load (.array (tcmBase 64)) (W (tcmBase 64)) { d := .g 3 0, bytes := 8, signed := false, pair := false } false)
     let s := stIss (st []) fun k => { k with outs := [o] }
     findOut (s.core 0) s.arg.id = some o ∧ blockedRead s (tcmBase 64) 8 = none ∧ loadWaits s 0 o (.array (tcmBase 64)) 8 = false ∧
       poisonCode s (tcmBase 64) 8 = none ∧ unperfOverlap (s.core 0) (tcmBase 64) 8 = false) ∧
    (hintPlace (begun (st [])) 0 0x20008).2.isSome = true ∧ decodeAddr 0 0xFF_0000_0000_0000 = some (.tcm 0 0) ∧
    (let s := (st []).onCache 0 fun k => { k with prefetches := [{ line := 1, place := glob, home := true, inval := false }] }
     (s.core 0).cache.prefetches[s.arg.id]?.map (·.home) = some true) ∧
    (let g : IFetch := { line := 0x20000 / 64, place := .global 0x20000 0x200000 0 true false, tries := 0, inval := false }
     let s := (st []).onCache 0 fun k => { k with ifetch := some g }
     placeBusy s g.place = false ∧ poisonCode s 0x200000 64 = none ∧
       crc32c ((placeBytes s g.place 64).take 60) ≠ ofLe ((placeBytes s g.place 64).drop 60)) := by decide
def scopeModule : Word := 0x1_0000_0000
def stSync : State := st [(1, 0x20000), (2, scopeModule), (3, near 0), (4, 0x20008)]
theorem meets_OrderingInstructions : scopeOk scopeModule = true ∧ scopeOk (1 <<< 40) = false ∧
    ready .l h0 fr stSync = true ∧ ready .s h0 fr stSync = true ∧ ready .a h0 fr stSync = true ∧ ready .none h0 fr stSync = true ∧
    chk (begun stSync) 0 0x20000 8 8 0 (fun _ l _ => !ownFast 0 l) = true ∧ chk (begun stSync) 0 0x20000 4 4 1 (fun _ l _ => !ownFast 0 l) = true ∧
    chk (begun stSync) 0 (near 0) 8 8 0 (fun u l _ => ownFast 0 l && !ownOverlap (u.core 0) l 8) = true ∧
    chk (stLock stSync) 0 (near 0) 8 8 1 (fun u l p => ownFast 0 l && lockedW u p.lockKey 8) = true ∧
    (0x20008 : Word).toNat % 256 ≠ 0 ∧ decodeAddr 0 (wf (near 0) 0 56) = some (.tcm 0 0) ∧ (near 0).toNat % 256 = 0 ∧
    decodeAddr 0 0x20000 = some (.paged 0x20000) ∧ chk (begun stSync) 0 0x20000 144 256 0 (fun _ _ _ => true) = true ∧
    chk (begun stSync) 0 0x20000 144 256 1 (fun _ _ _ => true) = true ∧ bufferFull (issuer stSync) = false ∧
    bufferFull (issuer (stSync.onTraps 0 fun t => { t with storeStop := true })) = true := by decide
theorem meets_AtomicInstructions : ready .a h0 fr stSync = true ∧ scopeOk scopeModule = true ∧ scopeOk (1 <<< 40) = false ∧
    chk (begun stSync) 0 0x20000 8 8 3 (fun u l _ => !ownFast 0 l && !bufferFull (u.core 0)) = true ∧
    chk (begun stSync) 0 (near 4) 4 4 3 (fun u l p => ownFast 0 l && !lockedW u p.lockKey 4 && !ownOverlap (u.core 0) l 4) = true ∧
    chk (stLock stSync) 0 (near 0) 8 8 3 (fun u l p => ownFast 0 l && lockedW u p.lockKey 8) = true ∧
    (let e := { ent (.array (tcmBase 0)) (.atomic { op := 12, bytes := 8, operand := 5, expected := 0 }) true with sync := true }
     let s := stWb e [outOf 0 3 (.stored 0 (some 4))]
     atHome s 0 s.arg.id = some e ∧ Memory.wf s.mem = true ∧ lockedFor s 0 e.id (tcmBase 0) 8 = false ∧ poisonCode s (tcmBase 0) 8 = none ∧
       (outOfSeq (s.core 0) 0).map (·.op) = some (.stored 0 (some 4)) ∧ readNat s.mem (tcmBase 0) 8 = 0) := by decide
def syncPlace : Place := .global 0x20000 0x200000 0 true false
theorem meets_SyncRecordsAtHome :
    (let e := { ent syncPlace (.rel 7 3) true with ea := 0x20000, sync := true }
     let s := stWb e [outOf 0 3 (.stored 0 none)]
     Memory.wf s.mem = true ∧ poisonCode s 0x200000 144 = none ∧ s.homes.zp.contains (0x200000 / 64) = false ∧ s.homes.lineKey = [] ∧
       e ∈ (s.core 0).cache.wb ∧ e.id = s.arg.id ∧ atHome s 0 0 = some e ∧ (outOfSeq (s.core 0) 0).isSome = true ∧
       (findOut (s.core 0) 0).map (·.op) = some (.stored 0 none) ∧ lockedFor s 0 e.id 0x20000 144 = false) ∧
    (let e := { ent syncPlace .sigclr true with ea := 0x20000 }
     let s := stWb e [outOf 0 3 (.stored 0 none)]
     atHome s 0 0 = some e ∧ lockedFor s 0 e.id 0x20008 136 = false) ∧
    (let o := outOf 0 3 (.acq syncPlace 4)
     let s := stIss (st []) fun k => { k with outs := [o] }
     findOut (s.core 0) s.arg.id = some o ∧ (s.core 0).cache.wb = [] ∧ recordWaits s 0 o syncPlace = false ∧
       syncBefore (s.core 0) o.id = false ∧ blockedRead s 0x20000 144 = none) ∧
    (let o := outOf 0 3 (.sigrd syncPlace 4 16)
     let s := stIss (st []) fun k => { k with outs := [o] }
     findOut (s.core 0) s.arg.id = some o ∧ recordWaits s 0 o syncPlace = false ∧ blockedRead s (0x20008 + 128) 8 = none) := by decide
def chanD : Channel :=
  { task := true, owner := 1, cap := 4, ring := 0x3000, items := [], reserved := [], paused := false, prio := 8, budget := 1024, codeb := 0
    inputOf := none }
def stChan (c : Channel) (l : List (Nat × Word)) : State := (st l).onSched 0 fun d => { d with chans := [(3, c)] }
/-- The rectangle of cores (0, 0) to (1, 0). -/
def rect2 : Word := 0x1_0000
theorem meets_Barriers : ready .e h0 fr (stChan chanD [(2, rect2)]) = true ∧ scopeOk rect2 = true ∧ scopeOk (1 <<< 40) = false ∧
    wf rect2 32 2 = 0 ∧ (rectOf rect2).has 0 = true ∧ (rectOf 0x01010101).has 0 = false ∧
    recvChannel (begun (stChan chanD [])) 0 3 = true ∧ recvChannel (begun (st [])) 0 3 = false ∧
    (let o := outOf 0 3 (.bar 4 rect2 5 3 1 2)
     let s := stIss (st []) fun k => { k with outs := [o] }
     findOut (s.core 0) s.arg.id = some o ∧ scopeWait (s.core 0) o.id (scopeKind rect2) anyMem = false ∧
       syncBefore (s.core 0) o.id = false ∧ mget? s.weirs 5 = none) ∧
    (let x : WeirSlot := { owner := 1, rect := W (wf rect2 0 32), arrived := [(1, 3, 0, 0)], union := 0 }
     let s := { stIss (st []) fun k => { k with outs := [outOf 0 3 (.bar 4 rect2 5 3 1 2)] } with weirs := [(5, x), (6, { x with owner := 2 }), (7, { x with arrived := [(0, 3, 0, 0)] })] }
     mget? s.weirs 5 = some x ∧ 64 * dieOf (coreAt 0 0) + 5 = 5 ∧ 2 ≤ x.arrived.length + 1) := by decide
def edge (k : EdgeKind) (it : ChItem) : EdgeRec := { ch := 3, kind := k, item := it, owner := 1, ref_ := 0 }
def stEdge (s : State) (e : EdgeRec) : State := { s.onSched 0 (fun d => { d with edges := [e] }) with arg := { EvArg.none with id := 3 } }
def rec8 (w0 : Word) : ChItem := .data [w0, 0, 0, 0, 0, 0, 0, 0] none
theorem meets_EdgeRecords :
    (let s := stEdge (st []) (edge .token (rec8 0x10000))
     edgeFind s 0 3 .token = some (edge .token (rec8 0x10000)) ∧ chanOf s 0 3 = none ∧ s.live 1 = true ∧ s.tearing 1 = false) ∧
    (let s := stEdge (stChan chanD []) (edge .notify (rec8 0x10006))
     edgeFind s 0 3 .notify = some (edge .notify (rec8 0x10006)) ∧ chanOf s 0 3 = some chanD ∧ chanD.room ≠ 0 ∧
       (admitFail chanD.codeb 0x10006).isSome = true ∧ admitFail chanD.codeb 0x10000 = none) ∧
    (let c := { chanD with items := List.replicate 4 (rec8 0x10000) }
     let s := stEdge (stChan c []) (edge .mailbox (rec8 0x10000))
     edgeFind s 0 3 .mailbox = some (edge .mailbox (rec8 0x10000)) ∧ c.room = 0) ∧
    (let s := stEdge (stChan { chanD with owner := 9 } []) (edge .lode (rec8 0))
     s.live 9 = false ∧ findJob s 0 0 = none ∧ (s.core 0).sched.splices = []) ∧
    (Memory.wf (st []).mem = true ∧ (st []).rcv.fqbase = 0 ∧ readNat (st []).mem (tcmBase 0 + 0x1FC08) 8 = 1 ∧
      (let s := (st []).onMem fun m => writeWord m (tcmBase 0 + 0x1FC08) 15
       readNat s.mem (tcmBase 0 + 0x1FC08) 8 = 15)) ∧
    (let s := { (st []).onSched 0 fun d => { d with mboxIn := [.s], mbox := vset d.mbox 2 { Mbox.reset with count := 1 } } with
       arg := { EvArg.none with id := 2 } }
     sideOf s.arg.id ∈ (s.core 0).sched.mboxIn ∧ (vget (s.core 0).sched.mbox .reset 2).value + 1 = 1) := by decide
def stV (g : Nat) : State := (st []).onRegs 0 fun r => { r with vgrant := g, vmin := g, v := Vector.replicate 32 (List.replicate g 0) }
theorem meets_VectorClaims : ready .none h0 frH (stH []) = true ∧ frH.handler = true ∧ ready .none h0 fr (st []) = true ∧
    (issuer (st [])).regs.vgrant ≠ 0 ∧
    (let s := stV 0
     (issuer s).regs.vgrant = 0 ∧ (issuer s).iss.outs = [] ∧ ((begun s).pool 0).queue = [] ∧
       16 ≤ 128 - (tussockCores 0).foldl (fun n k => n + ((begun s).core k).regs.vgrant) 0) ∧
    (let s := { stV 0 with pools := [(0, { queue := [{ core := 1, id := 0, min := 128, max := 128 }], shrink := [] })] }
     ((begun s).pool 0).queue ≠ []) ∧
    (let s := { st [] with pools := [(0, { queue := [], shrink := [0] })] }
     vectorBusy (begun s) (issuer s) = false ∧ 0 ∈ ((begun s).pool 0).shrink) ∧
    (let s := stIss (st []) fun k => { k with outs := [{ outOf 0 3 (.cop [] 0) with ring := some 0 }], opCount := 1 }
     vectorBusy (begun s) (issuer s) = true) ∧
    (let o := outOf 0 3 (.claim 4 16 32)
     let s := { stIss (stV 0) (fun k => { k with outs := [o] }) with pools := [(0, { queue := [{ core := 0, id := 0, min := 16, max := 32 }], shrink := [] })] }
     (s.pool s.arg.unit).queue.map (·.core) = [0] ∧ (s.core 0).firing = some fr ∧ findOut (s.core 0) 0 = some o) := by decide
theorem meets_VectorElementwise : ready .none h0 fr (st []) = true ∧ (issuer (st [])).regs.vgrant ≠ 0 ∧
    ready .none h0 fr (stV 0) = true ∧ (issuer (stV 0)).regs.vgrant = 0 := by decide
def stDt (x : DtState) (n : Nat) : State :=
  (st []).onMtx 0 fun m => { m with dt := Vector.replicate 2 { st := x, owner := 1, ents := List.replicate n 0 } }
theorem meets_VectorMovesAndReductions : ready .none h0 fr (st []) = true ∧ (issuer (st [])).regs.vgrant ≠ 0 ∧
    tableLoading (issuer (st [])) 0 = false ∧ tableFits false (tableState (issuer (st [])) 0) = false ∧
    tableFits false (tableState (issuer (stDt .c8 256)) 0) = true ∧ tableFits true (tableState (issuer (stDt .c4 16)) 1) = true ∧
    tinyB16 .rne (unpack fmt32 1) = true ∧ tinyB16 .rne (unpack fmt32 0x3F800000) = false ∧
    (let o := outOf 0 3 (.cop [.g 3 5] 1)
     let s := stIss (st []) fun k => { k with outs := [o] }
     findOut (s.core 0) s.arg.id = some o) := by decide

def elems (s : State) (i es need : Nat) (xs : List (Nat × Word)) (k : State → List (Nat × Word × Loc × Place) → Bool) : Bool :=
  match checkElems s i es need xs with
  | .ok u ys => k u ys
  | _ => false
def shapeWords : List Word := [W (1 + 3 * 2 ^ 8), W (2 + 8 * 2 ^ 32), 0, 0, 0, 0, 0, 0]
def sh2 : Shape := { esize := 8, dims := [(2, 8)] }
def stQ (q : QBind) : State := (stOf (coreOf frA [(1, near 0x8000)])).onRegs 0 fun r => { r with q := vset r.q 2 q }
theorem meets_VectorMemoryAndStreams : ready .l h0 fr (st []) = true ∧ ready .s h0 fr (st []) = true ∧ ready .l h0 frH (stH []) = true ∧
    ready .s h0 frH (stH []) = true ∧ (issuer (stV 0)).regs.vgrant = 0 ∧ ready .l h0 fr (stV 0) = true ∧
    elems (begun (st [])) 0 4 0 [(0, near 0x8000), (31, near 0x807C)] (fun u ys => ys.all fun y => ownFast 0 y.2.2.1 && !ownOverlap (u.core 0) y.2.2.1 4) = true ∧
    elems (begun (st [])) 0 8 1 [(0, near 0x8000), (1, near 0x8000)] (fun u ys => ys.all fun y => ownFast 0 y.2.2.1 &&
      !lockedW u y.2.2.2.lockKey 8 && !ownOverlap (u.core 0) y.2.2.1 8 && !unperfOverlap (u.core 0) y.2.2.2.addr 8 &&
      !readBefore (u.core 0) 0 y.2.2.2.addr 8) = true ∧
    elems (stLock (st [])) 0 8 1 [(0, near 0)] (fun u ys => ys.any fun y => ownFast 0 y.2.2.1 && lockedW u y.2.2.2.lockKey 8) = true ∧
    elems (begun (st [])) 0 2 1 [(0, 0x20000), (1, 0x20002)] (fun u ys => ys.all (fun y => !ownFast 0 y.2.2.1) && !(u.core 0).traps.storeStop &&
      decide ((u.core 0).cache.wb.length + ys.length ≤ 63)) = true ∧
    chkBad (begun (st [])) 0 (near 0x20000) 4 4 0 0x0E = true ∧
    (let X : VecMem := { elems := [(0, near 0x8000, .array (tcmBase 0 + 0x8000), none)], es := 4, d := 1, lanes := 32, gather := false, fault := none }
     let o := outOf 0 3 (.vload X)
     let s := stIss (st []) fun k => { k with outs := [o] }
     findOut (s.core 0) s.arg.id = some o ∧ loadWaits s 0 o (.array (tcmBase 0 + 0x8000)) 4 = false ∧
       blockedRead s (tcmBase 0 + 0x8000) 4 = none ∧ poisonCode s (tcmBase 0 + 0x8000) 4 = none ∧
       unperfOverlap (s.core 0) (tcmBase 0 + 0x8000) 4 = false) ∧
    shapeOf shapeWords 3 = some sh2 ∧ shapeAligned sh2 (near 0) = true ∧ shapeAligned sh2 (near 4) = false ∧ shapeOf [7, 0, 0, 0, 0, 0, 0, 0] 3 = none ∧
    sh2.count = 2 ∧ vget (issuer (stQ (.stream false (near 0) sh2 0 [.elem 5]))).regs.q .unbound 2 = .stream false (near 0) sh2 0 [.elem 5] ∧
    ready .l h0 frA (stQ (.stream false (near 0) sh2 0 [])) = true ∧ ready .s h0 frA (stQ (.stream true (near 0x8000) sh2 1 [])) = true ∧
    ownOk (stQ (.stream true (near 0x8000) sh2 1 [])) (elemAddr (near 0x8000) sh2 1) 8 1 = true ∧
    (let s := stQ (.stream false (near 0x8000) sh2 0 [])
     inHandler (s.core 0) = false ∧ placeBusy s (.array (tcmBase 0 + 0x8000)) = false ∧
       chk s 0 (elemAddr (near 0x8000) sh2 0) 8 8 0 (fun _ _ p => decide (p = .array (tcmBase 0 + 0x8000))) = true) := by decide
def actorIO : Actor := { actor0 with ins := vset actor0.ins 0 (some (3, 1)), outs := vset actor0.outs 0 (some (0, 4, 1)) }
def stIO (q : QBind) (f : Firing) : State :=
  ((stOf (coreOf f [])).onRegs 0 fun r => { r with q := vset r.q 2 q }).onSched 0 fun d => { d with
    actors := [(0, actorIO)]
    chans := [(3, { chanD with task := false, inputOf := some 0, items := [rec8 9] }), (4, { chanD with task := false })] }
theorem meets_VectorMemoryAndStreams_channels :
    (let s := stIO (.chanIn 0) frA
     ready .l h0 frA s = true ∧ actorOf (issuer s) 0 = some actorIO ∧ vget actorIO.ins none 0 = some (3, 1) ∧ vget frA.reads 0 0 < 8 ∧
       (chanOf (begun s) 0 3).map (fun C => (dataAhead C.items)[0]?.isSome) = some true) ∧
    (let f := { frA with reads := vset frA.reads 0 8 }
     ready .l h0 f (stIO (.chanIn 0) f) = true ∧ 8 * 1 ≤ vget f.reads 0 0) ∧
    (let s := stIO (.chanOut 0) frA
     ready .s h0 frA s = true ∧ vget actorIO.outs none 0 = some (0, 4, 1) ∧ (issuer s).iss.outs = [] ∧ vget frA.sent 0 0 < 1 ∧
       (vget frA.outWords [] 0).length < 7) ∧
    (let f := { frA with outWords := vset frA.outWords 0 (List.replicate 7 5) }
     ready .s h0 f (stIO (.chanOut 0) f) = true ∧ (vget f.outWords [] 0).length = 7 ∧
       (chanOf (begun (stIO (.chanOut 0) f)) 0 4).map (·.task) = some false) ∧
    (let f := { frA with sent := vset frA.sent 0 1 }
     ready .s h0 f (stIO (.chanOut 0) f) = true ∧ 1 ≤ vget f.sent 0 0) := by decide

def stTcm : State := st [(1, near 0x8000), (2, 64), (3, 0x20000)]
theorem meets_AccumulatorInstructions : ready .none h0 fr stTcm = true ∧ ready .l h0 fr stTcm = true ∧ ready .s h0 fr stTcm = true ∧
    ready .e h0 fr stTcm = true ∧ ready .e h0 frH (stH []) = true ∧ matrixFull (issuer stTcm) = false ∧ (issuer stTcm).mtx.gangFault = none ∧
    (let s := stIss stTcm fun k => { k with outs := (List.range 8).map fun n => outOf n 0 (.acc (.zero 0 1)), opCount := 8 }
     matrixFull (issuer s) = true ∧ ready .e h0 fr s = true) ∧
    (let s := stTcm.onMtx 0 fun m => { m with gangFault := some 1 }
     (issuer s).mtx.gangFault = some 1 ∧ ready .e h0 fr s = true) ∧
    decodeAddr 0 (wf (near 0x8000) 0 56) = some (.tcm 0 0x8000) ∧ 0x8000 + 15 * 64 + 64 ≤ 2 ^ 17 ∧
    rowsLocked (begun stTcm) 0 0 0x8000 64 64 = none ∧ rowsLocked (begun (stLock stTcm)) 0 0 0 64 64 = some 0 ∧
    tableLoading (issuer stTcm) 0 = false ∧
    (let o := outOf 0 3 (.acc (.store 8 0x8000 64))
     let s := stIss stTcm fun k => { k with outs := [o] }
     findOut (s.core 0) s.arg.id = some o ∧ matrixBefore (s.core 0) o = false ∧ Memory.wf s.mem = true ∧
       (ownTile (s.core 0) 8 1).poison = [] ∧ rowsLocked s 0 o.id 0x8000 64 64 = none ∧
       (List.range 16).all (fun r => (blockedRead s (tcmBase 0 + 0x8000 + 64 * r) 64).isNone && (poisonCode s (tcmBase 0 + 0x8000 + 64 * r) 64).isNone) = true) := by
  decide
def gdata : GangData :=
  { aOff := 0x8000, bOff := 0x9000, panel := List.replicate 512 0, tile := List.replicate 512 0, scales := List.replicate 16 0x3F80, rowmap := 0
    rowScales := List.replicate 16 0x3F80, dtA := List.replicate 256 0, dtB := List.replicate 256 0, paired := false, poisonPanel := none, poisonTile := none }
def gop (x : Option Nat) (j : Bool) : Out := outOf 0 3 (.gang 0 0 8 4 0 false gdata x j)
def stGang (x : Option Nat) (j : Bool) : State :=
  (List.range 4).foldl (fun s k => s.putCore k { coreOf fr [] with iss := { IssueSt.reset with outs := [gop x j], opCount := 1 } }) (st [])
def arrived (k : Nat) : Arrival := { core := k, id := 0, x0 := 0, n := 4, fn := 0, pair := 0, east := false, owner := 1, at_ := 0, hold := none }
theorem meets_MatrixGangs :
    (let s := (stDt .c8 256).onRegs 0 fun r => { r with g := gs [(1, near 0x8000), (2, near 0x9000), (3, near 0x1FFC0)] }
     ready .e h0 fr s = true ∧ ready .l h0 fr s = true ∧ matrixFull (issuer s) = false ∧ (issuer s).mtx.gangFault = none ∧
       decodeAddr 0 (wf (near 0x9000) 0 56) = some (.tcm 0 0x9000) ∧ tableFits false (tableState (issuer s) 0) = true ∧
       0x8000 + aBytes false 0 ≤ 2 ^ 17 ∧ 0x9000 + bBytes false 0 0 ≤ 2 ^ 17 ∧ 2 ^ 17 < 0x1FFC0 + aBytes false 0 ∧
       unperfOverlap (issuer s) (tcmBase 0 + 0x9000) 64 = false ∧ matrixOverlap (issuer s) 0x9000 64 = false ∧
       blockedRead (begun s) (tcmBase 0 + 0x9000) 64 = none ∧ poisonCode (begun s) (tcmBase 0 + 0x9000) 64 = none ∧
       tableRead (issuer s) 0 = false ∧
       (match checkRun (begun s) 0 (near 0x8000) 0 1 with
        | .ok u => !runBusy u 0 (near 0x8000) 1 && (runPoison u 0 (near 0x8000) 1).isNone
        | _ => false) = true ∧
       (match checkRun (begun s) 0 (near 0x8040) 0 16 with
        | .ok u => !runBusy u 0 (near 0x8040) 16 && (runPoison u 0 (near 0x8040) 16).isNone
        | _ => false) = true) ∧
    (let s := stGang none false
     nextGang (s.core 0) = some (gop none false) ∧ findOut (s.core 0) 0 = some (gop none false) ∧ unperformed (s.core 0) = [] ∧
       (pendingSpans (gop none false)).all (fun m => (blockedRead s (tcmBase 0 + m.1) m.2).isNone) = true ∧ s.arrivals = [] ∧ s.rcv.fences.cores = []) ∧
    (let s := { stGang none false with arrivals := [arrived 1, arrived 2, arrived 3] }
     s.arrivals.all (fun a => !a.expired s.now) = true ∧ 4 ≤ (s.arrivals.filter fun a => a.x0 == 0 && a.n == 4).length + 1) ∧
    (let s := { stGang none false with arrivals := [{ arrived 1 with pair := 5 }, arrived 2, arrived 3] }
     s.arrivals.any (fun a => a.pair != 0) = true) ∧
    (let s := { stGang (some 0) false with arrivals := [arrived 0], now := 2 ^ 20 }
     s.arrivals.find? (fun x => x.core == s.arg.core && x.expired s.now) = some (arrived 0)) ∧
    (let g : Gang := { x0 := 0, n := 4, east := false, pair := 0, snz := false, members := (List.range 4).map fun k => (k, 0, gdata)
                       failed := [], flags := [], step := 1, stepEnd := 0 }
     let s := { stGang (some 0) true with gangs := [g], arg := { EvArg.none with id := 4 } }
     s.gangs.find? (fun x => x.x0 == s.arg.core && x.n == s.arg.id) = some g ∧ g.stepEnd ≤ s.now ∧
       g.members.all (fun m => (s.core m.1).traps.abort.isNone && (findOut (s.core m.1) m.2.1).isSome) = true ∧
       (ownTile (s.core 1) (8 + 2) 1).poison = []) ∧
    (let o := outOf 0 3 (.dtload 0 4 0 false (List.replicate 256 0))
     let s := stIss (st []) fun k => { k with outs := [o] }
     findOut (s.core 0) o.id = some o ∧ (s.core s.arg.core).iss.outs = [o]) := by decide

/-- Owner 1 with entries for its own TCM and for page 0x20000 in its rights table. -/
def entE (k base len : Nat) (m : Memory) : Memory :=
  writeBytes m (entAddr (st []) 1 k) (bytesOfWords (entWords { base, length := len, rights := 0x1F, colour := 0, world := 0, granter := 0 }))
def stE (l : List (Nat × Word)) : State := (st l).onMem fun m => entE 1 0x20000 0x10000 (entE 0 (tcmBase 0) 0x20000 m)
def cpRegs (n : Nat) (aux : Word) : List (Nat × Word) := [(8, near 0x8000), (9, near 0x9000), (10, W n), (11, aux)]
def copy0 : Copy :=
  { id := 0, core := 0, out := 0, owner := 1, src := near 0x8000, dst := near 0x9000, len := 64, shape := none, shapeSrc := false
    shapeDst := false, mcast := none, mgroup := none, notify := some (3, 7), wm := some 2, halo := none, splice := none, done := 0
    st := .queued }
def stCp (c : Copy) : State :=
  { (stE []).onEng (fun e => { e with copies := [c], copyCount := 1, locks := c.locks }) with
    arg := { EvArg.none with id := 0 } }.onSched 0 fun d => { d with fifo := [0] }
theorem meets_CopyCommands :
    (let s := stE (cpRegs 64 0)
     ready .e h0 fr s = true ∧ copy0.verdict (begun s) = 0 ∧ locksClash (begun s) copy0.locks = false ∧
       locksFit (begun s) 0 copy0.locks = true ∧ ((begun s).core 0).sched.fifo = [] ∧
       decodeAddr 0 (wf (near 0x8000) 0 56) = some (.tcm 0 0x8000) ∧ decodeAddr 0 (wf (near 0x9000) 0 56) = some (.tcm 0 0x9000)) ∧
    copy0.verdict (begun (st [])) = 6 ∧ locksClash (stLock (stE [])) [lockOn (tcmBase 0) 64 true] = true ∧
    (∃ s g o, decodeAddr 0 s = some (.aperture g o)) ∧
    (match readShape (begun ((stE []).onMem fun m => writeBytes m (tcmBase 0 + 0x400) (bytesOfWords shapeWords))) 0 (near 0x400) with
      | .ok _ h => decide (h = sh2)
      | _ => false) = true ∧
    (match readShape (begun (stE [])) 0 (near 0x400) with
      | .malformed _ => true
      | _ => false) = true ∧
    chk (begun (st [])) 0 0x20000 1 1 0 (fun _ _ _ => true) = true ∧ chkBad (begun (st [])) 0 (near 0x20000) 1 1 0 0x0E = true ∧
    ownRecOff 0 (near 0x400) 64 64 = some 0x400 ∧ ownRecOff 0 0x20000 64 64 = none ∧
    (let s := (stE []).onMem fun m => writeWord m (tcmBase 0 + 0x408) (W (2 ^ 53 + 64 * 2 ^ 34 + 0x9000 * 2 ^ 17 + 0x8000))
     unperfOverlap (issuer s) (tcmBase 0 + 0x400) 64 = false ∧ blockedRead (begun s) (tcmBase 0 + 0x400) 64 = none ∧
       poisonCode (begun s) (tcmBase 0 + 0x400) 64 = none ∧ wb (readWord s.mem (tcmBase 0 + 0x408)) 53 = true ∧
       wf (readWord s.mem (tcmBase 0 + 0x408)) 34 18 = 64 ∧ neighbour (begun s) 0 1 ≠ none ∧ neighbour (begun s) 0 0 = none) := by
  refine ⟨by decide, by decide, by decide, ⟨0xFD_0000_0000_0000, 0, 0, by decide⟩, ?_⟩
  decide
def pkt (kind len : Nat) : Packet :=
  { kind, dstMod := 0, srcMod := 0, dy := 0, dx := 0, sy := 0, sx := 0, owner := 1, world := 0, xid := 0, seq := 0
    addr := W (tcmBase 0 + 0x8000), len, op := 0, w32 := false, size := 3, sub := 0, val := 5, req := 0, remain := 0, group := none, data := [] }
def runs (s : State) (g : Agent) (ea : Word) (n need : Nat) (k : State → Place → Bool) : Bool :=
  match engineCheck s g ea n need with
  | (u, .ok (_, p)) => k u p
  | _ => false
def fails9 (s : State) (g : Agent) (ea : Word) (n need sub : Nat) : Bool :=
  match engineCheck s g ea n need with
  | (_, .error x) => x == sub
  | _ => false
def slu : Agent := { unit := 0, owner := 1, die := 0, core := some 0 }
theorem meets_CopiesRun :
    (let s := stCp copy0
     (s.core s.arg.core).sched.fifo = [0] ∧ copyOf s 0 = some copy0 ∧ sluiceBusy s 0 0 = false ∧ 0 ∉ s.rcv.fences.sluices ∧ s.arg.unit = 0 ∧
       sluiceBusy (stCp { copy0 with st := .running 4 }) 0 4 = true) ∧
    (let c := { copy0 with st := .running 0 }
     let s := stCp c
     copyOf s s.arg.id = some c ∧ c.done < c.len ∧ storesBefore (s.core c.core) c.out = false ∧
       storesBefore ((stWb (ent glob (.bytes [1]) false) []).core 0) 1 = true ∧
       runs s slu c.srcAt c.piece 0 (fun u p =>
         (match dstPlaces u slu c c.piece c.dsts with
          | (v, .ok [.array b]) => Memory.wf v.mem && !placeBusy v p && (blockedRead v p.lockKey c.piece).isNone && !placeBusy v (.array b) &&
              (poisonCode v p.addr c.piece).isNone
          | _ => false)) = true ∧
       fails9 (st []) slu c.srcAt c.piece 0 1 = true ∧
       (match dstPlaces { s with eng := { s.eng with locks := [lockOn (tcmBase 0 + 0x9000) 8 true, lockOn (tcmBase 0 + 0x9000) 8 true].map fun l => { l with copy := 9 } } } slu c
           c.piece c.dsts with
        | (_, .error (5, _)) => true
        | _ => false) = true) ∧
    (let o := outOf 0 3 (.copy [0] none)
     let s := fun (c : Copy) => stIss (stCp c) fun k => { k with outs := [o], opCount := 1 }
     let ok := fun (c : Copy) => decide (copyOf (s c) (s c).arg.id = some c ∧ c.splice = none ∧ c.halo = none ∧
       findOut ((s c).core 0) c.out = some o ∧ ((s c).core 0).firing = some fr ∧ fr.num = o.firing)
     ok { copy0 with st := .running 0 } = true ∧ ok { copy0 with st := .running 0, done := 64 } = true ∧ ok { copy0 with st := .stopped 5 } = true) ∧
    (let o := fun (x : Option Word) => outOf 0 3 (.watermark 0 x (.array (tcmBase 0 + 0x9000)) (near 0x9000) { d := .g 3 0, bytes := 8, signed := false, pair := false } false)
     let s := stIss (st []) fun k => { k with outs := [o none] }
     findOut (s.core 0) s.arg.id = some (o none) ∧ blockedRead s (tcmBase 0 + 0x9000) 8 = none ∧
       loadWaits s 0 (o none) (.array (tcmBase 0 + 0x9000)) 8 = false ∧ poisonCode s (tcmBase 0 + 0x9000) 8 = none ∧
       unperfOverlap (s.core 0) (tcmBase 0 + 0x9000) 8 = false ∧
       blockedRead (stCp copy0) (tcmBase 0 + 0x9000) 8 ≠ none ∧
       findOut ((stIss (st []) fun k => { k with outs := [o (some 9)] }).core 0) 0 = some (o (some 9))) := by decide
def edgeAgent : Agent := { unit := 300, owner := 1, die := 0, core := none }
def onNet (s : State) (ps : List Packet) : State := s.onEng fun e => { e with net := ps }
def rop (k : RemoteKind) (g : Option Nat) : RemoteOp :=
  { kind := k, dst := some { d := .g 3 0, bytes := 8, signed := false, pair := false }, left := 1, vals := [], faults := [], addr := 0x40, rfmt := 0
    rop := 0, members := [(0, 0x40)], group := g, lines := [] }
def stRem (k : RemoteKind) : State := stIss (st []) fun i => { i with outs := [outOf 0 3 (.remote (rop k none))], opCount := 1 }
def groupWords : List Word := [1, rect2, 0, 0, 0, 0, 0, 0]
def group0 : Group := { owner := 1, words := groupWords, inflight := 0 }
def stGrp (g : Group) (l : List (Nat × Word)) : State := (st l).onEng fun e => { e with groups := [(5, g)] }
theorem meets_RemoteOperations :
    (let s := st [(1, 0x20000), (2, 5)]
     ready .none h0 fr s = true ∧ (0x20000 : Word).toNat % 8 = 0 ∧ (0x20001 : Word).toNat % 2 ≠ 0 ∧ (issuer s).cache.injq < 32) ∧
    (let s := (st []).onCache 0 fun k => { k with injq := 32 }
     32 ≤ (issuer s).cache.injq ∧ ready .none h0 fr s = true) ∧
    (onRoster (st []) 0 0 = true ∧ onRoster (st []) 1 0 = false ∧ (pkt 1 8).dstMod = (st []).ownMod ∧ routePorts (st []) 9 = [] ∧
      routePorts ((st []).onEng fun e => { e with routes := [(9, 1)], ports := [(0, { portOf (st []) 0 with st := .active })] }) 9 = [0]) ∧
    ([(1, 0), (3, 1), (5, 3)].all fun k =>
      let p := pkt k.1 8
      let s := onNet (stE []) [p]
      (match takePkt s s.arg.id k.1 with
        | some (q, t) => decide (q = p) && runs t edgeAgent q.addr q.len k.2 (fun u a => Memory.wf u.mem && decide (a = .array (tcmBase 0 + 0x8000)) &&
            !engineBusy u a q.len (decide (k.2 ≠ 0)) && !lockedW u (tcmBase 0 + 0x8000) q.len && !fencedMem u a && (poisonCode u (tcmBase 0 + 0x8000) q.len).isNone)
        | none => false)) = true ∧
    fails9 (st []) edgeAgent (W (tcmBase 0 + 0x8000)) 8 1 2 = true ∧
    runs (stLock (stE [])) edgeAgent (W (tcmBase 0)) 8 1 (fun u _ => lockedW u (tcmBase 0) 8) = true ∧
    ([(2, RemoteKind.rld), (4, .rst), (6, .ramo)].all fun k =>
      let p := pkt k.1 8
      let s := onNet (stRem k.2) [p]
      (match takePkt s s.arg.id k.1 with
        | some (q, t) => decide (remoteOf t (pktCore q) q.xid = some (outOf 0 3 (.remote (rop k.2 none)), rop k.2 none)) && decide (q.sub = 0)
        | none => false) && (remoteOf (onNet (st []) [p]) 0 0).isNone) = true ∧
    (ownRecOff 0 (near 0x400) 64 64 = some 0x400 ∧ groupOk groupWords = true ∧ groupOk [3, 0, 0, 0, 0, 0, 0, 0] = false ∧
      (let s := (st []).onMem fun m => writeBytes m (tcmBase 0 + 0x400) (bytesOfWords groupWords)
       ((List.range 8).map fun k => readWord s.mem (tcmBase 0 + 0x400 + 8 * k)) = groupWords ∧ ready .e h0 fr s = true ∧
         groupOf (begun s) 5 = none ∧ unperfOverlap (issuer s) (tcmBase 0 + 0x400) 64 = false) ∧
      groupOf (begun (stGrp group0 [])) 5 = some group0 ∧ groupOf (stGrp { group0 with inflight := 2 } []) 5 = some { group0 with inflight := 2 } ∧
      groupOf (stGrp { group0 with owner := 4 } []) 5 = some { group0 with owner := 4 }) ∧
    (decodeAddr 0 0xFD_0050_0000_0010 = some (.aperture 5 0x10) ∧
      (match apertureCheck (begun (stGrp { group0 with words := 0x01 :: groupWords.drop 1 } [])) 0 5 0x10 8 true false,
         apertureCheck (begun (stGrp group0 [])) 0 5 0x10 8 false false, apertureCheck (begun (st [])) 0 5 0x10 8 true false with
       | .ok _, .ok _, .error 0x0E => true
       | _, _, _ => false) = true) ∧
    (let s := { stRem .rld with now := 400000 }
     findOut (s.core 0) s.arg.id = some (outOf 0 3 (.remote (rop .rld none))) ∧ (outOf 0 3 (.remote (rop .rld none))).cyc + 400000 ≤ s.now) := by
  decide

def desig3 : Word := 0x3_0000_0000
def job0 : LodeJob :=
  { core := 0, out := 0, owner := 1, base := W (tcmBase 0 + 0x400), count := 1, ch := 3, lock := 0, next := 0, pending := [], returning := 0
    noted := none }
def pend0 (second : Bool) (alt : Option Word) : LodePend :=
  { xid := 2 ^ 31, entry := 0, second, addr := W (tcmBase 0 + 0x8000), alt, words := [9, 0, 0, 0, 0, 0, 0, 0], at_ := 0 }
def onLode (s : State) (u : Nat) (j : LodeJob) : State := s.onEng fun e => { e with lodes := [(u, { jobs := [j], seq := 0 })] }
def withPkt (s : State) (p : Packet) (k : Packet → State → Bool) : Bool :=
  match takePkt (onNet s [p]) 0 p.kind with
  | some (q, t) => decide (q = p) && k q t
  | none => false
/-- A record of TCM at offset 0x400. -/
def recIn (s : State) (ws : List Word) : State := s.onMem fun m => writeBytes m (tcmBase 0 + 0x400) (bytesOfWords ws)
def rdxWordsOk : List Word := [W (tcmBase 0 + 0x8000), W (tcmBase 0 + 0x9000), 8, W (2 ^ 14), 0, 0, 0, 0]
theorem meets_RecordsAndTransfers :
    (let s := stIO .unbound fr
     ready .e h0 fr s = true ∧ ownRecOff 0 (near 0x400) 32 (32 * 1) = some 0x400 ∧ recvChannel (begun s) 0 3 = true ∧ recvChannel (begun s) 0 4 = false ∧
       rangeVerdict (begun (stE [])) 0 1 (near 0x400) 32 0 false = 0 ∧ rangeVerdict (begun (st [])) 0 1 (near 0x400) 32 0 false ≠ 0 ∧
       locksClash (begun s) [lockOn (tcmBase 0 + 0x400) 32 false] = false ∧
       locksClash (stLock s) [{ lockOn (tcmBase 0) 32 false with copy := 1 }] = true ∧ locksFit (begun s) 0 [lockOn (tcmBase 0 + 0x400) 32 false] = true ∧
       locksFit { begun s with eng := { Engines.reset with locks := List.replicate 32 (lockOn (tcmBase 0 + 0x400) 32 false) } } 0
         [lockOn (tcmBase 0 + 0x400) 32 false] = false) ∧
    (let s := onLode (recIn (stE []) [W (tcmBase 0 + 0x8000), W (2 ^ 63) + desig3, 0, 0]) 200 job0
     s.arg.id < 4 ∧ 200 ∉ s.rcv.fences.lodes ∧ (lodeOf s 200).jobs.find? (fun x => decide (x.next < x.count)) = some job0 ∧
       storesBefore (s.core 0) 0 = false ∧ placeBusy s (.array (tcmBase 0 + 0x400)) = false ∧ poisonCode s (tcmBase 0 + 0x400) 32 = none ∧
       lodeDest (readWord s.mem (tcmBase 0 + 0x408)) = some desig3 ∧ lodeDest 0 = none ∧
       runs s { unit := 200, owner := 1, die := 0, core := some 0 } (W (tcmBase 0 + 0x8000)) 64 0 (fun t p =>
         decide (p = .array (tcmBase 0 + 0x8000)) && !engineBusy t p 64 false && (poisonCode t (tcmBase 0 + 0x8000) 64).isNone) = true ∧
       fails9 (st []) { unit := 200, owner := 1, die := 0, core := some 0 } (W (tcmBase 0 + 0x8000)) 64 0 1 = true) ∧
    (let e := pend0 false (some desig3)
     let j := { job0 with next := 1, pending := [e] }
     withPkt (onLode (stIss (st []) fun k => { k with outs := [outOf 0 3 .lode] }) 200 j) { pkt 8 0 with xid := 2 ^ 31 } (fun p t =>
       decide (findPend t p.xid = some (200, j, e) ∧ findJob t 0 0 = some (200, j))) = true ∧
       findPend (st []) (2 ^ 31) = none ∧ findJob (onLode (st []) 200 { job0 with next := 1 }) 0 0 = some (200, { job0 with next := 1 })) ∧
    (let s := stIss (st []) fun k => { k with outs := [outOf 0 3 (.send 5)] }
     withPkt s (pkt 8 0) (fun p t => decide (sendOf t (pktCore p) p.xid = some (outOf 0 3 (.send 5), 5) ∧ p.xid < 2 ^ 31)) = true ∧
       sendOf (st []) 0 0 = none) ∧
    (let e := edge .lode (rec8 9)
     let s := onLode (stIO .unbound fr) 200 { job0 with next := 1, returning := 1 }
     let s := stEdge (s.onSched 0 fun d => { d with chans := [(3, { chanD with task := false, inputOf := some 0 })] }) e
     (match placeEdge s s.arg.core s.arg.id .lode with
      | some (t, x) => decide (x = e) && (findJob t s.arg.core x.ref_).isSome
      | none => false) = true) ∧
    (let p := { pkt 7 64 with addr := desig3, data := bytesOfWords [0x10000, 0, 0, 0, 0, 0, 0, 0] }
     withPkt (stChan chanD []) p (fun p t => decide (coreOn t (coreAt p.dx p.dy) = true ∧ 0 ∉ t.rcv.fences.cores ∧ chanOf t 0 3 = some chanD ∧
       t.live chanD.owner = true ∧ t.tearing chanD.owner = false ∧ chanD.owner = p.owner ∧ chanD.room ≠ 0 ∧ admitFail chanD.codeb 0x10000 = none) &&
       (chanOf (st []) 0 3).isNone && !coreOn { st [] with rcv := { Recovery.reset with fences := { (st []).rcv.fences with cores := [1] } } } 99999) = true) ∧
    (let s := recIn (st []) rdxWordsOk
     ready .e h0 fr s = true ∧ unperfOverlap (issuer s) (tcmBase 0 + 0x400) 64 = false ∧ blockedRead (begun s) (tcmBase 0 + 0x400) 64 = none ∧
       poisonCode (begun s) (tcmBase 0 + 0x400) 64 = none ∧ rdxMalformed (begun s) 0 rdxWordsOk = false ∧ (issuer s).cache.injq < 32 ∧
       rdxMalformed (begun s) 0 (List.replicate 8 0) = true ∧ ((List.range 8).map fun k => readWord s.mem (tcmBase 0 + 0x400 + 8 * k)) = rdxWordsOk) ∧
    withPkt (stE []) { pkt 9 64 with srcMod := 4, data := bytesOfWords rdxWordsOk } (fun p t =>
      decide (p.srcMod ≠ t.ownMod) && (match rdxRead t p (W (tcmBase 0 + 0x8000)) (rdxPieces (tcmBase 0 + 0x8000) (tcmBase 0 + 0x9000) 2 0 8) with
        | some (_, bs, none) => decide (bs.length = 8)
        | _ => false)) = true ∧
    (let p := { pkt 10 8 with val := W (tcmBase 0 + 0x9000), data := [1, 2, 3, 4, 5, 6, 7, 8], remain := 1, req := 2 ^ 32 }
     withPkt (stE []) p (fun p t => decide (p.len ≠ 0 ∧ p.remain ≠ 0 ∧ wf p.req 32 2 = 1) &&
       (match rdxWords t p none false p.val (p.len / 8) (p.data.take p.len) with
        | some (u, none) => decide (readByte u.mem (tcmBase 0 + 0x9001) = 2)
        | _ => false)) = true) ∧
    runs (stE []) edgeAgent (W (tcmBase 0 + 0x9000)) 8 1 (fun u p => Memory.wf u.mem && decide (p = .array (tcmBase 0 + 0x9000)) && !placeBusy u p &&
      !lockedW u (tcmBase 0 + 0x9000) 8 && !fencedMem u p) = true ∧
    ([11, 12].all fun k => withPkt (stRem .rdx) (pkt k 0) fun p t =>
      decide (remoteOf t (pktCore p) p.xid = some (outOf 0 3 (.remote (rop .rdx none)), rop .rdx none))) = true := by decide

/-- The hypothesis RecordAt, computed. -/
def recAt (s : State) (ea : Word) (k : State → List Word → Bool) : Bool :=
  match checkAccess s 0 ea 64 64 0 with
  | .ok v _ p =>
    let w := v.onCache 0 fun c => { c with wmWait := none }
    !bufBlocks (unperformed (v.core 0)) p.addr 64 (v.core 0).iss.opCount && !placeBusy v p && !recordBusy (v.core 0) p &&
      (v.core 0).cache.wmWait.isNone && (blockedRead v p.lockKey 64).isNone && (poisonCode w p.addr 64).isNone &&
      k (readTouch w p (w.classOf (ownerNow (w.core 0)))) (wordsLe 8 (blockAt w 0 ea))
  | _ => false
theorem recAt_record (s : State) (ea : Word) (ws : List Word) (h1 : recAt s ea (fun _ x => decide (x = ws)) = true) :
    ∃ u, RecordAt s 0 ea u ws := by
  unfold recAt at h1
  split at h1
  · rename_i v l p h
    simp only [Bool.and_eq_true, Bool.not_eq_true', decide_eq_true_eq] at h1
    obtain ⟨⟨⟨⟨⟨⟨a, b⟩, c⟩, d⟩, e⟩, f⟩, g⟩ := h1
    exact ⟨_, v, l, p, h, a, b, c, by simp [Option.isNone_iff_eq_none.1 d], Option.isNone_iff_eq_none.1 e,
      Option.isNone_iff_eq_none.1 f, rfl, g.symm⟩
  · cases h1
def spawnRegs (w0 w1 : Word) : List (Nat × Word) := [(8, w0), (9, w1)]
def chanRecWords (off : Nat) : List Word := [W (3 * 2 ^ 16 + 2 * 2 ^ 24), W off, 0, 0, 0, 0, 0, 0]
theorem meets_RecordsAndChannels :
    ready .e h0 fr (st []) = true ∧ desig desig3 = some { ch := 3, core := 0, mod := 0 } ∧ desig (W (2 ^ 63)) = none ∧
    (18 ≤ wf (W (18 * 2 ^ 58)) 58 5 ∧ 6 ≤ wf (6 : Word) 0 3 ∧ (wf (0x10000 : Word) 0 6 = 0 ∧ 64 * wf (0x10000 : Word) 6 50 < 0xF0_0000_0000_0000) ∧ admitted fr.codeb 0x10000 = true ∧
      admitted (stOf (coreOf { fr with codeb := W (2 ^ 40) } []) |> fun s => (s.core 0).firing.map (·.codeb) |>.getD 0) 0x10000 = false ∧
      (issuer (st [])).sched.deque.length < 64) ∧
    recAt (begun (recIn (stE []) (chanRecWords 0x2000))) (near 0x400) (fun v ws => ws == chanRecWords 0x2000 &&
      chanRec v ws true == some (0, 3, 4, 0x2000, 0, 0) && (chanOf v 0 3).isNone && placeRing (v.core 0) 0x2000 4 == some 0x2000 &&
      ownsTcm v 1 0 0x2000 256 [1] && !ownsTcm (st []) 1 0 0x2000 256 [1] && (chanOf (stChan chanD []) 0 3).isSome &&
      (placeRing (v.core 0) 0x1FFC0 4).isNone && (chanRec v [0, 0, 0, 0, 0, 0, 0, 0] true).isNone) = true ∧
    (let s := stIO .unbound fr
     localDesig (begun s) desig3 = some { ch := 3, core := 0, mod := 0 } ∧ localDesig (begun s) 1 = none ∧
       (chanOf (begun s) 0 3).map (fun C => (C.owner, C.inputOf.isSome)) = some (1, true) ∧
       (chanOf (begun s) 0 4).map (fun C => (C.owner, C.inputOf.isSome, C.items.length, C.reservedSlots, C.task)) = some (1, false, 0, 0, false) ∧
       chanOf (begun s) 0 7 = none ∧ (chanOf (begun (stChan { chanD with owner := 9 } [])) 0 3).map (·.owner) = some 9 ∧
       (wf (0x28 : Word) 9 55 = 0 ∧ 1 ≤ wf (0x28 : Word) 0 4 ∧ wf (0x28 : Word) 0 4 ≤ 14 ∧ 1 ≤ wf (0x28 : Word) 4 5) ∧ wf (7 : Word) 16 48 = 0) := by
  decide

def bindWords (cores : Word) (stLen : Nat) (outs : Word) : List Word :=
  [0x20000, W (2 ^ 50 + 0x800), W (2 ^ 42 + 8 * 2 ^ 24) + cores, W (stLen * 2 ^ 32 + 0x1000), 0, 0x8103, outs, 0]
def stBind (ws : List Word) : State :=
  (recIn (stE []) ws).onSched 0 fun d => { d with chans := [(3, { chanD with task := false })] }
theorem meets_ActorsAndStealing : ready .e h0 fr (stBind []) = true ∧
    recAt (begun (stBind (bindWords 0 64 0))) (near 0x400) (fun v ws => ws == bindWords 0 64 0 && bindOk v ws && bindCore ws == 0 &&
      freeSlot (v.core 0) == some 0 && bindIn ws 0 == some (3, 1) && codeRights v 0 1 0x20000 (W (2 ^ 50 + 0x800)) &&
      regionRights v 0 1 (bindActor 1 ws) && regionsFit (v.core 0) (bindActor 1 ws) && admitted (W (2 ^ 50 + 0x800)) 0x20000 &&
      !codeRights (st []) 0 1 0x20000 (W (2 ^ 50 + 0x800)) && !bindOk v (List.replicate 8 0) && !admitted (W (2 ^ 50 + 0x900)) 0x20000) = true ∧
    (freeSlot ((st []).onSched 0 (fun d => { d with actors := (List.range 16).map fun k => (k, actor0) }) |>.core 0) = none) ∧
    (let s := stA actor0 []
     localDesig (begun s) 0 = some { ch := 0, core := 0, mod := 0 } ∧ actorOf ((begun s).core 0) 0 = some actor0 ∧ inFlight (begun s) 0 0 = true ∧
       inFlight ((st []).onSched 0 fun d => { d with actors := [(0, actor0)] }) 0 0 = false ∧ actorOf ((begun s).core 0) 1 = none ∧
       localDesig (begun s) (W (16 * 2 ^ 32)) = some { ch := 16, core := 0, mod := 0 }) ∧
    scopeOk rect2 = true ∧ scopeOk (1 <<< 40) = false := by decide

def spWords (kind : Nat) (bindAt : Word) : List Word := [W (kind * 2 ^ 16 + 5), bindAt, desig3, W (4 * 2 ^ 32), 0x10000, 7, 0, 0]
def marker0 (kind : Fin 3) (stage : Nat) (b : List Word) : Marker :=
  { num := 1, issuer := 0, kind, stage, bind := b, status := W (4 * 2 ^ 32), shand := 0x10000, sword := 7, owner := 1, outcome := none, done := false
    where_ := none }
/-- An actor of core 0 at slot 0, idle, whose input 0 is channel 3 and output 0 is channel 4; channel 3 holds the items. -/
def stPerf (a : Actor) (its : List ChItem) : State :=
  (stE []).onSched 0 fun d => { d with
    actors := [(0, a)]
    chans := [(3, { chanD with task := false, inputOf := some 0, items := its }), (4, { chanD with task := false })]
    splices := [{ num := 1, state := 1, outcome := 0 }] }
/-- Input 0 is channel 9; output 0 goes to core (0, 0), channel 0, rate 1. -/
def newBind (core : Word) : List Word :=
  [0x20000, W (2 ^ 50 + 0x800), W (2 ^ 42 + 8 * 2 ^ 24) + core, W (64 * 2 ^ 32 + 0x1000), 0, 0x8109, W (2 ^ 31 + 2 ^ 24), 0]
theorem meets_Splices :
    (let s := (recIn (stIO .unbound fr) (spWords 1 0)).onSched 0 fun d => { d with splices := [{ num := 7, state := 1, outcome := 0 }] }
     ready .e h0 fr s = true ∧ recAt (begun s) (near 0x400) (fun v ws => ws == spWords 1 0 && spliceOk ws && spliceBindOk v 1 [] &&
       spliceEntry (v.core 0) desig3 == some (0, 3) && (desigLocal (W (4 * 2 ^ 32))).isSome && decide (undelivered (v.core 0).sched < 16) &&
       (chanOf v 0 3).map (fun C => (C.owner, C.room != 0)) == some (1, true) && (chanOf v 0 4).map (·.owner) == some 1 && !spliceOk []) = true ∧
       (s.core 0).sched.splices.find? (·.num == wf (7 : Word) 0 32) = some { num := 7, state := 1, outcome := 0 }) ∧
    (spliceBindOk (stE []) 0 (newBind 0) = true ∧ spliceBindOk (stE []) 2 (bindWords 0 0 0) = true ∧ spliceBindOk (stE []) 0 [] = false ∧
      spliceEntry (issuer (stIO .unbound frA)) (W (2 ^ 63)) = some (0, 4) ∧
      undelivered { (issuer (st [])).sched with splices := List.replicate 16 { num := 0, state := 1, outcome := 0 } } = 16) ∧
    (let s := stPerf actorIO []
     (chanOf s 0 4).map (fun C => (C.inputOf, C.task)) = some (none, false) ∧ inputZeroRate s 0 3 = some 1 ∧ (marker0 1 0 []).outcome = none ∧
       dataCount [rec8 0] % 2 = 1) ∧
    (let e := edge .marker (.marker (marker0 1 0 []))
     edgeFind (stEdge (st []) e) 0 3 .marker = some e ∧ (chanOf (stEdge (stIO .unbound fr) e) 0 3).map (fun C => decide (C.room = 0)) = some false) ∧
    (let s := stIss (st []) fun k => { k with outs := [outOf 0 3 (.splice 5 1)] }
     ((s.core 0).iss.outs.find? fun o => match o.op with
       | .splice _ n => n == 1
       | _ => false).map (·.op) = some (.splice 5 1)) ∧
    (let e := edge .status (rec8 0x10000)
     let s := stEdge (stChan chanD []) { e with ref_ := 1 }
     let s := s.onSched 0 fun d => { d with splices := [{ num := 1, state := 3, outcome := 0 }] }
     (match placeEdge s s.arg.core s.arg.id .status with
      | some (t, x) => (t.core (x.ref_ / 2 ^ 32)).sched.splices.any fun y => y.num == x.ref_ % 2 ^ 32
      | none => false) = true) ∧
    ([(1 : Fin 3), 0, 2].all fun kind =>
      let m := marker0 kind 0 (newBind 0)
      let its := [ChItem.marker m]
      let s := stPerf actorIO its
      decide (actorOf (s.core 0) 0 = some actorIO ∧ vget actorIO.ins none 0 = some (3, 1) ∧ actorIO.perf = none ∧ m.stage = actorIO.stage ∧
        inFlight s 0 0 = false ∧ mget? (s.core 0).sched.armed 0 = none ∧ markerToPerform actorIO its = some m ∧ actorIO.splicing = none) &&
      (outZero s actorIO).isSome && freeSlot (s.core 0) == some 1 && codeRights s 0 1 0x20000 (W (2 ^ 50 + 0x800)) &&
      (fitNew s 0 (bindActor 1 (newBind 0)) [(9, 4)]).isSome && (newSlotFail s 0 1 (bindActor 1 (newBind 0))).isNone && actorIO.stLen == 0) = true ∧
    (markerToForward actorIO [.marker (marker0 1 6 [])] = some (marker0 1 6 []) ∧ (chanOf (stPerf actorIO []) 0 4).map (fun D => decide (D.room = 0)) = some false ∧
      outZero (stPerf actor0 []) actor0 = none ∧ bindCore (newBind 1) = 1 ∧ newSlotFail (st []) 0 1 (bindActor 1 (newBind 0)) = some 3) := by decide

def frS : Firing := { fr with sup := true }
/-- `stE` in the supervisor state. -/
def stS (l : List (Nat × Word)) : State := (stE l).putCore 0 (coreOf frS l)
def onOwners (s : State) (f : Owners → Owners) : State := { s with owners := f s.owners }
def ent1 : RtEnt := { base := 0x20000, length := 0x10000, rights := 0x1F, colour := 0, world := 0, granter := 0 }
def regionRec (state : Nat) (m : Memory) : Memory :=
  writeWord (writeWord (writeWord m (regionAddr 0) 0x40000) (regionAddr 0 + 8) 0x10000) (regionAddr 0 + 16) (W (state * 2 ^ 16 + 2 ^ 32))
def stReg (state : Nat) : State := (stS []).onMem fun m => regionRec state (writeWord m (rightsBase + 16) (W (2 ^ 63 + 2 * 2 ^ 40 + 0x150000)))
/-- Owner 2, in the same world, LIVE with an empty table of 4 entries. -/
def stTwo : State := (stE []).onMem fun m => writeWord m (rightsBase + 16) (W (2 ^ 63 + 2 * 2 ^ 40 + 0x150000))
theorem meets_RightsRegionsAndWays :
    (ready .e h0 fr stTwo = true ∧ ready .e h0 frS (stS []) = true ∧ supState (issuer stTwo) = false ∧ supState (issuer (stS [])) = true) ∧
    (let u := begun stTwo
     u.live 2 = true ∧ u.tearing 2 = false ∧ u.worldOf 2 = u.worldOf 1 ∧ u.live 3 = false ∧ entKind 0x20000 = some 0 ∧ entKind 0x2FFFF = some 0 ∧
       coveredBy [ent1] 0x20000 0x10000 (3 ||| 16) = true ∧ coveredBy [ent1] 0x30000 0x10000 1 = false ∧
       (tableEnts u 1).any (fun e => e.2 == ent1) = true ∧ tableEnts u 2 = [] ∧ firstEmpty u 2 = some 0 ∧ Memory.wf u.mem = true ∧ wf (2 : Word) 0 16 ≠ 0) ∧
    (let v := stTwo.onMem fun m => writeBytes m (entAddr stTwo 2 0) (bytesOfWords (entWords { ent1 with granter := 1 }))
     (tableEnts v 2) = [(0, { ent1 with granter := 1 })] ∧ ent1.within 0x20000 0x10000 = true ∧ ent1.within 0x20000 0x8000 = false) ∧
    (let u := begun (stS [])
     u.capOf 1 ≤ 255 ∧ 1 < u.capOf 1 ∧ u.live 1 = true ∧ tableEnt u 1 1 = some ent1 ∧ lowers ent1 none = true ∧ lowers ent1 (some ent1) = false ∧
       imageOf (entWords ent1) = .ent ent1 ∧ imageOf [1, 0, 0, 0] = .bad ∧ imageOf [0, 0, 0, 0] = .empty ∧ ownRecOff 0 (near 0x400) 32 32 = some 0x400 ∧
       ent1.world = 0) ∧
    (let u := stReg 1
     (listedRegions u) = [(0, { base := 0x40000, len := 0x10000, colour := 0, adv := 0, state := 1, holder := 1 })] ∧ Memory.wf u.mem = true ∧
       ((listedRegions u).filter fun x => x.2.meets 0x40000 0x10000).length = 1 ∧ freeRegion u = some 1 ∧ firstEmpty u 1 = none ∧ firstEmpty u 2 = some 0 ∧ u.live 2 = true ∧
       ((listedRegions (stReg 2)).map fun x => (x.1, x.2.state)) = [(0, 2)] ∧ ((listedRegions (stReg 3)).map fun x => (x.1, x.2.state)) = [(0, 3)] ∧
       listedRegions (stS []) = []) ∧
    (wf (0xF0 : Word) 16 48 = 0 ∧ wf (719 + 8 * 2 ^ 16 : Word) 10 6 = 0 ∧ wf (719 + 8 * 2 ^ 16 : Word) 20 44 = 0) ∧
    (let j := fun b => ({ n := 0, owner := none, ents := none, core := none, out := 0, dropped := b, pinv := true, waits := [], stores := [] } : DropJob)
     (({ st [] with drops := [j false] } : State).drops.find? (·.n == 0)) = some (j false) ∧ DropJob.ended { st [] with drops := [j true] } (j true) = true) ∧
    (let s := onOwners (stIss (stE []) fun k => { k with outs := [outOf 0 3 .lode], opCount := 1 }) fun o => { o with tearBusy := true, tearOwner := 1 }
     s.owners.tearBusy = true ∧ drained (drainOwner s 1) 1 = false ∧
       drained (drainOwner (onOwners (stS []) fun o => { o with tearBusy := true, tearOwner := 4 }) 4) 4 = true) ∧
    (onOwners (st []) fun o => { o with pinvBusy := true }).owners.pinvBusy = true ∧ (st []).owners.tearBusy = false ∧
    (onOwners (st []) fun o => { o with measured := [3] }).owners.measured.contains 3 = true := by decide

def noParts : Parts := { tables := true, tiles := false, firing := false }
/-- An area with sections that are zeros: the header that R378 gives it. -/
def stArea : State := stS []
def savedArea : List Byte := bytesOfWords [W (2 ^ 63 + 1), 2240, W (crc32c (List.replicate 2176 0)), 0, 0, 0, 0, 0] ++ List.replicate 2176 0
def areaAtB (s : State) (ea : Word) (blocks : Nat) : Bool :=
  match checkRun s 0 ea 0 blocks with
  | .ok u => !matrixBusy (u.core 0) && !areaBusy u 0 ea blocks false && !runBusy u 0 ea blocks && (runPoison u 0 ea blocks).isNone
  | _ => false
theorem meets_SavesAndPreemption :
    (ready .e h0 frS (stS []) = true ∧ supState (issuer (stS [])) = true ∧ ready .e h0 fr (st []) = true ∧ supState (issuer (st [])) = false ∧
      ready .e h0 frH (stH []) = true ∧ frH.handler = true ∧ frS.handler = false) ∧
    (localDesig (begun (stS [])) 0 = some { ch := 0, core := 0, mod := 0 } ∧ localDesig (begun (stS [])) 1 = none ∧
      preemptBusy ((begun (stS [])).core 0).sched = false ∧
      preemptBusy { ((begun (stS [])).core 0).sched with preempt := some (0x40000, 1) } = true) ∧
    (let u := begun (stS [])
     (near 0x4000).toNat % 64 = 0 ∧ noParts.length = 2240 ∧
       (match checkRun u 0 (near 0x4000) 1 35 with
        | .ok v => !matrixBusy (v.core 0) && !areaBusy v 0 (near 0x4000) 35 true && (saveArea v 0 1 (near 0x4000) noParts).2
        | _ => false) = true ∧ areaAtB u (near 0x4000) 1 = true ∧ areaAtB u (near 0x4000) 35 = true) ∧
    (let u := begun ((stS []).onEng fun e => { e with locks := [lockOn (tcmBase 0 + 0x4000) 64 true] })
     (saveArea u 0 1 (near 0x4000) noParts).2 = false) ∧
    (let w := fun k => (wordsLe 8 (savedArea.take 64)).getD k 0
     wb (w 0) 63 = true ∧ (w 1).toNat = (Parts.ofCode (wf (w 0) 0 3)).length ∧ (Parts.ofCode (wf (w 0) 0 3)).has noParts = true) ∧
    (let v := stS []
     decodeAddr 0 (wf (near 0x4000) 0 56) = some (.tcm 0 0x4000) ∧ 0x4000 + noParts.length ≤ 2 ^ 17 ∧ Memory.wf v.mem = true ∧
       (saveSections v 0 noParts).length + 64 = noParts.length) ∧
    noParts.has { noParts with tables := false } = true ∧ noParts.has { noParts with firing := true } = false ∧
    (let T : DTable := { st := .c4, owner := 1, ents := List.replicate 16 0 }
     T.owner < 2 ^ 16 ∧ T.ents.length = 16) ∧
    (let s := (st []).onSched 0 fun d => { d with preemptIn := [(0x40000, 1)] }
     (s.core s.arg.core).sched.preemptIn = [(0x40000, 1)] ∧ (s.core s.arg.core).sched.preempt = none ∧ ((st []).core 0).sched.preemptIn = []) := by
  decide
set_option exponentiation.threshold 600 in
theorem meets_SavesAndPreemption_crc : crc32c (savedArea.drop 64) = wf ((wordsLe 8 (savedArea.take 64)).getD 2 0) 0 32 := by decide +kernel

def errAt (bank code : Nat) (core : Option Nat) (unit : Nat) (addr : Option Nat) : ErrInfo :=
  { bank, code, addr, core, unit, synd := 0, misc0 := 0, misc1 := 0 }
def testIn (p : TestPhase) : State :=
  { st [] with rcv := { Recovery.reset with tests := [(0, { stbuf := 0x100000, queue := [(0, false)], phase := p })] }
               cores := [], now := 600000 }
theorem meets_ErrorsBanksAndTests :
    (let r : McRec := { bank := 5, code := 3, cls := 1, owner := 1, addr := some 64, core := none, unit := 0, fenced := false, stest := false
                        poison := true, synd := 0, misc0 := 0, misc1 := 0 }
     ¬ (wb (vget ((st []).bank r.bank) 0 0) 63 = true) ∧ wb (vget (((st []).mcLog r).bank 5) 0 0) 63 = true ∧
       r.cls ≤ wf (vget (((st []).mcLog r).bank 5) 0 0) 60 2 ∧ r.bank < 2 ^ 16 ∧ r.code < 2 ^ 8 ∧ r.owner < 2 ^ 16) ∧
    coreOn (st []) 0 = true ∧ ((st []).core 0).firing.isSome = true ∧
    ((errAt 382 15 none 0 none).bank % 512 = 382 ∧ (errAt 0 8 (some 0) 0 none).core.all (coreOn (st [])) = true ∧
      poisonable (st []) 3 (tcmBase 0) = true ∧ poisonable (st []) 5 0x40 = true ∧ (st []).homes.zp = []) ∧
    (let u := begun (stS [])
     ready .none h0 frS (stS []) = true ∧ localDesig u 0 = some { ch := 0, core := 0, mod := 0 } ∧ tusOf 0 ∉ u.rcv.fences.tussocks ∧ (testOf u 0).stbuf = 0 ∧
       (testOf (testIn .idle) 0).stbuf ≠ 0 ∧ (0, false) ∈ (testOf (testIn .idle) 0).queue ∧ 512 * 4 + 385 = 2433) ∧
    (let s := testIn .quiesce
     (testOf s s.arg.unit).queue = [(0, false)] ∧ (testOf s s.arg.unit).phase = .quiesce ∧ quiesced s 0 = true ∧ bufOk s (testOf s 0) = true ∧
       Memory.wf s.mem = true ∧ quiesced (st []) 0 = false) ∧
    ((testOf (testIn (.pattern 600000)) 0).phase = .pattern 600000 ∧ 600000 ≤ (testIn (.pattern 600000)).now) ∧
    ((testOf (testIn .restore) 0).phase = .restore ∧ bufOk (testIn .restore) (testOf (testIn .restore) 0) = true) := by decide

def onBoot (s : State) (f : Boot → Boot) : State := { s with boot := f s.boot }
def launchW (w0 w1 : Word) : List Word := [w0, w1, 0, 0, 0, 0, 0, 0]
def launch0 (w0 w1 : Word) (sup : Bool) : Launch := { words := launchW w0 w1, owner := 1, sup }
theorem meets_StartAndHost :
    (onBoot (st []) fun b => { b with st := .rom }).boot.st = .rom ∧ (onBoot (st []) fun b => { b with st := .firmware }).boot.st = .firmware ∧
    imageOk (st []) [] = false ∧ (st []).modnum = none ∧ { st [] with modnum := some 3 }.modnum.isSome = true ∧
    (st []).boot.powerOn + 3600000000000 ≤ { st [] with now := 3600000000000 }.now ∧
    (onBoot (st []) fun b => { b with postDue := true }).boot.postDue = true ∧
    (0x1000 % 8 = 0 ∧ 0x1000 < (st []).hbmEnd ∧ Memory.wf (st []).mem = true ∧ (st []).homes.zp.contains (0x1000 / 64) = false ∧ coreOn (st []) 0 = true) ∧
    ({ st [] with hostown := 1 }.hostown ≠ 0 ∧ (st []).hostown = 0 ∧ wf ((launchW 0x10000 0).getD 1 0) 54 4 ≠ 15) ∧
    (let s := (st []).onSched 0 fun d => { d with windowq := [launch0 0x10000 0 false] }
     (s.core 0).sched.windowq = [] ++ launch0 0x10000 0 false :: [] ∧ (s.core 0).sched.launchq.length < 16 ∧ admitted 0 0x10000 = true ∧
       (wf (0x10000 : Word) 0 3 < 6 ∧ wf (0x10000 : Word) 3 3 = 0 ∧ 64 * wf (0x10000 : Word) 6 50 < 0xF0_0000_0000_0000) ∧ 6 ≤ wf (6 : Word) 0 3) ∧
    (let s := (st []).onSched 0 fun d => { d with windowq := [launch0 0x10000 0 false], launchq := List.replicate 16 (launch0 0x10000 0 false) }
     ¬ (s.core 0).sched.launchq.length < 16) := by decide

def onWalk (s : State) (f : Walker → Walker) : State := s.onWalker 0 f
def walk0 : Walk := { page := 0x20000, lvl := 0, table := 0x300000, cores := [0] }
def stWalk (pte : Word) : State := (onWalk (st []) fun k => { k with active := [walk0] }).onMem fun m => writeWord m (pteAddr 0x300000 0 0x20000) pte
def shoot0 (kind : Nat) : Shootdown := { kind, first := 0x20000, count := 0x10000, waiting := [] }
/-- Tables for page 0x20000 whose leaf is migration-locked. -/
def stLeaf : State := (onWalk (st []) fun k => { k with ptbase := 0x300000, sdva := 0x20000, sdpa := 0x500000 }).onMem fun m =>
  let m := (List.range 3).foldl (fun m j => writeWord m (pteAddr (0x300000 + 0x2000 * j) (3 - j) 0x20000) (W (0x302000 + 0x2000 * j + 1))) m
  writeWord m (pteAddr 0x306000 0 0x20000) (W (0x200000 + 8 + 4 + 2 + 1))
def port0 (x : PortSt) : Port := { portOf (st []) 0 with st := x }
def key0 : LinkKey := { key := 1, salt := 2, count := 0 }
def onP (q : Port) : State := (st []).onEng fun e => { e with ports := [(0, q)] }
def trainFlit : List Byte := bytesOfWords [W (13 * 2 ^ 56), 1, 0, 0, 0, 0, 0, 0]
def frameOf (flit : List Byte) (good : Bool) : Frame :=
  { flit, gtag := List.replicate 16 0, fseq := 0, ack := 0, fcrc := frameCrc flit (List.replicate 16 0) 0 0 + (if good then 0 else 1) }
theorem meets_WalkersAndPorts :
    ((stWalk 0).walker 0).active[0]? = some walk0 ∧ cachedEntry ((stWalk 0).walker 0) 0 0x20000 = none ∧
    poisonCode (stWalk 0) (pteAddr 0x300000 0 0x20000) 8 = none ∧ wb (readWord (stWalk 0).mem (pteAddr 0x300000 0 0x20000)) 0 = false ∧
    pteOf (st []) 3 1 0x20000 = .leaf { page := 0, size := 2 ^ 26, frame := 0, c := false, key := 0, mlock := false } false ∧
    pteOf (st []) 0x200013 0 0x20000 = .leaf { page := 0x20000, size := 2 ^ 16, frame := 0x200000, c := false, key := 0, mlock := false } true ∧
    pteOf (st []) 0x4001 1 0x20000 = .next 0x4000 ∧ pteOf (st []) 1 0 0x20000 = .malformed ∧ Memory.wf (stWalk 0x200013).mem = true ∧
    (let s := (st []).onMem id
     { s with homes := { s.homes with zp := [7] } }.homes.zp.contains 7 = true) ∧
    (let s := onWalk (st []) fun k => { k with shoot := some (shoot0 0) }
     (s.walker 0).shoot = some (shoot0 0) ∧ (shoot0 0).waiting = [] ∧ ((st []).walker 0).shoot = none) ∧
    (wb (W (2 ^ 63 + 2)) 63 = true ∧ wf (W (2 ^ 63 + 2)) 0 2 = 2 ∧ wf (W (2 ^ 63 + 2)) 16 16 = 0 ∧ (lockedLeaf stLeaf 0 0x20000).isSome = true ∧
      Memory.wf stLeaf.mem = true ∧ 0x500000 % 65536 = 0) ∧
    (let s := onWalk (st []) fun k => { k with shoot := some (shoot0 2) }
     (switching s 0x20000).isSome = true ∧ heldIn s 0x20000 0x10000 = [] ∧ switching s 0x40000 = none ∧
       heldIn { s with homes := { s.homes with held := [{ core := 0, seq := 0, va := 0x20008 }] } } 0x20000 0x10000 ≠ []) ∧
    ([PortSt.down, .train, .auth, .active, .fenced].all fun x => decide ((portOf (onP (port0 x)) 0).st = x)) = true ∧
    (let q := { port0 .active with tx := some key0, txq := [(pkt 1 8, none)] }
     (portOf (onP q) 0).tx = some key0 ∧ q.halted = false ∧ key0.count < 2 ^ 32 ∧ q.replay.length < 512 ∧ q.txFlit = 0 ∧ pktReady (onP q) (pkt 1 8) = true) ∧
    ({ port0 .active with replayAt := some (0, 0) }.replayAt = some (0, 0) ∧ (port0 .active).replayAt = none ∧ (port0 .train).trainGood < 1024) ∧
    (let f := frameOf trainFlit true
     frameCrc f.flit f.gtag f.fseq f.ack = f.fcrc ∧ f.flit.length = 64 ∧ wf ((wordsLe 8 f.flit).getD 0 0) 56 8 = 13 ∧
       wf ((wordsLe 8 f.flit).getD 1 0) 0 8 = 1) ∧
    (let f := frameOf trainFlit false
     frameCrc f.flit f.gtag f.fseq f.ack ≠ f.fcrc) ∧
    (let q := { port0 .active with rx := some key0, rxOld := some key0 }
     q.rx = some key0 ∧ q.rxOld = some key0 ∧ (frameOf trainFlit true).fseq.getLsbD 15 = q.epoch ∧ q.rxSeq = 0) ∧
    ((pkt 1 8).kind ≤ 13 ∧ 13 < (pkt 14 8).kind) := by decide

def armed (k : Nat) (d : Sched) : Sched := { d with idle := .select, armed := [(k, 0, 0)] }
/-- Core 0 without a firing. -/
def stIdle (f : Sched → Sched) : State := stOf { coreOf fr [] with firing := none, sched := f { (coreOf fr []).sched with idle := .select } }
def task0 (pin : Bool) : Task := { words := launchW 0x10000 0, owner := 1, prio := 8, budget := 1024, pin }
def stSteal : State :=
  let s := stIdle fun d => { d with idle := .idle 0 0 }
  s.putCore 1 { coreOf fr [] with sched := { (coreOf fr []).sched with deque := [task0 true, task0 false, task0 false] } }
theorem meets_SchedulingAndServices :
    (let s := stIdle id
     maySelect s 0 = true ∧ (s.core 0).sched.idle = .select ∧ rowWithheld s 0 = false ∧ chooseItem (armAll s 0) 0 = none ∧ (s.core 0).sched.preempt = none ∧
       (s.core 0).sched.supq = [] ∧ ((armAll s 0).core 0).sched.deque = [] ∧ maySelect (st []) 0 = false) ∧
    (let s := stIdle fun d => { d with preempt := some (0x40000, 1), scodeb := 0 }
     (s.core 0).sched.preempt = some (0x40000, 1) ∧ admitted (s.core 0).sched.scodeb 0x40000 = true) ∧
    (let s := stIdle fun d => { d with supq := [launch0 0x10000 0 true] }
     (s.core 0).sched.supq = [launch0 0x10000 0 true] ∧ maySelect s 0 = true) ∧
    (let s := stIdle fun d => { d with launchq := [launch0 0x10000 0 false] }
     (chooseItem (armAll s 0) 0).map (·.1) = some 48) ∧
    (let s := stIdle fun d => { d with chans := [(3, { chanD with items := [rec8 0x10000] })] }
     (chooseItem (armAll s 0) 0).map (·.1) = some 19) ∧
    (let s := stIdle fun d => { d with actors := [(0, actorIO)], chans := [(3, { chanD with task := false, inputOf := some 0, items := [rec8 9] }), (4, { chanD with task := false })] }
     (chooseItem (armAll s 0) 0).map (·.1) = some 0) ∧
    (let s := stIdle fun d => { d with deque := [task0 false] }
     chooseItem (armAll s 0) 0 = none ∧ ((armAll s 0).core 0).sched.deque = [] ++ [task0 false]) ∧
    (let s := { stIdle id with power := { (st []).power with withholding := true, withheld := [rowIdx 0] } }
     rowWithheld s 0 = true) ∧
    (let s := (armAll (stIdle fun d => { d with launchq := [launch0 0x10000 0 false] }) 0)
     (mget? (s.core 0).sched.armed 48).isSome = true ∧ itemPrio s 0 48 = some 8) ∧
    (let s := stSteal
     (s.core 0).sched.idle = .idle 0 0 ∧ maySelect s 0 = true ∧ (s.core 0).sched.nosteal = false ∧ victimsOk s 0 [1] = true ∧ stealable s 1 = true ∧
       (s.core 1).sched.deque = [task0 true] ++ task0 false :: [task0 false] ∧ stealable s 2 = false) ∧
    ((stIdle fun d => { d with idle := .gated }).core 0).sched.idle = .gated ∧ ((stIdle fun d => { d with idle := .waking 0 }).core 0).sched.idle = .waking 0 ∧
    (chooseItem (armAll (stIdle fun d => { d with idle := .gated, launchq := [launch0 0x10000 0 false] }) 0) 0).isSome = true ∧
    ((stIdle (armed 5)).core 0).sched.armed = [(5, 0, 0)] ∧
    (let s := { st [] with now := fr.budgetEnd }
     ((flushDue s 0).core 0).firing = some fr ∧ fr.budgetEnd ≤ (flushDue s 0).now ∧ ((flushDue s 0).core 0).stopped = none ∧
       ((flushDue s 0).core 0).traps.pending = none ∧ ((flushDue s 0).core 0).traps.abort = none ∧ fr.handler = false ∧ fr.expired = false ∧ frH.handler = true) ∧
    ((mget? (st []).periods 0).getD 0 ≤ (st []).timeUs ∧ nextClass 15 (fun c => c == 3) = some 3) ∧
    (windowOk (st []) [] = true ∧ (st []).power.window + 4000000 ≤ { st [] with now := 4000000 }.now) ∧
    (coreOn (st []) 0 = true ∧ ((st []).core 0).stopped = none ∧
      (let s := (st []).putCore 0 { coreOf fr [] with stopped := some 0 }
       (s.core 0).stopped = some 0 ∧ (0 ≤ fr.budgetEnd)) ∧
      (∀ l ∈ (stL1.core 0).cache.l1, 0 < l.expire ∧ l.expire ≤ 0 + 16384)) := by decide

/-! ## Further clauses of the same statements -/

/-- The 8-byte words from TCM offset `off` of core 0 on are poisoned. -/
def poisonTcm (s : State) (off n : Nat) : State :=
  { s with rcv := { s.rcv with poisonWords := (List.range n).map fun k => (tcmBase 0 + off) / 8 + k } }
/-- A code line that a fetch brought and no instruction used yet. -/
def stCodeLine : State :=
  let s := State.reset.withFetchWord 80 0
  (s.onCache 0 fun k => { k with codeLine := k.ic[0]?, ic := [] })
theorem meets_StepRunsDecodedInstruction_more :
    (let s := stCodeLine
     let s1 := { s with agenda := [], cur := 0 }
     decide (s.agenda = [.issue 0] ∧ s.rcv.fatal = none) && (preIssue s1 0).isNone &&
      (match checkAt s1 0 (W (wf fr.pc 56 8 * 2 ^ 56 + 64 * wf fr.pc 6 50)) 64 2 with
       | .ok u _ _ => (icFind u 0 (wf fr.pc 6 50)).isNone && (takeCodeLine u 0 (wf fr.pc 6 50)).map (fun x =>
           decodes (ofLe ((x.2.data.drop (10 * wf fr.pc 0 3)).take 10))) == some (some (.nop h0))
       | _ => false)) = true ∧
    { st [] with agenda := [.tick] }.rcv.fatal = none ∧ { fatal with agenda := [.tick] }.rcv.fatal ≠ none ∧ (st []).agenda = [] := by decide
theorem meets_StepTrapsOnBadFetch_more :
    let f := { fr with pc := 0xF0_0000_0000_0000 }
    let s := { stOf (coreOf f []) with agenda := [.issue 0] }
    (preIssue { s with agenda := [], cur := 0 } 0).isNone = true ∧ inCodeb f.codeb f.pc = true ∧ 64 * wf f.pc 6 50 = 0xF0_0000_0000_0000 := by
  decide
def frOut : Firing := { fr with budgetEnd := 10 }
def stOut (at_ : Nat) : State :=
  { stIss (stOf (coreOf frOut [])) (fun k => { k with tags := vset k.tags 3 (.faulted (late 3 at_)) }) with now := 10 }
theorem meets_LateFaultComesBeforeIssue_more :
    ([9, 10].all fun t =>
      let s := stOut t
      decide ((issuer s).firing = some frOut ∧ (issuer s).stopped = none ∧ lateFault (issuer s) [3, 0, 0] = some (3, late 3 t) ∧
        frOut.budgetEnd ≤ s.now) && !mustWait (begun s) (issuer s) { h0 with tw0 := 3 }) = true := by decide
def pw (due order : Nat) (v : Word) : PendWrite := { due, order, writes := [.g 3 v], flags := 1, tag := 2 }
theorem meets_FixedLatencyResultLands_more :
    (let s := { stIss (st []) (fun k => { k with pend := [pw 9 0 5, pw 5 1 6] }) with now := 9 }
     (s.core s.arg.core).iss.pend = [pw 9 0 5, pw 5 1 6] ∧ 9 ≤ s.now) ∧
    (let s := stIss (st []) fun k => { k with pend := [pw 1 0 5] }
     ∀ p ∈ (s.core s.arg.core).iss.pend, s.now < p.due) := by decide
theorem meets_PreciseTrapEntersHandler_more :
    (let s := (stTrap []).onTraps 0 fun t => { t with pending := some { ptrap with cause := 0x17, traph := 0x50000, sowner := 9 } }
     (s.core 0).traps.pending.map (fun p => (p.cause, p.traph, p.sowner)) = some (0x17, 0x50000, 9) ∧ s.arg.core = 0 ∧ (s.core 0).stopped = none ∧
       quiet (s.core 0) = true) ∧ (0x13 : Nat) < 0x14 := by decide
theorem meets_UnhandledTrapAborts_more :
    (joinedGang ((stH []).core 0) = false ∧ Memory.wf (stH []).mem = true ∧ ((stH []).core 0).firing = some frH ∧ frH.handler = true) ∧
    ((stOf (coreOf { fr with sup := true } [])).core 0).firing.map (fun f => (f.handler, f.sup)) = some (false, true) ∧
    (let s := (stTrap []).onSched 0 fun d => { d with scodeb := W (2 ^ 40) }
     (s.core 0).sched.traph ≠ 0 ∧ admitted (s.core 0).sched.scodeb (s.core 0).sched.traph = false) ∧
    (let s := { st [] with rcv := { Recovery.reset with fqbase := 0x40000 } }
     s.rcv.fqbase ≠ 0 ∧ (s.rcv.fqhead + 1) % 4096 ≠ s.rcv.fqtail % 4096) ∧
    (let s := { st [] with rcv := { Recovery.reset with fqbase := 0x40000, fqhead := 4095 } }
     (s.rcv.fqhead + 1) % 4096 = s.rcv.fqtail % 4096) ∧
    (let s := (st []).onTraps 0 fun t => { t with abort := some { cause := 255, val := 0, pc := 0, bank := 0 } }
     joinedGang (s.core 0) = false ∧ (s.core 0).traps.abort.map (·.cause) = some 255) := by decide
theorem meets_HandlerInstructions_more :
    framePoison (stH []) 0 2 10 = none ∧ framePoison (stH []) 0 0 4 = none ∧ framePoison (stH []) 0 11 1 = none ∧
    (let s := poisonTcm (stH []) 0x1F810 1
     ready .none h0 frH s = true ∧ framePoison s 0 2 10 ≠ none ∧ framePoison s 0 0 4 ≠ none) ∧ framePoison (poisonTcm (stH []) 0x1F858 1) 0 11 1 ≠ none ∧
    wb (readWord (stH []).mem (tcmBase 0 + 0x1F858)) 17 = false ∧
    (let s := (stH [(1, 2 ^ 20 + 1)]).onMem fun m => writeWord m (tcmBase 0 + 0x1F858) 0x30000
     ready .none h0 frH s = true ∧ wb (readWord s.mem (tcmBase 0 + 0x1F858)) 17 = true ∧ wb (readWord s.mem (tcmBase 0 + 0x1F858)) 16 = true ∧
       frH.budget < (gread (issuer s) 1).toNat ∧ handlerBusy (decideHeld 0 false (issuer s)) = false) := by decide
theorem meets_RetiringFrame : ready .none h0 fr (st []) = true ∧ (issuer (st [])).regs.vgrant ≠ 0 ∧
    (let s := st [(2, 0x3_0000_0000), (3, 1)]
     ready .none h0 fr s = true ∧ scopeOk (gread (issuer s) 2) = true ∧ (gread (issuer s) 3).toNat = fr.owner ∧ s.live fr.owner = true) := by decide
theorem meets_EndClosesFiring_more :
    (let s := (st []).onTraps 0 fun t => { t with sring := [{ seq := 0, st := 0, held := false, cause := 0, logSize := 0, addr := 0, data := 0, ent := none }] }
     ready .none h0 fr s = true ∧ endWaits (issuer s) = false ∧ (∀ e ∈ (issuer s).traps.sring, e.held = false)) := by decide
theorem meets_SystemRegisterReads_more :
    (let s := poisonTcm (stH []) 0x1F800 3
     ready .none h0 frH s = true ∧ framePoison s 0 0 1 ≠ none ∧ framePoison s 0 1 1 ≠ none ∧ framePoison s 0 2 1 ≠ none) ∧
    framePoison (stH []) 0 0 1 = none ∧ framePoison (stH []) 0 2 1 = none ∧
    (let f := { fr with sup := true }
     ready .none h0 f (stOf (coreOf f [])) = true ∧ f.handler = false) ∧ 0x010 < (0xFFF : BitVec 12).toNat ∧ 8 ≤ (10 : BitVec 12).toNat := by decide
/-- Owner 2 in the last SWITCH slot of owner 1's table header. -/
def stSwitch (l : List (Nat × Word)) : State :=
  (st l).onMem fun m => writeWord (writeWord m (rightsBase + 16) (W (2 ^ 63 + 2 * 2 ^ 40 + 0x150000))) ((st l).tableOf 1 + 8) (W (2 * 2 ^ 48))
theorem meets_SystemRegisterWrites_more :
    (let s := stSwitch [(1, 2)]
     ready .none h0 fr s = true ∧ s.live 2 = true ∧ s.live fr.owner = true ∧ s.worldOf 2 = s.worldOf fr.owner ∧ fr.startOwner ≠ 2 ∧
       wf (readWord s.mem (s.tableOf fr.owner + 8 * (7 / 4))) (16 * (7 % 4)) 16 = 2) ∧
    (let f := { fr with sup := true }
     ready .none h0 f (stOf (coreOf f [])) = true ∧ f.handler = false) ∧
    (let f := { fr with owner := 5 }
     ready .none h0 f (stOf (coreOf f [(1, 1)])) = true ∧ f.startOwner = 1) ∧ (st []).live 2 = false ∧
    (7 : BitVec 12).toNat < 8 ∧ 10 < (11 : BitVec 12).toNat ∧ (8 : BitVec 12).toNat = 8 ∧ (10 : BitVec 12).toNat ≤ 10 := by decide
theorem meets_floating_point_statements_more :
    unpack fmt32 0xFF800000 = .inf true ∧ unpack fmt32 0 = .fin false 0 (-149) ∧
    ProductIs (.inf false) (.fin true 1 0) (.inf true) ∧ ProductIs (.fin true 0 5) (.fin true 3 (-2)) (.fin false 0 3) ∧
    ProductIs (.inf true) (.inf true) (.inf false) ∧ fpLt (.inf true) (.fin true 0 0) = true ∧ fpEq (.fin true 0 (-149)) (.fin false 0 0) = true ∧
    CvtTy.kind .f32 = .inl fmt32 := by
  simp only [ProductIs]; decide
def stPage (f : Caches → Caches) : State := (stRights []).onCache 0 f
def tr0 (key : Nat) : Trans := { page := 0x20000, size := 0x10000, frame := 0x200000, c := true, key, mlock := false }
theorem meets_AddressCheckOrder_more :
    (let s := { st [] with boot := { (st []).boot with minimal := true } }
     ready .l h0 fr s = true ∧ locOn s (.tcm (coreIndex 8 44 63) 0) = false ∧ locOn s (.staithe 1 0) = false ∧ locOn s (.tussock 360 0) = false ∧
       decodeAddr 0 0xFE_0101_0000_0000 = some (.tussock 360 0)) ∧
    (∃ o, decodeAddr 0 0xFE_0200_0380_0000 = some (.staithe 0 o) ∧ 0x3800000 ≤ o) ∧
    reservedTcm (stH []) 0 0x1F800 8 = true ∧ (∀ q ∈ (issuer (st [])).cache.plb, q.ent.covers 0xFF_0000_0000_0000 = true ∧ q.ent.gives 0 = true) ∧
    ready .l h0 frH (stH []) = true ∧ supState (issuer (stH [])) = true ∧ supState (issuer (st [])) = false ∧
    (let s := (st []).onCache 0 fun k => { k with plb := k.plb.map fun q => { q with ent := { q.ent with world := 7 } } }
     ready .s h0 fr s = true ∧ s.worldOf 1 = 0 ∧ inRightsArea (.tcm 0 0) 8 = false ∧ reservedTcm s 0 0 8 = false ∧
       (issuer s).cache.plb.map (fun q => (q.owner, q.ent.world, q.ent.gives 1, q.ent.covers (tcmBase 0))) = [(1, 7, true, true)]) ∧
    (let s := stPage fun k => { k with tlb := [], walkFault := some 2 }
     ready .l h0 fr s = true ∧ tlbFind (issuer s).cache.tlb 0x20000 = none ∧ (issuer s).cache.walkFault = some (0x20000 / 65536)) ∧
    tlbFind (issuer (st [])).cache.tlb 0x2FFFF = some (tr0 0) ∧ keyWorld (st []) 0 = some 0 ∧ keyWorld (st []) 3 = none ∧
    (let s := { st [] with owners := { Owners.reset with keys := [(0, { valid := true, world := 9, key := Vector.replicate 4 0 })] } }
     keyWorld s 0 = some 9 ∧ s.worldOf 1 = 0) := by
  refine ⟨by decide, ⟨0x3800000, by decide⟩, ?_⟩
  decide
theorem meets_OwnMemoryAccess_more :
    chk (begun (st [])) 0 0xFF_0001_0000_0008 8 8 0 (fun u l p => ownFast 0 l && (match l with | .tussock 0 _ => true | _ => false) &&
      (ownLoadWait u p 8).isNone && (poisonCode u p.addr 8).isNone && !unperfOverlap (u.core 0) p.addr 8) = true ∧
    chk (begun (st [])) 0 0xFF_0001_0000_0010 16 16 1 (fun u l p => ownFast 0 l && !lockedW u p.lockKey 16 && !ownOverlap (u.core 0) l 16) = true := by
  decide
theorem meets_FarMemoryAccess_more :
    chk (begun stL1) 0 0x20008 8 8 0 (fun u _ p => match l1Find u 0 (lineOf p.lockKey) with
      | some l => (l1Poison l 0x20008 8).isNone && !readBefore (u.core 0) 0 p.addr 8 && !bufBlocks (unperformed (u.core 0)) p.addr 8 0
      | none => false) = true := by decide
theorem meets_StoresReachTheirHome_more :
    (let e := ent (.array (tcmBase 64)) (.bytes [1, 2]) true
     let s := stWb e [outOf 0 3 (.stored 0 none)]
     atHome s 0 0 = some e ∧ lockedFor s 0 e.id (tcmBase 64) 2 = false ∧ Memory.wf s.mem = true) ∧
    (∀ t o, decodeAddr 0 (tcmBase 64) ≠ some (.tussock t o)) ∧ keyNum (st []) 0 = 0 := by
  refine ⟨by decide, ?_, by decide⟩
  have h : decodeAddr 0 (tcmBase 64) = some (.tcm 64 0) := by decide
  simp [h]
theorem meets_CachesAndReturns_more :
    (let p : Place := .global 0x20008 0x200008 0 true false
     let o := outOf 0 3 (.load p 0x20008 { d := .g 3 0, bytes := 8, signed := false, pair := false } false)
     let s := stIss stL1 fun k => { k with outs := [o] }
     findOut (s.core 0) s.arg.id = some o ∧ blockedRead s 0x20008 8 = none ∧ loadWaits s 0 o p 8 = false ∧ unperfOverlap (s.core 0) 0x200008 8 = false ∧
       (copyAt s 0 p).map (fun l => l1Poison l 0x20008 8) = some none ∧ copyAt (st []) 0 p = none ∧ poisonCode s 0x200008 8 = none) ∧
    (hintPlace (begun (st [])) 0 0x40000).2 = none ∧
    ([false, true].all fun inval =>
      let s := (st []).onCache 0 fun k => { k with prefetches := [{ line := 0x20000 / 64, place := syncPlace, home := false, inval }] }
      decide ((s.core 0).cache.prefetches[s.arg.id]? = some { line := 0x20000 / 64, place := syncPlace, home := false, inval }) && !placeBusy s syncPlace) = true ∧
    (let g : IFetch := { line := 0x20000 / 64, place := .global 0x20000 0x200000 0 true false, tries := 0, inval := false }
     let s := ((st []).onMem fun m => writeBytes m 0x200000 (leBytes 64 (crc32c (List.replicate 60 0) * 2 ^ 480))).onCache 0 fun k => { k with ifetch := some g }
     let bs := placeBytes (readTouch s g.place (s.classOf (ownerNow (s.core 0)))) g.place 64
     (s.core 0).cache.ifetch = some g ∧ placeBusy s g.place = false ∧ poisonCode s 0x200000 64 = none ∧ crc32c (bs.take 60) = ofLe (bs.drop 60)) := by decide
theorem meets_OrderingInstructions_more :
    chk (begun stSync) 0 (near 0) 8 8 1 (fun u l p => ownFast 0 l && !lockedW u p.lockKey 8 && !ownOverlap (u.core 0) l 8) = true ∧
    ready .l h0 fr (st [(2, 1 <<< 40)]) = true ∧ bufferFull (issuer (st [])) = false := by decide
theorem meets_AtomicInstructions_more :
    (let e := { ent (.array (tcmBase 0)) (.atomic { op := 9, bytes := 4, operand := 0x3F800000, expected := 0 }) true with sync := false }
     let s := (stWb e [outOf 0 0 (.stored 0 none)]).onMem fun m => writeBytes m (tcmBase 0) (leBytes 4 0x40000000)
     atHome s 0 s.arg.id = some e ∧ Memory.wf s.mem = true ∧ lockedFor s 0 e.id (tcmBase 0) 4 = false ∧ poisonCode s (tcmBase 0) 4 = none ∧
       (outOfSeq (s.core 0) 0).map (·.op) = some (.stored 0 none) ∧ readNat s.mem (tcmBase 0) 4 = 0x40000000) ∧
    (0x3F800000 : Word).toNat < 2 ^ 32 ∧
    (let e := { ent (.array (tcmBase 0)) (.atomic { op := 12, bytes := 8, operand := 5, expected := 9 }) true with sync := true }
     let s := stWb e [outOf 0 3 (.stored 0 (some 4))]
     atHome s 0 s.arg.id = some e ∧ readNat s.mem (tcmBase 0) 8 ≠ (9 : Word).toNat) ∧
    bufferFull (issuer (stSync.onTraps 0 fun t => { t with storeStop := true })) = true := by decide
theorem meets_SyncRecordsAtHome_more :
    (let s := { (st []) with homes := { (st []).homes with lineKey := [(0x200000 / 64, 0), (0x200000 / 64 + 2, 0)] } }
     (List.range 3).all (fun k => ((mget? s.homes.lineKey (0x200000 / 64 + k)).getD 0 == keyNum s 0) && !s.homes.zp.contains (0x200000 / 64 + k)) = true) ∧
    0x20000 % 256 = 0 ∧ 0x200000 % 256 = 0 ∧
    (let o := outOf 0 3 (.sigrd syncPlace 4 0)
     let s := stIss (st []) fun k => { k with outs := [o] }
     findOut (s.core 0) s.arg.id = some o ∧ recordWaits s 0 o syncPlace = false ∧ blockedRead s (0x20008 + 0) 8 = none ∧ (s.core 0).cache.wb = []) := by decide
theorem meets_EdgeRecords_more :
    (let s := stEdge (stChan { chanD with owner := 4 } []) (edge .token (rec8 0x10000))
     let s := s.onMem fun m => writeWord m (rightsBase + 8) (W (2 ^ 63 + 2 ^ 62 + 2 * 2 ^ 40 + 0x140000))
     s.tearing 1 = true ∧ s.live 4 = false) ∧
    (let s := (stEdge (stChan { chanD with owner := 2 } []) (edge .token (rec8 0x10000))).onMem fun m =>
       writeWord m (rightsBase + 16) (W (2 ^ 63 + 2 * 2 ^ 40 + 0x150000))
     edgeFind s 0 3 .token = some (edge .token (rec8 0x10000)) ∧ s.live 2 = true ∧ s.tearing 2 = false ∧ (chanOf s 0 3).map (·.owner) = some 2) ∧
    (let e := { edge .status (rec8 0x10000) with lost := true, ref_ := 1 }
     let s := (stEdge (stChan chanD []) e).onSched 0 fun d => { d with splices := [{ num := 1, state := 3, outcome := 0 }] }
     edgeFind s 0 3 .status = some e ∧ s.live 1 = true ∧ (s.core (e.ref_ / 2 ^ 32)).sched.splices.find? (·.num == e.ref_ % 2 ^ 32) =
       some { num := 1, state := 3, outcome := 0 }) ∧
    (let s := (st []).onSched 0 fun d => { d with mboxIn := [.e], mbox := vset d.mbox (sideCode .e) { Mbox.reset with count := 1, value := 2 ^ 16 - 1 } }
     .e ∈ (s.core 0).sched.mboxIn ∧ (vget (s.core 0).sched.mbox .reset (sideCode .e)).value + 1 ≠ 1) := by decide
def stClaim (f : CoreSt → CoreSt) : State :=
  let s := { stIss (stV 0) (fun k => { k with outs := [outOf 0 3 (.claim 4 16 32)] }) with
    pools := [(0, { queue := [{ core := 0, id := 0, min := 16, max := 32 }], shrink := [] })] }
  s.putCore 0 (f (s.core 0))
theorem meets_VectorClaims_more :
    ([fun c => { c with stopped := some 0 }, fun c => { c with traps := { c.traps with pending := some ptrap } },
      fun c => { c with traps := { c.traps with abort := some { cause := 5, val := 0, pc := 0, bank := 0 } } }].all fun f =>
      let s := stClaim f
      let c := s.core 0
      decide (((s.pool s.arg.unit).queue.map (·.core)) = [0] ∧ c.firing = some fr ∧ findOut c 0 = some (outOf 0 3 (.claim 4 16 32)) ∧
        (c.stopped ≠ none ∨ c.traps.pending ≠ none ∨ c.traps.abort ≠ none))) = true ∧
    (let s := (stClaim id).putCore (coreIndex 0 0 8) (coreOf fr [])
     16 ≤ 128 - (tussockCores 0).foldl (fun n k => n + (s.core k).regs.vgrant) 0) ∧
    (let s := (stClaim id).putCore ((tussockCores 0).getD 1 0) { coreOf fr [] with regs := { Regs.reset with vgrant := 128 } }
     128 - (tussockCores 0).foldl (fun n k => n + (s.core k).regs.vgrant) 0 < 16) ∧
    (let s := stV 0
     (issuer s).regs.vgrant = 0 ∧ vectorBusy (begun s) (issuer s) = false ∧ 0 ∉ ((begun s).pool (tusOf 0)).shrink) := by decide
theorem meets_VectorElementwise_more :
    (let s := stIss ((st []).onRegs 0 fun r => { r with m := vset r.m 1 5 }) id
     (vget (issuer s).regs.m 0 1).getLsbD 2 = true ∧ (vget (issuer s).regs.m 0 1).getLsbD 1 = false) ∧ (issuer (stV 1)).regs.vgrant = 1 ∧
    ready .none h0 fr (stV 1) = true ∧ ready .none h0 fr (stV 128) = true := by decide
theorem meets_VectorMovesAndReductions_more :
    tableLoading (issuer (stDt .c8 256)) 0 = false ∧ Encodable (List.replicate 256 0) 256 255 ∧ Listed (List.replicate 256 0) 256 0 ∧
    (entryOf [BitVec.ofNat 20 (0x7F800000 / 2 ^ 13)] 0).isInf = true ∧ (entryOf [BitVec.ofNat 20 (0x7FC00000 / 2 ^ 13)] 0).isNan = true ∧
    ready .none h0 fr (stDt .c8 256) = true := by
  refine ⟨by decide, ⟨⟨by decide, by decide⟩, false, 0, -136, by decide⟩, ⟨by decide, by decide⟩, by decide, by decide, by decide⟩
def frQ : QBind → State := fun q => (stOf (coreOf { frH with owner := 1 } [(1, near 0x8000)])).onRegs 0 fun r => { r with q := vset r.q 2 q }
theorem meets_VectorMemoryAndStreams_more :
    (match checkElems (begun (st [])) 0 4 1 [(0, near 0x8000), (1, near 0x20000)] with
      | .bad _ c v => c == 0x0E && v == near 0x20000
      | _ => false) = true ∧
    elems (begun (st [])) 0 8 1 [(0, near 0x8000), (1, 0x20000)] (fun u ys =>
      (ys.filter fun y => ownFast 0 y.2.2.1).length == 1 && (ys.filter fun y => !ownFast 0 y.2.2.1).length == 1 && !bufferFull (u.core 0)) = true ∧
    (let q : QBind := .stream false (near 0x8000) sh2 1 []
     let s := frQ q
     ready .l h0 { frH with owner := 1 } s = true ∧ vget (issuer s).regs.q .unbound 2 = q ∧ 1 < sh2.count ∧ ownOk s (elemAddr (near 0x8000) sh2 1) 8 0 = true) ∧
    chkBad (begun (frQ (.stream false (near 0x1FFFC) sh2 0 []))) 0 (elemAddr (near 0x1FFFC) sh2 0) 8 8 0 0x05 = true ∧
    (let s := stQ (.stream true 0x20000 sh2 0 [])
     ready .s h0 frA s = true ∧ chk (begun s) 0 (elemAddr 0x20000 sh2 0) 8 8 1 (fun u l _ => !ownFast 0 l && !bufferFull (u.core 0)) = true) ∧
    (let s := (stQ (.stream true 0x20000 sh2 0 [])).onTraps 0 fun t => { t with storeStop := true }
     bufferFull (s.core 0) = true) ∧
    (vget (issuer (stQ (.stream false (near 0x8000) sh2 2 []))).regs.q .unbound 2 = .stream false (near 0x8000) sh2 2 [] ∧ sh2.count ≤ 2) ∧
    (let s := stQ (.stream false (near 0x8000) sh2 0 [.fault 5 9])
     ready .l h0 frA s = true ∧ vget (issuer s).regs.q .unbound 2 = .stream false (near 0x8000) sh2 0 [.fault 5 9]) ∧
    (let s := stQ (.stream false (near 0x8000) sh2 0 [])
     chkBad s 0 (elemAddr (near 0x1FFFC) sh2 0) 8 8 0 0x05 = true ∧
       chk s 0 (elemAddr (near 0x8000) sh2 1) 8 8 0 (fun u l p => !ownOverlap (u.core 0) l 8 && !unperfOverlap (u.core 0) p.addr 8 &&
         (blockedRead u p.lockKey 8).isNone && (elemHit u 0 8 p).isNone && (poisonCode u p.addr 8).isNone) = true ∧
       chk (poisonTcm s 0x8000 1) 0 (elemAddr (near 0x8000) sh2 0) 8 8 0 (fun u _ p => poisonCode u p.addr 8 == some 3) = true) ∧
    (let s := (stQ (.stream false 0x20000 sh2 0 [])).onCache 0 fun k => { k with l1 := [{ line := 0x20000 / 64, data := List.replicate 64 7, expire := 16384 }] }
     chk s 0 0x20000 8 8 0 (fun u _ p => !placeBusy u p && (elemHit u 0 8 p).isSome) = true) := by decide
def noCh3 (f : Firing) : State := (stIO (.chanOut 0) f).onSched 0 fun d => { d with chans := [] }
theorem meets_VectorMemoryAndStreams_channels_more :
    (let f := { frA with outWords := vset frA.outWords 0 (List.replicate 7 6) }
     let task := (stIO (.chanOut 0) f).onSched 0 fun d => { d with chans := [(4, { chanD with codeb := 0 })] }
     ready .e h0 frA (stIO (.chanOut 0) frA) = true ∧ ready .e h0 f (noCh3 f) = true ∧ chanOf (begun (noCh3 f)) 0 4 = none ∧
       (chanOf (begun task) 0 4).map (·.task) = some true ∧ (admitFail 0 6).isSome = true ∧ admitFail 0 0x10000 = none ∧
       (let s := stIss (stIO (.chanOut 0) f) fun k => { k with outs := [outOf 0 3 (.splice 5 1)], opCount := 1 }
        ready .e h0 f s = true ∧ 7 ≤ (vget f.outWords [] 0).length)) := by decide
theorem meets_AccumulatorInstructions_more :
    (let z := outOf 0 0 (.acc (.zero 8 1))
     let o := outOf 1 3 (.acc (.toVec 8 4 0 32))
     let s := stIss (st []) fun k => { k with outs := [z, o] }
     let s := { s with arg := { EvArg.none with id := 1 } }
     findOut (s.core 0) s.arg.id = some o ∧ matrixBefore (s.core 0) o = true) ∧
    ([AccOp.zero 63 1, .load 8 0x8000 64, .quant 8 0x8000 16 (.c8 0) 0x3F800000 [], .quant 8 0x8000 32 (.b16 .rne) 0x3F800000 [],
      .toVec 8 4 3 64, .fromVec 8 [1, 2] 127].all fun op =>
      let o := outOf 0 3 (.acc op)
      let s := stIss (st []) fun k => { k with outs := [o] }
      decide (findOut (s.core 0) s.arg.id = some o ∧ matrixBefore (s.core 0) o = false ∧ (ownTile (s.core 0) 8 1).poison = []) &&
        (List.range 16).all (fun r => (blockedRead s (tcmBase 0 + 0x8000 + r * 64) 64).isNone && (poisonCode s (tcmBase 0 + 0x8000 + r * 64) 64).isNone)) = true ∧
    (let o := outOf 0 3 (.acc (.load 8 0x9000 64))
     let s := stIss (stCp copy0) fun k => { k with outs := [o] }
     blockedRead s (tcmBase 0 + 0x9000 + 0 * 64) 64 ≠ none) ∧
    ((issuer (stV 0)).regs.vgrant = 0 ∧ ready .none h0 fr (stV 0) = true ∧ matrixFull (issuer (stV 0)) = false) ∧
    (let s := st [(1, near 0x8004), (2, 48), (3, 0xFFFF_0000_0000_0000)]
     (gread (issuer s) 1).toNat % 64 ≠ 0 ∧ (gread (issuer s) 2).toNat % 64 ≠ 0 ∧ decodeAddr 0 0xFF_0000_0002_0000 = none ∧ wf (near 0 ||| W (2 ^ 56)) 56 8 ≠ 0) ∧
    ((tableFits false (tableState (issuer (stDt .c8 256)) 0) = true ∧ tableFits true (tableState (issuer (stDt .c4p 16)) 0) = true ∧
      tableFits false (tableState (issuer (st [])) 0) = false ∧ ready .s h0 fr (stDt .c8 256) = true) ∧
     (let o := outOf 0 3 (.dtload 0 4 0 false [])
      let s := stIss (st []) fun k => { k with outs := [o], opCount := 1 }
      tableLoading (issuer s) 0 = true ∧ ready .s h0 fr s = true)) := by decide

/-- Core 0's member instruction has read nothing yet; the other three have, and have arrived. -/
def gunread : Out := outOf 0 3 (.gang 0 0 8 4 0 false { gdata with panel := [] } none false)
def stJoin (arr : List Arrival) (others : Out) : State :=
  { (stGang none false).putCore 0 { coreOf fr [] with iss := { IssueSt.reset with outs := [gunread], opCount := 1 } } with arrivals := arr }
    |>.putCore 1 { coreOf fr [] with iss := { IssueSt.reset with outs := [others], opCount := 1 } }
def gang4 (step stepEnd : Nat) : Gang :=
  { x0 := 0, n := 4, east := true, pair := 0, snz := false, members := (List.range 4).map fun k => (k, 0, gdata)
    failed := [], flags := [], step, stepEnd }
theorem meets_MatrixGangs_more :
    ([stJoin [] (gop none false), stJoin [arrived 1, arrived 2, arrived 3] gunread].all fun s =>
      decide (nextGang (s.core 0) = some gunread ∧ findOut (s.core 0) 0 = some gunread ∧ tcmBefore (s.core 0) gunread = false) &&
        (pendingSpans gunread).all (fun m => (blockedRead s (tcmBase 0 + m.1) m.2).isNone) && s.arrivals.all (fun a => a.core != 0 && !a.expired s.now)) = true ∧
    (let s := stJoin [arrived 1, arrived 2, arrived 3] (gop none false)
     nextGang (s.core 0) = some gunread ∧ tcmBefore (s.core 0) gunread = false ∧ 4 ≤ (s.arrivals.filter fun a => a.x0 == 0 && a.n == 4).length + 1 ∧
       s.arrivals.all (fun a => (gangDataOf s a).any fun D => !D.panel.isEmpty) = true ∧
       s.arrivals.all (fun a => a.fn == 0 && a.pair == 0 && !a.east && a.owner == gunread.owner) = true) ∧
    (let s := stJoin [{ arrived 1 with pair := 5 }, arrived 2, arrived 3] (gop none false)
     nextGang (s.core 0) = some gunread ∧ s.arrivals.any (fun a => a.pair != 0) = true ∧
       s.arrivals.all (fun a => (gangDataOf s a).any fun D => !D.panel.isEmpty) = true ∧ ((s.core 0).firing.map (·.num)) = some gunread.firing) ∧
    (let s := { stJoin [] (gop none false) with eng := { Engines.reset with locks := [lockOn (tcmBase 0 + 0x8000) 64 true] } }
     (pendingSpans gunread).any (fun m => (blockedRead s (tcmBase 0 + m.1) m.2).isSome) = true) ∧
    (let s := (stJoin [] (gop none false)).putCore 0 { coreOf fr [] with
       iss := { IssueSt.reset with outs := [outOf 0 0 (.stored 0 none), { gunread with id := 1 }].map (fun o => if o.id = 0 then { o with cls := .store } else o), opCount := 2 } }
     nextGang (s.core 0) = some { gunread with id := 1 } ∧ tcmBefore (s.core 0) { gunread with id := 1 } = true) ∧
    ([gang4 0 0, gang4 3 0].all fun g =>
      let s := { stGang (some 0) true with gangs := [g], arg := { EvArg.none with id := 4 } }
      decide (s.gangs.find? (fun x => x.x0 == s.arg.core && x.n == s.arg.id) = some g ∧ g.stepEnd ≤ s.now ∧ tilesWait s g = false ∧ g.members.length = g.n ∧
        s.rcv.fences.cores = [] ∧ s.rcv.fences.tussocks = [] ∧ (ownTile (s.core 1) (8 + (1 + 4 - g.step) % 4) 1).poison = [] ∧ 1 ∉ g.bad ∧ 1 ∉ g.failed)) = true ∧
    (let g := gang4 0 9
     let s := { stGang (some 0) true with gangs := [g], arg := { EvArg.none with id := 4 } }
     s.now < g.stepEnd) ∧
    (let g := gang4 0 0
     let s := { (stGang (some 0) true).putCore 1 { coreOf fr [] with iss := { IssueSt.reset with outs := [outOf 0 0 (.acc (.zero 8 1)), { gop (some 0) true with id := 1 }] } }
       with gangs := [{ g with members := [(0, 0, gdata), (1, 1, gdata), (2, 0, gdata), (3, 0, gdata)] }], arg := { EvArg.none with id := 4 } }
     s.gangs.any (tilesWait s) = true) ∧
    (tableLoading (issuer (stDt .c4 16)) 1 = false ∧ tableFits true (tableState (issuer (stDt .c4 16)) 0) = true ∧ tableFits false (tableState (issuer (st [])) 1) = false) ∧
    (let s := stIss (st []) fun k => { k with outs := [{ outOf 0 0 (.stored 0 none) with cls := .store }], opCount := 1 }
     memBefore (issuer s) (issuer s).iss.opCount = true ∧ ready .e h0 fr s = true) ∧
    (let s := (stDt .c8 256).onMem fun m => writeByte m (tcmBase 0 + 0x9004) 1
     memBefore (issuer s) (issuer s).iss.opCount = false ∧ matrixOverlap (issuer s) 0x9000 64 = false ∧ readByte s.mem (tcmBase 0 + 0x9000 + 4) ≠ 0 ∧
       (issuer s).cache.wmWait = none ∧ 2 ^ 17 < 0x1FFC0 + bBytes true 0 1 ∧ 0x9000 + bBytes true 0 0xFFFFFFFF ≤ 2 ^ 17) ∧
    ([(0, 16), (1, 1), (2, 0)].all fun k =>
      let s := (st [(1, near 0x8000)]).onMem fun m => writeByte m (tcmBase 0 + 0x8000) (BitVec.ofNat 8 k.1)
      let clear := fun (x : State) => x.onCache 0 fun k => { k with wmWait := none }
      match checkRun (begun s) 0 (near 0x8000) 0 1 with
      | .ok u => !memBefore (u.core 0) (u.core 0).iss.opCount && (u.core 0).cache.wmWait.isNone && !runBusy (clear u) 0 (near 0x8000) 1 &&
          (runPoison (clear u) 0 (near 0x8000) 1).isNone && ((blockNow (clear u) 0 (near 0x8000)).headD 0).toNat == k.1 &&
          (match checkRun (clear u) 0 (near 0x8040) 0 k.2 with
           | .ok w => (w.core 0).cache.wmWait.isNone && !runBusy (clear w) 0 (near 0x8040) k.2 && (runPoison (clear w) 0 (near 0x8040) k.2).isNone
           | _ => false)
      | _ => false) = true ∧
    ([(0, [], false), (0, [0x80000], true), (3, List.replicate 16 1, true)].all fun (p : Nat × List (BitVec 20) × Bool) =>
      let o := outOf 0 3 (.dtload 1 4 p.1 p.2.2 p.2.1)
      let s := stIss (st []) fun k => { k with outs := [o] }
      decide (findOut (s.core 0) o.id = some o)) = true ∧
    (tableRead (issuer (stIss (stDt .c8 256) fun k => { k with outs := [gop none false], opCount := 1 })) 0) = true := by decide
def creditFor (s : State) (d k n : Nat) : State := onArb s d k fun a => { a with credit := Vector.replicate 16 n }
def shapeAt (off : Nat) (s : State) : State := s.onMem fun m => writeBytes m (tcmBase 0 + off) (bytesOfWords shapeWords)
/-- A command with the field values of its third word and AUX. -/
def stCmd (w2 aux : Word) : State := stE [(8, near 0x8000), (9, near 0x9000), (10, w2), (11, aux)]
theorem meets_CopyCommands_more :
    ([stCmd 8 0, stCmd 0xFFFF_FFF8 0, stCmd 7 0, stCmd 0xFFFF_FFF9 0, stCmd (W (2 ^ 46)) (near 0x400), stCmd (W (2 ^ 46)) (near 0x404),
      stCmd (W (2 ^ 48 + 3 * 2 ^ 49 + 64)) 7, stCmd (W (2 ^ 44 + 15 * 2 ^ 40 + 64)) 0, stCmd (W (2 ^ 47 + 64)) 4095].all fun s => ready .e h0 fr s) = true ∧
    (8 : Nat) ≤ wf (8 : Word) 0 32 ∧ wf (0xFFFF_FFF8 : Word) 0 32 = 2 ^ 32 - 8 ∧ 2 ^ 32 - 8 < wf (0xFFFF_FFF9 : Word) 0 32 ∧
    (let s := (shapeAt 0x400 (stCmd (W (2 ^ 46)) (near 0x400)))
     (match readShape (begun s) 0 (near 0x400) with
      | .ok u h => decide ((near 0x8000).toNat % h.esize = 0 ∧ ({ copy0 with shape := some h, len := 16, shapeSrc := true, notify := none, wm := none } : Copy).verdict u = 0)
      | _ => false) = true) ∧
    (match readShape (begun (st [])) 0 0x20000 with
      | .ok .. => false
      | _ => true) = true ∧
    (match readShape (begun (st [])) 0 (near 0x20000) with
      | .fault _ => true
      | _ => false) = true ∧
    (let s := stGrp group0 [(8, near 0x8000), (9, 0x9000), (10, W (2 ^ 47 + 64)), (11, 5)]
     ready .e h0 fr s = true ∧ groupOf (begun s) 5 = some group0 ∧ groupType group0.words ≠ 2 ∧ groupType (2 :: group0.words.drop 1) = 2 ∧
       (0x1FFF8 : Word).toNat ≤ 131072 - 8) ∧
    (let s := (stE (cpRegs 64 0)).onSched 0 fun d => { d with fifo := List.range 8 }
     8 < ((begun s).core 0).sched.fifo.length + 1) ∧
    locksFit { begun (stE []) with eng := { Engines.reset with locks := List.replicate 32 (lockOn (tcmBase 0 + 0x8000) 64 false) } } 0 copy0.locks = false ∧
    (copy0.verdict (begun (stE [])) = 0 ∧ ({ copy0 with src := near 0x20000 } : Copy).verdict (begun (stE [])) ≠ 0) ∧
    (let slots := fun b => (st []).onSched 0 fun d => { d with wm := vset d.wm 15 { busy := b, fault := true, fill := 0x40, owner := 1 } }
     (vget (issuer (slots true)).sched.wm .reset 15).busy = true ∧ (vget (issuer (slots true)).sched.wm .reset 15).owner = fr.owner ∧
       (vget (issuer (slots true)).sched.wm .reset 0).owner ≠ fr.owner) ∧
    (let s := (shapeAt 0x440 (stE [])).onMem fun m => writeWord (writeWord m (tcmBase 0 + 0x408) (W (2 ^ 53 + 2 ^ 52 + 0x9000 * 2 ^ 17 + 0x8000))) (tcmBase 0 + 0x420) (near 0x440)
     wb (readWord s.mem (tcmBase 0 + 0x408)) 52 = true ∧ wf (readWord s.mem (tcmBase 0 + 0x408)) 34 18 = 0 ∧ (readWord s.mem (tcmBase 0 + 0x420)).toNat % 64 = 0 ∧
       (match readShape (begun s) 0 (near 0x440) with
        | .ok _ h => decide (h = sh2)
        | _ => false) = true) ∧
    (let s := (stE [(2, near 0x3000)]).onSched 0 fun d => { d with chans := [(3, chanD)] }
     reservedTcm (begun s) 0 0x3000 64 = true ∧ supState (issuer s) = false ∧ ownRecOff 0 (near 0x3000) 64 64 = some 0x3000 ∧ ready .e h0 fr s = true) := by decide
def runC : Copy := { copy0 with st := .running 0 }
theorem meets_CopiesRun_more :
    (let s := creditFor (stCp runC) 0 1 1
     copyOf s s.arg.id = some runC ∧ granted s 0 1 1 ((0 + runC.piece + 63) / 64 - (0 + 63) / 64) = true ∧ dieOn s 0 = true ∧ storesBefore (s.core 0) 0 = false ∧
       runs s slu runC.srcAt runC.piece 0 (fun u p => (match dstPlaces u slu runC runC.piece runC.dsts with
         | (v, .ok [q]) => !placeBusy v q && !migrationLocked q && !placeBusy v p && (blockedRead v p.lockKey runC.piece).isNone
         | _ => false)) = true) ∧
    granted (stCp runC) 0 1 1 1 = false ∧
    (let c := { runC with mcast := some [0, 1], mgroup := some 5, notify := none, wm := none, dst := 0x9000 }
     let s := (creditFor (stCp c) 0 1 1).onCache 0 fun k => { k with plb := [] }
     let s := s.onMem fun m => entE 1 (tcmBase 1) 0x20000 m
     runs s slu c.srcAt c.piece 0 (fun u _ => (match dstPlaces u slu c c.piece c.dsts with
       | (v, .ok [.array a, .array b]) => a != b && Memory.wf v.mem
       | _ => false)) = true) ∧
    (let c := { runC with done := 64, halo := some (1, .w), notify := none, wm := none }
     let s := stIss (stCp c) fun k => { k with outs := [outOf 0 3 (.copy [0] none)], opCount := 1 }
     copyOf s s.arg.id = some c ∧ c.len ≤ c.done ∧ c.splice = none) ∧
    (let o := outOf 0 3 (.watermark 0 none (.global 0x20008 0x200008 0 true false) 0x20008 { d := .g 3 0, bytes := 8, signed := false, pair := false } false)
     let s := stIss stL1 fun k => { k with outs := [o] }
     findOut (s.core 0) s.arg.id = some o ∧ blockedRead s 0x20008 8 = none ∧ loadWaits s 0 o (.global 0x20008 0x200008 0 true false) 8 = false ∧
       (copyAt s 0 (.global 0x20008 0x200008 0 true false)).map (fun l => l1Poison l 0x20008 8) = some none ∧ unperfOverlap (s.core 0) 0x200008 8 = false) ∧
    (let ld := fun id => outOf id 0 (.load (.array (tcmBase 64)) (W (tcmBase 64)) { d := .g 3 0, bytes := 8, signed := false, pair := false } false)
     let o := { outOf 1 3 (.watermark 0 none (.array (tcmBase 64)) (W (tcmBase 64)) { d := .g 3 0, bytes := 8, signed := false, pair := false } false) with id := 1 }
     let s := stIss (st []) fun k => { k with outs := [ld 0, o] }
     loadWaits s 0 o (.array (tcmBase 64)) 8 = true) := by decide
theorem meets_RemoteOperations_more :
    ready .e h0 fr (st [(1, 0x20000), (2, 5)]) = true ∧ decodeAddr 0 0x20000 = some (.paged 0x20000) ∧
    (let p := { pkt 3 8 with addr := W (tcmBase 0 + 0x8000) }
     let s := onNet ({ stE [] with eng := { Engines.reset with locks := [lockOn (tcmBase 0 + 0x8000) 64 true] } }) [p]
     (match takePkt s s.arg.id 3 with
      | some (q, t) => runs t edgeAgent q.addr q.len 1 (fun u a => lockedW u a.lockKey q.len)
      | none => false) = true) ∧
    ([(2, RemoteKind.rld), (4, .rst), (6, .ramo)].all fun k =>
      let p := { pkt k.1 8 with sub := 5 }
      let s := { onNet (stRem k.2) [p] with now := 399999 }
      (match takePkt s s.arg.id k.1 with
        | some (q, t) => (match remoteOf t (pktCore q) q.xid with
          | some (o, r) => decide (o.cyc + 400000 = 400000 ∧ s.now < o.cyc + 400000 ∧ q.sub ≠ 0 ∧ r.left = 1 ∧ r.vals = [] ∧ r.faults = [] ∧ r.lines = [] ∧ r.group = none ∧
              findOut (t.core 0) o.id = some o)
          | none => false)
        | none => false)) = true ∧
    (let s := { onNet (stRem .rld) [pkt 2 8] with now := 400000 }
     (takePkt s 0 2).isSome = true) ∧
    (let s := (stE [(2, near 0x3000)]).onSched 0 fun d => { d with chans := [(3, chanD)] }
     reservedTcm (begun s) 0 0x3000 64 = true ∧ supState (issuer s) = false ∧ ready .e h0 fr s = true ∧ (5 : Nat) < 4096) ∧
    (let s := stGrp group0 [(2, 0xFD_0050_0000_0010)]
     ready .e h0 fr s = true ∧ decodeAddr 0 (wf (effAddr (issuer s) ⟨2, 0, 0, 0⟩) 0 56) = some (.aperture 5 0x10) ∧
       (0xFD_0050_0000_0010 : Word).toNat % 16 = 0 ∧ (issuer s).cache.injq < 32) ∧
    (let s := (stGrp group0 [(2, 0xFD_0050_0000_0010)]).onCache 0 fun k => { k with injq := 32 }
     32 ≤ (issuer s).cache.injq ∧ ready .e h0 fr s = true) := by decide

/-- A lode engine with credit. -/
def stLode (ws : List Word) (f : State → State) : State := creditFor (f (recIn (stE []) ws)) 0 3 1
def okWords : List Word := [W (tcmBase 0 + 0x8000), W (2 ^ 63) + desig3, 0, 0]
theorem meets_RecordsAndTransfers_more :
    (let s := stLode okWords fun s => onLode s 200 job0
     granted s 0 3 1 1 = true ∧ dieOn s s.arg.unit = true ∧ 200 ∉ s.rcv.fences.lodes ∧ storesBefore (s.core 0) 0 = false ∧
       granted (onLode (recIn (stE []) okWords) 200 job0) 0 3 1 1 = false) ∧
    (let s := stLode okWords fun s => s.onEng fun e => { e with lodes := [(1000, { jobs := [job0], seq := 0 })] }
     (lodeOf s 200).jobs.find? (fun x => decide (x.next < x.count)) = none ∧ (lodeOf s (1000 + s.arg.unit)).jobs = [job0]) ∧
    (let s := stLode okWords fun s => poisonTcm (onLode s 200 job0) 0x400 1
     poisonCode s (tcmBase 0 + 0x400) 32 = some 3 ∧ placeBusy s (.array (tcmBase 0 + 0x400)) = false) ∧
    (let s := stLode okWords fun s => poisonTcm (onLode s 200 job0) 0x8000 1
     runs s { unit := 200, owner := 1, die := 0, core := some 0, src := W (tcmBase 0 + 0x8000) } (W (tcmBase 0 + 0x8000)) 64 0 (fun t q => poisonCode t q.addr 64 == some 3 && !engineBusy t q 64 false) = true) ∧
    (let w2 : Word := W (2 ^ 37)
     wb w2 63 = false ∧ wf w2 37 26 ≠ 0 ∧ lodeDest (W (2 ^ 63) + desig3) = some desig3) ∧
    (let e := fun b a => { pend0 b a with at_ := 0 }
     let j := fun b a => { job0 with next := 1, pending := [e b a] }
     ([(false, some desig3, 1, 0), (true, none, 1, 0), (false, none, 1, 0), (false, none, 0, 0), (false, none, 6, 0), (false, none, 2, 11), (false, none, 7, 10)].all
       fun (c : Bool × Option Word × Nat × Nat) =>
       withPkt (onLode (stIss (st []) fun k => { k with outs := [outOf 0 3 .lode] }) 200 (j c.1 c.2.1)) { pkt 8 0 with xid := 2 ^ 31, val := W c.2.2.1, sub := c.2.2.2 }
         (fun p t => decide (findPend t p.xid = some (200, j c.1 c.2.1, e c.1 c.2.1) ∧ t.live 1 = true))) = true ∧
       (let s := { st [] with now := 400000 }
        (e false none).at_ + 400000 ≤ s.now)) ∧
    (let s := { stIss (st []) (fun k => { k with outs := [outOf 0 3 (.send 5)] }) with now := 400000 }
     withPkt s (pkt 8 0) (fun p t => (match sendOf t (pktCore p) p.xid with
       | some (o, _) => decide (o.cyc + 400000 ≤ t.now) && decide (findOut (t.core 0) o.id = some o)
       | none => false)) = true) ∧
    (let p := { pkt 7 64 with addr := desig3, data := bytesOfWords [0x10000, 0, 0, 0, 0, 0, 0, 0] }
     let torn := (st []).onSched 0 fun d => { d with torn := [(3, 4)] }
     withPkt torn p (fun _ t => decide (chanOf t 0 3 = none ∧ mget? (t.core 0).sched.torn 3 = some 4 ∧ t.live 4 = false)) = true ∧
       withPkt (st []) p (fun _ t => decide (chanOf t 0 3 = none ∧ mget? (t.core 0).sched.torn 3 = none)) = true ∧
       withPkt (stChan { chanD with owner := 4 } []) p (fun _ t => decide (t.live 4 = false)) = true ∧
       withPkt (stChan chanD []) { p with owner := 2 } (fun p _ => decide (chanD.owner ≠ p.owner)) = true ∧
       withPkt (stChan { chanD with items := List.replicate 4 (rec8 0) } []) p (fun _ t => (chanOf t 0 3).any fun c => decide (c.room = 0)) = true ∧
       (admitFail chanD.codeb 6).isSome = true) ∧
    (let s := recIn (st [(2, near 0x400)]) [W (tcmBase 0 + 0x8004), W (tcmBase 0 + 0x9000), 8, W (2 ^ 14), 0, 0, 0, 0]
     ready .e h0 fr s = true ∧ (readWord s.mem (tcmBase 0 + 0x400)).toNat % 8 ≠ 0 ∧
       rdxMalformed (begun s) 0 ((List.range 8).map fun k => readWord s.mem (tcmBase 0 + 0x400 + 8 * k)) = false) ∧
    (let s := stWb (ent glob (.bytes [1]) false) [{ outOf 1 3 (.remote (rop .rdx none)) with id := 1 }]
     let p := { pkt 9 64 with xid := 1, data := bytesOfWords rdxWordsOk }
     p.srcMod = s.ownMod ∧ (remoteOf s 0 1).any (fun x => storesBefore (s.core 0) x.1.id) = true ∧ (takePkt (onNet s [p]) 0 9).isSome = true) ∧
    (withPkt (st []) { pkt 9 64 with srcMod := 4, data := bytesOfWords rdxWordsOk } (fun p t =>
      (match rdxRead t p (W (tcmBase 0 + 0x8000)) (rdxPieces (tcmBase 0 + 0x8000) (tcmBase 0 + 0x9000) 2 0 8) with
        | some (_, _, some _) => true
        | _ => false)) = true) ∧
    ({ pkt 10 0 with remain := 0 }.len = 0 ∧
      (let p := { pkt 10 8 with val := W (tcmBase 0 + 0x9000), data := [1, 2, 3, 4, 5, 6, 7, 8], remain := 1, req := 2 ^ 32 }
       withPkt (st []) p (fun p t => (match rdxWords t p none false p.val (p.len / 8) (p.data.take p.len) with
         | some (_, some _) => true
         | _ => false)) = true ∧
       withPkt (stLock (stE [])) { p with val := W (tcmBase 0) } (fun p t => (match rdxWords t p none false p.val (p.len / 8) (p.data.take p.len) with
         | some (_, some _) => true
         | _ => false)) = true)) ∧
    (let r := { rop .rdx none with left := 2, members := [(0, 0x40), (0, 0x80)] }
     let s := stIss (st []) fun i => { i with outs := [outOf 0 3 (.remote r)], opCount := 1 }
     withPkt s { pkt 11 0 with val := 0x80, sub := 5 } (fun p t => (match remoteOf t (pktCore p) p.xid with
       | some (o, x) => decide (x.kind = .rdx ∧ x.group = none ∧ 1 < x.left ∧ ¬ o.cyc + 400000 ≤ t.now)
       | none => false)) = true ∧
       withPkt { stRem .rdx with now := 400000 } (pkt 12 0) (fun p t => (match remoteOf t (pktCore p) p.xid with
         | some (o, _) => decide (o.cyc + 400000 ≤ t.now)
         | none => false)) = true ∧
       withPkt (stRem .rdx) { pkt 11 0 with sub := 6 } (fun p t => (match remoteOf t (pktCore p) p.xid with
         | some (_, x) => decide (x.left = 1 ∧ x.faults = [] ∧ p.sub ≠ 0)
         | none => false)) = true) := by decide
theorem meets_RecordsAndChannels_more :
    wf (W (17 * 2 ^ 58)) 58 5 = 17 ∧ wf (W (15 * 2 ^ 54)) 54 4 = 15 ∧ wf (W (9 * 2 ^ 32)) 32 16 ≠ fr.owner ∧
    (let s := (st []).onSched 0 fun d => { d with deque := List.replicate 64 { words := [], owner := 1, prio := 8, budget := 1024, pin := false } }
     64 ≤ (issuer s).sched.deque.length ∧ ready .e h0 fr s = true) ∧
    (let s := stEdge (stChan chanD []) (edge .token (rec8 0))
     ((begun s).core 0).sched.edges.any (fun r => r.ch == 3) = true ∧ chanD.items = [] ∧ chanD.reservedSlots = 0 ∧ chanD.inputOf = none) ∧
    (1 ≤ wf (0x111 : Word) 4 5 ∧ wf (0x111 : Word) 4 5 = 17 ∧ wf (0x11E : Word) 0 4 = 14 ∧ wf (0x12E : Word) 4 5 = 18) ∧
    recAt (begun (recIn (stE []) [W (3 * 2 ^ 16 + 8 * 2 ^ 24), 0, 0, 0, 0, 0, 0, 0])) (near 0x400) (fun v ws =>
      match chanRec v ws false with
      | some (k, ch, cap, off, prio, bc) => k == 0 && ch == 3 && cap == 256 && off == 0 && prio == 0 && bc == 0 && (placeRing (v.core 0) 0 256).isSome
      | none => false) = true := by decide
theorem meets_ActorsAndStealing_more :
    (let s := (st []).putCore 1 { coreOf frA [] with sched := { (coreOf frA []).sched with actors := [(0, actor0)] } }
     localDesig (begun s) (W (2 ^ 16)) = some { ch := 0, core := 1, mod := 0 } ∧ inFlight (begun s) 1 0 = true ∧
       actorOf ((begun s).core 1) 0 = some actor0 ∧ actor0.splicing = none ∧ actor0.perf = none) ∧
    (let a := { actor0 with splicing := some (1, 0) }
     (actorOf ((stA a []).core 0) 0).map (fun a => a.splicing.isSome) = some true) ∧ ({ actor0 with owner := 2 } : Actor).owner ≠ frA.owner := by decide
def perf0 (copied : Bool) (copy : Option Nat) : Perf := { core := 0, slot := none, rebind := false, copied, copy, pass := [(3, 0, 4)] }
def actorP (copied : Bool) : Actor := { actorIO with stLen := 64, perf := some (perf0 copied none), splicing := some (1, 0) }
/-- A marker with this outcome. -/
def mk (stage : Nat) (o : Option Nat) : ChItem := .marker { marker0 1 stage [] with outcome := o }
theorem meets_Splices_more :
    (let s := (recIn (stIO .unbound fr) (spWords 0 (near 0x440))).onMem fun m => writeBytes m (tcmBase 0 + 0x440) (bytesOfWords (newBind 0))
     recAt (begun s) (near 0x400) (fun v ws => ws == spWords 0 (near 0x440) && spliceOk ws && recAt v (near 0x440) (fun v b => b == newBind 0 && spliceBindOk v 0 b)) = true) ∧
    (let s := stIO .unbound fr
     (chanOf s 0 3).map (fun C => (C.task, C.inputOf.isSome)) = some (false, true) ∧ inputZeroRate s 0 3 = some 1 ∧
       (chanOf (stChan chanD []) 0 3).map (·.task) = some true ∧ inputZeroRate (stIO .unbound fr) 0 4 = none) ∧
    (let e := { edge .marker (.marker (marker0 1 0 [])) with lost := true }
     edgeFind (stEdge (stIO .unbound fr) e) 0 3 .marker = some e) ∧
    (markerToForward actorIO [rec8 0, mk 9 (some 3), mk 9 none] = some { marker0 1 9 [] with outcome := some 3 } ∧
      markerToForward { actorIO with stopped := true } [rec8 0, mk 9 (some 3)] = none ∧ markerToForward actorIO [mk 9 none, rec8 0] = some (marker0 1 9 []) ∧
      markerToForward actorIO [mk 0 none] = none) ∧
    (let s := stPerf actorIO [mk 9 none]
     actorOf (s.core 0) 0 = some actorIO ∧ actorIO.perf = none ∧ vget actorIO.outs none 0 = some (0, 4, 1) ∧ (chanOf s 0 4).map (fun D => decide (D.room = 0)) = some false) ∧
    (let s := (stPerf actorIO [mk 9 none]).onSched 0 fun d => { d with chans := d.chans.filter (·.1 == 3) }
     chanOf s 0 4 = none) := by decide
theorem meets_Splices_perform :
    (let a := { actorIO with stopped := true }
     let s := stPerf a [rec8 1, mk 0 none]
     actorOf (s.core 0) 0 = some a ∧ inFlight s 0 0 = false ∧ mget? (s.core 0).sched.armed 0 = none) ∧
    (let s := stPerf actorIO [rec8 1, mk 0 none]
     actorIO.stopped = false ∧ (chanOf s 0 3).map (·.items) = some [rec8 1, mk 0 none]) ∧
    (outZero (stPerf actor0 []) { actor0 with ins := actorIO.ins } = none ∧ ({ actorIO with splicing := some (1, 0) } : Actor).splicing.isSome = true ∧
      bindCore (newBind 1) ≠ 0 ∧ freeSlot ((stPerf actorIO []).core 1) = some 0) ∧
    (let a := actorP false
     let s := stPerf a []
     let c := stateCopy s 0 0 a (perf0 false none)
     actorOf (s.core 0) 0 = some a ∧ inFlight s 0 0 = false ∧ c.len = 64 ∧ locksClash s c.locks = false ∧ locksFit s 0 c.locks = true ∧
       (s.core 0).sched.fifo.length < 8) ∧
    (let a := actorP true
     let s := stPerf a [rec8 1]
     actorOf (s.core 0) 0 = some a ∧ (chanOf s 0 4).map (fun D => decide (D.room = 0)) = some false ∧ (chanOf s 0 3).map (·.items) = some [rec8 1]) ∧
    (let a := actorP true
     let s := (stPerf a []).onSched 0 fun d => { d with actors := [(0, a), (1, { actor0 with outs := vset actor0.outs 0 (some (0, 3, 1)) })] }
     (chanOf s 0 3).map (fun C => (C.items, C.reserved)) = some ([], []) ∧ (actorOf (s.core 0) 1).map (fun b => vget b.outs none 0) = some (some (0, 3, 1))) := by
  refine ⟨by decide, by decide, by decide, by decide, by decide, by decide⟩
theorem meets_RightsRegionsAndWays_more :
    (let C : Word := W (2 ^ 30 + 5 * 2 ^ 16 + 2)
     wf C 31 33 = 0 ∧ wb C 30 = true ∧ wf C 16 14 ≠ (st []).ownMod ∧ reachSub (begun (st [])) 0 5 = some 10 ∧ reachSub (begun (st [])) 3 5 = some 8 ∧ ready .e h0 fr (st [(3, C)]) = true) ∧
    reachSub (begun ((st []).onEng fun e => { e with routes := [(9, 1)], ports := [(0, { portOf (st []) 0 with st := .active })] })) 0 9 = none ∧
    (mixedKinds 0xEF_FFFF_FFFF_0000 0x20000 = true ∧ mixedKinds 0x20000 0x10000 = false ∧ mixedKinds (tcmBase 0 + 0x10000) 0x20000 = true) ∧
    (let u := (begun stTwo).onMem fun m => entE 1 0x20000 0x10000 m
     (tableEnts u 1).any (fun e => e.2 == ent1) = true) ∧
    (let v := (stTwo.onMem fun m => writeBytes m (entAddr stTwo 2 0) (bytesOfWords (entWords { ent1 with granter := 1 })))
     ((tableEnts v 2).find? fun x => x.2.base == 0x20000 && x.2.length == 0x10000 && x.2.colour == 0 && x.2.granter == 1) = some (0, { ent1 with granter := 1 }) ∧
       (((tableEnts v 2).filter fun x => x.2.granter == 1 && x.2.meets 0x28000 0x10000).any fun x => !x.2.within 0x28000 0x10000) = true) ∧
    (let u := (stTwo.onMem fun m => (List.range 4).foldl (fun m k => writeBytes m (entAddr stTwo 2 k) (bytesOfWords (entWords { ent1 with base := 0x100000 + 0x10000 * k }))) m)
     firstEmpty (begun u) 2 = none) ∧
    (let u := begun (stS [])
     zeroWaits u (tcmBase 0) 0x20000 = false ∧ imageOf (entWords { ent1 with base := tcmBase 0, length := 0x20000 }) = .ent { ent1 with base := tcmBase 0, length := 0x20000 } ∧
       entKind (tcmBase 0) ≠ some 0) ∧
    zeroWaits (testIn (.pattern 600000)) (tusBase 0) 0x100000 = true ∧
    (let j : DropJob := { n := 0, owner := some 1, ents := none, core := some 0, out := 0, dropped := true, pinv := true, waits := [], stores := [] }
     DropJob.ended { st [] with drops := [j] } j = true ∧ findOut ((st []).core 0) 0 = none) := by decide
theorem meets_RightsRegionsAndWays_table :
    (let u := begun ((stS []).onMem fun m => writeBytes m (tcmBase 0 + 0x400) (bytesOfWords (entWords { ent1 with world := 9 })))
     imageOf (wordsLe 4 (readBytes u.mem (tcmBase 0 + 0x400) 32)) = .ent { ent1 with world := 9 } ∧ u.worldOf 1 = 0 ∧ unperfOverlap (u.core 0) (tcmBase 0 + 0x400) 32 = false ∧
       matrixOverlap (u.core 0) 0x400 32 = false ∧ blockedRead u (tcmBase 0 + 0x400) 32 = none ∧ poisonCode u (tcmBase 0 + 0x400) 32 = none) ∧
    (let s := onOwners (st []) fun o => { o with tearBusy := true, tearOwner := 1 }
     s.owners.tearBusy = true ∧ (st []).live 1 = true) ∧
    ((255 : Nat) < 256 ∧ (7 : Nat) < 8 ∧ (0x7FFFF8 + 8 : Nat) ≤ 0x800000 ∧ 0xA0000 ≤ (0xA1FF8 : Nat)) := by decide
theorem meets_SavesAndPreemption_more :
    ready .e h0 { frH with owner := 1 } ((stOf (coreOf { frH with owner := 1 } [])).onMem fun m => entE 0 (tcmBase 0) 0x20000 m) = true ∧
    framePoison (stH []) 0 0 16 = none ∧ framePoison (poisonTcm (stH []) 0x1F878 1) 0 0 16 ≠ none ∧ framePoison (poisonTcm (stH []) 0x1F828 1) 0 5 1 ≠ none ∧
    (let u := begun (stS [])
     (match checkRun u 0 (near 0x4000) 0 1 with
      | .ok v => (v.core 0).cache.wmWait.isNone && !runBusy v 0 (near 0x4000) 1 && (runPoison v 0 (near 0x4000) 1).isNone && !matrixBusy (v.core 0) &&
          !areaBusy v 0 (near 0x4000) 1 false
      | _ => false) = true) ∧
    (let s := (st []).onSched 0 fun d => { d with preemptIn := [(0x40000, 1)], preempt := some (0x50000, 2) }
     (s.core 0).sched.preempt.isSome = true) ∧
    (let p : Parts := { tables := false, tiles := false, firing := true }
     p.length = 960 ∧ p.has p = true ∧ (saveSections (stH []) 0 p).length + 64 = p.length) := by decide
def stIdle0 : State := stOf { coreOf fr [] with firing := none }
/-- The hypothesis AreaAt, computed. -/
def areaOf (s : State) (ea : Word) (blocks : Nat) (k : State → List Byte → Bool) : Bool :=
  match checkRun s 0 ea 0 blocks with
  | .ok v =>
    let w := v.onCache 0 fun k => { k with wmWait := none }
    !matrixBusy (v.core 0) && !areaBusy v 0 ea blocks false && (v.core 0).cache.wmWait.isNone && !runBusy w 0 ea blocks &&
      (runPoison w 0 ea blocks).isNone && k (touchBlocks w 0 ea blocks) ((List.range blocks).flatMap fun b => blockNow w 0 (ea + BitVec.ofNat 64 (64 * b)))
  | _ => false
set_option exponentiation.threshold 600 in
theorem meets_SavesAndPreemption_restore :
    areaOf (begun ((stS []).onMem fun m => writeBytes m (tcmBase 0 + 0x4000) (savedArea.take 64))) (near 0x4000) 1 (fun v hd =>
      let w := fun k => (wordsLe 8 hd).getD k 0
      wb (w 0) 63 && (w 1).toNat == noParts.length && decide (Parts.ofCode (wf (w 0) 0 3) = noParts) && noParts.has noParts &&
        areaOf v (near 0x4000) 35 (fun _ area => crc32c (area.drop 64) == wf (w 2) 0 32 && area.length == 2240)) = true := by decide +kernel
def errState (s : State) (e : ErrInfo) (list : List Nat) (off : Nat) : State := { s with arg := { EvArg.none with err := some e, list, off } }
theorem meets_ErrorsBanksAndTests_errors :
    ([(1, 0), (2, 423), (4, 0)].all fun c => let e := errAt c.2 c.1 (some 0) 0 (some 0x20000)
      decide ((e.code = 1 ∨ e.code = 2 ∨ e.code = 4) ∧ e.bank / 512 ≤ 8 ∧ e.bank % 512 ≤ 423 ∧ dieOn (st []) (e.bank / 512) = true ∧ e.core.all (coreOn (st [])) = true)) = true ∧
    (errState (st []) (errAt 0 2 (some 0) 0 (some 0x20000)) [3, 1, 0] 0).arg.list = [3, 1, 0] ∧
    (errState (st []) (errAt 0 2 none 0 (some 0x20000)) [4, 0, 2] 0).arg.list = [4, 0, 2] ∧
    ((errAt (512 * 8 + 384) 15 none 0 none).bank / 512 = 8 ∧ (errAt (512 * 8 + 384) 15 none 0 none).bank % 512 = 384 ∧
      (errAt (512 * 8 + 423) 16 none 0 none).bank % 512 = 423 ∧ (errAt 381 15 none 0 none).bank % 512 < 382) ∧
    ((stIdle0).core 0).firing = none ∧
    (let g := gang4 1 0
     let s := { stGang (some 0) true with gangs := [g] }
     s.gangs[0]? = some g ∧ g.members.any (fun x => x.1 == 0 && (findOut (s.core 0) x.2.1).any (fun o => o.pc == 0x10000)) = true) ∧
    (let s := stIss (st []) fun k => { k with outs := [outOf 0 3 .lode] }
     s.gangs = [] ∧ (s.core 0).iss.outs.find? (·.pc == 0x10000) = some (outOf 0 3 .lode) ∧ findOut (s.core 0) 0 = some (outOf 0 3 .lode) ∧
       (s.core 0).firing.map (·.num) = some (outOf 0 3 .lode).firing) ∧
    (dieOn (st []) 8 = true ∧ dieOn (st []) 9 = false ∧ (362 ≤ (362 : Nat) ∧ (377 : Nat) ≤ 377 ∧ (378 : Nat) ≤ 381 ∧ (402 : Nat) ≤ 419 ∧ (39 : Nat) < 40 ∧ (385 : Nat) ≤ 400)) ∧
    (let s := { (st []) with homes := { (st []).homes with meres := [(39, [{ line := 7, set := 7, way := 0, cls := 1, use := 0, dirty := true }])] } }
     (mget? s.homes.meres (720 * 0 + 40 * 0 + 39)).map (fun ls => ls.map fun l => (l.dirty, l.line)) = some [(true, 7)]) ∧
    (poisonable (st []) 3 (tcmBase 0) = true ∧ poisonable (st []) 6 0x40 = true ∧ poisonable (st []) 7 0x40 = true) ∧
    copyOf (stCp { copy0 with st := .running 4 }) 0 = some { copy0 with st := .running 4 } := by decide
theorem meets_ErrorsBanksAndTests_tests :
    (let s := { testIn (.pattern 600000) with arg := { EvArg.none with off := 3 } }
     s.arg.off % 256 + s.arg.id % 256 * 2 ^ 8 + (if s.arg.v = 0 then 0 else 2 ^ 16) ≠ 0 ∧ (testOf s s.arg.unit).queue = (0, false) :: [] ∧
       (testOf s s.arg.unit).phase = .pattern 600000) ∧
    ([(385, true), (400, true), (384, false), (401, false)].all fun x =>
      decide (((512 * 4 + x.1) / 512 = 4 ∧ 385 ≤ (512 * 4 + x.1) % 512 ∧ (512 * 4 + x.1) % 512 ≤ 400) ↔ x.2 = true)) = true ∧
    ¬ (424 / 512 ≤ 8 ∧ 424 % 512 ≤ 423) ∧ ((512 * 8 + 423) / 512 ≤ 8 ∧ (512 * 8 + 423) % 512 ≤ 423) ∧ ¬ (512 * 9 / 512 ≤ 8) ∧
    (0x40000 % 2 ^ 18 = 0 ∧ 0x40000 + 2 ^ 18 ≤ (st []).hbmEnd ∧ (0x20000 : Nat) % 2 ^ 18 ≠ 0) := by decide
/-- The state of an event with these operands. -/
def evt (s : State) (off : Nat) (v : Word) : State := { s with arg := { EvArg.none with off, v } }
theorem meets_StartAndHost_more :
    (let s := { (onBoot (st []) fun b => { b with st := .report 8 }) with now := 240000000000 }
     (∃ r, s.boot.st = .report r) ∧ s.boot.lastPost + 240000000000 ≤ s.now ∧ s.boot.postDue = false) ∧
    (3 ≤ (onBoot (st []) fun b => { b with flash := { b.flash with fails := 3 } }).boot.flash.fails ∧ ¬ 3 ≤ (st []).boot.flash.fails) ∧
    (let s := evt (onBoot (st []) fun b => { b with st := .firmware, minimal := true }) 0 0
     s.boot.st = .firmware ∧ s.arg.v = 0 ∧ s.boot.minimal = true) ∧
    (wb (W (2 ^ 63 + 5)) 63 = true ∧ wf (W (2 ^ 63 + 5)) 0 14 = 5) ∧
    ([0xFF82000000 + 64 * 3, 0xFF82000008 + 64 * 3, 0xFF82000010 + 64 * 3, 0xFF80000000 + 0x10000 * 8, 0xFF80000008, 0xFF80000010,
      0xFF81000100 + 0x10000 * 8 + 128 * 3 + 8 * 15, 0xFF81000000, 0xFF81000008, 0xFF83000018, 0xFF86000010, 0xFF86000100, 0xFF87000000, 0xFF87000008].all
        fun a => decide (a % 8 = 0 ∧ ¬ a < (st []).hbmEnd)) = true ∧ coreOn (st []) 3 = true ∧ 0x1004 % 8 ≠ 0 ∧
    (let s := { (evt { st [] with hostown := 1 } 64 0) with arg := { EvArg.none with off := 64, data := List.replicate 64 0 } }
     s.arg.data.length = 64 ∧ s.arg.off % 64 = 0 ∧ coreOn s (s.arg.off / 64) = true ∧ s.hostown ≠ 0 ∧ wf ((wordsLe 8 s.arg.data).getD 1 0) 32 16 = 0 ∧
       wf ((wordsLe 8 s.arg.data).getD 1 0) 54 4 ≠ 15) ∧
    (wf (W (15 * 2 ^ 54)) 54 4 = 15 ∧ wf (W (2 * 2 ^ 32)) 32 16 ≠ 0 ∧ wf (W (2 * 2 ^ 32)) 32 16 ≠ 1) ∧
    (let s := (evt (st []) 56 0).onSched 0 fun d => { d with window := vset d.window 1 (W (2 ^ 32)) }
     coreOn s s.arg.core = true ∧ s.arg.off / 8 = 7 ∧ wf (((vset (s.core 0).sched.window 7 s.arg.v).toList).getD 1 0) 32 16 = 1 ∧
       wf (((vset ((evt (st []) 56 0).core 0).sched.window 7 0).toList).getD 1 0) 32 16 = 0 ∧ (evt (st []) 48 0).arg.off / 8 < 7 ∧ 8 ≤ (evt (st []) 64 0).arg.off / 8) ∧
    (let s := (st []).onSched 0 fun d => { d with windowq := [launch0 0x10000 0 false, launch0 0x10000 (W (15 * 2 ^ 54)) true], launchq := List.replicate 16 (launch0 0x10000 0 false) }
     (s.core 0).sched.windowq = [launch0 0x10000 0 false] ++ launch0 0x10000 (W (15 * 2 ^ 54)) true :: [] ∧ ¬ (s.core 0).sched.launchq.length < 16 ∧
       (s.core 0).sched.supq.length < 16 ∧ admitted (s.core 0).sched.scodeb 0x10000 = true) ∧
    (18 ≤ wf (W (18 * 2 ^ 58)) 58 5 ∧ wf (W (2 ^ 48)) 48 6 ≠ 0 ∧ 6 ≤ wf (6 : Word) 0 3 ∧ wf (8 : Word) 3 3 ≠ 0) := by
  refine ⟨⟨⟨8, rfl⟩, by decide⟩, by decide, by decide, by decide, by decide, by decide, by decide, by decide, by decide, by decide, by decide, by decide⟩
theorem meets_WalkersAndPorts_more :
    (let s := onWalk (stWalk 0) fun k => { k with tcache := [(0, 2, 0x200003)] }
     cachedEntry (s.walker 0) 0 0x20000 = some 0x200003 ∧
       pteOf s 0x200003 0 0x20000 = .leaf { page := 0x20000, size := 2 ^ 16, frame := 0x200000, c := false, key := 0, mlock := false } false) ∧
    (let s := stWalk 0
     let s := { s with homes := { s.homes with zp := [pteAddr 0x300000 0 0x20000 / 64] } }
     cachedEntry (s.walker 0) 0 0x20000 = none ∧ pteAddr 0x300000 0 0x20000 / 64 ∈ s.homes.zp ∧ poisonCode s (pteAddr 0x300000 0 0x20000) 8 = none) ∧
    (let s := stWalk 0
     let s := { s with rcv := { s.rcv with poisonLines := [(pteAddr 0x300000 0 0x20000 / 64, 5)] } }
     cachedEntry (s.walker 0) 0 0x20000 = none ∧ poisonCode s (pteAddr 0x300000 0 0x20000) 8 = some 5) ∧
    ([0, 1, 2].all fun k =>
      let v := W (2 ^ 63 + k)
      decide (wb v 63 = true ∧ wf v 0 2 = k ∧ dieOn (st []) 0 = true ∧ wf v 16 16 = 0 ∧ ((st []).walker 0).shoot = none)) = true ∧
    lockedLeaf (st []) 0 0x20000 = none ∧ wf (W (2 ^ 63 + 2 ^ 16 + 2)) 16 16 ≠ 0 ∧
    ((onWalk (st []) fun k => { k with shoot := some (shoot0 0) }).walker 0).shoot.isSome = true ∧
    (let x := { shoot0 0 with waiting := [(0, [], []), (1, [], [])], ranges := [(0x20000, 0x10000)] }
     let s := onWalk (st []) fun k => { k with shoot := some x }
     (s.walker s.arg.unit).shoot = some x ∧ x.waiting ≠ [] ∧ reached s x.ranges (0, [], []) = true ∧ s.arg.core = 0) ∧
    (let h : HeldStore := { core := 0, seq := 0, va := 0x20008 }
     let s := onWalk { (st []) with homes := { (st []).homes with held := [h] } } fun k => { k with shoot := some (shoot0 2) }
     let s := { s with arg := { EvArg.none with id := 0x20000 } }
     switching s s.arg.id = some (shoot0 2) ∧ heldIn s (shoot0 2).first (shoot0 2).count = h :: []) := by
  refine ⟨by decide, by decide, by decide, by decide, by decide, by decide, by decide, by decide, by decide⟩
/-- A frame that awaits its acknowledgement. -/
def unacked : TxFrame := { fseq := 0, flit := trainFlit, key := key0, epoch := false }
def portA : Port := { port0 .auth with target := 2, tx := some key0, rx := some key0, replay := [unacked] }
/-- A port with all words of its key block but word 12. -/
def portK (x : PortSt) (t : Fin 4) : Port := { port0 x with target := t, replay := [unacked], blockSet := [0, 1, 2, 3, 4, 8, 9, 10, 11] }
theorem meets_WalkersAndPorts_ports :
    (let r := portA.control true 3
     portA.st ≠ .active ∧ r.st = .active ∧ r.tx = some key0 ∧ r.replay = [unacked] ∧ wf (3 : Word) 0 2 = 3) ∧
    (portA.control true 0).st = .down ∧ (portA.control true 1).st = .train ∧ (portA.control true 2).st = .auth ∧ wb (W (2 ^ 8)) 8 = true ∧
    ([(PortSt.auth, (3 : Fin 4)), (.auth, 2), (.active, 3)].all fun x =>
      let q := portK x.1 x.2
      [0, 1, 2, 3, 4, 8, 9, 10, 11, 12].all (fun j => (12 :: q.blockSet).contains j) && decide (q.st = .auth ∨ q.st = .active)) = true ∧
    ([0, 1, 2, 3, 4, 8, 9, 10, 11, 12].all fun j => (12 :: (port0 .auth).blockSet).contains j) = false ∧
    (let q := { port0 .active with tx := some key0, txq := [(pkt 1 8, none)] }
     granted (creditFor (onP q) 0 2 1) (portDie 0) 2 (pkt 1 8).owner 1 = true ∧ pktReady (creditFor (onP q) 0 2 1) (pkt 1 8) = true ∧
       granted (onP q) (portDie 0) 2 (pkt 1 8).owner 1 = false ∧ q.txFlit = 0) ∧
    (let q := { port0 .active with tx := some key0, replay := [unacked] }
     let s := { onP q with arg := { EvArg.none with id := 1 } }
     (portOf s s.arg.unit).tx = some key0 ∧ q.halted = false ∧ key0.count < 2 ^ 32 ∧ s.arg.id ≠ 0) ∧
    -- a duplicate, a frame ahead and the frame expected, with and without the keys before
    (let k := { key0 with count := 4 }
     let q := { port0 .active with rx := some k, rxSeq := 2 }
     let ahead := fun (n : Nat) => (n % 2 ^ 15 + 2 ^ 15 - q.rxSeq) % 2 ^ 15
     2 ^ 14 ≤ ahead 1 ∧ 2 ^ 15 - ahead 1 ≤ k.count ∧ ahead 5 = 3 ∧ ¬ 2 ^ 14 ≤ ahead 5 ∧ ahead 2 = 0 ∧ q.rxOld.isSome = false ∧
       (BitVec.ofNat 16 1).getLsbD 15 = q.epoch ∧ (BitVec.ofNat 16 (2 ^ 15 + 1)).getLsbD 15 ≠ q.epoch ∧ ¬ 2 ^ 15 - ahead 1 ≤ key0.count) ∧
    ((port0 .active).rx = none ∧ (port0 .active).rxOld = none) ∧
    (let q := { port0 .active with fails := [0, 1, 2] }
     3 ≤ (q.fails.filter fun t => decide ((onP q).now < t + 4000000000)).length ∧ ((port0 .active).fails.filter fun t => decide ((onP q).now < t + 4000000000)).length < 3) ∧
    (let f := frameOf (bytesOfWords [W (13 * 2 ^ 56), W (2 + 4 * 2 ^ 8), 0, 0, 0, 0, 0, 0]) true
     f.flit.length = 64 ∧ frameCrc f.flit f.gtag f.fseq f.ack = f.fcrc ∧ wf ((wordsLe 8 f.flit).getD 0 0) 56 8 = 13 ∧ wf ((wordsLe 8 f.flit).getD 1 0) 0 8 = 2) ∧
    (1024 ≤ ({ port0 .train with trainGood := 1023 } : Port).trainGood + 1 ∧ ({ port0 .train with target := 2 } : Port).target.val = 2 ∧
      (port0 .train).target.val < 2 ∧ (port0 .train).tx = none) := by
  refine ⟨by decide, by decide, by decide, by decide, by decide, by decide, by decide, by decide, by decide, by decide, by decide, by decide, by decide, by decide⟩
def lateB (at_ : Nat) : LateFault := late 0 at_
/-- Core 0 at the end of its budget. -/
def stExp (f : Firing) (g : CoreSt → CoreSt) : State := { (stOf (g (coreOf f []))) with now := f.budgetEnd }
/-- A queue of die 0's injection ports where flits of class 0 wait. -/
def stQueue (b : Vector Int 16) (quota : Vector Nat 16) : State :=
  let s := onP { port0 .active with txq := [(pkt 1 8, none)] }
  let s := { s with periods := [(0, s.timeUs + 1)], quotas := [(arbKey 0 2, quota)], arg := { EvArg.none with off := 2 } }
  onArb s 0 2 fun a => { a with b }
theorem meets_SchedulingAndServices_more :
    (let s := stIdle fun d => { d with supq := [{ launch0 0x10000 0 true with queued := true }] }
     (s.core 0).sched.preempt = none ∧ (s.core 0).sched.supq = { launch0 0x10000 0 true with queued := true } :: []) ∧
    admitted ((stIdle id).core 0).sched.scodeb 7 = false ∧
    (let s := { (stIdle fun d => { d with idle := .idle 0 0 }) with power := { (st []).power with withholding := true, withheld := [rowIdx 0] } }
     (s.core 0).sched.idle = .idle 0 0 ∧ rowWithheld s 0 = true) ∧
    (let s := stIdle fun d => { d with idle := .idle 0 0 }
     (s.core 0).sched.idle = .idle 0 0 ∧ rowWithheld s 0 = false ∧ stealable s 1 = false ∧ 0 + 4096 ≤ ({ s with now := 4096 } : State).now) ∧
    (let s := { (stIdle fun d => { d with idle := .idle 0 64 }) with now := 64 }
     (s.core 0).sched.idle = .idle 0 64 ∧ (64 : Nat) ≠ 0 ∧ 64 ≤ s.now ∧ ¬ 64 ≤ (stIdle id).now) ∧
    (stealable (stSteal.onSched 1 fun d => { d with novictim := true }) 1 = false ∧ stealable stSteal 1 = true) ∧
    -- budgets
    (let s := stExp fr fun c => { c with traps := { c.traps with ready := [lateB 5] } }
     ((flushDue s 0).core 0).firing = some fr ∧ fr.budgetEnd ≤ (flushDue s 0).now ∧ ((flushDue s 0).core 0).traps.pending = none ∧
       lateFault ((flushDue s 0).core 0) [] = some (0, lateB 5) ∧ (lateB 5).at_ < fr.budgetEnd) ∧
    (let s := stExp fr fun c => { c with traps := { c.traps with ready := [lateB fr.budgetEnd] } }
     lateFault ((flushDue s 0).core 0) [] = some (0, lateB fr.budgetEnd) ∧ fr.budgetEnd ≤ (lateB fr.budgetEnd).at_) ∧
    ([frH, { fr with expired := true }].all fun f =>
      let s := stExp f id
      decide (((flushDue s 0).core 0).firing = some f ∧ ((flushDue s 0).core 0).traps.pending = none ∧ lateFault ((flushDue s 0).core 0) [] = none ∧
        (f.handler = true ∨ f.expired = true))) = true ∧
    ([ptrap, { ptrap with cause := 0x13 }].all fun p =>
      let s := stExp fr fun c => { c with traps := { c.traps with pending := some p } }
      decide (((flushDue s 0).core 0).traps.pending = some p ∧ ((flushDue s 0).core 0).firing = some fr ∧ ((flushDue s 0).core 0).traps.abort = none ∧
        ((flushDue s 0).core 0).stopped = none)) = true ∧ ptrap.cause ≠ 0x13 ∧ fr.expired = false := by
  refine ⟨by decide, by decide, by decide, by decide, by decide, by decide, by decide, by decide, by decide, by decide, by decide, by decide⟩
theorem meets_SchedulingAndServices_services :
    (dieOn (st []) 0 = true ∧ dieOn (st []) 9 = false ∧ (mget? (st []).periods 0).getD 0 ≤ (st []).timeUs) ∧
    -- a token at hand, a token lent, no quota, and neither
    (let q := vset (Vector.replicate 16 0) 0 8
     let s := stQueue (Vector.replicate 16 1) q
     let v := startPeriods s 0
     unitsIn (unitsWaiting s 0 2) 0 = 1 ∧ (arbOf v 0 2).creditOf 0 = 0 ∧ 1 ≤ vget (arbOf v 0 2).b 0 0 ∧ nextClass (arbOf v 0 2).last (fun c => c == 0) = some 0) ∧
    (let q := vset (vset (Vector.replicate 16 0) 0 8) 1 8
     let s := stQueue (vset (Vector.replicate 16 0) 1 5) q
     let v := startPeriods s 0
     let a := arbOf v 0 2
     vget a.b 0 0 = 0 ∧ vget a.b 0 1 = 5 ∧ (0 : Int) < vget (quotasOf v 0 2) 0 0 ∧ unitsIn (unitsWaiting s 0 2) 1 = 0 ∧
       (List.range 16).all (fun g => g == 1 || decide (vget a.b 0 g < 1)) = true) ∧
    (let s := stQueue (Vector.replicate 16 0) (Vector.replicate 16 0)
     vget (quotasOf (startPeriods s 0) 0 2) 0 0 = 0 ∧ (List.range 16).all (fun g => decide (vget (arbOf (startPeriods s 0) 0 2).b 0 g < 1)) = true) ∧
    (let s := stQueue (Vector.replicate 16 0) (vset (Vector.replicate 16 0) 0 8)
     vget (quotasOf (startPeriods s 0) 0 2) 0 0 ≠ 0 ∧ (List.range 16).all (fun g => decide (vget (arbOf (startPeriods s 0) 0 2).b 0 g < 1)) = true) ∧
    (let p : Power := { (st []).power with pcap := 100 }
     p.pcap ≠ 0 ∧ p.pcap < 101 ∧ ¬ p.pcap < 100 ∧ (st []).power.throttled = false ∧ ({ p with throttled := true } : Power).throttled = true) ∧
    (let s := { (st []) with now := 16384, arrivals := [arrived 0, { arrived 0 with at_ := 1 }, { arrived 0 with x0 := 1, at_ := 1 }] }
     (arrived 0).expired s.now = true ∧ ({ arrived 0 with at_ := 1 } : Arrival).expired s.now = false ∧ ({ arrived 0 with at_ := 1 } : Arrival).includes 0 = true ∧
       ({ arrived 0 with x0 := 1, at_ := 1 } : Arrival).includes 0 = false ∧ (arrived 0).hold = none ∧ coreOn s 0 = true ∧ (s.core 0).stopped = none) ∧
    (let s := stL1.putCore 0 { (stL1.core 0) with stopped := some 0 }
     (s.core 0).stopped = some 0 ∧ (s.core 0).cache.l1 ≠ [] ∧ (s.core 0).firing = some fr ∧ 0 ≤ fr.budgetEnd) := by
  refine ⟨by decide, by decide, by decide, by decide, by decide, by decide, by decide, by decide⟩
/-! ## Clauses on what holds an access back, or what an open trap, drop or splice changes -/

theorem meets_PreciseTrapEntersHandler_budget :
    ([false, true].all fun b =>
      let f := { fr with expired := b }
      let s := stExp f fun c => { c with sched := { c.sched with traph := 0x40000 } }
      decide ((s.core 0).traps.abort = none ∧ f.budgetEnd ≤ s.now ∧ (s.core 0).traps.ready = [] ∧ f.expired = b) && quiet (s.core 0)) = true := by decide
theorem meets_HandlerInstructions_waits :
    (let s := stIss (stH []) fun k => { k with tags := vset k.tags 3 .outstanding, outs := [outOf 1 3 .lode], opCount := 2 }
     framePoison s 0 2 10 = none ∧ handlerBusy (issuer s) = true ∧ (issuer s).traps.decided = false ∧ ready .none h0 frH s = true) ∧
    (let s := (stH []).onTraps 0 fun t => { t with decided := true }
     (issuer s).traps.decided = true ∧ handlerBusy (issuer s) = false) := by decide
theorem meets_StoresReachTheirHome_tussock :
    (let e := ent (.array (tusBase 8)) (.bytes [1, 2]) true
     let s := stWb e [outOf 0 3 (.stored 0 none)]
     let t := { s with rcv := { Recovery.reset with fences := { Recovery.reset.fences with tussocks := [8] } } }
     decodeAddr 0 (tusBase 8) = some (.tussock 8 0) ∧ atHome s 0 0 = some e ∧ 8 ∉ s.rcv.fences.tussocks ∧ lockedFor s 0 e.id (tusBase 8) 2 = false ∧
       atHome t 0 0 = some e ∧ 8 ∈ t.rcv.fences.tussocks) := by decide
theorem meets_AtomicInstructions_paged :
    (let r : AtomicReq := { op := 0, bytes := 8, operand := 5, expected := 0 }
     let e := { ent glob (.atomic r) true with sync := true }
     let s := stWb e [outOf 0 3 (.stored 0 (some 4))]
     let s := { s with homes := { s.homes with lineKey := [(0x200008 / 64, 0)] } }
     atHome s 0 s.arg.id = some e ∧ Memory.wf s.mem = true ∧ mget? s.homes.lineKey (0x200008 / 64) = some (keyNum s 0) ∧
       s.homes.zp.contains (0x200008 / 64) = false ∧ poisonCode s 0x200008 8 = none ∧ lockedFor s 0 e.id 0x20008 8 = false ∧
       migrationLocked e.place = false ∧ migrationLocked (.global 0x20008 0x200008 0 true true) = true) ∧
    -- a compare and swap that fails, and one that does not, in a locked range
    ([0, 9].all fun x =>
      let e := { ent (.array (tcmBase 0)) (.atomic { op := 12, bytes := 8, operand := 5, expected := x }) true with sync := true }
      let s := { stWb e [outOf 0 3 (.stored 0 (some 4))] with eng := { Engines.reset with locks := [lockOn (tcmBase 0) 64 true] } }
      decide (atHome s 0 s.arg.id = some e ∧ lockedFor s 0 e.id (tcmBase 0) 8 = true)) = true ∧
    blockedRead (stLock (st [])) (tcmBase 0) 8 = none ∧
    (let s := { stLock (st []) with eng := { (stLock (st [])).eng with copies := [{ copy0 with id := 0, dst := W (tcmBase 0), st := .running 0 }] } }
     (blockedRead s (tcmBase 0) 8).isSome = true) := by decide
theorem meets_SyncRecordsAtHome_order :
    (let o := outOf 1 3 (.sigrd syncPlace 4 0)
     let s := stIss (st []) fun k => { k with outs := [o] }
     sigrdWaits s 0 o.id (syncPlace.plus 8) = false ∧
       sigrdWaits (stIss (st []) fun k => { k with outs := [outOf 0 2 (.sigrd syncPlace 4 0), o] }) 0 o.id (syncPlace.plus 8) = true) := by decide
theorem meets_EdgeRecords_queue :
    ([0, 5].all fun h =>
      let s := { st [] with rcv := { Recovery.reset with fqbase := 0x40000, fqhead := h, fqtail := 1 } }
      decide ((s.rcv.fqbase = 0 ∨ (s.rcv.fqhead + 1) % 4096 = s.rcv.fqtail % 4096 ↔ h = 0) ∧ 64 * (s.rcv.fqbase / 64 + s.rcv.fqhead) + 64 ≤ 2 ^ 40 ∧
        Memory.wf s.mem = true ∧ poisonCode s (tcmBase 0 + 0x1FC00) 8 = none ∧ poisonCode s (tcmBase 0 + 0x1FC08) 8 = none ∧
        readNat s.mem (tcmBase 0 + 0x1FC08) 8 = 1)) = true ∧
    (poisonCode (poisonTcm (st []) 0x1FC08 1) (tcmBase 0 + 0x1FC08) 8).isSome = true := by decide
theorem meets_VectorMemoryAndStreams_order :
    storesWait ((st []).core 0) = false ∧ storesWait (((st []).onTraps 0 fun t => { t with storeStop := true }).core 0) = true ∧
    (let p : Place := .global 0x20008 0x200008 0 true false
     let u := begun stL1
     (copyAt u 0 p).map (fun l => l1Poison l p.lockKey 8) = some none ∧ copyAt (begun (st [])) 0 p = none ∧ blockedRead u p.lockKey 8 = none ∧
       readBefore (u.core 0) (u.core 0).iss.opCount p.addr 8 = false ∧ unperfOverlap (u.core 0) p.addr 8 = false) ∧
    (let p : Place := .global 0x20008 0x200008 0 true false
     let u := begun (stL1.onCache 0 fun k => { k with l1 := k.l1.map fun l => { l with poison := [(1, 3)] } })
     (copyAt u 0 p).map (fun l => l1Poison l p.lockKey 8) = some (some (0, 3))) ∧
    (poisonSpot (begun (poisonTcm (st []) 0x8000 1)) (tcmBase 0 + 0x8000) 8) = some (tcmBase 0 + 0x8000, 3) := by decide
theorem meets_AccumulatorInstructions_paged :
    decodeAddr 0 (wf 0x20000 0 56) = some (.paged 0x20000) ∧ accBefore ((st []).core 0) 0 = false ∧ memBefore ((st []).core 0) 0 = false ∧
    (let s := stE []
     (tableEnts s 1).any (fun x => x.2.covers 0x20000) = true ∧ (tableEnts s 1).all (fun x => x.2.colour == 0) = true ∧
       (s.core 0).cache.plb.all (fun x => x.ent.colour == 0) = true ∧ wf (W (5 * 2 ^ 56 + 0x20000)) 56 8 = 5) := by decide
theorem meets_RemoteOperations_causes :
    (let s := stGrp group0 [(2, 0xFD_0050_0000_0010)]
     groupOf (begun s) 5 = some group0 ∧ groupOf (begun s) 6 = none ∧ group0.owner = fr.owner ∧ ({ group0 with owner := 2 } : Group).owner ≠ fr.owner ∧
       wf (1 : Word) 0 2 = 1 ∧ (0x20000 : Nat) < 0x1FFFC + 8) := by decide
theorem meets_ActorsAndStealing_boundary :
    (let a := { actorIO with freeing := true }
     let s := (stIO .unbound frA).onSched 0 fun d => { d with actors := [(0, a)] }
     ready .none h0 frA s = true ∧ frA.kind = .actor 0 ∧ actorOf (issuer s) 0 = some a ∧ a.freeing = true ∧ endWaits (issuer s) = false ∧
       lateFault (issuer s) allTags = none ∧ (rateMismatch frA a).isSome = true) ∧
    (let a := { actor0 with freeing := true }
     let s := stA a []
     ready .none h0 frA s = true ∧ actorOf (issuer s) 0 = some a ∧ rateMismatch frA a = none ∧ (∀ j : Fin 4, vget a.ins none j.val = none)) := by decide
theorem meets_Splices_neighbours :
    (let s := stPerf (actorP true) []
     passesInto s 0 [4] = true ∧ passesInto s 0 [3] = false ∧ (chanOf s 0 3).map (fun C => (C.items, C.reserved)) = some ([], [])) := by decide
theorem meets_RightsRegionsAndWays_teardown :
    (let j : DropJob := { n := 0, owner := some 1, ents := none, core := none, out := 0, dropped := true, pinv := false, waits := [], stores := [] }
     let s := onOwners { st [] with drops := [j] } fun o => { o with tearBusy := true, tearOwner := 1 }
     (s.drops.find? (·.n == s.arg.id)) = some j ∧ j.core = none ∧ j.pinv = false ∧ j.ended s = true ∧ s.owners.tearBusy = true) := by decide
theorem meets_SavesAndPreemption_failure :
    (let v := (stS []).onEng fun e => { e with locks := [lockOn (tcmBase 0 + 0x4840) 8 true] }
     (∃ l ∈ v.eng.locks, tcmBase 0 + 0x4000 + 64 * 33 < l.base + l.len ∧ l.base < tcmBase 0 + 0x4000 + 64 * 33 + 64) ∧
       (¬ ∃ l ∈ v.eng.locks, tcmBase 0 + 0x4000 < l.base + l.len ∧ l.base < tcmBase 0 + 0x4000 + 8) ∧ 33 < noParts.length / 64) ∧
    (setTile (stS []) 0 2 { tileOf ((stS []).core 0) 2 with poison := [7] } |> fun v => decide ((tileOf (v.core 0) 2).poison ≠ [])) = true := by decide
theorem meets_StartAndHost_owners :
    (st []).live 1 = true ∧ (st []).tearing 1 = false ∧ (st []).live 9 = false ∧ ((st []).onMem fun m =>
      writeWord m (rightsBase + 8) (W (2 ^ 63 + 2 ^ 62 + 2 * 2 ^ 40 + 0x140000))).tearing 1 = true := by decide
/-- A store that the old home of a switching page holds. -/
def heldGlob : StoreEnt := { ent (.global 0x20008 0x200008 0 true true) (.bytes [1, 2]) true with held := true }
def stHeld (os : List Out) (more : List StoreEnt) : State :=
  let s := stIss ((st []).onCache 0 fun k => { k with wb := heldGlob :: more }) fun k => { k with outs := os, opCount := 3 }
  let s := onWalk s fun k => { k with shoot := some { shoot0 2 with frame := 0x500000 } }
  { s with homes := { s.homes with held := [{ core := 0, seq := 0, va := 0x20008 }], lineKey := [(0x500008 / 64, 0)] }
           arg := { EvArg.none with id := 0x20000 } }
theorem meets_WalkersAndPorts_forward :
    (let s := stHeld [outOf 0 3 (.stored 0 none)] []
     (switching s s.arg.id).map (fun x => (x.first, x.frame)) = some (0x20000, 0x500000) ∧ heldIn s 0x20000 0x10000 = [{ core := 0, seq := 0, va := 0x20008 }] ∧
       (s.core 0).cache.wb.find? (·.seq == 0) = some heldGlob ∧ heldGlob.sent = true ∧
       readBefore (s.core 0) heldGlob.id 0x500008 2 = false ∧ sigrdBefore s (s.core 0) heldGlob = false ∧ Memory.wf s.mem = true ∧
       s.homes.zp.contains (0x500008 / 64) = false ∧ mget? s.homes.lineKey (0x500008 / 64) = some (keyNum s 0) ∧
       (outOfSeq (s.core 0) 0).map (·.id) = some 0 ∧ (findOut (s.core 0) 0).map (·.op) = some (.stored 0 none)) ∧
    ((stHeld [] []).core 0).cache.wb.find? (·.seq == 7) = none := by decide
theorem meets_WalkersAndPorts_walk :
    (let s := (stWalk 0).onCache 0 fun k => { k with walkWait := some 2 }
     (s.core 0).cache.walkWait = some (walk0.page / 65536) ∧ ((stWalk 0).core 0).cache.walkWait ≠ some (walk0.page / 65536)) ∧
    (let w := { walk0 with path := [(1, 0x300001), (2, 0x302001)] }
     (w.path.map (·.1)).Nodup ∧ w.lvl ∉ w.path.map (·.1) ∧ w.path.length ≤ 3 ∧ ∀ z ∈ w.path, wb z.2 1 = false) ∧
    (touchEntries stLeaf (stLeaf.walker 0).ptbase 0x20000 4).2 = true ∧
    (let s := { stLeaf with rcv := { stLeaf.rcv with poisonLines := [(pteAddr 0x300000 3 0x20000 / 64, 5)] } }
     (touchEntries s (s.walker 0).ptbase 0x20000 4).2 = false) ∧ walk0.table % 8 = 0 := by decide
theorem meets_SchedulingAndServices_noted :
    ([true, false].all fun b =>
      let x := { lateB fr.budgetEnd with cause := 0x13 }
      let s := stExp { fr with expired := true } fun c => { c with traps := { c.traps with pending := some ptrap, ready := if b then [x] else [] } }
      decide (((flushDue s 0).core 0).traps.pending = some ptrap ∧ ((flushDue s 0).core 0).firing = some { fr with expired := true } ∧
        ((∃ y ∈ ((flushDue s 0).core 0).traps.ready, y.cause = 0x13 ∧ y.at_ = fr.budgetEnd) ↔ b = true))) = true := by decide
/-- The checks of spans by core 0 pass, or fail with this cause. -/
def spansGive (s : State) (need : Nat) (xs : List (Word × Nat)) (cause : Option Nat) : Bool :=
  match checkSpans s 0 need xs, cause with
  | .ok _, none => true
  | .error (.bad _ c), some d => c == d
  | _, _ => false
/-- The read of `n` bytes at `near 0x400` by core 0 passes its checks and waits for nothing, or fails with this cause. -/
def readGives (s : State) (n : Nat) (cause : Option Nat) : Bool :=
  match checkAt s 0 (near 0x400) n 0, cause with
  | .ok v _ _, none => (blockedRead v (tcmBase 0 + 0x400) n).isNone && (poisonCode v (tcmBase 0 + 0x400) n).isNone
  | .bad _ c, some d => c == d
  | _, _ => false
/-- Core 0 holds no entry, or one of another world. -/
def lacking (s : State) : State := s.onCache 0 fun k => { k with plb := [] }
def foreign (s : State) : State := s.onCache 0 fun k => { k with plb := k.plb.map fun p => { p with ent := { p.ent with world := 3 } } }
theorem meets_AccumulatorInstructions_rights :
    ([(64, 0), (64, 1), (16, 1), (8, 1)].all fun k =>
      spansGive (begun stTcm) k.2 (rowSpans (near 0x8000) 64 k.1) none && spansGive (begun (lacking stTcm)) k.2 (rowSpans (near 0x8000) 64 k.1) (some 0x10) &&
        spansGive (begun (foreign stTcm)) k.2 (rowSpans (near 0x8000) 64 k.1) (some 0x11) &&
        spansGive (begun stTcm) k.2 (rowSpans (near 0x1E000) 512 k.1) (some 0x10)) = true := by decide
theorem meets_MatrixGangs_rights :
    (let s := stDt .c8 256
     let A := halfSpans (near 0x8000) 0x8000 (aBytes false 0)
     spansGive (begun s) 0 A none = true ∧ spansGive (begun (lacking s)) 0 A (some 0x10) = true ∧
       spansGive (begun s) 0 (halfSpans (near 0xFFC0) 0xFFC0 (aBytes true 0)) none = true ∧
       (halfSpans (near 0xFFC0) 0xFFC0 (aBytes true 0)).length = 2 ∧ spansGive (begun s) 0 (halfSpans (near 0x1F800) 0x1F800 64) (some 0x10) = true) := by
  decide
theorem meets_RecordsInOwnMemory :
    ([64, 32].all fun n => readGives (begun (stE [])) n none && readGives (begun (st [])) n none && readGives (begun (stS [])) n none &&
      readGives (begun (lacking (st []))) n (some 0x10) && readGives (begun (foreign (st []))) n (some 0x11)) = true := by decide
end Sys2Proof.Tests
end

section
/-! SUPPORT. Little-endian bytes of a value, and reads of runs and words after a write of memory (R5, R7, R81). -/

namespace Sys2Proof.Machine

/-! ## Little-endian bytes -/

@[simp] theorem leBytes_length (n v : Nat) : (leBytes n v).length = n := by
  induction n generalizing v with
  | zero => rfl
  | succ n ih => rw [leBytes, List.length_cons, ih]

/-- The byte at offset `k` holds bits `8 * k` to `8 * k + 7`: the least significant byte stands first. -/
theorem leBytes_getD {n k : Nat} (v : Nat) (h : k < n) : (leBytes n v).getD k 0 = BitVec.ofNat 8 (fld v (8 * k) 8) := by
  induction n generalizing v k with
  | zero => omega
  | succ n ih =>
    cases k with
    | zero => simp [leBytes, fld, ← BitVec.toNat_inj]
    | succ k =>
      have hshift : v / 256 / 2 ^ (8 * k) = v / 2 ^ (8 * (k + 1)) := by
        rw [Nat.div_div_eq_div_mul, show 8 * (k + 1) = 8 + 8 * k by omega, Nat.pow_add]
      rw [leBytes, List.getD_cons_succ, ih (v / 256) (by omega), fld, fld, hshift]

/-- The value of the bytes of `v` is `v`, cut to their number. -/
theorem ofLe_leBytes (n v : Nat) : ofLe (leBytes n v) = v % 256 ^ n := by
  induction n generalizing v with
  | zero => simp [leBytes, ofLe, Nat.mod_one]
  | succ n ih =>
    rw [leBytes, ofLe, ih, BitVec.toNat_ofNat, Nat.pow_succ' (m := 256), Nat.mod_mul]

/-- The eight bytes of a word give the word back. -/
theorem W_ofLe_leBytes_toNat (w : Word) : W (ofLe (leBytes 8 w.toNat)) = w := by
  rw [ofLe_leBytes, Nat.mod_eq_of_lt (show w.toNat < 256 ^ 8 from w.isLt), W, BitVec.ofNat_toNat, BitVec.setWidth_eq]

/-! ## Reads after a write -/

theorem readBytes_getD (m : Memory) (a : Nat) {n k : Nat} (h : k < n) : (readBytes m a n).getD k 0 = readByte m (a + k) := by
  rw [readBytes_eq, readSeq_getD m a h]

/-- The byte at an offset inside a written run. -/
theorem readByte_writeBytes_add {m : Memory} (a : Nat) (bs : List Byte) {k : Nat} (hm : m.wf = true) (hk : k < bs.length) :
    readByte (writeBytes m a bs) (a + k) = bs.getD k 0 := by
  rw [readByte_writeBytes_in bs hm (by omega) (by omega), Nat.add_sub_cancel_left]

/-- A run of bytes reads back as it was written. -/
theorem readBytes_writeBytes {m : Memory} (a : Nat) (bs : List Byte) (hm : m.wf = true) :
    readBytes (writeBytes m a bs) a bs.length = bs := by
  refine List.ext_getElem (readBytes_length _ _ _) fun k h₁ h₂ => ?_
  rw [List.getElem_eq_getD 0, List.getElem_eq_getD 0, readBytes_getD _ _ h₂,
    readByte_writeBytes_add a bs hm h₂]

/-- A word reads back as it was written. -/
theorem readWord_writeWord {m : Memory} (a : Nat) (w : Word) (hm : m.wf = true) : readWord (writeWord m a w) a = w := by
  have hbytes : readBytes (writeWord m a w) a 8 = leBytes 8 w.toNat := by
    simpa [writeWord] using readBytes_writeBytes a (leBytes 8 w.toNat) hm
  rw [readWord, readNat, hbytes, W_ofLe_leBytes_toNat]

/-- A word is stored with its least significant byte at the lowest address. -/
theorem readByte_writeWord {m : Memory} (a : Nat) (w : Word) {k : Nat} (hm : m.wf = true) (hk : k < 8) :
    readByte (writeWord m a w) (a + k) = BitVec.ofNat 8 (wf w (8 * k) 8) := by
  rw [writeWord, readByte_writeBytes_add a _ hm (by simpa using hk), leBytes_getD _ hk, wf]

/-- Settles O10: a run of bytes, and a word as its eight bytes, each by the law of the single byte inside or outside it. -/
theorem memoryReadsWhatWasWritten : Obligations.MemoryReadsWhatWasWritten := by
  intro m a bs hm
  exact ⟨writeBytes_wf a bs hm, fun _ hk => readByte_writeBytes_add a bs hm hk, fun _ hx => readByte_writeBytes_out m bs hx,
    readBytes_writeBytes a bs hm, fun w => ⟨readWord_writeWord a w hm, fun _ hk => readByte_writeWord a w hm hk⟩⟩

end Sys2Proof.Machine
end
